-- ==== Sys2Proof/Word.lean ====
section
/-! DEFINITION. The word of the host register file, and its two readings as an integer (`00_scope.md` R10, R12, R13). -/

namespace Sys2Proof

/-- A host register, a stored sample, an LZ77 window entry, the ANS coder register: 32 bits
(`00_scope.md` R10, `10_state.md` R46). -/
abbrev Word := BitVec 32

/-- `u32` reading of a natural number into a word; callers pass values below `2^32`. -/
abbrev Word.ofNat (n : Nat) : Word := BitVec.ofNat 32 n

/-- The low 32 bits of a mathematical integer, in two's complement (`40_hybrid_integer.md` R160). -/
abbrev Word.ofInt (v : Int) : Word := BitVec.ofInt 32 v

end Sys2Proof
end

