-- ==== Sys2Proof/Syntax.lean ====
section
/-! DEFINITION. The commands of the block, one constructor for each row of the opcode table, and the operand words
they take (`30_encoding.md` R100, R102). A command word holds no operand: all operands are in ARG0 to ARG7. -/

namespace Sys2Proof

/-- The 22 commands of `30_encoding.md` R102, in the table's order. -/
inductive Instr where
  | nop
  | hybExpand
  | unpackSigned
  | hybConfigRead
  | esInit
  | esRead
  | esValidate
  | esClone
  | esFree
  | treeLoad
  | treeCompact
  | treeWalk
  | chlClear
  | chlAppend
  | chDecode
  | chRead
  | chWrite
  | chInfo
  | xfPushRct
  | xfPushPalette
  | xfPushSqueeze
  | xfApply
  deriving DecidableEq, Repr

/-- The operand registers ARG0 to ARG7 (`10_state.md` R37). -/
structure Args where
  arg0 : Word := 0#32
  arg1 : Word := 0#32
  arg2 : Word := 0#32
  arg3 : Word := 0#32
  arg4 : Word := 0#32
  arg5 : Word := 0#32
  arg6 : Word := 0#32
  arg7 : Word := 0#32
  deriving DecidableEq, Repr

end Sys2Proof
end

