-- ==== Sys2Proof/Decode.lean ====
section
/-! DEFINITION. Decoding of a command word (`30_encoding.md` R100 to R102), total, rejecting by name; and the encoder,
from the same table. -/

namespace Sys2Proof

/-- Why a word is no command (`30_encoding.md` R101). -/
inductive IllegalWord where
  /-- bits 31:8 are not zero. -/
  | highBits
  /-- bits 7:0 are no opcode of R102. -/
  | unassignedOp
  deriving DecidableEq, Repr

/-- The `op` field, bits 7:0 (`30_encoding.md` R100). -/
def opField (w : Word) : BitVec 8 := w.extractLsb' 0 8

/-- The `zero` field, bits 31:8 (`30_encoding.md` R100). -/
def zeroField (w : Word) : BitVec 24 := w.extractLsb' 8 24

/-- The opcode map of `30_encoding.md` R102. -/
def instrOfOp (op : BitVec 8) : Option Instr :=
  match op.toNat with
  | 0x00 => some .nop
  | 0x01 => some .hybExpand
  | 0x02 => some .unpackSigned
  | 0x03 => some .hybConfigRead
  | 0x10 => some .esInit
  | 0x11 => some .esRead
  | 0x12 => some .esValidate
  | 0x13 => some .esClone
  | 0x14 => some .esFree
  | 0x20 => some .treeLoad
  | 0x21 => some .treeCompact
  | 0x22 => some .treeWalk
  | 0x30 => some .chlClear
  | 0x31 => some .chlAppend
  | 0x32 => some .chDecode
  | 0x33 => some .chRead
  | 0x34 => some .chWrite
  | 0x35 => some .chInfo
  | 0x40 => some .xfPushRct
  | 0x41 => some .xfPushPalette
  | 0x42 => some .xfPushSqueeze
  | 0x43 => some .xfApply
  | _ => none

/-- `30_encoding.md` R100, R101: a word is a command when its high bits are zero and its `op` is in the table. -/
def decode (w : Word) : Except IllegalWord Instr :=
  if zeroField w = 0#24 then
    match instrOfOp (opField w) with
    | some i => .ok i
    | none => .error .unassignedOp
  else .error .highBits

/-- The opcode of a command (`30_encoding.md` R102). -/
def opcode (i : Instr) : BitVec 8 :=
  match i with
  | .nop => 0x00#8
  | .hybExpand => 0x01#8
  | .unpackSigned => 0x02#8
  | .hybConfigRead => 0x03#8
  | .esInit => 0x10#8
  | .esRead => 0x11#8
  | .esValidate => 0x12#8
  | .esClone => 0x13#8
  | .esFree => 0x14#8
  | .treeLoad => 0x20#8
  | .treeCompact => 0x21#8
  | .treeWalk => 0x22#8
  | .chlClear => 0x30#8
  | .chlAppend => 0x31#8
  | .chDecode => 0x32#8
  | .chRead => 0x33#8
  | .chWrite => 0x34#8
  | .chInfo => 0x35#8
  | .xfPushRct => 0x40#8
  | .xfPushPalette => 0x41#8
  | .xfPushSqueeze => 0x42#8
  | .xfApply => 0x43#8

/-- The command word: the opcode under 24 zero bits (`30_encoding.md` R100). -/
def encode (i : Instr) : Word := 0#24 ++ opcode i

/-- What the decoder reads from a row's word of `nbits` bits (the bits above them zero). -/
def decodeTableWord (nbits w : Nat) : Option Instr :=
  (decode (Word.ofNat (w % 2 ^ nbits))).toOption

end Sys2Proof
end

