-- ==== Sys2Proof/Config.lean ====
section
/-! DEFINITION. What is fixed for the block: the constants of `00_scope.md` R8 and R10, the open parameters of R11
and `93_implementation_defined.md` §2 (opaque: a proof may use no value of theirs), and the one free value. -/

namespace Sys2Proof.Config

/-- `N_ES_SLOTS` (`00_scope.md` R10). -/
abbrev numSlots : Nat := 8

/-- `N_TREES` (`00_scope.md` R10). -/
abbrev numTrees : Nat := 2

/-- `MAX_CHANNELS` (`00_scope.md` R10). -/
def maxChannels : Nat := 4096

/-- The largest width or height of a channel record (`10_state.md` R60). -/
def maxDimension : Nat := 2 ^ 31 - 1

/-- The LZ77 window's number of entries (`00_scope.md` R8). -/
def windowSize : Nat := 2 ^ 20

/-- The MA tree's node cap (`00_scope.md` R8). -/
def maxNodes : Nat := 2 ^ 20

/-- The largest number of contexts `ES_INIT` accepts (`42_entropy_stream.md` R230). -/
def maxContexts : Nat := 2 ^ 20

/-- The total frequency of an ANS distribution (`00_scope.md` R8). -/
def ansTotal : Nat := 4096

/-- The terminal ANS state (`41_symbol_distribution.md` R184). -/
def ansTerminal : Word := 0x130000#32

/-- What `ID` always reads (`10_state.md` R32). -/
def idValue : Word := 0x4A584C07#32

/-- Which neighbour predictor 4 takes on a tie (`44_channel_decoder.md` R321: `N` by default). -/
inductive SelectTie where
  | north
  | west
  deriving DecidableEq, Repr, Inhabited

/-- What fixes `ARENA_CAPACITY`: an open parameter of `00_scope.md` R11 (log 9). -/
opaque arenaChoice : Nat

/-- `ARENA_CAPACITY`: any number from 1 up, otherwise unknown (`00_scope.md` R11, log 9). The arena that the choice 0
stands for is large, so that a run of compiled Lean does not start with an arena of one sample; a proof sees no value. -/
def arenaCapacity : Nat := (if arenaChoice = 0 then 2 ^ 32 else arenaChoice - 1) + 1

/-- `UNPRIMED_FINAL_OK` (`00_scope.md` R11, log 9): unknown. -/
opaque unprimedFinalOk : Bool

/-- `SELECT_TIE` (`44_channel_decoder.md` R321, `93_implementation_defined.md` I15, log 9): unknown. -/
opaque selectTie : SelectTie

/-- The free value of `70_reset_and_hazards.md` R461: the n-th draw of the number of bits an aborted command had
consumed, before it is brought into its range (log 5). -/
opaque softResetDraw : Nat → Nat

end Sys2Proof.Config
end

