-- ==== Sys2Proof/Machine/State.lean ====
section
/-! DEFINITION. The state of the block: every element of `10_state.md` and `70_reset_and_hazards.md` R460, as plain
data, with the faults a command can latch, the reasons the model itself can stop, and the state after reset. -/

namespace Sys2Proof.Machine

/-! ## Faults the block latches -/

/-- The sub-codes of cause 1, `InvalidBitstream` (`60_exceptions.md` R421). -/
inductive BitstreamError where
  | badHybridConfig
  | hybridTooLong
  | valueOverflow
  | badDistribution
  | badPrefixCode
  | nestedLz77
  | badClusterMap
  | ansFinalState
  | lz77Overflow
  | treeTooLarge
  | badProperty
  | badPredictor
  | badMultiplier
  | badTransform
  | rctShape
  | squeezeShape
  | paletteShape
  deriving DecidableEq, Repr

/-- The sub-codes of cause 4, `ContractViolation` (`60_exceptions.md` R421). -/
inductive ContractError where
  | badArg
  | badSlot
  | undefinedSample
  | decodedTwice
  | badBitdepth
  | wpProperty
  | busy
  deriving DecidableEq, Repr

/-- A fault the block latches (`60_exceptions.md` R420); the machine goes on, so this is state, not an outcome. -/
inductive BlockFault where
  | invalidBitstream (e : BitstreamError)
  | truncatedInput
  | illegalCommand (op : BitVec 8)
  | contractViolation (e : ContractError)
  | resourceExhausted
  deriving DecidableEq, Repr

/-! ## Why the model itself stops -/

/-- Why a step of the MODEL stops. Each stands for a state that no run from reset reaches; the spec gives the
engine no such case (log 13). -/
inductive Fault where
  /-- A cluster map sends a context to a cluster that has no distribution. Raised by reading a symbol. Safe. -/
  | danglingCluster
  /-- An ANS table is shorter than its alphabet size says. Raised by the alias lookup. Safe. -/
  | shortTable
  /-- A tree node's child does not lead down to a leaf. Raised by walking or compactifying a tree. Safe. -/
  | danglingNode
  deriving DecidableEq, Repr

/-- Why the model gives an instruction no meaning. -/
inductive Refusal where
  /-- Raised by `exec` alone, for an instruction that has no meaning yet. Safe. -/
  | notModelled (mnemonic : String)
  deriving DecidableEq, Repr

/-! ## Memory -/

/-- A sparse store of words by key, the keys strictly rising: the samples of a channel (a key that is not listed is
an empty sample, `10_state.md` R63) and the LZ77 window (a key that is not listed is 0, R46). -/
abbrev Memory := List (Nat × Word)

/-! ## The Bit Source -/

/-- The Bit Source (`20_memory.md` R83): the bits not yet consumed, in order, and `BITPOS`, the count consumed. -/
structure BitSource where
  rest : List Bool
  pos : Nat
  deriving DecidableEq, Repr

/-! ## Entropy streams -/

/-- A hybrid integer configuration (`40_hybrid_integer.md` R150). -/
structure HybridConfig where
  splitExponent : Nat
  msbInToken : Nat
  lsbInToken : Nat
  deriving DecidableEq, Repr

/-- One slot of an alias table (`41_symbol_distribution.md` R170, R180). -/
structure AliasSlot where
  cutoff : Nat
  symbol : Nat
  offset : Nat
  deriving DecidableEq, Repr

/-- An ANS distribution with its hybrid configuration (`41_symbol_distribution.md` R170, R172). -/
structure AnsDist where
  config : HybridConfig
  freqs : List Nat
  table : List AliasSlot
  deriving DecidableEq, Repr

/-- A prefix code (`41_symbol_distribution.md` R171): one symbol coded with zero bits, or a length for each symbol. -/
inductive PrefixCode where
  | zeroBits (symbol : Nat)
  | canonical (lengths : List Nat)
  deriving DecidableEq, Repr

/-- A prefix distribution with its hybrid configuration (`41_symbol_distribution.md` R171, R172). -/
structure PrefixDist where
  config : HybridConfig
  alphabetSize : Nat
  code : PrefixCode
  deriving DecidableEq, Repr

/-- The distributions of a stream, all of the kind its `usePrefixCode` flag chose (`41_symbol_distribution.md` R172). -/
inductive Coding where
  | ans (logAlphabetSize : Nat) (dists : List AnsDist)
  | prefixCode (dists : List PrefixDist)
  deriving DecidableEq, Repr

/-- The LZ77 parameters of a stream that enables it (`10_state.md` R45). -/
structure Lz77Config where
  minSymbol : Nat
  minLength : Nat
  lengthConfig : HybridConfig
  deriving DecidableEq, Repr

/-- The configuration part of a slot (`10_state.md` R45); its other names are computed from these (log 25). -/
structure StreamConfig where
  clusterMap : List Nat
  lz77 : Option Lz77Config
  coding : Coding
  deriving DecidableEq, Repr

/-- The coder part of a slot (`10_state.md` R46). The defaults are the fresh coder part. -/
structure Coder where
  ansState : Word := 0#32
  hasState : Bool := false
  window : Memory := []
  numDecoded : Nat := 0
  copyRemaining : Nat := 0
  copyPos : Nat := 0
  deriving DecidableEq, Repr

/-- An entropy stream in a slot (`10_state.md` R44). -/
structure Stream where
  config : StreamConfig
  coder : Coder
  deriving DecidableEq, Repr

/-! ## MA trees -/

/-- The fourteen predictors, ids 0 to 13 in order (`44_channel_decoder.md` R320). -/
inductive Predictor where
  | zero
  | west
  | north
  | average
  | select
  | clampedGradient
  | weighted
  | northEast
  | northWest
  | westWest
  | averageWestNorthWest
  | averageNorthNorthWest
  | averageNorthNorthEast
  | weightedSum
  deriving DecidableEq, Repr

/-- What a leaf selects (`10_state.md` R48). -/
structure Leaf where
  context : Nat
  predictor : Predictor
  offset : Int
  multiplier : Nat
  deriving DecidableEq, Repr

/-- A node of a tree store (`10_state.md` R48). -/
inductive Node where
  | decision (property : Nat) (value : Int) (leftChild rightChild : Nat)
  | leaf (l : Leaf)
  deriving DecidableEq, Repr

/-! ## Channels and transforms -/

/-- A channel record (`10_state.md` R60); sample `(x, y)` is key `y * width + x` of `samples`. -/
structure Channel where
  width : Nat
  height : Nat
  hshift : Int
  vshift : Int
  originX : Int
  originY : Int
  decoded : Bool
  forceWP : Bool
  samples : Memory
  deriving DecidableEq, Repr

/-- A transform (`10_state.md` R64). -/
inductive Transform where
  | rct (beginC rctType : Nat)
  | palette (beginC numC nbColours nbDeltas : Nat) (dPred : Predictor)
  | squeeze (beginC numC : Nat) (horizontal inPlace : Bool) (rPos : Nat)
  deriving DecidableEq, Repr

/-- A record of the transform list (`10_state.md` R64). -/
structure TransformRecord where
  transform : Transform
  nbMetaBefore : Nat
  deriving DecidableEq, Repr

/-! ## Host registers and what the host does -/

/-- The host registers the host writes and the engine reads as latched at issue (`10_state.md` R39 to R43). -/
structure HostRegs where
  args : Args := {}
  distMult : Word := 0#32
  streamId : Word := 0#32
  bitDepth : BitVec 6 := 8#6
  wp0 : Word := 0x00739D50#32
  wp1 : Word := 0x00CCCD00#32
  deriving DecidableEq, Repr

/-- One action of the host, or of what stands around the block (`70_reset_and_hazards.md` R480, log 1). -/
inductive Input where
  /-- A write of a host register (`10_state.md` R31). -/
  | write (index : Nat) (value : Word)
  /-- The host polls `BUSY` until it is 0 (`30_encoding.md` R104): the running command, if there is one, ends here. -/
  | wait
  /-- The host presents a bit sequence for the next run (`70_reset_and_hazards.md` R461). -/
  | present (bits : List Bool)
  /-- The reset input, with the bit sequence of the run it starts (`70_reset_and_hazards.md` R460). -/
  | hardReset (bits : List Bool)
  deriving DecidableEq, Repr

/-! ## The state -/

/-- The whole state; INVENTORY.md lists each element with its rule. -/
structure State where
  regs : HostRegs
  latched : HostRegs
  cmd : Word
  busy : Bool
  done : Bool
  fault : Option BlockFault
  overrun : Bool
  irqEn : Bool
  result0 : Word
  result1 : Word
  result2 : Word
  source : BitSource
  presented : Option (List Bool)
  slots : Vector (Option Stream) Config.numSlots
  trees : Vector (Option (List Node)) Config.numTrees
  channels : List Channel
  nbMeta : Nat
  transforms : List TransformRecord
  inputs : List Input
  draws : Nat
  deriving DecidableEq, Repr

/-- Hardware reset (`70_reset_and_hazards.md` R460), with no bits presented (log 3). -/
def State.reset : State where
  regs := {}
  latched := {}
  cmd := 0#32
  busy := false
  done := false
  fault := none
  overrun := false
  irqEn := false
  result0 := 0#32
  result1 := 0#32
  result2 := 0#32
  source := { rest := [], pos := 0 }
  presented := none
  slots := Vector.replicate Config.numSlots none
  trees := Vector.replicate Config.numTrees none
  channels := []
  nbMeta := 0
  transforms := []
  inputs := []
  draws := 0

end Sys2Proof.Machine
end

