-- ==== Sys2Proof/Machine/Arith.lean ====
section
/-! DEFINITION. The arithmetic notation of `00_scope.md` R13 and R16, on mathematical integers. -/

namespace Sys2Proof.Machine

/-- `tdiv(a, b)`: division truncated toward zero (`00_scope.md` R13). -/
def tdiv (a b : Int) : Int := Int.tdiv a b

/-- `a >> k` on a signed integer: `floor(a / 2^k)` (`00_scope.md` R13). -/
def asr (a : Int) (k : Nat) : Int := a >>> k

/-- `a & 1`: the two's-complement parity, 0 or 1 (`00_scope.md` R13). -/
def parity (a : Int) : Int := a % 2

/-- `clamp(v, lo, hi)` (`00_scope.md` R13). -/
def clamp (v lo hi : Int) : Int := max lo (min hi v)

/-- `abs` (`00_scope.md` R13). -/
def iabs (v : Int) : Int := if v < 0 then -v else v

/-- `floorlog2(v)` for `v >= 1` (`00_scope.md` R13). -/
def floorLog2 (v : Nat) : Nat := v.log2

/-- `ceillog2(v)` for `v >= 1` (`00_scope.md` R13). -/
def ceilLog2 (v : Nat) : Nat := if v ≤ 1 then 0 else floorLog2 (v - 1) + 1

/-- The bit length of a natural number (`41_symbol_distribution.md` R192). -/
def bitLength (v : Nat) : Nat := if v = 0 then 0 else floorLog2 v + 1

/-- `a ^ b` on the infinite two's-complement representation (`00_scope.md` R13). -/
def intXor : Int → Int → Int
  | .ofNat m, .ofNat n => .ofNat (m ^^^ n)
  | .ofNat m, .negSucc n => .negSucc (m ^^^ n)
  | .negSucc m, .ofNat n => .negSucc (m ^^^ n)
  | .negSucc m, .negSucc n => .ofNat (m ^^^ n)

/-- The natural number that has the bits of `n` that are not bits of `m`. -/
def natAndNot (n m : Nat) : Nat := n ^^^ (n &&& m)

/-- `a | b` on the infinite two's-complement representation (`00_scope.md` R13). -/
def intOr : Int → Int → Int
  | .ofNat m, .ofNat n => .ofNat (m ||| n)
  | .ofNat m, .negSucc n => .negSucc (natAndNot n m)
  | .negSucc m, .ofNat n => .negSucc (natAndNot m n)
  | .negSucc m, .negSucc n => .negSucc (m &&& n)

/-- `i32` (`00_scope.md` R13). -/
def inI32 (v : Int) : Bool := -2 ^ 31 ≤ v && v ≤ 2 ^ 31 - 1

/-- `UnpackSigned(u)` (`00_scope.md` R16). -/
def unpackSignedNat (u : Nat) : Int :=
  if u % 2 = 0 then ((u / 2 : Nat) : Int) else -(((u + 1) / 2 : Nat) : Int)

/-- The unsigned value of a field's bits, the first bit the least significant
(`20_memory.md` R83). -/
def bitsToNat : List Bool → Nat
  | [] => 0
  | b :: bs => b.toNat + 2 * bitsToNat bs

/-- The list `f 0, f 1, ..., f (n - 1)`. -/
def tabulate {α : Type} (n : Nat) (f : Nat → α) : List α := (List.range n).map f

end Sys2Proof.Machine
end

