-- ==== Sys2Proof/Machine/Flags.lean ====
section
/-! DEFINITION. The words the host reads that are made of flags and fields: STATUS, CTRL, FAULT_INFO, the IRQ output,
and the flag words commands return. -/

namespace Sys2Proof.Machine

/-- The cause code of a fault (`60_exceptions.md` R420). -/
def BlockFault.cause : BlockFault → BitVec 8
  | .invalidBitstream _ => 1#8
  | .truncatedInput => 2#8
  | .illegalCommand _ => 3#8
  | .contractViolation _ => 4#8
  | .resourceExhausted => 5#8

/-- The sub-codes of cause 1 (`60_exceptions.md` R421). -/
def BitstreamError.code : BitstreamError → BitVec 16
  | .badHybridConfig => 0x0101#16
  | .hybridTooLong => 0x0102#16
  | .valueOverflow => 0x0103#16
  | .badDistribution => 0x0104#16
  | .badPrefixCode => 0x0105#16
  | .nestedLz77 => 0x0106#16
  | .badClusterMap => 0x0107#16
  | .ansFinalState => 0x0108#16
  | .lz77Overflow => 0x0109#16
  | .treeTooLarge => 0x010A#16
  | .badProperty => 0x010B#16
  | .badPredictor => 0x010C#16
  | .badMultiplier => 0x010D#16
  | .badTransform => 0x010E#16
  | .rctShape => 0x010F#16
  | .squeezeShape => 0x0110#16
  | .paletteShape => 0x0111#16

/-- The sub-codes of cause 4 (`60_exceptions.md` R421). -/
def ContractError.code : ContractError → BitVec 16
  | .badArg => 0x0401#16
  | .badSlot => 0x0402#16
  | .undefinedSample => 0x0403#16
  | .decodedTwice => 0x0404#16
  | .badBitdepth => 0x0405#16
  | .wpProperty => 0x0406#16
  | .busy => 0x0407#16

/-- The value of `FAULT_INFO[15:0]` for a fault (`60_exceptions.md` R421). -/
def BlockFault.info : BlockFault → BitVec 16
  | .invalidBitstream e => e.code
  | .truncatedInput => 0x0200#16
  | .illegalCommand op => 0#8 ++ op
  | .contractViolation e => e.code
  | .resourceExhausted => 0x0500#16

/-- One bit as a bit vector. -/
def bit (b : Bool) : BitVec 1 := if b then 1#1 else 0#1

/-- `STATUS.CAUSE`, 0 when no fault is latched (`10_state.md` R34). -/
def State.causeField (s : State) : BitVec 8 :=
  match s.fault with
  | some f => f.cause
  | none => 0#8

/-- The `STATUS` word (`10_state.md` R34): `{0, CAUSE, 0, FAULT, DONE, BUSY}`. -/
def State.statusWord (s : State) : Word :=
  0#16 ++ s.causeField ++ 0#5 ++ bit s.fault.isSome ++ bit s.done ++ bit s.busy

/-- The `FAULT_INFO` word (`10_state.md` R31, `60_exceptions.md` R421). -/
def State.faultInfoWord (s : State) : Word :=
  0#16 ++ (match s.fault with
    | some f => f.info
    | none => 0#16)

/-- The `CTRL` word (`10_state.md` R35): only `IRQ_EN` reads back. -/
def State.ctrlWord (s : State) : Word := 0#31 ++ bit s.irqEn

/-- The level of the `IRQ` output (`60_exceptions.md` R430). -/
def State.irq (s : State) : Bool := s.irqEn && (s.done || s.fault.isSome)

/-- The 64-bit count behind `BITPOS_LO` and `BITPOS_HI` (`10_state.md` R31, log 11). -/
def State.bitpos (s : State) : BitVec 64 := BitVec.ofNat 64 s.source.pos

/-- `RESULT2` of `CH_INFO` (`46_control.md` R403). -/
def channelFlags (ch : Channel) (isMeta : Bool) : Word :=
  0#8 ++ BitVec.ofInt 8 ch.vshift ++ BitVec.ofInt 8 ch.hshift ++ 0#5
    ++ bit isMeta ++ bit ch.forceWP ++ bit ch.decoded

/-- `RESULT1` of `TREE_COMPACT` (`43_ma_tree.md` R280). -/
def usesWpFlags (leafUsesWP decisionUsesWP : Bool) : Word :=
  0#30 ++ bit decisionUsesWP ++ bit leafUsesWP

end Sys2Proof.Machine
end

