-- ==== Sys2Proof/Machine/Memory.lean ====
section
/-! DEFINITION. The sparse stores of the state: the samples of a channel record (`10_state.md` R63) and the LZ77
window of a coder part (R46), each in one canonical form (log 26). -/

namespace Sys2Proof.Machine

/-- What a sample that nothing has written reads as: nothing, it is empty (`10_state.md` R63). -/
def Memory.unlisted : Option Word := none

/-- The value stored under key `k`. -/
def Memory.read : Memory → Nat → Option Word
  | [], _ => Memory.unlisted
  | (k', v) :: m, k => if k = k' then some v else Memory.read m k

/-- Store `v` under key `k`. -/
def Memory.write : Memory → Nat → Word → Memory
  | [], k, v => [(k, v)]
  | (k', v') :: m, k, v =>
    if k < k' then (k, v) :: (k', v') :: m
    else if k = k' then (k, v) :: m
    else (k', v') :: Memory.write m k v

/-- Remove key `k`. -/
def Memory.erase : Memory → Nat → Memory
  | [], _ => []
  | (k', v') :: m, k => if k = k' then m else (k', v') :: Memory.erase m k

/-- The canonical form: keys strictly rising, so that equal stores are equal lists. -/
abbrev Memory.wf (m : Memory) : Prop := m.Pairwise (fun a b => a.1 < b.1)

/-- The window entry at position `i` of the circular buffer, 0 where nothing was written (`10_state.md` R46). -/
def windowRead (m : Memory) (i : Nat) : Word := (Memory.read m (i % Config.windowSize)).getD 0#32

/-- Write a window entry; a 0 is stored as no entry, which is what an unlisted position reads as. -/
def windowWrite (m : Memory) (i : Nat) (v : Word) : Memory :=
  if v = 0#32 then Memory.erase m (i % Config.windowSize) else Memory.write m (i % Config.windowSize) v

/-- The canonical form of a window: that of a store, with no listed 0 and no position outside the buffer. -/
abbrev windowWf (m : Memory) : Prop := Memory.wf m ∧ ∀ e ∈ m, e.2 ≠ 0#32 ∧ e.1 < Config.windowSize

/-- The canonical form of a record's samples: that of a store, with no key outside the record (`20_memory.md` R81). -/
abbrev Channel.samplesWf (ch : Channel) : Prop :=
  Memory.wf ch.samples ∧ ∀ e ∈ ch.samples, e.1 < ch.width * ch.height

/-- Sample `(x, y)` of a record, if it is inside and not empty (`20_memory.md` R81, `10_state.md` R63). -/
def Channel.sample (ch : Channel) (x y : Nat) : Option Word :=
  if x < ch.width ∧ y < ch.height then Memory.read ch.samples (y * ch.width + x) else none

/-- Sample `(x, y)` of the record at channel index `c`. -/
def State.sample (s : State) (c x y : Nat) : Option Word :=
  match s.channels[c]? with
  | some ch => ch.sample x y
  | none => none

end Sys2Proof.Machine
end

