-- ==== Sys2Proof/Machine/Operands.lean ====
section
/-! DEFINITION. The operand forms of the commands: unsigned and signed words, packed operands, register fields. -/

namespace Sys2Proof.Machine

/-- An operand read as `i32` (`30_encoding.md` R100). -/
def sext32 (w : Word) : Int := w.toInt

/-- A slot number that exists (`10_state.md` R44). -/
def isSlot (a : Word) : Bool := a.toNat < Config.numSlots

/-- A tree store number that exists (`10_state.md` R47). -/
def isTree (a : Word) : Bool := a.toNat < Config.numTrees

/-- A packed operand whose bits from `n` up are zero, as `30_encoding.md` R103 requires. -/
def zeroFrom (a : Word) (n : Nat) : Bool := a >>> n == 0#32

/-- The packed operand `config` (`30_encoding.md` R103). -/
def unpackConfig (w : Word) : HybridConfig where
  splitExponent := (w.extractLsb' 0 4).toNat
  msbInToken := (w.extractLsb' 4 4).toNat
  lsbInToken := (w.extractLsb' 8 4).toNat

/-- What `HYB_EXPAND` requires of its packed `config` (`40_hybrid_integer.md` R155). -/
def configFits (w : Word) : Bool :=
  zeroFrom w 12 &&
    (unpackConfig w).msbInToken + (unpackConfig w).lsbInToken ≤ (unpackConfig w).splitExponent

/-- The values of `logAlphabetSize` that `HYB_CONFIG_READ` accepts (`40_hybrid_integer.md` R162). -/
def isLogAlphabetSize (w : Word) : Bool := w.toNat ∈ [5, 6, 7, 8, 15]

/-- A configuration packed as `RESULT0` of `HYB_CONFIG_READ` (`40_hybrid_integer.md` R162). -/
def packConfig (c : HybridConfig) : Word :=
  0#20 ++ BitVec.ofNat 4 c.lsbInToken ++ BitVec.ofNat 4 c.msbInToken ++ BitVec.ofNat 4 c.splitExponent

/-- A flag bit of a packed operand (`30_encoding.md` R103). -/
def flagBit (w : Word) (n : Nat) : Bool := w.getLsbD n

/-- The parameter id of a predictor (`44_channel_decoder.md` R320). -/
def Predictor.id : Predictor → Nat
  | .zero => 0
  | .west => 1
  | .north => 2
  | .average => 3
  | .select => 4
  | .clampedGradient => 5
  | .weighted => 6
  | .northEast => 7
  | .northWest => 8
  | .westWest => 9
  | .averageWestNorthWest => 10
  | .averageNorthNorthWest => 11
  | .averageNorthNorthEast => 12
  | .weightedSum => 13

/-- The predictor of an id, for ids 0 to 13 (`44_channel_decoder.md` R320). -/
def predictorOfId? : Nat → Option Predictor
  | 0 => some .zero
  | 1 => some .west
  | 2 => some .north
  | 3 => some .average
  | 4 => some .select
  | 5 => some .clampedGradient
  | 6 => some .weighted
  | 7 => some .northEast
  | 8 => some .northWest
  | 9 => some .westWest
  | 10 => some .averageWestNorthWest
  | 11 => some .averageNorthNorthWest
  | 12 => some .averageNorthNorthEast
  | 13 => some .weightedSum
  | _ => none

/-- The bits of `WP0` that store (`10_state.md` R43): bits 31:30 read 0. -/
def wp0Mask : Word := 0x3FFFFFFF#32

/-- The bits of `WP1` that store (`10_state.md` R43): bits 7:5 and 31:24 read 0. -/
def wp1Mask : Word := 0x00FFFF1F#32

/-- The weighted-predictor parameters held in `WP0` and `WP1` (`10_state.md` R43). -/
structure WpParams where
  p1C : Nat
  p2C : Nat
  p3Ca : Nat
  p3Cb : Nat
  p3Cc : Nat
  p3Cd : Nat
  p3Ce : Nat
  maxWeights : List Nat
  deriving DecidableEq, Repr

/-- The fields of `WP0` and `WP1` (`10_state.md` R43). -/
def wpParams (r : HostRegs) : WpParams where
  p1C := (r.wp0.extractLsb' 0 5).toNat
  p2C := (r.wp0.extractLsb' 5 5).toNat
  p3Ca := (r.wp0.extractLsb' 10 5).toNat
  p3Cb := (r.wp0.extractLsb' 15 5).toNat
  p3Cc := (r.wp0.extractLsb' 20 5).toNat
  p3Cd := (r.wp0.extractLsb' 25 5).toNat
  p3Ce := (r.wp1.extractLsb' 0 5).toNat
  maxWeights :=
    [(r.wp1.extractLsb' 8 4).toNat, (r.wp1.extractLsb' 12 4).toNat, (r.wp1.extractLsb' 16 4).toNat,
      (r.wp1.extractLsb' 20 4).toNat]

end Sys2Proof.Machine
end

