-- ==== Sys2Proof/Machine/Ops.lean ====
section
/-! DEFINITION. The operations every meaning is written over: the engine's monad, the Bit Source, the updates of the
state, the latching of a fault (the block's only exception entry) and the completion of a command. The return from
a latched fault is a reset (`60_exceptions.md` R427): `State.restart` here, called by HostPort.lean. -/

namespace Sys2Proof.Machine

/-! ## The engine's monad -/

/-- How a computation of the engine ends early: with a fault of the block (`60_exceptions.md` R422), or in a state
that no run reaches (log 13). -/
inductive Stop where
  | raise (f : BlockFault)
  | broken (f : Fault)
  deriving DecidableEq, Repr

/-- A computation that changes a `σ`; when it stops early, what it changed stays changed (`60_exceptions.md` R422). -/
abbrev Eng (σ α : Type) := EStateM Stop σ α

/-- End the computation with `f`. -/
def raise {σ α : Type} (f : BlockFault) : Eng σ α := fun s => .error (.raise f) s

/-- `raise InvalidBitstream(e)` (`00_scope.md` R14). -/
def raiseBitstream {σ α : Type} (e : BitstreamError) : Eng σ α := raise (.invalidBitstream e)

/-- `raise ContractViolation(e)` (`00_scope.md` R14). -/
def raiseContract {σ α : Type} (e : ContractError) : Eng σ α := raise (.contractViolation e)

/-- Go on when `c` holds, else raise `f`. -/
def require {σ : Type} (c : Prop) [Decidable c] (f : BlockFault) : Eng σ Unit :=
  fun s => if c then .ok () s else .error (.raise f) s

/-- Go on when `c` holds, else raise `InvalidBitstream(e)`. -/
def checkBitstream {σ : Type} (c : Prop) [Decidable c] (e : BitstreamError) : Eng σ Unit :=
  require c (.invalidBitstream e)

/-- Go on when `c` holds, else raise `ContractViolation(e)`. -/
def checkContract {σ : Type} (c : Prop) [Decidable c] (e : ContractError) : Eng σ Unit :=
  require c (.contractViolation e)

/-- The value of an option; an absent one raises `f`. -/
def orRaise {σ α : Type} (o : Option α) (f : BlockFault) : Eng σ α :=
  match o with
  | some a => fun s => .ok a s
  | none => raise f

/-- The value of an option that every reachable state has; an absent one stops the model (log 13). -/
def orBroken {σ α : Type} (o : Option α) (f : Fault) : Eng σ α :=
  match o with
  | some a => fun s => .ok a s
  | none => fun s => .error (.broken f) s

/-- A computation that changes nothing, run inside one that may. -/
def ofExcept {σ α : Type} (e : Except Stop α) : Eng σ α :=
  match e with
  | .ok a => fun s => .ok a s
  | .error x => fun s => .error x s

/-- Run a computation on a part of the state, and put the part back however it ends. -/
def onPart {σ τ α : Type} (get : σ → τ) (put : τ → σ → σ) (m : Eng τ α) : Eng σ α :=
  fun s =>
    match m (get s) with
    | .ok a t => .ok a (put t s)
    | .error e t => .error e (put t s)

/-- Run a computation `n` times and list what it answers. -/
def times {σ α : Type} : Nat → Eng σ α → Eng σ (List α)
  | 0, _ => pure []
  | n + 1, m => do
    let a ← m
    let as ← times n m
    pure (a :: as)

/-- Run a computation on each element of a list, in order, and list what it answers. -/
def forAll {σ α β : Type} (f : α → Eng σ β) : List α → Eng σ (List β)
  | [] => pure []
  | a :: as => do
    let b ← f a
    let bs ← forAll f as
    pure (b :: bs)

/-! ## The Bit Source (`00_scope.md` R14, R15; `20_memory.md` R83) -/

/-- A computation over the Bit Source. -/
abbrev Parse (α : Type) := Eng BitSource α

/-- `ReadBits(n)`: the next `n` bits, or `TruncatedInput` with none of them consumed. -/
def readBits (n : Nat) : Parse Nat := fun b =>
  if n ≤ b.rest.length then .ok (bitsToNat (b.rest.take n)) { rest := b.rest.drop n, pos := b.pos + n }
  else .error (.raise .truncatedInput) b

/-- `PeekBits(n)`: what `ReadBits(n)` would return, zero bits standing for bits past the end. -/
def peekBits (n : Nat) : Parse Nat := fun b => .ok (bitsToNat (b.rest.take n)) b

/-- `SkipBits(n)`. -/
def skipBits (n : Nat) : Parse Unit := fun b =>
  if n ≤ b.rest.length then .ok () { rest := b.rest.drop n, pos := b.pos + n }
  else .error (.raise .truncatedInput) b

/-- `ReadBool()`. -/
def readBool : Parse Bool := do
  let v ← readBits 1
  pure (v == 1)

/-! ## Updates of the state -/

/-- Move the Bit Source. -/
def State.setSource (s : State) (b : BitSource) : State := { s with source := b }

/-- Fill or empty slot `i`. -/
def State.setSlot (s : State) (i : Nat) (v : Option Stream) : State :=
  { s with slots := s.slots.setIfInBounds i v }

/-- Fill tree store `i`. -/
def State.setTree (s : State) (i : Nat) (v : List Node) : State :=
  { s with trees := s.trees.setIfInBounds i (some v) }

/-- Replace the channel list. -/
def State.setChannels (s : State) (l : List Channel) : State := { s with channels := l }

/-- Replace the record at channel index `c`. -/
def State.setChannel (s : State) (c : Nat) (ch : Channel) : State :=
  { s with channels := s.channels.set c ch }

/-- Set `nbMeta`. -/
def State.setNbMeta (s : State) (n : Nat) : State := { s with nbMeta := n }

/-- Replace the transform list. -/
def State.setTransforms (s : State) (l : List TransformRecord) : State := { s with transforms := l }

/-- The entropy stream in slot `a`, if `a` is a slot and it is not empty. -/
def State.stream? (s : State) (a : Word) : Option Stream := (s.slots[a.toNat]?).join

/-- The nodes of tree store `a`, if `a` is a store and it is not empty. -/
def State.tree? (s : State) (a : Word) : Option (List Node) := (s.trees[a.toNat]?).join

/-- `width * height` of a record. -/
def Channel.area (ch : Channel) : Nat := ch.width * ch.height

/-- The total of `width * height` over a channel list (`10_state.md` R62). -/
def totalArea (l : List Channel) : Nat := (l.map Channel.area).sum

/-- A channel list that the block can hold (`00_scope.md` R10, `10_state.md` R60, R62). -/
def fitsArena (l : List Channel) : Bool :=
  l.length ≤ Config.maxChannels && totalArea l ≤ Config.arenaCapacity &&
    l.all (fun ch => ch.width ≤ Config.maxDimension && ch.height ≤ Config.maxDimension)

/-- Two records of the same shape (`44_channel_decoder.md` R302). -/
def Channel.sameShape (a b : Channel) : Bool :=
  a.width == b.width && a.height == b.height && a.hshift == b.hshift && a.vshift == b.vshift

/-- An empty sample raises `UNDEFINED_SAMPLE` (`10_state.md` R63); else the sample as an integer. -/
def sampleAt (w : Nat) (m : Memory) (x y : Nat) : Except Stop Int :=
  match Memory.read m (y * w + x) with
  | some v => .ok v.toInt
  | none => .error (.raise (.contractViolation .undefinedSample))

/-! ## Commands: issue, completion, fault -/

/-- The result registers a command writes; `none` keeps the old value (`10_state.md` R37). -/
structure Results where
  r0 : Option Word := none
  r1 : Option Word := none
  r2 : Option Word := none
  deriving DecidableEq, Repr

/-- A computation over the whole state. -/
abbrev Cmd := Eng State Results

/-- What the block holds of the command that runs: the operands as latched (`10_state.md` R39). -/
def latchedArgs : Eng State Args := fun s => .ok s.latched.args s

/-- The whole state, to read. -/
def theState : Eng State State := fun s => .ok s s

/-- Apply an update. -/
def update (f : State → State) : Eng State Unit := fun s => .ok () (f s)

/-- Run a parse on the state's Bit Source. -/
def onSource {α : Type} (m : Parse α) : Eng State α := onPart State.source (fun b s => s.setSource b) m

/-- Taking a fault, the block's exception entry (`60_exceptions.md` R422, R426, R427): the first fault since reset is
latched, `BUSY` falls, `DONE` and the result registers keep their values. -/
def State.latchFault (s : State) (f : BlockFault) : State :=
  { s with fault := s.fault.or (some f), busy := false, overrun := false }

/-- The result registers after a completion (`10_state.md` R38). -/
def State.writeResults (s : State) (r : Results) : State :=
  { s with
    result0 := r.r0.getD s.result0
    result1 := r.r1.getD s.result1
    result2 := r.r2.getD s.result2 }

/-- Completion of a command (`10_state.md` R34): results written, `BUSY` falls, `DONE` rises; if the host wrote `CMD`
meanwhile, the results are written and `ContractViolation(BUSY)` is latched with `DONE` 0 (`60_exceptions.md` R425). -/
def State.complete (s : State) (r : Results) : State :=
  if s.overrun then (s.writeResults r).latchFault (.contractViolation .busy)
  else { s.writeResults r with busy := false, done := true }

/-- Issue of a command word (`10_state.md` R33, R34, R39): operands latched, `BUSY` rises, `DONE` falls. -/
def State.issue (s : State) (w : Word) : State :=
  { s with cmd := w, latched := s.regs, busy := true, done := false, overrun := false }

/-- Run a command's computation to its end and close the command. -/
def runCommand (body : Cmd) (s : State) : Host.Outcome State Fault Refusal :=
  match body s with
  | .ok r t => .next (t.complete r)
  | .error (.raise f) t => .next (t.latchFault f)
  | .error (.broken f) _ => .fault f

/-- Return from a latched fault, and every other reset (`70_reset_and_hazards.md` R460, R461): all state takes its
reset value, a new run starts on `bits`; what the host does next is not part of the block (log 24). -/
def State.restart (s : State) (bits : List Bool) : State :=
  { State.reset with source := { rest := bits, pos := 0 }, inputs := s.inputs, draws := s.draws }

end Sys2Proof.Machine
end

