-- ==== Sys2Proof/Machine/Control.lean ====
section
/-! DEFINITION. Control and sample access: NOP, CH_READ, CH_WRITE, CH_INFO (`46_control.md`). -/

namespace Sys2Proof.Machine

/-- `NOP` (`46_control.md` R400): nothing but its completion. -/
def execNop (s : State) : Host.Outcome State Fault Refusal := runCommand (pure {}) s

/-- The record at a channel operand; an index past the list raises `BAD_ARG` (`46_control.md` R401 to R403). -/
def channelOperand (a : Word) : Eng State Channel := do
  let s ← theState
  orRaise s.channels[a.toNat]? (.contractViolation .badArg)

/-- `CH_READ` (`46_control.md` R401). -/
def chReadBody : Cmd := do
  let a ← latchedArgs
  let ch ← channelOperand a.arg0
  checkContract (a.arg1.toNat < ch.width ∧ a.arg2.toNat < ch.height) .badArg
  let v ← orRaise (ch.sample a.arg1.toNat a.arg2.toNat) (.contractViolation .undefinedSample)
  pure { r0 := some v }

/-- `CH_READ` (`46_control.md` R401). -/
def execChRead (s : State) : Host.Outcome State Fault Refusal := runCommand chReadBody s

/-- `CH_WRITE` (`46_control.md` R402). -/
def chWriteBody : Cmd := do
  let a ← latchedArgs
  let ch ← channelOperand a.arg0
  checkContract (a.arg1.toNat < ch.width ∧ a.arg2.toNat < ch.height) .badArg
  update (fun s => s.setChannel a.arg0.toNat
    { ch with samples := Memory.write ch.samples (a.arg2.toNat * ch.width + a.arg1.toNat) a.arg3 })
  pure {}

/-- `CH_WRITE` (`46_control.md` R402). -/
def execChWrite (s : State) : Host.Outcome State Fault Refusal := runCommand chWriteBody s

/-- `CH_INFO` (`46_control.md` R403). -/
def chInfoBody : Cmd := do
  let a ← latchedArgs
  let ch ← channelOperand a.arg0
  let s ← theState
  pure {
    r0 := some (Word.ofNat ch.width)
    r1 := some (Word.ofNat ch.height)
    r2 := some (channelFlags ch (a.arg0.toNat < s.nbMeta)) }

/-- `CH_INFO` (`46_control.md` R403). -/
def execChInfo (s : State) : Host.Outcome State Fault Refusal := runCommand chInfoBody s

end Sys2Proof.Machine
end

