-- ==== Sys2Proof/Machine/Predict.lean ====
section
/-! DEFINITION. The pixel predictor unit: neighbours, properties, the fourteen predictors and the weighted predictor
(`44_channel_decoder.md` R310 to R335). -/

namespace Sys2Proof.Machine

/-! ## Neighbours (R310)

`w` is the channel's width, `m` its samples; each reads only the samples it is made of. -/

/-- The samples of a channel as the neighbour rules read them. -/
structure Plane where
  w : Nat
  m : Memory

/-- `s(x, y)`. -/
def Plane.at (p : Plane) (x y : Nat) : Except Stop Int := sampleAt p.w p.m x y

/-- `W`. -/
def Plane.W (p : Plane) (x y : Nat) : Except Stop Int :=
  if 0 < x then p.at (x - 1) y else if 0 < y then p.at x (y - 1) else .ok 0

/-- `N`. -/
def Plane.N (p : Plane) (x y : Nat) : Except Stop Int :=
  if 0 < y then p.at x (y - 1) else p.W x y

/-- `NW`. -/
def Plane.NW (p : Plane) (x y : Nat) : Except Stop Int :=
  if 0 < x ∧ 0 < y then p.at (x - 1) (y - 1) else p.W x y

/-- `NE`. -/
def Plane.NE (p : Plane) (x y : Nat) : Except Stop Int :=
  if x + 1 < p.w ∧ 0 < y then p.at (x + 1) (y - 1) else p.N x y

/-- `WW`. -/
def Plane.WW (p : Plane) (x y : Nat) : Except Stop Int :=
  if 1 < x then p.at (x - 2) y else p.W x y

/-- `NN`. -/
def Plane.NN (p : Plane) (x y : Nat) : Except Stop Int :=
  if 1 < y then p.at x (y - 2) else p.N x y

/-- `NEE`. -/
def Plane.NEE (p : Plane) (x y : Nat) : Except Stop Int :=
  if x + 2 < p.w ∧ 0 < y then p.at (x + 2) (y - 1) else p.NE x y

/-! ## Predictors (R320 to R322) -/

/-- `Select(a, b, c)` with the tie rule (R321, log 9). -/
def selectPredict (tie : Config.SelectTie) (a b c : Int) : Int :=
  let p := a + b - c
  if iabs (p - a) < iabs (p - b) then a
  else if iabs (p - a) = iabs (p - b) ∧ tie = .west then a
  else b

/-- `ClampedGradient(w, n, nw)` (R322). -/
def clampedGradient (w n nw : Int) : Int := clamp (w + n - nw) (min w n) (max w n)

/-- `Predict(id)` at `(x, y)` (R320); `wpPred` is the weighted predictor's output there (R332). -/
def predict (q : Predictor) (p : Plane) (x y : Nat) (wpPred : Int) : Except Stop Int :=
  match q with
  | .zero => .ok 0
  | .west => p.W x y
  | .north => p.N x y
  | .average => do
    let w ← p.W x y
    let n ← p.N x y
    pure (tdiv (w + n) 2)
  | .select => do
    let w ← p.W x y
    let n ← p.N x y
    let nw ← p.NW x y
    pure (selectPredict Config.selectTie w n nw)
  | .clampedGradient => do
    let w ← p.W x y
    let n ← p.N x y
    let nw ← p.NW x y
    pure (clampedGradient w n nw)
  | .weighted => .ok wpPred
  | .northEast => p.NE x y
  | .northWest => p.NW x y
  | .westWest => p.WW x y
  | .averageWestNorthWest => do
    let w ← p.W x y
    let nw ← p.NW x y
    pure (tdiv (w + nw) 2)
  | .averageNorthNorthWest => do
    let n ← p.N x y
    let nw ← p.NW x y
    pure (tdiv (n + nw) 2)
  | .averageNorthNorthEast => do
    let n ← p.N x y
    let ne ← p.NE x y
    pure (tdiv (n + ne) 2)
  | .weightedSum => do
    let n ← p.N x y
    let nn ← p.NN x y
    let w ← p.W x y
    let ww ← p.WW x y
    let nee ← p.NEE x y
    let ne ← p.NE x y
    pure (tdiv (6 * n - 2 * nn + 7 * w + ww + nee + 3 * ne + 8) 16)

/-! ## The weighted predictor (R330 to R334) -/

/-- A row of errors: the values written, newest first, 0 where nothing was written (R330). -/
abbrev ErrorRow := List (Nat × Int)

/-- The error at position `i`. -/
def errorAt (r : ErrorRow) (i : Nat) : Int := (r.lookup i).getD 0

/-- Write the error at position `i`. -/
def setError (r : ErrorRow) (i : Nat) (v : Int) : ErrorRow := (i, v) :: r

/-- The weighted predictor's rows of a channel (R330): four of sub-predictor errors, one of true errors. -/
structure WpState where
  pe : List ErrorRow := [[], [], [], []]
  err : ErrorRow := []

/-- What the weighted predictor computes at a pixel (R332). -/
structure WpPrediction where
  sp : List Int
  full : Int
  pred : Int
  maxErr : Int
  deriving DecidableEq, Repr

/-- `divlookup[i]` (R330). -/
def divLookup (i : Nat) : Nat := 2 ^ 24 / (i + 1)

/-- `ErrorWeight(e, maxw)` (R331). -/
def errorWeight (e maxw : Nat) : Nat :=
  let sh := floorLog2 (e + 1) - 5
  4 + ((maxw * divLookup (e >>> sh)) >>> sh)

/-- `WeightedAverage(sp, wt)` (R331). -/
def weightedAverage (sp : List Int) (wt : List Nat) : Int :=
  let L := floorLog2 wt.sum
  let wt := wt.map (· >>> (L - 4))
  let ws := wt.sum
  let acc : Int := ((ws >>> 1 : Nat) : Int) - 1 + (List.zipWith (fun s t => s * ((t : Nat) : Int)) sp wt).sum
  asr (acc * divLookup (ws - 1)) 24

/-- The offset of the current row in the error rows (R330). -/
def wpCur (w y : Nat) : Nat := if y % 2 = 1 then 0 else w + 2

/-- The offset of the previous row in the error rows (R330). -/
def wpPrev (w y : Nat) : Nat := if y % 2 = 1 then w + 2 else 0

/-- The larger error in absolute value, the first on a tie (R333). -/
def largerError (a b : Int) : Int := if iabs a < iabs b then b else a

/-- The weights of the four sub-predictions at `x` of row `y` (R332). -/
def wpWeights (q : WpParams) (st : WpState) (w x y : Nat) : List Nat :=
  let posN := wpPrev w y + x
  let posNE := if x + 1 < w then posN + 1 else posN
  let posNW := if 0 < x then posN - 1 else posN
  List.zipWith (fun r maxw => errorWeight (errorAt r posN + errorAt r posNE + errorAt r posNW).toNat maxw)
    st.pe q.maxWeights

/-- The prediction at `(x, y)` from the neighbours' values (R332). -/
def wpCompute (q : WpParams) (st : WpState) (w x y : Nat) (N W NE NW NN : Int) : WpPrediction :=
  let posN := wpPrev w y + x
  let posNE := if x + 1 < w then posN + 1 else posN
  let posNW := if 0 < x then posN - 1 else posN
  let N8 := 8 * N
  let W8 := 8 * W
  let NE8 := 8 * NE
  let NW8 := 8 * NW
  let NN8 := 8 * NN
  let teW := if 0 < x then errorAt st.err (wpCur w y + x - 1) else 0
  let teN := errorAt st.err posN
  let teNW := errorAt st.err posNW
  let teNE := errorAt st.err posNE
  let sumWN := teN + teW
  let maxErr := largerError (largerError (largerError teW teN) teNW) teNE
  let sp := [
    W8 + NE8 - N8,
    N8 - asr ((sumWN + teNE) * q.p1C) 5,
    W8 - asr ((sumWN + teNW) * q.p2C) 5,
    N8 - asr (teNW * q.p3Ca + teN * q.p3Cb + teNE * q.p3Cc + (NN8 - N8) * q.p3Cd + (NW8 - W8) * q.p3Ce) 5]
  let raw := weightedAverage sp (wpWeights q st w x y)
  let full :=
    if 0 < intOr (intXor teN teW) (intXor teN teNW) then raw
    else clamp raw (min (min W8 NE8) N8) (max (max W8 NE8) N8)
  { sp := sp, full := full, pred := asr (full + 3) 3, maxErr := maxErr }

/-- The prediction at `(x, y)` (R332). -/
def wpPredict (q : WpParams) (st : WpState) (p : Plane) (x y : Nat) : Except Stop WpPrediction := do
  let n ← p.N x y
  let w ← p.W x y
  let ne ← p.NE x y
  let nw ← p.NW x y
  let nn ← p.NN x y
  pure (wpCompute q st p.w x y n w ne nw nn)

/-- The error of a sub-prediction (R334). -/
def subError (sp v8 : Int) : Int := asr (iabs (sp - v8) + 3) 3

/-- The update after sample `v` of `(x, y)` (R334). -/
def wpUpdate (st : WpState) (o : WpPrediction) (w x y : Nat) (v : Int) : WpState :=
  let v8 := 8 * v
  let next := wpPrev w y + x + 1
  { err := setError st.err (wpCur w y + x) (o.full - v8)
    pe := List.zipWith (fun r sp =>
      let r' := setError r (wpCur w y + x) (subError sp v8)
      setError r' next (errorAt r' next + subError sp v8)) st.pe o.sp }

/-! ## Properties (R315 to R317) -/

/-- `refs(c)` (R316): the earlier channels of the same shape as `ch`, nearest first. -/
def refChannels (channels : List Channel) (c : Nat) (ch : Channel) : List Channel :=
  ((channels.take c).filter fun r => r.sameShape ch).reverse

/-- The cross-channel property `16 + 4q + r` from the reference channel's samples (R316, log 18). -/
def crossProperty (t : Plane) (r x y : Nat) : Except Stop Int := do
  let v ← t.at x y
  let gW ← (if 0 < x then t.at (x - 1) y else .ok 0)
  let gN ← (if 0 < y then t.at x (y - 1) else .ok gW)
  let gNW ← (if 0 < x ∧ 0 < y then t.at (x - 1) (y - 1) else .ok gW)
  let g := clampedGradient gW gN gNW
  pure (if r = 0 then iabs v else if r = 1 then v else if r = 2 then iabs (v - g) else v - g)

/-- What the properties of a pixel are computed from. -/
structure PropertyContext where
  channel : Nat
  streamId : Nat
  plane : Plane
  refs : List Channel

/-- Property 9 (R315). -/
def gradientProperty (p : Plane) (x y : Nat) : Except Stop Int := do
  let w ← p.W x y
  let n ← p.N x y
  let nw ← p.NW x y
  pure (w + n - nw)

/-- `Property(k, c, x, y)` (R315, R316); `maxErr` is what property 15 answers (R317). -/
def property (ctx : PropertyContext) (maxErr : Except Stop Int) (x y k : Nat) : Except Stop Int :=
  let p := ctx.plane
  match k with
  | 0 => .ok ctx.channel
  | 1 => .ok ctx.streamId
  | 2 => .ok y
  | 3 => .ok x
  | 4 => do
    let n ← p.N x y
    pure (iabs n)
  | 5 => do
    let w ← p.W x y
    pure (iabs w)
  | 6 => p.N x y
  | 7 => p.W x y
  | 8 => do
    let w ← p.W x y
    if 0 < x then
      let g ← gradientProperty p (x - 1) y
      pure (w - g)
    else pure w
  | 9 => gradientProperty p x y
  | 10 => do
    let w ← p.W x y
    let nw ← p.NW x y
    pure (w - nw)
  | 11 => do
    let nw ← p.NW x y
    let n ← p.N x y
    pure (nw - n)
  | 12 => do
    let n ← p.N x y
    let ne ← p.NE x y
    pure (n - ne)
  | 13 => do
    let n ← p.N x y
    let nn ← p.NN x y
    pure (n - nn)
  | 14 => do
    let w ← p.W x y
    let ww ← p.WW x y
    pure (w - ww)
  | 15 => maxErr
  | k =>
    match ctx.refs[(k - 16) / 4]? with
    | some r => crossProperty { w := r.width, m := r.samples } ((k - 16) % 4) x y
    | none => .error (.raise (.invalidBitstream .badProperty))

end Sys2Proof.Machine
end

