-- ==== Sys2Proof/Machine/Hybrid.lean ====
section
/-! DEFINITION. The hybrid integer expander and its three commands (`40_hybrid_integer.md`), with the field readers of
`30_encoding.md` R110 and R111. -/

namespace Sys2Proof.Machine

/-- `ReadU32` over its table of `(base, extra)` pairs (`30_encoding.md` R110). -/
def readU32 (d0 d1 d2 d3 : Nat × Nat) : Parse Nat := do
  let sel ← readBits 2
  let d := if sel = 0 then d0 else if sel = 1 then d1 else if sel = 2 then d2 else d3
  let extra ← readBits d.2
  pure (d.1 + extra)

/-- `ReadU8` (`30_encoding.md` R111). -/
def readU8 : Parse Nat := do
  let more ← readBool
  if more then
    let n ← readBits 3
    if n = 0 then pure 1
    else
      let v ← readBits n
      pure ((1 <<< n) + v)
  else pure 0

/-- `ReadHybridConfig(L)` (`40_hybrid_integer.md` R151). -/
def readHybridConfig (L : Nat) : Parse HybridConfig := do
  let e ← readBits (ceilLog2 (L + 1))
  checkBitstream (e ≤ L) .badHybridConfig
  if e = L then pure { splitExponent := e, msbInToken := 0, lsbInToken := 0 }
  else
    let m ← readBits (ceilLog2 (e + 1))
    checkBitstream (m ≤ e) .badHybridConfig
    let l ← readBits (ceilLog2 (e - m + 1))
    checkBitstream (m + l ≤ e) .badHybridConfig
    pure { splitExponent := e, msbInToken := m, lsbInToken := l }

/-- The number `n` of raw bits a token takes in the second branch of `HybridExpand` (`40_hybrid_integer.md` R152). -/
def hybridRawBits (token : Nat) (c : HybridConfig) : Nat :=
  c.splitExponent - c.msbInToken - c.lsbInToken
    + ((token - (1 <<< c.splitExponent)) >>> (c.msbInToken + c.lsbInToken))

/-- The splice of the second branch of `HybridExpand` (`40_hybrid_integer.md` R152). -/
def hybridSplice (token : Nat) (c : HybridConfig) (raw : Nat) : Nat :=
  let n := hybridRawBits token c
  let low := token % (1 <<< c.lsbInToken)
  let t := (token >>> c.lsbInToken) % (1 <<< c.msbInToken) ||| (1 <<< c.msbInToken)
  (((t <<< n) ||| raw) <<< c.lsbInToken) ||| low

/-- `HybridExpand(token, cfg)` (`40_hybrid_integer.md` R152). -/
def hybridExpand (token : Nat) (c : HybridConfig) : Parse Nat :=
  if token < 1 <<< c.splitExponent then pure token
  else do
    checkBitstream (hybridRawBits token c ≤ 32) .hybridTooLong
    let raw ← readBits (hybridRawBits token c)
    checkBitstream (hybridSplice token c raw < 2 ^ 32) .valueOverflow
    pure (hybridSplice token c raw)

/-- `HYB_EXPAND` (`40_hybrid_integer.md` R155). -/
def hybExpandBody : Cmd := do
  let a ← latchedArgs
  checkContract (configFits a.arg1 = true) .badArg
  let v ← onSource (hybridExpand a.arg0.toNat (unpackConfig a.arg1))
  pure { r0 := some (Word.ofNat v) }

/-- `HYB_EXPAND` (`40_hybrid_integer.md` R155). -/
def execHybExpand (s : State) : Host.Outcome State Fault Refusal := runCommand hybExpandBody s

/-- `UNPACK_SIGNED` (`40_hybrid_integer.md` R160). -/
def unpackSignedBody : Cmd := do
  let a ← latchedArgs
  pure { r0 := some (Word.ofInt (unpackSignedNat a.arg0.toNat)) }

/-- `UNPACK_SIGNED` (`40_hybrid_integer.md` R160). -/
def execUnpackSigned (s : State) : Host.Outcome State Fault Refusal := runCommand unpackSignedBody s

/-- `HYB_CONFIG_READ` (`40_hybrid_integer.md` R162). -/
def hybConfigReadBody : Cmd := do
  let a ← latchedArgs
  checkContract (isLogAlphabetSize a.arg0 = true) .badArg
  let c ← onSource (readHybridConfig a.arg0.toNat)
  pure { r0 := some (packConfig c) }

/-- `HYB_CONFIG_READ` (`40_hybrid_integer.md` R162). -/
def execHybConfigRead (s : State) : Host.Outcome State Fault Refusal := runCommand hybConfigReadBody s

end Sys2Proof.Machine
end

