-- ==== Sys2Proof/Machine/Tables.lean ====
section
/-! DEFINITION. The constant tables of the spec, as its pages print them (log 10). -/

namespace Sys2Proof.Machine

/-- The log-count code (`30_encoding.md` R112): value, length, code (bit 0 the first bit read). -/
def logCountTable : List (Nat × Nat × Nat) := [
  (0, 5, 0b10001), (1, 4, 0b1011), (2, 4, 0b1111), (3, 4, 0b0011),
  (4, 4, 0b1001), (5, 4, 0b0111), (6, 3, 0b100), (7, 3, 0b010),
  (8, 3, 0b101), (9, 3, 0b110), (10, 3, 0b000), (11, 6, 0b100001),
  (12, 7, 0b0000001), (13, 7, 0b1000001)]

/-- The lengths of the code-length-code VLC by peeked value (`30_encoding.md` R113). -/
def clCodeLengths : List Nat := [2, 2, 2, 3, 2, 2, 2, 4, 2, 2, 2, 3, 2, 2, 2, 4]

/-- The values of the code-length-code VLC by peeked value (`30_encoding.md` R113). -/
def clCodeValues : List Nat := [0, 4, 3, 2, 0, 4, 3, 1, 0, 4, 3, 2, 0, 4, 3, 5]

/-- `kCodeLengthCodeOrder` (`30_encoding.md` R114). -/
def clCodeOrder : List Nat := [1, 2, 3, 4, 0, 5, 17, 6, 16, 7, 8, 9, 10, 11, 12, 13, 14, 15]

/-- Rows 0 to 29 of `SPECIAL`. -/
def specialRows1 : List (Int × Int) := [
  (0, 1), (1, 0), (1, 1), (-1, 1), (0, 2), (2, 0),
  (1, 2), (-1, 2), (2, 1), (-2, 1), (2, 2), (-2, 2),
  (0, 3), (3, 0), (1, 3), (-1, 3), (3, 1), (-3, 1),
  (2, 3), (-2, 3), (3, 2), (-3, 2), (0, 4), (4, 0),
  (1, 4), (-1, 4), (4, 1), (-4, 1), (3, 3), (-3, 3)]

/-- Rows 30 to 59 of `SPECIAL`. -/
def specialRows2 : List (Int × Int) := [
  (2, 4), (-2, 4), (4, 2), (-4, 2), (0, 5), (3, 4),
  (-3, 4), (4, 3), (-4, 3), (5, 0), (1, 5), (-1, 5),
  (5, 1), (-5, 1), (2, 5), (-2, 5), (5, 2), (-5, 2),
  (4, 4), (-4, 4), (3, 5), (-3, 5), (5, 3), (-5, 3),
  (0, 6), (6, 0), (1, 6), (-1, 6), (6, 1), (-6, 1)]

/-- Rows 60 to 89 of `SPECIAL`. -/
def specialRows3 : List (Int × Int) := [
  (2, 6), (-2, 6), (6, 2), (-6, 2), (4, 5), (-4, 5),
  (5, 4), (-5, 4), (3, 6), (-3, 6), (6, 3), (-6, 3),
  (0, 7), (7, 0), (1, 7), (-1, 7), (5, 5), (-5, 5),
  (7, 1), (-7, 1), (4, 6), (-4, 6), (6, 4), (-6, 4),
  (2, 7), (-2, 7), (7, 2), (-7, 2), (3, 7), (-3, 7)]

/-- Rows 90 to 119 of `SPECIAL`. -/
def specialRows4 : List (Int × Int) := [
  (7, 3), (-7, 3), (5, 6), (-5, 6), (6, 5), (-6, 5),
  (8, 0), (4, 7), (-4, 7), (7, 4), (-7, 4), (8, 1),
  (8, 2), (6, 6), (-6, 6), (8, 3), (5, 7), (-5, 7),
  (7, 5), (-7, 5), (8, 4), (6, 7), (-6, 7), (7, 6),
  (-7, 6), (8, 5), (7, 7), (-7, 7), (8, 6), (8, 7)]

/-- `SPECIAL[0..119]`, pairs `(dx, dy)` (`42_entropy_stream.md` R249). -/
def special : List (Int × Int) := specialRows1 ++ specialRows2 ++ specialRows3 ++ specialRows4

/-- Rows 0 to 23 of `DELTA`. -/
def deltaRows1 : List (Int × Int × Int) := [
  (0, 0, 0), (4, 4, 4), (11, 0, 0), (0, 0, -13), (0, -12, 0), (-10, -10, -10),
  (-18, -18, -18), (-27, -27, -27), (-18, -18, 0), (0, 0, -32), (-32, 0, 0), (-37, -37, -37),
  (0, -32, -32), (24, 24, 45), (50, 50, 50), (-45, -24, -24), (-24, -45, -45), (0, -24, -24),
  (-34, -34, 0), (-24, 0, -24), (-45, -45, -24), (64, 64, 64), (-32, 0, -32), (0, -32, 0)]

/-- Rows 24 to 47 of `DELTA`. -/
def deltaRows2 : List (Int × Int × Int) := [
  (-32, 0, 32), (-24, -45, -24), (45, 24, 45), (24, -24, -45), (-45, -24, 24), (80, 80, 80),
  (64, 0, 0), (0, 0, -64), (0, -64, -64), (-24, -24, 45), (96, 96, 96), (64, 64, 0),
  (45, -24, -24), (34, -34, 0), (112, 112, 112), (24, -45, -45), (45, 45, -24), (0, -32, 32),
  (24, -24, 45), (0, 96, 96), (45, -24, 24), (24, -45, -24), (-24, -45, 24), (0, -64, 0)]

/-- Rows 48 to 71 of `DELTA`. -/
def deltaRows3 : List (Int × Int × Int) := [
  (96, 0, 0), (128, 128, 128), (64, 0, 64), (144, 144, 144), (96, 96, 0), (-36, -36, 36),
  (45, -24, -45), (45, -45, -24), (0, 0, -96), (0, 128, 128), (0, 96, 0), (45, 24, -45),
  (-128, 0, 0), (24, -45, 24), (-45, 24, -45), (64, 0, -64), (64, -64, -64), (96, 0, 96),
  (45, -45, 24), (24, 45, -45), (64, 64, -64), (128, 128, 0), (0, 0, -128), (-24, 45, -45)]

/-- `DELTA[0..71]` (`45_transforms.md` R383). -/
def delta : List (Int × Int × Int) := deltaRows1 ++ deltaRows2 ++ deltaRows3

end Sys2Proof.Machine
end

