-- ==== Sys2Proof/Machine/Distribution.lean ====
section
/-! DEFINITION. Symbol distributions: their parsing, the alias table, canonical prefix codes and the decoding of one
symbol (`41_symbol_distribution.md`). -/

namespace Sys2Proof.Machine

/-! ## Parsing an ANS distribution (R173 to R177) -/

/-- `ReadLogCount()` (`30_encoding.md` R112); the code is complete, so a peek always selects an entry. -/
def readLogCount : Parse Nat := do
  let p ← peekBits 7
  let e := (logCountTable.find? (fun e => p % 2 ^ e.2.1 == e.2.2)).getD (13, 7, 0b1000001)
  skipBits e.2.1
  pure e.1

/-- `ReadSimpleAns(L)` (R174). -/
def readSimpleAns (L : Nat) : Parse (List Nat) := do
  let two ← readBool
  let s0 ← readU8
  let s1 ← (if two then readU8 else pure 0)
  checkBitstream (s0 < 2 ^ L ∧ (two = true → s1 < 2 ^ L)) .badDistribution
  if two then
    checkBitstream (s0 ≠ s1) .badDistribution
    let f ← readBits 12
    pure (((List.replicate (2 ^ L) 0).set s0 f).set s1 (Config.ansTotal - f))
  else pure ((List.replicate (2 ^ L) 0).set s0 Config.ansTotal)

/-- `ReadFlatAns(L)` (R175). -/
def readFlatAns (L : Nat) : Parse (List Nat) := do
  let v ← readU8
  let a := v + 1
  checkBitstream (a ≤ 2 ^ L) .badDistribution
  pure (tabulate (2 ^ L) fun i =>
    if i < a then Config.ansTotal / a + (if i < Config.ansTotal % a then 1 else 0) else 0)

/-- The first loop of `ReadGeneralAns` (R176): log counts and run lengths by position, and the position of the first
largest log count with that log count. -/
structure LogScan where
  logc : List Nat
  same : List Nat
  omitted : Option (Nat × Nat)

/-- `if logc[i] > omitLog` of R176, with `omitLog = -1` before the first log count. -/
def beatsOmitted (c : Nat) : Option (Nat × Nat) → Bool
  | none => true
  | some (best, _) => best < c

/-- The first loop of `ReadGeneralAns` (R176) from position `i`; each round moves on, so `a` rounds are enough. -/
def scanLogCounts : (rounds a i : Nat) → LogScan → Parse LogScan
  | 0, _, _, st => pure st
  | rounds + 1, a, i, st =>
    if a ≤ i then pure st
    else do
      let c ← readLogCount
      if c = 13 then
        let r ← readU8
        scanLogCounts rounds a (i + r + 4)
          { st with logc := st.logc.set i c, same := st.same.set i (r + 5) }
      else
        scanLogCounts rounds a (i + 1)
          { st with
            logc := st.logc.set i c
            omitted := if beatsOmitted c st.omitted then some (c, i) else st.omitted }

/-- The second loop of `ReadGeneralAns` (R176): the frequencies so far, last first, and the run under way. -/
structure FreqFill where
  rev : List Nat
  prev : Nat
  numSame : Nat

/-- The number of extra bits of a log count `c` (R176). -/
def logCountBits (shift c : Nat) : Nat := min (c - 1) (shift - ((12 - (c - 1)) >>> 1))

/-- The frequency of a position outside a run (R176). -/
def readFreq (shift c : Nat) (isOmitted : Bool) : Parse Nat :=
  if isOmitted || c == 0 then pure 0
  else if shift == 0 || c == 1 then pure (1 <<< (c - 1))
  else do
    let b := logCountBits shift c
    let v ← readBits b
    pure ((1 <<< (c - 1)) + (v <<< (c - 1 - b)))

/-- The second loop of `ReadGeneralAns` (R176): `rounds` positions from position `i`. -/
def fillFreqs (shift : Nat) (scan : LogScan) (omitPos : Nat) : (rounds i : Nat) → FreqFill → Parse (List Nat)
  | 0, _, st => pure st.rev.reverse
  | rounds + 1, i, st => do
    let run := scan.same.getD i 0
    let st := if run ≠ 0 then { st with numSame := run - 1, prev := st.rev.headD 0 } else st
    if 0 < st.numSame then
      fillFreqs shift scan omitPos rounds (i + 1)
        { st with rev := st.prev :: st.rev, numSame := st.numSame - 1 }
    else
      let f ← readFreq shift (scan.logc.getD i 0) (i == omitPos)
      fillFreqs shift scan omitPos rounds (i + 1) { st with rev := f :: st.rev }

/-- The unary count of R176: at most `n` one bits. -/
def readUnary : Nat → Parse Nat
  | 0 => pure 0
  | n + 1 => do
    let more ← readBool
    if more then
      let k ← readUnary n
      pure (k + 1)
    else pure 0

/-- `ReadGeneralAns(L)` (R176). -/
def readGeneralAns (L : Nat) : Parse (List Nat) := do
  let n ← readUnary 3
  let v ← readBits n
  let shift := (1 <<< n) + v - 1
  checkBitstream (shift ≤ 13) .badDistribution
  let u ← readU8
  let a := u + 3
  checkBitstream (a ≤ 2 ^ L) .badDistribution
  let scan ← scanLogCounts a a 0
    { logc := List.replicate a 0, same := List.replicate a 0, omitted := none }
  let om ← orRaise scan.omitted (.invalidBitstream .badDistribution)
  checkBitstream (¬ (om.2 + 1 < a ∧ scan.logc.getD (om.2 + 1) 0 = 13)) .badDistribution
  let fs ← fillFreqs shift scan om.2 a 0 { rev := [], prev := 0, numSame := 0 }
  checkBitstream (fs.sum < Config.ansTotal) .badDistribution
  pure (fs.set om.2 (Config.ansTotal - fs.sum) ++ List.replicate (2 ^ L - a) 0)

/-- `ReadAnsDistribution(L)` (R173): the frequencies of the `2^L` symbols. -/
def readAnsFreqs (L : Nat) : Parse (List Nat) := do
  let simple ← readBool
  if simple then readSimpleAns L
  else
    let flat ← readBool
    if flat then readFlatAns L else readGeneralAns L

/-! ## The alias table (R180 to R182) -/

/-- The arrays and the two stacks of `BuildAlias` (R180); the head of a stack is its last element. -/
structure AliasWork where
  cutoffs : List Nat
  symbols : List Nat
  offsets : List Nat
  overfull : List Nat
  underfull : List Nat

/-- The `while` loop of `BuildAlias` (R180); each round settles one entry, so `2^L` rounds are enough. -/
def aliasFill (bucket : Nat) : (rounds : Nat) → AliasWork → AliasWork
  | 0, w => w
  | rounds + 1, w =>
    match w.overfull, w.underfull with
    | o :: os, u :: us =>
      let c := w.cutoffs.getD o 0 - (bucket - w.cutoffs.getD u 0)
      aliasFill bucket rounds {
        cutoffs := w.cutoffs.set o c
        symbols := w.symbols.set u o
        offsets := w.offsets.set u c
        overfull := if bucket < c then o :: os else os
        underfull := if c < bucket then o :: us else us }
    | _, _ => w

/-- The last loop of `BuildAlias` (R180), entry `i`. -/
def aliasSlotOf (bucket : Nat) (w : AliasWork) (i : Nat) : AliasSlot :=
  let c := w.cutoffs.getD i 0
  if c = bucket then { cutoff := 0, symbol := i, offset := 0 }
  else { cutoff := c, symbol := w.symbols.getD i 0, offset := w.offsets.getD i 0 - c }

/-- What `BuildAlias` (R180) starts its loop with. -/
def aliasStart (D : List Nat) (L : Nat) : AliasWork where
  cutoffs := D
  symbols := List.replicate (2 ^ L) 0
  offsets := List.replicate (2 ^ L) 0
  overfull := ((List.range (2 ^ L)).filter fun i => 2 ^ (12 - L) < D.getD i 0).reverse
  underfull := ((List.range (2 ^ L)).filter fun i => D.getD i 0 < 2 ^ (12 - L)).reverse

/-- `BuildAlias(D, L)` (R180), with `SingleSymbolAlias` (R181). -/
def buildAlias (D : List Nat) (L : Nat) : List AliasSlot :=
  match D.findIdx? (· == Config.ansTotal) with
  | some s => tabulate (2 ^ L) fun i => { cutoff := 0, symbol := s, offset := i * 2 ^ (12 - L) }
  | none => tabulate (2 ^ L) (aliasSlotOf (2 ^ (12 - L)) (aliasFill (2 ^ (12 - L)) (2 ^ L) (aliasStart D L)))

/-- `AliasLookup(x)` (R182): the symbol and its offset, if the table has the entry. -/
def aliasLookup (L : Nat) (table : List AliasSlot) (x : Nat) : Option (Nat × Nat) :=
  let i := x >>> (12 - L)
  let pos := x % 2 ^ (12 - L)
  (table[i]?).map fun e => if e.cutoff ≤ pos then (e.symbol, e.offset + pos) else (i, pos)

/-! ## Parsing a prefix distribution (R190 to R195) -/

/-- `ReadPrefixAlphabetSize()` (R190). -/
def readPrefixAlphabetSize : Parse Nat := do
  let more ← readBool
  if more then
    let n ← readBits 4
    let v ← readBits n
    let A := 1 + (1 <<< n) + v
    checkBitstream (A ≤ 32768) .badPrefixCode
    pure A
  else pure 1

/-- One symbol of a simple prefix code (R192). -/
def readSimpleSymbol (A : Nat) : Parse Nat := do
  let v ← readBits (bitLength (A - 1))
  checkBitstream (v < A) .badPrefixCode
  pure v

/-- The lengths that give symbols `syms` the lengths `lens` and every other symbol length 0. -/
def lengthsOf (A : Nat) (syms lens : List Nat) : List Nat :=
  (syms.zip lens).foldl (fun acc e => acc.set e.1 e.2) (List.replicate A 0)

/-- `ReadSimplePrefix(A)` (R192). -/
def readSimplePrefix (A : Nat) : Parse PrefixCode := do
  let k ← readBits 2
  let nsym := k + 1
  let syms ← times nsym (readSimpleSymbol A)
  checkBitstream syms.Nodup .badPrefixCode
  if nsym = 1 then pure (.zeroBits (syms.headD 0))
  else if nsym = 2 then pure (.canonical (lengthsOf A syms [1, 1]))
  else if nsym = 3 then pure (.canonical (lengthsOf A syms [1, 2, 2]))
  else
    let deep ← readBool
    pure (.canonical (lengthsOf A syms (if deep then [1, 2, 3, 3] else [2, 2, 2, 2])))

/-- `ReadCLCode()` (`30_encoding.md` R113). -/
def readClCode : Parse Nat := do
  let p ← peekBits 4
  skipBits (clCodeLengths.getD p 0)
  pure (clCodeValues.getD p 0)

/-- The level-1 table under way: lengths of the 18 code-length symbols, remaining space, codes so far (R193). -/
structure ClScan where
  lengths : List Nat
  space : Int
  numCodes : Nat

/-- The loop of `ReadCodeLengthCode` over the code-length symbols still to come, in transmission order (R193). -/
def scanClCodes : List Nat → ClScan → Parse ClScan
  | [], st => pure st
  | sym :: more, st => do
    let v ← readClCode
    if v = 0 then scanClCodes more { st with lengths := st.lengths.set sym 0 }
    else
      let st := {
        lengths := st.lengths.set sym v
        space := st.space - ((32 >>> v : Nat) : Int)
        numCodes := st.numCodes + 1 : ClScan }
      if st.space ≤ 0 then pure st else scanClCodes more st

/-- `ReadCodeLengthCode(hskip)` (R193), as a code over the symbols 0 to 17. -/
def readCodeLengthCode (hskip : Nat) : Parse PrefixCode := do
  let st ← scanClCodes (clCodeOrder.drop hskip)
    { lengths := List.replicate 18 0, space := 32, numCodes := 0 }
  checkBitstream (st.numCodes = 1 ∨ st.space = 0) .badPrefixCode
  if st.numCodes = 1 then pure (.zeroBits (st.lengths.findIdx (· != 0)))
  else pure (.canonical st.lengths)

/-- `(symbol, length)` of the coded symbols, by length and then by symbol (R196). -/
def sortedSymbols (lens : List Nat) : List (Nat × Nat) :=
  (tabulate 15 (· + 1)).flatMap fun l =>
    ((List.range lens.length).filter fun s => lens.getD s 0 == l).map fun s => (s, l)

/-- The canonical codes after a code `c` of length `l` (R196): `(symbol, length, code)`. -/
def assignCodes (c l : Nat) : List (Nat × Nat) → List (Nat × Nat × Nat)
  | [] => []
  | (s, l') :: more =>
    let c' := (c + 1) <<< (l' - l)
    (s, l', c') :: assignCodes c' l' more

/-- The canonical code of a length vector (R196): `(symbol, length, code)`, the first with code 0. -/
def canonicalCodes (lens : List Nat) : List (Nat × Nat × Nat) :=
  match sortedSymbols lens with
  | [] => []
  | (s, l) :: more => (s, l, 0) :: assignCodes 0 l more

/-- The symbol whose code is the number `c` of `l` bits. -/
def symbolOfCode (codes : List (Nat × Nat × Nat)) (c l : Nat) : Option Nat :=
  (codes.find? fun e => e.2.1 == l && e.2.2 == c).map Prod.fst

/-- The bit-by-bit reading of `PrefixDecode` (R197) with `c` of `l` bits read; running out of bits is a read of one bit
past the end (log 12). -/
def prefixScan (codes : List (Nat × Nat × Nat)) (c l : Nat) : List Bool → Nat → EStateM.Result Stop BitSource Nat
  | [], pos => .error (.raise .truncatedInput) { rest := [], pos := pos }
  | b :: bs, pos =>
    match symbolOfCode codes (2 * c + b.toNat) (l + 1) with
    | some s => .ok s { rest := bs, pos := pos + 1 }
    | none => prefixScan codes (2 * c + b.toNat) (l + 1) bs (pos + 1)

/-- `PrefixDecode(code)` (R197). -/
def prefixDecode (code : PrefixCode) : Parse Nat :=
  match code with
  | .zeroBits s => pure s
  | .canonical lens => fun b => prefixScan (canonicalCodes lens) 0 0 b.rest b.pos

/-- The level-2 lengths under way (R194); `rev` is `len[0..s-1]`, last first. -/
structure LengthScan where
  rev : List Nat
  count : Nat
  prevLen : Nat
  repeats : Nat
  repeatLen : Nat
  space : Int

/-- One literal length of R194. -/
def LengthScan.literal (st : LengthScan) (p : Nat) : LengthScan where
  rev := p :: st.rev
  count := st.count + 1
  prevLen := if p ≠ 0 then p else st.prevLen
  repeats := 0
  repeatLen := st.repeatLen
  space := if p ≠ 0 then st.space - ((32768 >>> p : Nat) : Int) else st.space

/-- The repeat count of R194 from the previous one and the extra bits read. -/
def repeatCount (old extra v : Nat) : Nat := (if 0 < old then (old - 2) <<< extra else old) + v + 3

/-- One run of `delta` lengths `len` of R194, `repeats` long in all. -/
def LengthScan.run (st : LengthScan) (len repeats delta : Nat) : LengthScan where
  rev := List.replicate delta len ++ st.rev
  count := st.count + delta
  prevLen := st.prevLen
  repeats := repeats
  repeatLen := len
  space := if len ≠ 0 then st.space - (delta * (32768 >>> len) : Nat) else st.space

/-- The loop of `ReadCodeLengths` (R194); each round adds a length, so `A` rounds are enough. -/
def scanLengths (A : Nat) (clcode : PrefixCode) : (rounds : Nat) → LengthScan → Parse LengthScan
  | 0, st => pure st
  | rounds + 1, st =>
    if st.count < A ∧ 0 < st.space then do
      let p ← prefixDecode clcode
      if p < 16 then scanLengths A clcode rounds (st.literal p)
      else
        let extra := if p = 16 then 2 else 3
        let newLen := if p = 16 then st.prevLen else 0
        let old := if st.repeatLen ≠ newLen then 0 else st.repeats
        let v ← readBits extra
        let total := repeatCount old extra v
        checkBitstream (st.count + (total - old) ≤ A) .badPrefixCode
        scanLengths A clcode rounds (st.run newLen total (total - old))
    else pure st

/-- `ReadCodeLengths(A, clcode)` (R194). -/
def readCodeLengths (A : Nat) (clcode : PrefixCode) : Parse (List Nat) := do
  let st ← scanLengths A clcode A
    { rev := [], count := 0, prevLen := 8, repeats := 0, repeatLen := 0, space := 32768 }
  checkBitstream (st.space = 0) .badPrefixCode
  pure (st.rev.reverse ++ List.replicate (A - st.count) 0)

/-- `ReadPrefixCode(A)` (R191). -/
def readPrefixCode (A : Nat) : Parse PrefixCode :=
  if A = 1 then pure (.zeroBits 0)
  else do
    let hskip ← readBits 2
    if hskip = 1 then readSimplePrefix A
    else
      let clcode ← readCodeLengthCode hskip
      let lens ← readCodeLengths A clcode
      pure (.canonical lens)

end Sys2Proof.Machine
end

