-- ==== Sys2Proof/Machine/Stream.lean ====
section
/-! DEFINITION. Entropy streams: the header, the cluster map, the reading of a symbol with LZ77, the final-state check,
and the five slot commands (`42_entropy_stream.md`). -/

namespace Sys2Proof.Machine

/-! ## Views of the configuration part (`10_state.md` R45, log 25) -/

/-- `numContexts`, the LZ77 distance context included. -/
def StreamConfig.numContexts (c : StreamConfig) : Nat := c.clusterMap.length

/-- `lz77Enabled`. -/
def StreamConfig.lz77Enabled (c : StreamConfig) : Bool := c.lz77.isSome

/-- `usePrefixCode`. -/
def Coding.usePrefixCode : Coding → Bool
  | .ans _ _ => false
  | .prefixCode _ => true

/-- `logAlphabetSize` (`00_scope.md` R9). -/
def Coding.logAlphabetSize : Coding → Nat
  | .ans L _ => L
  | .prefixCode _ => 15

/-- `numClusters`. -/
def Coding.numClusters : Coding → Nat
  | .ans _ ds => ds.length
  | .prefixCode ds => ds.length

/-- The hybrid configuration of a cluster's distribution (`41_symbol_distribution.md` R172). -/
def Coding.hybridConfig? : Coding → Nat → Option HybridConfig
  | .ans _ ds, k => (ds[k]?).map AnsDist.config
  | .prefixCode ds, k => (ds[k]?).map PrefixDist.config

/-- The contexts a caller may read: all but the distance context (`42_entropy_stream.md` R240). -/
def StreamConfig.readableContexts (c : StreamConfig) : Nat :=
  c.numContexts - (if c.lz77Enabled then 1 else 0)

/-! ## Reading a symbol (R240 to R249) -/

/-- What reading a symbol changes: the coder part of the stream and the Bit Source. -/
structure Reading where
  coder : Coder
  source : BitSource
  deriving DecidableEq, Repr

/-- A computation over a stream's coder part and the Bit Source. -/
abbrev Reader (α : Type) := Eng Reading α

/-- The coder part, to read. -/
def theCoder : Reader Coder := fun r => .ok r.coder r

/-- Change the coder part. -/
def updateCoder (f : Coder → Coder) : Reader Unit := fun r => .ok () { r with coder := f r.coder }

/-- Run a parse on the Bit Source. -/
def parse {α : Type} (m : Parse α) : Reader α := onPart Reading.source (fun b r => { r with source := b }) m

/-- The priming of `AnsDecode` (`41_symbol_distribution.md` R183). -/
def ansPrime : Reader Unit := do
  let c ← theCoder
  if c.hasState then pure ()
  else
    let v ← parse (readBits 32)
    updateCoder fun c => { c with ansState := Word.ofNat v, hasState := true }

/-- The refill of `AnsDecode` (`41_symbol_distribution.md` R183). -/
def ansRefill : Reader Unit := do
  let c ← theCoder
  if c.ansState.toNat < 2 ^ 16 then
    let v ← parse (readBits 16)
    updateCoder fun c => { c with ansState := Word.ofNat ((c.ansState.toNat <<< 16) ||| v) }
  else pure ()

/-- `AnsDecode` with a distribution of a stream of alphabet size `2^L` (`41_symbol_distribution.md` R183). -/
def ansDecode (L : Nat) (d : AnsDist) : Reader Nat := do
  ansPrime
  let c ← theCoder
  let x := c.ansState.toNat
  let so ← orBroken (aliasLookup L d.table (x % Config.ansTotal)) .shortTable
  let f ← orBroken d.freqs[so.1]? .shortTable
  updateCoder fun c => { c with ansState := Word.ofNat (f * (x >>> 12) + so.2) }
  ansRefill
  pure so.1

/-- `DecodeToken(S, k)` (R241). -/
def decodeToken (cfg : StreamConfig) (k : Nat) : Reader Nat :=
  match cfg.coding with
  | .ans L ds => do
    let d ← orBroken ds[k]? .danglingCluster
    ansDecode L d
  | .prefixCode ds => do
    let d ← orBroken ds[k]? .danglingCluster
    parse (prefixDecode d.code)

/-- `DistanceMap(raw, dm)` (R248, R249). -/
def distanceMap (raw dm : Nat) : Nat :=
  if dm = 0 then raw + 1
  else if raw < 120 then
    let e := special.getD raw (0, 0)
    (max 1 (e.1 + dm * e.2)).toNat
  else raw - 119

/-- `Emit(S, v)` (R240). -/
def Coder.emit (c : Coder) (v : Word) : Coder :=
  { c with window := windowWrite c.window c.numDecoded v, numDecoded := c.numDecoded + 1 }

/-- Step 1 of `ReadSymbol` (R240, R242): the next copied value, with no bits. -/
def emitCopied : Reader Nat := do
  let c ← theCoder
  let v := windowRead c.window c.copyPos
  updateCoder fun c => { c with copyPos := c.copyPos + 1, copyRemaining := c.copyRemaining - 1 }.emit v
  pure v.toNat

/-- Step 3 of `ReadSymbol` up to its recursive call (R240): the length, then the distance, then the copy set up. -/
def startCopy (cfg : StreamConfig) (z : Lz77Config) (token dm : Nat) : Reader Unit := do
  let extra ← parse (hybridExpand (token - z.minSymbol) z.lengthConfig)
  let len := extra + z.minLength
  checkBitstream (len < 2 ^ 32) .lz77Overflow
  let kd ← orBroken cfg.clusterMap[cfg.numContexts - 1]? .danglingCluster
  let dtoken ← decodeToken cfg kd
  let dcfg ← orBroken (cfg.coding.hybridConfig? kd) .danglingCluster
  let raw ← parse (hybridExpand dtoken dcfg)
  updateCoder fun c =>
    { c with
      copyPos := c.numDecoded - min (distanceMap raw dm) (min c.numDecoded Config.windowSize)
      copyRemaining := len }

/-- Steps 2 to 4 of `ReadSymbol` (R240), when no copy is pending. The recursive call of step 3 takes step 1, since a
copy is at least 3 long (R240, log 20). -/
def readFresh (cfg : StreamConfig) (ctx dm : Nat) : Reader Nat := do
  let k ← orBroken cfg.clusterMap[ctx]? .danglingCluster
  let token ← decodeToken cfg k
  match cfg.lz77.filter (fun z => z.minSymbol ≤ token) with
  | some z => do
    startCopy cfg z token dm
    emitCopied
  | none => do
    let hc ← orBroken (cfg.coding.hybridConfig? k) .danglingCluster
    let v ← parse (hybridExpand token hc)
    updateCoder fun c => c.emit (Word.ofNat v)
    pure v

/-- `ReadSymbol(S, ctx, dm)` (R240). -/
def readSymbol (cfg : StreamConfig) (ctx dm : Nat) : Reader Nat := do
  let c ← theCoder
  if 0 < c.copyRemaining then emitCopied else readFresh cfg ctx dm

/-- `ValidateFinal(S)` (R252). -/
def validateFinal {σ : Type} (cfg : StreamConfig) (c : Coder) : Eng σ Unit :=
  if cfg.coding.usePrefixCode then pure ()
  else if c.hasState then checkBitstream (c.ansState = Config.ansTerminal) .ansFinalState
  else checkBitstream (Config.unprimedFinalOk = true) .ansFinalState

/-- Read a transient stream of one's own: a fresh coder part, discarded at the end; the bits stay consumed. -/
def onFreshStream {α : Type} (m : Reader α) : Parse α := fun b =>
  match m { coder := {}, source := b } with
  | .ok a r => .ok a r.source
  | .error e r => .error e r.source

/-! ## The stream header (R231 to R236) -/

/-- The distributions of an ANS stream, configurations first (R231). -/
def readAnsCoding (L numClusters : Nat) : Parse Coding := do
  let configs ← times numClusters (readHybridConfig L)
  let dists ← forAll (fun c => do
    let D ← readAnsFreqs L
    pure { config := c, freqs := D, table := buildAlias D L : AnsDist }) configs
  pure (.ans L dists)

/-- The distributions of a prefix-code stream: configurations, alphabet sizes, codes (R231). -/
def readPrefixCoding (numClusters : Nat) : Parse Coding := do
  let configs ← times numClusters (readHybridConfig 15)
  let sizes ← times numClusters readPrefixAlphabetSize
  let codes ← forAll readPrefixCode sizes
  pure (.prefixCode ((configs.zip (sizes.zip codes)).map fun e =>
    { config := e.1, alphabetSize := e.2.1, code := e.2.2 }))

/-- The LZ77 part of the header (R231, R232). -/
def readLz77 (disallowLz77 : Bool) : Parse (Option Lz77Config) := do
  let enabled ← readBool
  if enabled then
    checkBitstream (disallowLz77 = false) .nestedLz77
    let minSymbol ← readU32 (224, 0) (512, 0) (4096, 0) (8, 15)
    let minLength ← readU32 (3, 0) (4, 0) (5, 2) (9, 8)
    let lengthConfig ← readHybridConfig 8
    pure (some { minSymbol := minSymbol, minLength := minLength, lengthConfig := lengthConfig })
  else pure none

/-- `ReadEntropyStream(n, disallowLZ77)` (R231) over a reader of cluster maps. -/
def readStreamWith (readMap : Nat → Parse (List Nat)) (n : Nat) (disallowLz77 : Bool) : Parse StreamConfig := do
  let lz77 ← readLz77 disallowLz77
  let map ← readMap (if lz77.isSome then n + 1 else n)
  let numClusters := 1 + map.foldl max 0
  let usePrefixCode ← readBool
  if usePrefixCode then
    let coding ← readPrefixCoding numClusters
    pure { clusterMap := map, lz77 := lz77, coding := coding }
  else
    let v ← readBits 2
    let coding ← readAnsCoding (5 + v) numClusters
    pure { clusterMap := map, lz77 := lz77, coding := coding }

/-- The stream of a nested cluster map (R233): one context, so no cluster map of its own, and no LZ77. -/
def readNestedStream : Parse StreamConfig := readStreamWith (fun _ => pure [0]) 1 true

/-- `InverseMtf(map)` (R234) from the list `mtf`. -/
def inverseMtf : List Nat → List Nat → List Nat
  | _, [] => []
  | mtf, j :: more =>
    let v := mtf.getD j 0
    v :: inverseMtf (v :: mtf.eraseIdx j) more

/-- The nested form of `ReadClusterMap` after the form bit (R233). -/
def readNestedMap (n : Nat) : Parse (List Nat) := do
  let useMtf ← readBool
  let cfg ← readNestedStream
  let map ← onFreshStream do
    let map ← times n (readSymbol cfg 0 0)
    let c ← theCoder
    validateFinal cfg c
    pure map
  checkBitstream (∀ id ∈ map, id < 256) .badClusterMap
  pure (if useMtf then inverseMtf (List.range 256) map else map)

/-- The simple form of `ReadClusterMap` after the form bit (R233). -/
def readSimpleMap (n : Nat) : Parse (List Nat) := do
  let nbits ← readBits 2
  times n (readBits nbits)

/-- `CheckClusterMap(map, numClusters)` (R235). -/
def clusterMapOk (map : List Nat) : Bool :=
  let numClusters := 1 + map.foldl max 0
  numClusters ≤ 256 && (List.range numClusters).all (map.contains ·)

/-- `ReadClusterMap(n)` (R233). -/
def readClusterMap (n : Nat) : Parse (List Nat) :=
  if n = 1 then pure [0]
  else do
    let simple ← readBool
    let map ← (if simple then readSimpleMap n else readNestedMap n)
    checkBitstream (clusterMapOk map = true) .badClusterMap
    pure map

/-- `ReadEntropyStream(n, disallowLZ77)` (R231). -/
def readEntropyStream (n : Nat) (disallowLz77 : Bool) : Parse StreamConfig :=
  readStreamWith readClusterMap n disallowLz77

/-! ## The slot commands -/

/-- Run a reader on the stream of slot `i`; its coder part and the Bit Source are kept however it ends (R240). -/
def onSlot {α : Type} (i : Nat) (st : Stream) (m : Reader α) : Eng State α :=
  onPart (fun s => { coder := st.coder, source := s.source : Reading })
    (fun r s => (s.setSource r.source).setSlot i (some { st with coder := r.coder })) m

/-- The stream a slot operand names; no slot or an empty one raises `BAD_SLOT`. -/
def slotOperand (a : Word) : Eng State Stream := do
  let s ← theState
  orRaise (s.stream? a) (.contractViolation .badSlot)

/-- `ES_INIT` (R230). -/
def esInitBody : Cmd := do
  let a ← latchedArgs
  checkContract (isSlot a.arg0 = true) .badSlot
  checkContract (a.arg1 ≠ 0#32 ∧ a.arg1.toNat ≤ Config.maxContexts ∧ zeroFrom a.arg2 1 = true) .badArg
  let cfg ← onSource (readEntropyStream a.arg1.toNat (flagBit a.arg2 0))
  update fun s => s.setSlot a.arg0.toNat (some { config := cfg, coder := {} })
  pure { r0 := some (Word.ofNat cfg.coding.numClusters) }

/-- `ES_INIT` (R230). -/
def execEsInit (s : State) : Host.Outcome State Fault Refusal := runCommand esInitBody s

/-- `ES_READ` (R240). -/
def esReadBody : Cmd := do
  let a ← latchedArgs
  let st ← slotOperand a.arg0
  checkContract (a.arg1.toNat < st.config.readableContexts) .badArg
  let v ← onSlot a.arg0.toNat st (readSymbol st.config a.arg1.toNat a.arg2.toNat)
  pure { r0 := some (Word.ofNat v) }

/-- `ES_READ` (R240). -/
def execEsRead (s : State) : Host.Outcome State Fault Refusal := runCommand esReadBody s

/-- `ES_VALIDATE` (R252). -/
def esValidateBody : Cmd := do
  let a ← latchedArgs
  let st ← slotOperand a.arg0
  validateFinal st.config st.coder
  pure {}

/-- `ES_VALIDATE` (R252). -/
def execEsValidate (s : State) : Host.Outcome State Fault Refusal := runCommand esValidateBody s

/-- `ES_CLONE` (R254). -/
def esCloneBody : Cmd := do
  let a ← latchedArgs
  checkContract (isSlot a.arg1 = true) .badSlot
  let st ← slotOperand a.arg0
  update fun s => s.setSlot a.arg1.toNat (some { config := st.config, coder := {} })
  pure {}

/-- `ES_CLONE` (R254). -/
def execEsClone (s : State) : Host.Outcome State Fault Refusal := runCommand esCloneBody s

/-- `ES_FREE` (R255). -/
def esFreeBody : Cmd := do
  let a ← latchedArgs
  checkContract (isSlot a.arg0 = true) .badSlot
  update fun s => s.setSlot a.arg0.toNat none
  pure {}

/-- `ES_FREE` (R255). -/
def execEsFree (s : State) : Host.Outcome State Fault Refusal := runCommand esFreeBody s

end Sys2Proof.Machine
end

