-- ==== Sys2Proof/Machine/Tree.lean ====
section
/-! DEFINITION. The MA tree: parsing, compactification, walking, and the three tree commands (`43_ma_tree.md`). -/

namespace Sys2Proof.Machine

/-! ## Parsing (R271) -/

/-- What `ReadTree` has built: the nodes so far, last first, and the number of leaves. -/
structure TreeBuild where
  rev : List Node
  count : Nat
  leafCount : Nat

/-- A leaf's four fields (R271). -/
def readLeaf (cfg : StreamConfig) (context : Nat) : Reader Leaf := do
  let p ← readSymbol cfg 2 0
  let predictor ← orRaise (predictorOfId? p) (.invalidBitstream .badPredictor)
  let o ← readSymbol cfg 3 0
  let mulLog ← readSymbol cfg 4 0
  checkBitstream (mulLog ≤ 30) .badMultiplier
  let mulBits ← readSymbol cfg 5 0
  checkBitstream (mulBits ≤ (1 <<< (31 - mulLog)) - 2) .badMultiplier
  pure {
    context := context
    predictor := predictor
    offset := unpackSignedNat o
    multiplier := (mulBits + 1) <<< mulLog }

/-- The `while` loop of `ReadTree` (R271): `room` nodes may still be appended, `left` are still to come. -/
def readNodes (cfg : StreamConfig) : (room left : Nat) → TreeBuild → Reader TreeBuild
  | _, 0, b => pure b
  | 0, _ + 1, _ => raiseBitstream .treeTooLarge
  | room + 1, left + 1, b => do
    let p ← readSymbol cfg 1 0
    checkBitstream (p ≤ 256) .badProperty
    if 0 < p then
      let v ← readSymbol cfg 0 0
      readNodes cfg room (left + 2)
        { b with
          rev := .decision (p - 1) (unpackSignedNat v) (b.count + left + 1) (b.count + left + 2) :: b.rev
          count := b.count + 1 }
    else
      let l ← readLeaf cfg b.leafCount
      readNodes cfg room left
        { rev := .leaf l :: b.rev, count := b.count + 1, leafCount := b.leafCount + 1 }

/-- `ReadTree()` (R271): the nodes and the number of leaves. -/
def readTree : Parse (List Node × Nat) := do
  let cfg ← readEntropyStream 6 false
  let b ← onFreshStream do
    let b ← readNodes cfg Config.maxNodes 1 { rev := [], count := 0, leafCount := 0 }
    let c ← theCoder
    validateFinal cfg c
    pure b
  pure (b.rev.reverse, b.leafCount)

/-- `TREE_LOAD` (R270). -/
def treeLoadBody : Cmd := do
  let a ← latchedArgs
  checkContract (isTree a.arg0 = true) .badArg
  checkContract (isSlot a.arg1 = true) .badSlot
  let t ← onSource readTree
  let data ← onSource (readEntropyStream t.2 false)
  update fun s => (s.setTree a.arg0.toNat t.1).setSlot a.arg1.toNat (some { config := data, coder := {} })
  pure { r0 := some (Word.ofNat t.1.length), r1 := some (Word.ofNat t.2) }

/-- `TREE_LOAD` (R270). -/
def execTreeLoad (s : State) : Host.Outcome State Fault Refusal := runCommand treeLoadBody s

/-! ## Compactification (R280, R282) -/

/-- A residual tree (R282): its leaves record their node index. -/
inductive RTree where
  | leaf (node : Nat) (l : Leaf)
  | decision (property : Nat) (value : Int) (left right : RTree)
  deriving DecidableEq, Repr

/-- The properties compactification resolves (R280): channel, stream, and the row if it is frozen. -/
structure Frozen where
  channel : Nat
  stream : Nat
  row : Option Nat

/-- `fix[k]`, if `k` is in its domain (R280, R282). -/
def Frozen.value? (fix : Frozen) (k : Nat) : Option Int :=
  match k with
  | 0 => some fix.channel
  | 1 => some fix.stream
  | 2 => fix.row.map fun r => (r : Int)
  | _ => none

/-- `Residual(nodes, n, fix)` (R282), down at most `depth` nodes. -/
def residual (nodes : List Node) (fix : Frozen) : (depth n : Nat) → Option RTree
  | 0, _ => none
  | depth + 1, n =>
    match nodes[n]? with
    | none => none
    | some (.leaf l) => some (.leaf n l)
    | some (.decision k v lc rc) =>
      match fix.value? k with
      | some x => residual nodes fix depth (if v < x then lc else rc)
      | none => do
        let l ← residual nodes fix depth lc
        let r ← residual nodes fix depth rc
        pure (.decision k v l r)

/-- The residual tree of a whole tree; a node's children come after it (R272), so its depth is at most its length. -/
def compactify (nodes : List Node) (fix : Frozen) : Option RTree := residual nodes fix nodes.length 0

/-- The number of nodes of a residual tree. -/
def RTree.size : RTree → Nat
  | .leaf _ _ => 1
  | .decision _ _ l r => l.size + r.size + 1

/-- Whether some leaf of a residual tree satisfies `q`. -/
def RTree.anyLeaf (q : Leaf → Bool) : RTree → Bool
  | .leaf _ l => q l
  | .decision _ _ l r => l.anyLeaf q || r.anyLeaf q

/-- Whether some decision of a residual tree tests a property that satisfies `q`. -/
def RTree.anyDecision (q : Nat → Bool) : RTree → Bool
  | .leaf _ _ => false
  | .decision k _ l r => q k || l.anyDecision q || r.anyDecision q

/-- The tree a tree operand names; no store or an empty one raises `BAD_ARG`. -/
def treeOperand (a : Word) : Eng State (List Node) := do
  let s ← theState
  orRaise (s.tree? a) (.contractViolation .badArg)

/-- `TREE_COMPACT` (R280). -/
def treeCompactBody : Cmd := do
  let a ← latchedArgs
  let nodes ← treeOperand a.arg0
  checkContract (zeroFrom a.arg3 1 = true) .badArg
  let r ← orBroken (compactify nodes {
    channel := a.arg1.toNat
    stream := a.arg2.toNat
    row := if flagBit a.arg3 0 then some a.arg4.toNat else none }) .danglingNode
  pure {
    r0 := some (Word.ofNat r.size)
    r1 := some (usesWpFlags (r.anyLeaf fun l => l.predictor == .weighted) (r.anyDecision fun k => k == 15)) }

/-- `TREE_COMPACT` (R280). -/
def execTreeCompact (s : State) : Host.Outcome State Fault Refusal := runCommand treeCompactBody s

/-! ## Walking (R285, R286) -/

/-- `Walk(tree, P)` from node `n` (R285), down at most `depth` nodes: the leaf's node index and the leaf. -/
def walk (nodes : List Node) (P : Nat → Except Stop Int) : (depth n : Nat) → Except Stop (Nat × Leaf)
  | 0, _ => .error (.broken .danglingNode)
  | depth + 1, n =>
    match nodes[n]? with
    | none => .error (.broken .danglingNode)
    | some (.leaf l) => .ok (n, l)
    | some (.decision k v lc rc) => do
      let x ← P k
      walk nodes P depth (if v < x then lc else rc)

/-- `Walk(R, P)` on a residual tree: the leaf. -/
def RTree.walk (P : Nat → Except Stop Int) : RTree → Except Stop (Nat × Leaf)
  | .leaf n l => .ok (n, l)
  | .decision k v l r => do
    let x ← P k
    if v < x then l.walk P else r.walk P

/-- What the properties of channel `c` are computed from. -/
def propertyContext (s : State) (c : Nat) (ch : Channel) : PropertyContext where
  channel := c
  streamId := s.latched.streamId.toNat
  plane := { w := ch.width, m := ch.samples }
  refs := refChannels s.channels c ch

/-- `TREE_WALK` (R286). -/
def treeWalkBody : Cmd := do
  let a ← latchedArgs
  let nodes ← treeOperand a.arg0
  let ch ← channelOperand a.arg1
  checkContract (a.arg2.toNat < ch.width ∧ a.arg3.toNat < ch.height) .badArg
  let s ← theState
  let P := property (propertyContext s a.arg1.toNat ch)
    (.error (.raise (.contractViolation .wpProperty))) a.arg2.toNat a.arg3.toNat
  let n ← ofExcept (walk nodes P nodes.length 0)
  pure {
    r0 := some (Word.ofNat n.1)
    r1 := some (Word.ofNat n.2.context)
    r2 := some (Word.ofNat n.2.predictor.id) }

/-- `TREE_WALK` (R286). -/
def execTreeWalk (s : State) : Host.Outcome State Fault Refusal := runCommand treeWalkBody s

end Sys2Proof.Machine
end

