-- ==== Sys2Proof/Machine/Channel.lean ====
section
/-! DEFINITION. The channel list and the channel decoder: CHL_CLEAR, CHL_APPEND, CH_DECODE
(`44_channel_decoder.md` R300, R301, R340, R341). -/

namespace Sys2Proof.Machine

/-- `CHL_CLEAR` (R300). -/
def chlClearBody : Cmd := do
  update fun s => ((s.setChannels []).setTransforms []).setNbMeta 0
  pure {}

/-- `CHL_CLEAR` (R300). -/
def execChlClear (s : State) : Host.Outcome State Fault Refusal := runCommand chlClearBody s

/-- The record `CHL_APPEND` appends (R301). -/
def appendedChannel (a : Args) : Channel where
  width := a.arg0.toNat
  height := a.arg1.toNat
  hshift := sext32 a.arg2
  vshift := sext32 a.arg3
  originX := sext32 a.arg4
  originY := sext32 a.arg5
  decoded := false
  forceWP := false
  samples := []

/-- `CHL_APPEND` (R301). -/
def chlAppendBody : Cmd := do
  let a ← latchedArgs
  checkContract (a.arg0.toNat ≤ Config.maxDimension ∧ a.arg1.toNat ≤ Config.maxDimension) .badArg
  let s ← theState
  require (s.channels.length < Config.maxChannels) .resourceExhausted
  require (totalArea s.channels + (appendedChannel a).area ≤ Config.arenaCapacity) .resourceExhausted
  update fun s => s.setChannels (s.channels ++ [appendedChannel a])
  pure { r0 := some (Word.ofNat s.channels.length) }

/-- `CHL_APPEND` (R301). -/
def execChlAppend (s : State) : Host.Outcome State Fault Refusal := runCommand chlAppendBody s

/-! ## Decoding a channel (R340, R341) -/

/-- What decoding changes pixel by pixel: the stream, the channel's samples, the weighted predictor's rows. -/
structure PixelState where
  reading : Reading
  samples : Memory
  wp : WpState

/-- What decoding a channel is given (R340). -/
structure DecodeJob where
  tree : RTree
  config : StreamConfig
  width : Nat
  channel : Nat
  streamId : Nat
  refs : List Channel
  distMult : Nat
  params : WpParams

/-- Check (1) of `StartChecks` (R341). -/
def contextsFit (t : RTree) (cfg : StreamConfig) : Bool :=
  !t.anyLeaf fun l => cfg.readableContexts ≤ l.context

/-- Check (2) of `StartChecks` (R341). -/
def propertiesFit (t : RTree) (numRefs : Nat) : Bool :=
  !t.anyDecision fun k => 16 ≤ k && numRefs ≤ (k - 16) >>> 2

/-- One pixel of `CH_DECODE` (R340). -/
def decodePixel (j : DecodeJob) (x y : Nat) : Eng PixelState Unit := do
  let st ← (fun s => .ok s s : Eng PixelState PixelState)
  let plane : Plane := { w := j.width, m := st.samples }
  let o ← ofExcept (wpPredict j.params st.wp plane x y)
  let ctx : PropertyContext := { channel := j.channel, streamId := j.streamId, plane := plane, refs := j.refs }
  let leaf ← ofExcept (j.tree.walk (property ctx (.ok o.maxErr) x y))
  let tok ← onPart PixelState.reading (fun r s => { s with reading := r })
    (readSymbol j.config leaf.2.context j.distMult)
  let p ← ofExcept (predict leaf.2.predictor plane x y o.pred)
  let v := unpackSignedNat tok * leaf.2.multiplier + leaf.2.offset + p
  checkBitstream (inI32 v = true) .valueOverflow
  (fun s => .ok () { s with
    samples := Memory.write s.samples (y * j.width + x) (Word.ofInt v)
    wp := wpUpdate s.wp o j.width x y v } : Eng PixelState Unit)

/-- The two loops of `CH_DECODE` (R340): `left` pixels from pixel `p` in row-major order. -/
def decodePixels (j : DecodeJob) : (left p : Nat) → Eng PixelState Unit
  | 0, _ => pure ()
  | left + 1, p => do
    decodePixel j (p % j.width) (p / j.width)
    decodePixels j left (p + 1)

/-- Decode the record at `c` with the stream of slot `i`; what was decoded before a fault stays (R340). -/
def onPixels (i c : Nat) (st : Stream) (ch : Channel) (m : Eng PixelState Unit) : Eng State Unit :=
  onPart
    (fun s => { reading := { coder := st.coder, source := s.source }, samples := ch.samples, wp := {} : PixelState })
    (fun p s => ((s.setSource p.reading.source).setSlot i (some { st with coder := p.reading.coder })).setChannel c
      { ch with samples := p.samples }) m

/-- Mark the record at `c` decoded. -/
def State.markDecoded (s : State) (c : Nat) : State :=
  { s with channels := s.channels.modify c fun ch => { ch with decoded := true } }

/-- `CH_DECODE` of a channel that has pixels (R340). -/
def decodeChannel (a : Args) (ch : Channel) (nodes : List Node) (st : Stream) : Eng State Unit := do
  let s ← theState
  let c := a.arg0.toNat
  let t ← orBroken (compactify nodes
    { channel := c, stream := s.latched.streamId.toNat, row := none }) .danglingNode
  let refs := refChannels s.channels c ch
  checkContract (contextsFit t st.config = true) .badArg
  checkBitstream (propertiesFit t refs.length = true) .badProperty
  let job : DecodeJob := {
    tree := t
    config := st.config
    width := ch.width
    channel := c
    streamId := s.latched.streamId.toNat
    refs := refs
    distMult := s.latched.distMult.toNat
    params := wpParams s.latched }
  onPixels a.arg2.toNat c st ch (decodePixels job ch.area 0)
  update fun s => s.markDecoded c

/-- `CH_DECODE` (R340). -/
def chDecodeBody : Cmd := do
  let a ← latchedArgs
  let ch ← channelOperand a.arg0
  let nodes ← treeOperand a.arg1
  let st ← slotOperand a.arg2
  checkContract (ch.decoded = false) .decodedTwice
  (if ch.area = 0 then update fun s => s.markDecoded a.arg0.toNat else decodeChannel a ch nodes st)
  pure {}

/-- `CH_DECODE` (R340). -/
def execChDecode (s : State) : Host.Outcome State Fault Refusal := runCommand chDecodeBody s

end Sys2Proof.Machine
end

