-- ==== Sys2Proof/Machine/Transform.lean ====
section
/-! DEFINITION. The channel transform engine: the pushes of RCT, palette and squeeze, and their inversion
(`45_transforms.md`). -/

namespace Sys2Proof.Machine

/-- Apply `f` to the records at positions `b` to `b + n - 1`. -/
def mapRange (l : List Channel) (b n : Nat) (f : Channel → Channel) : List Channel :=
  l.take b ++ ((l.drop b).take n).map f ++ l.drop (b + n)

/-- Insert `new` before position `i`. -/
def insertAt (l : List Channel) (i : Nat) (new : List Channel) : List Channel := l.take i ++ new ++ l.drop i

/-- Remove `n` records from position `i`. -/
def removeAt (l : List Channel) (i n : Nat) : List Channel := l.take i ++ l.drop (i + n)

/-- All records of a list of the shape of its first (R302). -/
def allSameShape : List Channel → Bool
  | [] => true
  | ch :: more => more.all fun r => ch.sameShape r

/-- Append a record to the transform list (R64): `nbMetaBefore` is the value before the push. -/
def State.pushTransform (s : State) (nbMetaBefore : Nat) (t : Transform) : State :=
  s.setTransforms (s.transforms ++ [{ transform := t, nbMetaBefore := nbMetaBefore }])

/-! ## RCT (R360, R370, R371) -/

/-- `XF_PUSH_RCT` (R360). -/
def xfPushRctBody : Cmd := do
  let a ← latchedArgs
  let s ← theState
  checkBitstream (a.arg1.toNat < 42) .badTransform
  checkBitstream (a.arg0.toNat + 3 ≤ s.channels.length) .badTransform
  checkBitstream (allSameShape ((s.channels.drop a.arg0.toNat).take 3) = true) .rctShape
  update fun s => s.pushTransform s.nbMeta (.rct a.arg0.toNat a.arg1.toNat)
  pure {}

/-- `XF_PUSH_RCT` (R360). -/
def execXfPushRct (s : State) : Host.Outcome State Fault Refusal := runCommand xfPushRctBody s

/-- The inverse of RCT type `type` on one position (R370): `(o0, o1, o2)`. -/
def rctInverse (type : Nat) (a b c : Int) : Int × Int × Int :=
  if type = 6 then
    let tmp := a - asr c 1
    let o1 := c + tmp
    let o2 := tmp - asr b 1
    (o2 + b, o1, o2)
  else
    let o2 := if type % 2 = 1 then c + a else c
    let o1 := if type / 2 = 1 then b + a else if type / 2 = 2 then b + asr (a + o2) 1 else b
    (a, o1, o2)

/-- Where permutation `perm` puts output `k` of the three (R370, R371). -/
def rctTarget (perm k : Nat) : Nat :=
  if k = 0 then perm % 3
  else if k = 1 then (perm + 1 + perm / 3) % 3
  else (perm + 2 - perm / 3) % 3

/-- The value that permutation `perm` puts at offset `j` of the three channels (R370, R371). -/
def rctPlaced (perm j : Nat) (o : Int × Int × Int) : Int :=
  if rctTarget perm 0 = j then o.1 else if rctTarget perm 1 = j then o.2.1 else o.2.2

/-- The samples of the three channels of an RCT. -/
structure Triple where
  m0 : Memory
  m1 : Memory
  m2 : Memory

/-- One position of `InverseRct` (R370): all its reads come before its writes. -/
def rctPixel (rctType w x y : Nat) : Eng Triple Unit := do
  let t ← (fun s => .ok s s : Eng Triple Triple)
  let a ← ofExcept (sampleAt w t.m0 x y)
  let b ← ofExcept (sampleAt w t.m1 x y)
  let c ← ofExcept (sampleAt w t.m2 x y)
  let o := rctInverse (rctType % 7) a b c
  checkBitstream (inI32 o.1 = true ∧ inI32 o.2.1 = true ∧ inI32 o.2.2 = true) .valueOverflow
  (fun s => .ok () {
    m0 := Memory.write s.m0 (y * w + x) (Word.ofInt (rctPlaced (rctType / 7) 0 o))
    m1 := Memory.write s.m1 (y * w + x) (Word.ofInt (rctPlaced (rctType / 7) 1 o))
    m2 := Memory.write s.m2 (y * w + x) (Word.ofInt (rctPlaced (rctType / 7) 2 o)) } : Eng Triple Unit)

/-- `left` positions of `InverseRct` from position `p` (R370). That they are visited in row-major order is log 27
(DESIGN CHOICE): R370 says only `for every (x, y)`. -/
def rctPixels (rctType w : Nat) : (left p : Nat) → Eng Triple Unit
  | 0, _ => pure ()
  | left + 1, p => do
    rctPixel rctType w (p % w) (p / w)
    rctPixels rctType w left (p + 1)

/-- Run on the samples of the three records from `m`; what was written before a fault stays (R363). -/
def onTriple (m : Nat) (c0 c1 c2 : Channel) (f : Eng Triple Unit) : Eng State Unit :=
  onPart (fun _ => { m0 := c0.samples, m1 := c1.samples, m2 := c2.samples : Triple })
    (fun t s => ((s.setChannel m { c0 with samples := t.m0 }).setChannel (m + 1) { c1 with samples := t.m1 }).setChannel
      (m + 2) { c2 with samples := t.m2 }) f

/-- `InverseRct(t)` (R370). -/
def inverseRct (m rctType : Nat) : Eng State Unit := do
  let s ← theState
  let c0 ← orRaise s.channels[m]? (.invalidBitstream .rctShape)
  let c1 ← orRaise s.channels[m + 1]? (.invalidBitstream .rctShape)
  let c2 ← orRaise s.channels[m + 2]? (.invalidBitstream .rctShape)
  checkBitstream (allSameShape [c0, c1, c2] = true) .rctShape
  onTriple m c0 c1 c2 (rctPixels rctType c0.width c0.area 0)
  update fun s => ((s.markDecoded m).markDecoded (m + 1)).markDecoded (m + 2)

/-! ## Squeeze (R362, R375 to R379) -/

/-- The shift of a squeezed direction (R375). -/
def squeezeShift (v : Int) : Int := if 0 ≤ v then v + 1 else v

/-- The shift after the inverse (R377). -/
def unsqueezeShift (v : Int) : Int := if 1 ≤ v then v - 1 else v

/-- The resized record of a squeeze push (R375): half size, samples lost, not decoded. -/
def squeezedChannel (horizontal : Bool) (ch : Channel) : Channel :=
  if horizontal then
    { ch with width := (ch.width + 1) / 2, hshift := squeezeShift ch.hshift, decoded := false, samples := [] }
  else
    { ch with height := (ch.height + 1) / 2, vshift := squeezeShift ch.vshift, decoded := false, samples := [] }

/-- The residual record of a squeeze push (R375), from the record before the push. -/
def residualChannel (horizontal : Bool) (ch : Channel) : Channel where
  width := if horizontal then ch.width - (ch.width + 1) / 2 else ch.width
  height := if horizontal then ch.height else ch.height - (ch.height + 1) / 2
  hshift := (squeezedChannel horizontal ch).hshift
  vshift := (squeezedChannel horizontal ch).vshift
  originX := 0
  originY := 0
  decoded := false
  forceWP := false
  samples := []

/-- The channel list after a squeeze push (R375). -/
def squeezedList (l : List Channel) (b n : Nat) (horizontal : Bool) (rPos : Nat) : List Channel :=
  insertAt (mapRange l b n (squeezedChannel horizontal)) rPos
    (((l.drop b).take n).map (residualChannel horizontal))

/-- A record that a squeeze push accepts (R375). -/
def squeezable (ch : Channel) : Bool :=
  ch.hshift ≤ 30 && ch.vshift ≤ 30 && ch.width != 0 && ch.height != 0

/-- `XF_PUSH_SQUEEZE` (R362, R375). -/
def xfPushSqueezeBody : Cmd := do
  let a ← latchedArgs
  let s ← theState
  let b := a.arg0.toNat
  let n := a.arg1.toNat
  let horizontal := flagBit a.arg2 0
  let inPlace := flagBit a.arg2 1
  checkContract (zeroFrom a.arg2 2 = true) .badArg
  checkBitstream (n ≠ 0 ∧ b + n ≤ s.channels.length) .badTransform
  checkBitstream (b < s.nbMeta → b + n ≤ s.nbMeta ∧ inPlace = true) .badTransform
  checkBitstream (((s.channels.drop b).take n).all squeezable = true) .badTransform
  let rPos := if inPlace then b + n else s.channels.length
  require (fitsArena (squeezedList s.channels b n horizontal rPos) = true) .resourceExhausted
  update fun s => ((s.setChannels (squeezedList s.channels b n horizontal rPos)).setNbMeta
    (if b < s.nbMeta then s.nbMeta + n else s.nbMeta)).pushTransform s.nbMeta (.squeeze b n horizontal inPlace rPos)
  pure {}

/-- `XF_PUSH_SQUEEZE` (R362, R375). -/
def execXfPushSqueeze (s : State) : Host.Outcome State Fault Refusal := runCommand xfPushSqueezeBody s

/-- `SmoothTendency(B, a, n)` (R379). -/
def smoothTendency (B a n : Int) : Int :=
  if B ≥ a ∧ a ≥ n then
    let d := tdiv (4 * B - 3 * n - a + 6) 12
    let d := if d - parity d > 2 * (B - a) then 2 * (B - a) + 1 else d
    if d + parity d > 2 * (a - n) then 2 * (a - n) else d
  else if B ≤ a ∧ a ≤ n then
    let d := tdiv (4 * B - 3 * n - a - 6) 12
    let d := if d + parity d < 2 * (B - a) then 2 * (B - a) - 1 else d
    if d - parity d < 2 * (a - n) then 2 * (a - n) else d
  else 0

/-- The two outputs of one average and one residual (R377): with the output to the left (or above) and the average to
the right (or below). -/
def unsqueezePair (left avg next res : Int) : Int × Int :=
  let diff := res + smoothTendency left avg next
  let first := avg + tdiv diff 2
  (first, first - diff)

/-- One row or column of the inverse (R377, R378): the averages and residuals still to come, and the output before
them (`none` at the start). -/
def unsqueezeLine (left : Option Int) : (avgs ress : List Int) → List Int
  | [], _ => []
  | a :: _, [] => [a]
  | a :: avgs, r :: ress =>
    let o := unsqueezePair (left.getD a) a (avgs.headD a) r
    o.1 :: o.2 :: unsqueezeLine (some o.2) avgs ress

/-- Samples of a line, in order; an empty one raises `UNDEFINED_SAMPLE`. -/
def readLine (f : Nat → Except Stop Int) : (n i : Nat) → Except Stop (List Int)
  | 0, _ => .ok []
  | n + 1, i => do
    let v ← f i
    let vs ← readLine f n (i + 1)
    pure (v :: vs)

/-- The output lines of the inverse (R377, R378): rows of a horizontal squeeze, columns of a vertical one. -/
def unsqueezeLines (avg res : Nat → Nat → Except Stop Int) (na nr : Nat) : (lines i : Nat) → Except Stop (List (List Int))
  | 0, _ => .ok []
  | lines + 1, i => do
    let as ← readLine (avg i) na 0
    let rs ← readLine (res i) nr 0
    let more ← unsqueezeLines avg res na nr lines (i + 1)
    pure (unsqueezeLine none as rs :: more)

/-- The value at position `j` of line `i`. -/
def lineAt (lines : List (List Int)) (i j : Nat) : Int := (lines.getD i []).getD j 0

/-- The samples of a `w` x `h` record from its values. -/
def samplesOf (w h : Nat) (f : Nat → Nat → Int) : Memory :=
  tabulate (w * h) fun p => (p, Word.ofInt (f (p % w) (p / w)))

/-- The record that `InvH(c, r)` puts at `c` (R377), from `A = L[c]` and `R = L[r]`. -/
def invH (A R : Channel) : Eng State Channel := do
  checkBitstream (A.height = R.height ∧ (A.width = R.width ∨ A.width = R.width + 1)) .squeezeShape
  let lines ← ofExcept (unsqueezeLines (fun y x => sampleAt A.width A.samples x y)
    (fun y x => sampleAt R.width R.samples x y) A.width R.width A.height 0)
  checkBitstream (∀ l ∈ lines, ∀ v ∈ l, inI32 v = true) .valueOverflow
  pure { A with
    width := A.width + R.width
    hshift := unsqueezeShift A.hshift
    decoded := true
    samples := samplesOf (A.width + R.width) A.height fun x y => lineAt lines y x }

/-- The record that `InvV(c, r)` puts at `c` (R378), from `A = L[c]` and `R = L[r]`. -/
def invV (A R : Channel) : Eng State Channel := do
  checkBitstream (A.width = R.width ∧ (A.height = R.height ∨ A.height = R.height + 1)) .squeezeShape
  let lines ← ofExcept (unsqueezeLines (fun x y => sampleAt A.width A.samples x y)
    (fun x y => sampleAt R.width R.samples x y) A.height R.height A.width 0)
  checkBitstream (∀ l ∈ lines, ∀ v ∈ l, inI32 v = true) .valueOverflow
  pure { A with
    height := A.height + R.height
    vshift := unsqueezeShift A.vshift
    decoded := true
    samples := samplesOf A.width (A.height + R.height) fun x y => lineAt lines x y }

/-- The loop of `InverseSqueeze` (R376): `left` channels from `c` with their residuals from `r`. A record that is not
there has no legal squeeze shape (log 14). -/
def inverseSqueezeLoop (horizontal : Bool) : (left c r : Nat) → Eng State Unit
  | 0, _, _ => pure ()
  | left + 1, c, r => do
    let s ← theState
    let A ← orRaise s.channels[c]? (.invalidBitstream .squeezeShape)
    let R ← orRaise s.channels[r]? (.invalidBitstream .squeezeShape)
    let out ← (if horizontal then invH A R else invV A R)
    update fun s => s.setChannel c out
    inverseSqueezeLoop horizontal left (c + 1) (r + 1)

/-- `InverseSqueeze(t)` (R376). -/
def inverseSqueeze (b n : Nat) (horizontal : Bool) (rPos : Nat) : Eng State Unit := do
  inverseSqueezeLoop horizontal n b rPos
  update fun s => s.setChannels (removeAt s.channels rPos n)

/-! ## Palette (R361, R380 to R384) -/

/-- The palette record of a push (R380). -/
def paletteChannel (nbColours n : Nat) : Channel where
  width := nbColours
  height := n
  hshift := -1
  vshift := -1
  originX := 0
  originY := 0
  decoded := false
  forceWP := false
  samples := []

/-- The channel list after a palette push (R380). -/
def palettedList (l : List Channel) (b n nbColours : Nat) (q : Predictor) : List Channel :=
  paletteChannel nbColours n ::
    removeAt (if q = .weighted then l.modify b (fun ch => { ch with forceWP := true }) else l) (b + 1) (n - 1)

/-- `nbMeta` after a palette push (R380). -/
def palettedMeta (nbMeta b n : Nat) : Nat := if nbMeta ≤ b then nbMeta + 1 else nbMeta + 2 - n

/-- `XF_PUSH_PALETTE` (R361, R380). -/
def xfPushPaletteBody : Cmd := do
  let a ← latchedArgs
  let s ← theState
  let b := a.arg0.toNat
  let n := a.arg1.toNat
  checkBitstream (n ≠ 0 ∧ b + n ≤ s.channels.length) .badTransform
  let q ← orRaise (predictorOfId? a.arg4.toNat) (.invalidBitstream .badTransform)
  checkBitstream (allSameShape ((s.channels.drop b).take n) = true) .paletteShape
  checkBitstream (b < s.nbMeta → b + n ≤ s.nbMeta) .badTransform
  require (fitsArena (palettedList s.channels b n a.arg2.toNat q) = true) .resourceExhausted
  update fun s => ((s.setChannels (palettedList s.channels b n a.arg2.toNat q)).setNbMeta
    (palettedMeta s.nbMeta b n)).pushTransform s.nbMeta (.palette b n a.arg2.toNat a.arg3.toNat q)
  pure {}

/-- `XF_PUSH_PALETTE` (R361, R380). -/
def execXfPushPalette (s : State) : Host.Outcome State Fault Refusal := runCommand xfPushPaletteBody s

/-- Component `k` of a row of `DELTA`. -/
def deltaComponent (row : Int × Int × Int) (k : Nat) : Int :=
  if k = 0 then row.1 else if k = 1 then row.2.1 else row.2.2

/-- `Scale(v, bd, den)` (R382). -/
def paletteScale (v : Int) (bd : Nat) (den : Int) : Int := tdiv (v * (2 ^ bd - 1)) den

/-- The delta entry of a negative index (R382, R383). -/
def deltaEntry (idx : Int) (k bd : Nat) : Int :=
  let i := ((-(idx + 1)) % 143).toNat
  let v := deltaComponent (delta.getD ((i + 1) >>> 1) (0, 0, 0)) k * (if i % 2 = 1 then 1 else -1)
  if 8 < bd then v * 2 ^ (bd - 8) else v

/-- `PaletteValue(idx, k, bd)` (R382) with the palette record `pal` of `P` colours. -/
def paletteValue (pal : Channel) (P : Nat) (idx : Int) (k bd : Nat) : Except Stop Int :=
  if idx < 0 then .ok (if 3 ≤ k then 0 else deltaEntry idx k bd)
  else if idx < P then sampleAt pal.width pal.samples idx.toNat k
  else if 3 ≤ k then .ok 0
  else if idx < P + 64 then .ok (paletteScale (asr (idx - P) (2 * k) % 4) bd 4 + 2 ^ (bd - 3))
  else
    let i := idx - P - 64
    let i := if k = 0 then i else if k = 1 then tdiv i 5 else tdiv i 25
    .ok (paletteScale (i % 5) bd 4)

/-- What the inversion of a palette is given (R381). -/
structure PaletteJob where
  pal : Channel
  index : Channel
  nbColours : Nat
  nbDeltas : Nat
  dPred : Predictor
  bd : Nat
  params : WpParams

/-- What the inversion of a palette changes pixel by pixel: one output channel's samples and its predictor rows. -/
structure PaletteState where
  samples : Memory
  wp : WpState

/-- One pixel of output channel `k` (R381). -/
def palettePixel (j : PaletteJob) (k x y : Nat) : Eng PaletteState Unit := do
  let st ← (fun s => .ok s s : Eng PaletteState PaletteState)
  let w := j.index.width
  let plane : Plane := { w := w, m := st.samples }
  let o ← (if j.dPred = .weighted then ofExcept (wpPredict j.params st.wp plane x y)
    else pure { sp := [], full := 0, pred := 0, maxErr := 0 })
  let idx ← ofExcept (sampleAt w j.index.samples x y)
  let base ← ofExcept (paletteValue j.pal j.nbColours idx k j.bd)
  let p ← (if idx < j.nbDeltas then ofExcept (predict j.dPred plane x y o.pred) else pure 0)
  let v := base + p
  checkBitstream (inI32 v = true) .valueOverflow
  (fun s => .ok () {
    samples := Memory.write s.samples (y * w + x) (Word.ofInt v)
    wp := if j.dPred = .weighted then wpUpdate s.wp o w x y v else s.wp } : Eng PaletteState Unit)

/-- `left` pixels of output channel `k` from pixel `p`, in row-major order (R381). -/
def palettePixels (j : PaletteJob) (k : Nat) : (left p : Nat) → Eng PaletteState Unit
  | 0, _ => pure ()
  | left + 1, p => do
    palettePixel j k (p % j.index.width) (p / j.index.width)
    palettePixels j k left (p + 1)

/-- Output channel `k` (R381, log 17). -/
def paletteOutput (j : PaletteJob) (k : Nat) : Eng State Channel := fun s =>
  match palettePixels j k j.index.area 0 { samples := [], wp := {} } with
  | .ok _ t => .ok { j.index with decoded := true, forceWP := false, samples := t.samples } s
  | .error e _ => .error e s

/-- The channel list after the inversion of a palette (R381). -/
def unpalettedList (l : List Channel) (b : Nat) (outs : List Channel) : List Channel :=
  ((l.take (b + 1)) ++ outs ++ l.drop (b + 2)).drop 1

/-- `InversePalette(t)` (R381); the arena check of `10_state.md` R62 is made before the outputs are created (log 16). -/
def inversePalette (b n nbColours nbDeltas : Nat) (q : Predictor) : Eng State Unit := do
  let s ← theState
  let bits := s.latched.bitDepth.toNat
  checkContract (1 ≤ bits ∧ bits ≤ 32) .badBitdepth
  let pal ← orRaise s.channels[0]? (.invalidBitstream .paletteShape)
  let index ← orRaise s.channels[b + 1]? (.invalidBitstream .paletteShape)
  checkBitstream (pal.width = nbColours ∧ pal.height = n) .paletteShape
  require (fitsArena (unpalettedList s.channels b (List.replicate n index)) = true) .resourceExhausted
  let job : PaletteJob := {
    pal := pal
    index := index
    nbColours := nbColours
    nbDeltas := nbDeltas
    dPred := q
    bd := min bits 24
    params := wpParams s.latched }
  let outs ← forAll (paletteOutput job) (List.range n)
  update fun s => s.setChannels (unpalettedList s.channels b outs)

/-! ## XF_APPLY (R363) -/

/-- The inversion of one transform (R363). -/
def undoTransform (t : Transform) : Eng State Unit :=
  match t with
  | .rct m rctType => inverseRct m rctType
  | .palette b n nbColours nbDeltas q => inversePalette b n nbColours nbDeltas q
  | .squeeze b n horizontal _ rPos => inverseSqueeze b n horizontal rPos

/-- The loop of `XF_APPLY` (R363) over the transform list, last record first. -/
def undoTransforms : List TransformRecord → Eng State Unit
  | [] => pure ()
  | t :: more => do
    update fun s => s.setTransforms more.reverse
    undoTransform t.transform
    update fun s => s.setNbMeta t.nbMetaBefore
    undoTransforms more

/-- A command that exceeds the arena does so before changing any state (`10_state.md` R62, log 16). -/
def allOrExhausted (m : Eng State Unit) : Eng State Unit := fun s =>
  match m s with
  | .ok a t => .ok a t
  | .error (.raise .resourceExhausted) _ => .error (.raise .resourceExhausted) s
  | .error e t => .error e t

/-- `XF_APPLY` (R363). -/
def xfApplyBody : Cmd := do
  let s ← theState
  allOrExhausted (undoTransforms s.transforms.reverse)
  pure {}

/-- `XF_APPLY` (R363). -/
def execXfApply (s : State) : Host.Outcome State Fault Refusal := runCommand xfApplyBody s

end Sys2Proof.Machine
end

