-- ==== Sys2Proof/Machine/Dispatch.lean ====
section
/-! DEFINITION. One arm for each constructor of Instr: the meaning of each command. -/

namespace Sys2Proof.Machine

def exec (i : Instr) (s : State) : Host.Outcome State Fault Refusal :=
  match i with
  | .nop => Sys2Proof.Machine.execNop s
  | .hybExpand => Sys2Proof.Machine.execHybExpand s
  | .unpackSigned => Sys2Proof.Machine.execUnpackSigned s
  | .hybConfigRead => Sys2Proof.Machine.execHybConfigRead s
  | .esInit => Sys2Proof.Machine.execEsInit s
  | .esRead => Sys2Proof.Machine.execEsRead s
  | .esValidate => Sys2Proof.Machine.execEsValidate s
  | .esClone => Sys2Proof.Machine.execEsClone s
  | .esFree => Sys2Proof.Machine.execEsFree s
  | .treeLoad => Sys2Proof.Machine.execTreeLoad s
  | .treeCompact => Sys2Proof.Machine.execTreeCompact s
  | .treeWalk => Sys2Proof.Machine.execTreeWalk s
  | .chlClear => Sys2Proof.Machine.execChlClear s
  | .chlAppend => Sys2Proof.Machine.execChlAppend s
  | .chDecode => Sys2Proof.Machine.execChDecode s
  | .chRead => Sys2Proof.Machine.execChRead s
  | .chWrite => Sys2Proof.Machine.execChWrite s
  | .chInfo => Sys2Proof.Machine.execChInfo s
  | .xfPushRct => Sys2Proof.Machine.execXfPushRct s
  | .xfPushPalette => Sys2Proof.Machine.execXfPushPalette s
  | .xfPushSqueeze => Sys2Proof.Machine.execXfPushSqueeze s
  | .xfApply => Sys2Proof.Machine.execXfApply s

end Sys2Proof.Machine
end

