-- ==== Sys2Proof/Machine/HostPort.lean ====
section
/-! DEFINITION. The host's side of the block: register reads and writes (`10_state.md` R30 to R43), the issue of a
command, the resets, and the engine's turn. Step.lean only chooses among these. -/

namespace Sys2Proof.Machine

/-- The engine's turn: the issued word runs to its end. A word that does not decode is never issued by a host write
(`60_exceptions.md` R424 latches it at the write); here too it latches `IllegalCommand`. -/
def engineTurn (s : State) : Host.Outcome State Fault Refusal :=
  match decode s.cmd with
  | .ok i => exec i s
  | .error _ => .next (s.latchFault (.illegalCommand (opField s.cmd)))

/-- A host write of `CMD`: ignored while a fault is latched (`60_exceptions.md` R433), remembered as a violation while
`BUSY` (R425), latched as `IllegalCommand` when it does not decode (R424, log 7), else an issue (`10_state.md` R33). -/
def writeCmd (s : State) (w : Word) : State :=
  if s.fault.isSome then s
  else if s.busy then { s with overrun := true }
  else
    match decode w with
    | .ok _ => s.issue w
    | .error _ => s.latchFault (.illegalCommand (opField w))

/-- The bits the running command's completion would consume (`70_reset_and_hazards.md` R461). -/
def bitsOfCompletion (s : State) : Nat :=
  match engineTurn s with
  | .next t => t.source.pos - s.source.pos
  | .fault _ => 0
  | .refused _ => 0

/-- The bits the aborted command had consumed: a draw from 0 to the number its completion would consume
(`70_reset_and_hazards.md` R461, log 5). -/
def abortDraw (s : State) : Nat := Config.softResetDraw s.draws % (bitsOfCompletion s + 1)

/-- The bits of the new run after a soft reset, when the host has presented no other sequence. -/
def softResetRest (s : State) : List Bool :=
  if s.busy then s.source.rest.drop (abortDraw s) else s.source.rest

/-- `SOFT_RESET` (`46_control.md` R404, `70_reset_and_hazards.md` R461). -/
def softReset (s : State) : State :=
  { s.restart (s.presented.getD (softResetRest s)) with draws := if s.busy then s.draws + 1 else s.draws }

/-- A host write of `CTRL` (`10_state.md` R35, `46_control.md` R404). -/
def writeCtrl (s : State) (v : Word) : State :=
  if v.getLsbD 1 then softReset s else { s with irqEn := v.getLsbD 0 }

/-- A host write of `STATUS`: bit 1 clears `DONE` (`10_state.md` R34). -/
def writeStatus (s : State) (v : Word) : State :=
  if v.getLsbD 1 then { s with done := false } else s

/-- Write ARG `i` (`10_state.md` R31). -/
def Args.put (a : Args) (i : Nat) (v : Word) : Args :=
  match i with
  | 0 => { a with arg0 := v }
  | 1 => { a with arg1 := v }
  | 2 => { a with arg2 := v }
  | 3 => { a with arg3 := v }
  | 4 => { a with arg4 := v }
  | 5 => { a with arg5 := v }
  | 6 => { a with arg6 := v }
  | 7 => { a with arg7 := v }
  | _ => a

/-- Read ARG `i` (`10_state.md` R31). -/
def Args.read (a : Args) (i : Nat) : Word :=
  match i with
  | 0 => a.arg0
  | 1 => a.arg1
  | 2 => a.arg2
  | 3 => a.arg3
  | 4 => a.arg4
  | 5 => a.arg5
  | 6 => a.arg6
  | 7 => a.arg7
  | _ => 0#32

/-- A write of one of the registers that only store (`10_state.md` R31, R40 to R43); any other index stores nothing. -/
def HostRegs.put (r : HostRegs) (index : Nat) (v : Word) : HostRegs :=
  if 0x08 ≤ index ∧ index ≤ 0x0F then { r with args := Args.put r.args (index - 0x08) v }
  else if index = 0x13 then { r with distMult := v }
  else if index = 0x14 then { r with streamId := v }
  else if index = 0x15 then { r with bitDepth := v.extractLsb' 0 6 }
  else if index = 0x16 then { r with wp0 := v &&& wp0Mask }
  else if index = 0x17 then { r with wp1 := v &&& wp1Mask }
  else r

/-- A host write of the register at a word index (`10_state.md` R30, R31). -/
def State.writeReg (s : State) (index : Nat) (v : Word) : State :=
  if index = 0x01 then writeCmd s v
  else if index = 0x02 then writeStatus s v
  else if index = 0x03 then writeCtrl s v
  else { s with regs := HostRegs.put s.regs index v }

/-- What a host read of the register at a word index returns; a read changes nothing (`10_state.md` R30, R31,
`20_memory.md` R87). -/
def State.readReg (s : State) (index : Nat) : Word :=
  match index with
  | 0x00 => Config.idValue
  | 0x02 => s.statusWord
  | 0x03 => s.ctrlWord
  | 0x04 => s.faultInfoWord
  | 0x05 => s.bitpos.extractLsb' 0 32
  | 0x06 => s.bitpos.extractLsb' 32 32
  | 0x10 => s.result0
  | 0x11 => s.result1
  | 0x12 => s.result2
  | 0x13 => s.regs.distMult
  | 0x14 => s.regs.streamId
  | 0x15 => 0#26 ++ s.regs.bitDepth
  | 0x16 => s.regs.wp0
  | 0x17 => s.regs.wp1
  | 0x18 => Word.ofNat s.nbMeta
  | 0x19 => Word.ofNat s.channels.length
  | _ => if 0x08 ≤ index ∧ index ≤ 0x0F then Args.read s.regs.args (index - 0x08) else 0#32

/-- What an action of the host other than waiting does to the block. -/
def State.hostAction (s : State) (a : Input) : State :=
  match a with
  | .write index v => s.writeReg index v
  | .wait => s
  | .present bits => { s with presented := some bits }
  | .hardReset bits => s.restart bits

end Sys2Proof.Machine
end

