-- ==== Sys2Proof/Machine/Step.lean ====
section
/-! DEFINITION. One step of the machine: the host's next action, or the engine's turn (log 1). -/

namespace Sys2Proof.Machine

/-- One step. The host's next action is taken; where the host waits, or has nothing more to do, the running command
runs to its end. With no command running and nothing to do the run has ended and the step changes nothing
(`70_reset_and_hazards.md` R465, R475, log 1). -/
def step (s : State) : Host.Outcome State Fault Refusal :=
  match s.inputs with
  | [] => if s.busy then engineTurn s else .next s
  | .wait :: more =>
    if s.busy then engineTurn { s with inputs := more } else .next { s with inputs := more }
  | a :: more => .next (({ s with inputs := more } : State).hostAction a)

/-- The state in which the word `w` of `nbits` bits has just been issued and the engine moves next (log 2). -/
def State.withFetchWord (s : State) (nbits w : Nat) : State :=
  { s.issue (Word.ofNat (w % 2 ^ nbits)) with inputs := .wait :: s.inputs }

end Sys2Proof.Machine
end

