-- ==== Sys2Proof/Safety.lean ====
section
/-! DEFINITION. What the statements call a good state: the invariants of the block, one predicate for each unit; and
the encoder's side of the bitstream fields and of the reversible transforms, which the spec gives for reference only. -/

namespace Sys2Proof.Machine

/-! ## Invariants -/

/-- The status bits agree: no command runs while a fault is latched or `DONE` is set, and a CMD-while-BUSY violation
is only remembered while a command runs (`10_state.md` R34, R72, `60_exceptions.md` R425, R433). -/
def StatusInv (s : State) : Prop :=
  (s.busy = true → s.fault = none ∧ s.done = false) ∧ (s.overrun = true → s.busy = true)

/-- The bits of `WP0` and `WP1` that read 0 (`10_state.md` R43) hold 0, in the registers and in the latched copies. -/
def ReservedInv (s : State) : Prop :=
  s.regs.wp0 &&& wp0Mask = s.regs.wp0 ∧ s.regs.wp1 &&& wp1Mask = s.regs.wp1 ∧
  s.latched.wp0 &&& wp0Mask = s.latched.wp0 ∧ s.latched.wp1 &&& wp1Mask = s.latched.wp1

/-- Every sparse store of the state has its canonical form (log 26): the samples of every record, inside the record,
and the window of every slot. -/
def MemoryInv (s : State) : Prop :=
  (∀ ch ∈ s.channels, ch.samplesWf) ∧
  ∀ (i : Nat) (st : Stream), s.slots[i]? = some (some st) → windowWf st.coder.window

/-- How long the channel list is once a transform is undone on a list of `n` records (`45_transforms.md` R370, R376,
R381). -/
def undoneLength (t : Transform) (n : Nat) : Nat :=
  match t with
  | .rct _ _ => n
  | .palette _ k _ _ _ => n + k - 2
  | .squeeze _ k _ _ _ => n - k

/-- The residuals of a squeeze stand after its averages (`45_transforms.md` R375). -/
def residualsAfter (t : Transform) : Prop :=
  match t with
  | .squeeze b k _ _ rPos => b + k ≤ rPos
  | _ => True

/-- A transform list, last record first, whose undoing keeps `nbMeta` within the list of `n` records. -/
def UndoChain : List TransformRecord → Nat → Prop
  | [], _ => True
  | t :: more, n =>
    residualsAfter t.transform ∧ t.nbMetaBefore ≤ undoneLength t.transform n ∧
      UndoChain more (undoneLength t.transform n)

/-- While no fault is latched: at most `MAX_CHANNELS` records (`10_state.md` R60), at most `ARENA_CAPACITY` samples
(R62), and `nbMeta` at most the list's length (R61), now and after every undoing. -/
def ListInv (s : State) : Prop :=
  s.fault = none →
    s.channels.length ≤ Config.maxChannels ∧ totalArea s.channels ≤ Config.arenaCapacity ∧
      s.nbMeta ≤ s.channels.length ∧ UndoChain s.transforms.reverse s.channels.length

/-- A node of a tree of `count` nodes is legal at index `i` (`10_state.md` R48, `43_ma_tree.md` R272, R274). -/
def NodeWf (count i : Nat) : Node → Prop
  | .decision property value leftChild rightChild =>
    property ≤ 255 ∧ inI32 value = true ∧ i < leftChild ∧ leftChild < rightChild ∧ rightChild < count
  | .leaf l => inI32 l.offset = true ∧ 1 ≤ l.multiplier ∧ l.multiplier ≤ 2 ^ 31 - 1

/-- A tree store's contents (`10_state.md` R47, R48, `43_ma_tree.md` R272, R274). -/
def TreeWf (nodes : List Node) : Prop :=
  nodes ≠ [] ∧ nodes.length ≤ Config.maxNodes ∧
    ∀ (i : Nat) (n : Node), nodes[i]? = some n → NodeWf nodes.length i n

/-- The contexts of a tree's leaves, in node order (`43_ma_tree.md` R273). -/
def leafContexts (nodes : List Node) : List Nat :=
  nodes.filterMap fun n =>
    match n with
    | .leaf l => some l.context
    | .decision _ _ _ _ => none

/-- A hybrid integer configuration for streams of `logAlphabetSize` `L` (`40_hybrid_integer.md` R150). -/
def HybridConfig.Wf (L : Nat) (c : HybridConfig) : Prop :=
  c.msbInToken + c.lsbInToken ≤ c.splitExponent ∧ c.splitExponent ≤ L

/-- The distributions of a stream (`10_state.md` R45, `41_symbol_distribution.md` R170 to R172). -/
def CodingWf : Coding → Prop
  | .ans L ds =>
    5 ≤ L ∧ L ≤ 8 ∧ ∀ d ∈ ds, d.config.Wf L ∧ d.freqs.length = 2 ^ L ∧ d.table.length = 2 ^ L ∧
      ∀ e ∈ d.table, e.symbol < 2 ^ L
  | .prefixCode ds => ∀ d ∈ ds, d.config.Wf 15

/-- The configuration part of a slot (`10_state.md` R45): every context has a cluster and every cluster a legal
distribution, and a copy is at least 3 long (`42_entropy_stream.md` R232, R240). -/
def StreamWf (c : StreamConfig) : Prop :=
  0 < c.readableContexts ∧ (∀ k ∈ c.clusterMap, k < c.coding.numClusters) ∧ CodingWf c.coding ∧
    ∀ z, c.lz77 = some z → 3 ≤ z.minLength ∧ z.lengthConfig.Wf 8

/-- Every tree store and every slot holds something legal. -/
def StoresInv (s : State) : Prop :=
  (∀ (i : Nat) (nodes : List Node), s.trees[i]? = some (some nodes) → TreeWf nodes) ∧
  ∀ (i : Nat) (st : Stream), s.slots[i]? = some (some st) → StreamWf st.config

/-! ## The encoder's side -/

/-- The bits of an `n`-bit field of value `v`, first read first (`20_memory.md` R83). -/
def fieldBits (n v : Nat) : List Bool := tabulate n v.testBit

/-- The bits of a prefix code of `l` bits, first read first (`20_memory.md` R85). -/
def codeBits (l c : Nat) : List Bool := (fieldBits l c).reverse

/-- The forward RCT (`45_transforms.md` R372), reference only: `(a, b, c)` from `(o0, o1, o2)`. -/
def forwardRct (type : Nat) (o0 o1 o2 : Int) : Int × Int × Int :=
  if type = 6 then
    let b := o0 - o2
    let tmp := o2 + asr b 1
    let c := o1 - tmp
    (tmp + asr c 1, b, c)
  else
    (o0,
      if type / 2 = 1 then o1 - o0 else if type / 2 = 2 then o1 - asr (o0 + o2) 1 else o1,
      if type % 2 = 1 then o2 - o0 else o2)

/-- The averages of the forward squeeze of a line (`45_transforms.md` R390), reference only. -/
def forwardAverages : List Int → List Int
  | [] => []
  | [a] => [a]
  | a :: b :: more => (a - tdiv (a - b) 2) :: forwardAverages more

/-- The residuals of the forward squeeze of a line (`45_transforms.md` R390), reference only; `left` is the value
before the line's rest, if there is one. -/
def forwardResiduals (left : Option Int) : List Int → List Int
  | a :: b :: more =>
    let avg := a - tdiv (a - b) 2
    ((a - b) - smoothTendency (left.getD avg) avg ((forwardAverages more).headD avg))
      :: forwardResiduals (some b) more
  | _ => []

/-- The bits of a hybrid integer configuration `c` for streams of `logAlphabetSize` `L` (`40_hybrid_integer.md` R151). -/
def configBits (L : Nat) (c : HybridConfig) : List Bool :=
  fieldBits (Nat.clog 2 (L + 1)) c.splitExponent ++
    if c.splitExponent = L then []
    else fieldBits (Nat.clog 2 (c.splitExponent + 1)) c.msbInToken ++
      fieldBits (Nat.clog 2 (c.splitExponent - c.msbInToken + 1)) c.lsbInToken

/-! ## Encoded headers

A parse is stated from the encoder's side: which bits it reads, whatever follows them, and what it answers. -/

/-- The parse `m` reads exactly `bits`, whatever follows them, and answers `v`. -/
def Parses {α : Type} (m : Parse α) (bits : List Bool) (v : α) : Prop :=
  ∀ rest pos, m { rest := bits ++ rest, pos := pos } = .ok v { rest := rest, pos := pos + bits.length }

/-- The parse `m` reads exactly `bits`, whatever follows them, and then faults with `f`. -/
def Rejects {α : Type} (m : Parse α) (bits : List Bool) (f : BlockFault) : Prop :=
  ∀ rest pos, m { rest := bits ++ rest, pos := pos } =
    .error (.raise f) { rest := rest, pos := pos + bits.length }

/-- `bits` is a coding of `v` by `readU32` over a table: a selector, then the extra bits above the entry's base
(`30_encoding.md` R110). -/
def U32Bits (table : List (Nat × Nat)) (bits : List Bool) (v : Nat) : Prop :=
  ∃ sel base n extra, table[sel]? = some (base, n) ∧ extra < 2 ^ n ∧ v = base + extra ∧
    bits = fieldBits 2 sel ++ fieldBits n extra

/-- What `InverseMtf` undoes (`42_entropy_stream.md` R234): each id as its place in the list, to whose front it then
moves. -/
def moveToFront : List Nat → List Nat → List Nat
  | _, [] => []
  | mtf, id :: more => mtf.idxOf id :: moveToFront (id :: mtf.erase id) more

/-- The bits that `ReadCLCode` reads as `v` (`30_encoding.md` R113), first read first. -/
def clCodeBits (v : Nat) : List Bool :=
  match v with
  | 0 => [false, false]
  | 1 => [true, true, true, false]
  | 2 => [true, true, false]
  | 3 => [false, true]
  | 4 => [true, false]
  | _ => [true, true, true, true]

/-- The code space that codes of the lengths `lens` take, of the `2 ^ n` of a complete code; a length 0 is no code
(`41_symbol_distribution.md` R193 and R194 with `n` 5 and 15). -/
def codeSpace (n : Nat) (lens : List Nat) : Nat := (lens.map fun l => if l = 0 then 0 else 2 ^ n / 2 ^ l).sum

/-- What a complex prefix code's lengths are written in (`41_symbol_distribution.md` R194): one length, or a row of
codes 16 or of codes 17 with the values of their extra bits. -/
inductive LengthGroup where
  | literal (len : Nat)
  | repeatPrevious (digits : List Nat)
  | repeatZero (digits : List Nat)

/-- The number of lengths that a row of repeat codes with `extra` extra bits each stands for: each code after the
first multiplies the run (`41_symbol_distribution.md` R194). -/
def runLength (extra : Nat) (digits : List Nat) : Nat :=
  digits.foldl (fun run d => (if 0 < run then (run - 2) * 2 ^ extra else 0) + d + 3) 0

/-- The code-length symbols of a group. -/
def LengthGroup.symbols : LengthGroup → List Nat
  | .literal len => [len]
  | .repeatPrevious digits => digits.map fun _ => 16
  | .repeatZero digits => digits.map fun _ => 17

/-- The bits of a group, where `code p` are the bits of code-length symbol `p`. -/
def LengthGroup.bits (code : Nat → List Bool) : LengthGroup → List Bool
  | .literal len => code len
  | .repeatPrevious digits => digits.flatMap fun d => code 16 ++ fieldBits 2 d
  | .repeatZero digits => digits.flatMap fun d => code 17 ++ fieldBits 3 d

/-- The lengths that groups stand for, where `prev` is the last length other than 0 before them. -/
def groupLengths (prev : Nat) : List LengthGroup → List Nat
  | [] => []
  | .literal len :: more => len :: groupLengths (if len = 0 then prev else len) more
  | .repeatPrevious digits :: more => List.replicate (runLength 2 digits) prev ++ groupLengths prev more
  | .repeatZero digits :: more => List.replicate (runLength 3 digits) 0 ++ groupLengths prev more

/-- Groups as R194 reads them: lengths up to 15, rows that are not empty with digits of their width, and no two rows of
one code in a row, which would be one. -/
def groupsWf : List LengthGroup → Prop
  | [] => True
  | .literal len :: more => len < 16 ∧ groupsWf more
  | .repeatPrevious digits :: more =>
    digits ≠ [] ∧ (∀ d ∈ digits, d < 4) ∧ (∀ digits', more.head? ≠ some (.repeatPrevious digits')) ∧ groupsWf more
  | .repeatZero digits :: more =>
    digits ≠ [] ∧ (∀ d ∈ digits, d < 8) ∧ (∀ digits', more.head? ≠ some (.repeatZero digits')) ∧ groupsWf more

/-- A hybrid configuration that has an encoding of its own (`40_hybrid_integer.md` R151): with `splitExponent = L` the
other fields are not written and are 0. -/
def HybridConfig.Written (L : Nat) (c : HybridConfig) : Prop :=
  c.Wf L ∧ (c.splitExponent = L → c.msbInToken = 0 ∧ c.lsbInToken = 0)

/-! ## What the host can write, and what it can issue -/

/-- The bits a host write stores in the register at a word index, for the registers that only store (`10_state.md` R31,
R40 to R43). -/
def writableBits (index : Nat) : Word :=
  if 0x08 ≤ index ∧ index ≤ 0x0F ∨ index = 0x13 ∨ index = 0x14 then 0xFFFFFFFF#32
  else if index = 0x15 then 0x0000003F#32
  else if index = 0x16 then 0x3FFFFFFF#32
  else if index = 0x17 then 0x00FFFF1F#32
  else 0#32

/-- `u` is reached from `s` by commands that complete, in any order and with any operands, none of them `CHL_CLEAR` or
`XF_APPLY`; `added` lists the shapes of the records that `CHL_APPEND` added (`45_transforms.md` R364). -/
inductive Session (s : State) : List (Nat × Nat × Int × Int) → State → Prop where
  | start : Session s [] s
  | append {added : List (Nat × Nat × Int × Int)} {t u : State} {r : HostRegs} :
    Session s added t → exec .chlAppend { t with latched := r } = .next u → u.fault = none →
      Session s (added ++ [(r.args.arg0.toNat, r.args.arg1.toNat, r.args.arg2.toInt, r.args.arg3.toInt)]) u
  | other {added : List (Nat × Nat × Int × Int)} {t u : State} {r : HostRegs} (i : Instr) :
    i ∉ [.chlAppend, .chlClear, .xfApply] → Session s added t →
      exec i { t with latched := r } = .next u → u.fault = none → Session s added u

/-- Where the permutations of an RCT put outputs 0, 1 and 2 (`45_transforms.md` R371). -/
def rctOffsets : List (Nat × Nat × Nat) := [(0, 1, 2), (1, 2, 0), (2, 0, 1), (0, 2, 1), (1, 0, 2), (2, 1, 0)]

/-- The width, height and shifts of a record (`44_channel_decoder.md` R302). -/
def Channel.shape (ch : Channel) : Nat × Nat × Int × Int := (ch.width, ch.height, ch.hshift, ch.vshift)

/-! ## Reading a channel line by line, and a pixel's neighbours -/

/-- Sample `pos` of line `line`: a row of a horizontal squeeze, a column of a vertical one (`45_transforms.md` R378). -/
def Channel.lineSample (horizontal : Bool) (ch : Channel) (line pos : Nat) : Option Word :=
  if horizontal then ch.sample pos line else ch.sample line pos

/-- The length of the lines of a record. -/
def Channel.lineLength (horizontal : Bool) (ch : Channel) : Nat := if horizontal then ch.width else ch.height

/-- The number of lines of a record. -/
def Channel.lineCount (horizontal : Bool) (ch : Channel) : Nat := if horizontal then ch.height else ch.width

/-- The neighbours of a pixel as values (`44_channel_decoder.md` R310). -/
structure Neighbours where
  W : Int
  N : Int
  NW : Int
  NE : Int
  WW : Int
  NN : Int
  NEE : Int

/-- The neighbour table of `44_channel_decoder.md` R310 over known samples `f` of a channel of width `w`. -/
def neighboursOf (f : Nat → Nat → Int) (w x y : Nat) : Neighbours :=
  let W := if 0 < x then f (x - 1) y else if 0 < y then f x (y - 1) else 0
  let N := if 0 < y then f x (y - 1) else W
  let NE := if x + 1 < w ∧ 0 < y then f (x + 1) (y - 1) else N
  { W := W
    N := N
    NW := if 0 < x ∧ 0 < y then f (x - 1) (y - 1) else W
    NE := NE
    WW := if 1 < x then f (x - 2) y else W
    NN := if 1 < y then f x (y - 2) else N
    NEE := if x + 2 < w ∧ 0 < y then f (x + 2) (y - 1) else NE }

/-- Every sample before `(x, y)` in row-major order holds the value `f` gives. -/
def KnownBefore (p : Plane) (f : Nat → Nat → Int) (x y : Nat) : Prop :=
  ∀ x' y', x' < p.w → y' < y ∨ y' = y ∧ x' < x → p.at x' y' = .ok (f x' y')

end Sys2Proof.Machine
end

