-- ==== Sys2Proof/WellFormed.lean ====
section
/-! DEFINITION. When the operand words of a command are well formed by themselves, whatever the state of the block:
the operand checks of the command rules that read no state. Every command word of the table is well formed, since
it holds no operand (`30_encoding.md` R100). -/

namespace Sys2Proof

/-- The operand checks that depend on the operand words alone, command by command. -/
def Instr.wf (i : Instr) (a : Args) : Bool :=
  match i with
  | .nop => true
  | .hybExpand =>
    Machine.configFits a.arg1
  | .unpackSigned => true
  | .hybConfigRead => Machine.isLogAlphabetSize a.arg0
  | .esInit => Machine.isSlot a.arg0 && a.arg1 != 0#32 && a.arg1.toNat ≤ Config.maxContexts && Machine.zeroFrom a.arg2 1
  | .esRead => Machine.isSlot a.arg0
  | .esValidate => Machine.isSlot a.arg0
  | .esClone => Machine.isSlot a.arg0 && Machine.isSlot a.arg1
  | .esFree => Machine.isSlot a.arg0
  | .treeLoad => Machine.isTree a.arg0 && Machine.isSlot a.arg1
  | .treeCompact => Machine.isTree a.arg0 && Machine.zeroFrom a.arg3 1
  | .treeWalk => Machine.isTree a.arg0
  | .chlClear => true
  | .chlAppend => a.arg0.toNat ≤ Config.maxDimension && a.arg1.toNat ≤ Config.maxDimension
  | .chDecode => Machine.isTree a.arg1 && Machine.isSlot a.arg2
  | .chRead => true
  | .chWrite => true
  | .chInfo => true
  | .xfPushRct => a.arg1.toNat < 42
  | .xfPushPalette => a.arg1 != 0#32 && a.arg4.toNat ≤ 13
  | .xfPushSqueeze => a.arg1 != 0#32 && Machine.zeroFrom a.arg2 2
  | .xfApply => true

end Sys2Proof
end

