-- ==== Sys2Proof/Certificates/Slice0/Obligations.lean ====
section
/-! DEFINITION. The statements for the provers. A statement about a command says, for every state and operands, what
`exec` answers; a latched fault is `State.latchFault`, which `FaultEntry` states. -/

open Sys2Proof Sys2Proof.Machine

/-! ## Encoding -/

/-- `30_encoding.md` R102: the 22 command words of the table, written out, decode to their commands. -/
def Obligations.CommandWordsDecode : Prop :=
  decode 0x00000000#32 = .ok .nop ∧ decode 0x00000001#32 = .ok .hybExpand ∧
  decode 0x00000002#32 = .ok .unpackSigned ∧ decode 0x00000003#32 = .ok .hybConfigRead ∧
  decode 0x00000010#32 = .ok .esInit ∧ decode 0x00000011#32 = .ok .esRead ∧
  decode 0x00000012#32 = .ok .esValidate ∧ decode 0x00000013#32 = .ok .esClone ∧
  decode 0x00000014#32 = .ok .esFree ∧ decode 0x00000020#32 = .ok .treeLoad ∧
  decode 0x00000021#32 = .ok .treeCompact ∧ decode 0x00000022#32 = .ok .treeWalk ∧
  decode 0x00000030#32 = .ok .chlClear ∧ decode 0x00000031#32 = .ok .chlAppend ∧
  decode 0x00000032#32 = .ok .chDecode ∧ decode 0x00000033#32 = .ok .chRead ∧
  decode 0x00000034#32 = .ok .chWrite ∧ decode 0x00000035#32 = .ok .chInfo ∧
  decode 0x00000040#32 = .ok .xfPushRct ∧ decode 0x00000041#32 = .ok .xfPushPalette ∧
  decode 0x00000042#32 = .ok .xfPushSqueeze ∧ decode 0x00000043#32 = .ok .xfApply

/-- `30_encoding.md` R100, R101: a word decodes to a command exactly when it is that command's word, so no word but
the 22 of the table is a command. -/
def Obligations.DecodeInvertsEncode : Prop :=
  ∀ (w : Word) (i : Instr), decode w = .ok i ↔ w = encode i

/-! ## The host's side -/

/-- `10_state.md` R33: a write of a command word to `CMD` of an idle block with no fault latched issues it; `CMD` reads 0. -/
def Obligations.CmdWriteIssuesCommand : Prop :=
  ∀ (s : State) (w : Word) (i : Instr), s.fault = none → s.busy = false → decode w = .ok i →
    s.writeReg 0x01 w =
      { s with cmd := w, latched := s.regs, busy := true, done := false, overrun := false } ∧
    (s.writeReg 0x01 w).latched.args = s.regs.args ∧
    s.readReg 0x01 = 0#32 ∧ (s.writeReg 0x01 w).readReg 0x01 = 0#32

/-- `60_exceptions.md` R424: an illegal word written to `CMD` of an idle block latches cause 3 with its `op`, and
changes nothing else. That the latch comes at the write, and that `DONE` keeps its value, is log 7. -/
def Obligations.IllegalCommandWord : Prop :=
  ∀ (s : State) (w : Word), s.fault = none → s.busy = false → s.overrun = false →
    (w >>> 8 ≠ 0#32 ∨
      w.toNat % 256 ∉ [0x00, 0x01, 0x02, 0x03, 0x10, 0x11, 0x12, 0x13, 0x14, 0x20, 0x21, 0x22, 0x30, 0x31, 0x32,
        0x33, 0x34, 0x35, 0x40, 0x41, 0x42, 0x43]) →
    s.writeReg 0x01 w = { s with fault := some (.illegalCommand (w.extractLsb' 0 8)) } ∧
    ((s.writeReg 0x01 w).readReg 0x02).extractLsb' 8 8 = 3#8 ∧
    (s.writeReg 0x01 w).readReg 0x04 = w &&& 0xFF#32

/-- `60_exceptions.md` R433: while a fault is latched a `CMD` write changes nothing, the registers that store still
store, `IRQ_EN` still follows `CTRL`, and `CTRL` bit 1 still resets. -/
def Obligations.FaultedBlockIgnoresCommands : Prop :=
  ∀ (s : State) (f : BlockFault), s.fault = some f →
    (∀ w, s.writeReg 0x01 w = s) ∧
    (∀ index v, writableBits index ≠ 0#32 →
      (s.writeReg index v).readReg index = v &&& writableBits index ∧ (s.writeReg index v).fault = some f) ∧
    (∀ v, v.getLsbD 1 = false → s.writeReg 0x03 v = { s with irqEn := v.getLsbD 0 }) ∧
    (∀ v, v.getLsbD 1 = true → (s.writeReg 0x03 v).fault = none ∧ (s.writeReg 0x03 v).readReg 0x02 = 0#32)

/-- `60_exceptions.md` R425: a `CMD` write while `BUSY` issues nothing; at the end of the running command its own fault
is latched as usual, else its results are written and `ContractViolation(BUSY)` is latched with `DONE` 0. The first
clause is for every word: that an illegal word written while `BUSY` is R425's violation only, and latches no
`IllegalCommand` of R424, is the model's reading (log 7). -/
def Obligations.CommandWhileBusy : Prop :=
  (∀ (s : State) (w : Word), s.fault = none → s.busy = true → s.writeReg 0x01 w = { s with overrun := true }) ∧
  ∀ (i : Instr) (s t : State), s.fault = none → s.done = false → exec i { s with overrun := false } = .next t →
    exec i { s with overrun := true } =
      .next (if t.fault = none then { t with fault := some (.contractViolation .busy), done := false } else t)

/-- `10_state.md` R30, R31, R37, R40 to R43: what every register reads, that reserved indices read 0 and ignore
writes, that read-only registers ignore writes, and that a register that stores reads back the bits it has, while every
other register reads as before. -/
def Obligations.RegisterFileMap : Prop :=
  ∀ (s : State),
    (s.readReg 0x00 = 0x4A584C07#32 ∧ s.readReg 0x01 = 0#32 ∧
      (s.source.pos < 2 ^ 64 → (s.readReg 0x05).toNat + 2 ^ 32 * (s.readReg 0x06).toNat = s.source.pos) ∧
      s.readReg 0x08 = s.regs.args.arg0 ∧ s.readReg 0x09 = s.regs.args.arg1 ∧ s.readReg 0x0A = s.regs.args.arg2 ∧
      s.readReg 0x0B = s.regs.args.arg3 ∧ s.readReg 0x0C = s.regs.args.arg4 ∧ s.readReg 0x0D = s.regs.args.arg5 ∧
      s.readReg 0x0E = s.regs.args.arg6 ∧ s.readReg 0x0F = s.regs.args.arg7 ∧
      s.readReg 0x10 = s.result0 ∧ s.readReg 0x11 = s.result1 ∧ s.readReg 0x12 = s.result2 ∧
      s.readReg 0x13 = s.regs.distMult ∧ s.readReg 0x14 = s.regs.streamId ∧
      s.readReg 0x15 = s.regs.bitDepth.setWidth 32 ∧ s.readReg 0x16 = s.regs.wp0 ∧ s.readReg 0x17 = s.regs.wp1 ∧
      s.readReg 0x18 = BitVec.ofNat 32 s.nbMeta ∧ s.readReg 0x19 = BitVec.ofNat 32 s.channels.length) ∧
    (∀ index v, index = 0x07 ∨ 0x1A ≤ index → s.readReg index = 0#32 ∧ s.writeReg index v = s) ∧
    (∀ index v, index ∈ [0x00, 0x04, 0x05, 0x06, 0x10, 0x11, 0x12, 0x18, 0x19] → s.writeReg index v = s) ∧
    ∀ index v, writableBits index ≠ 0#32 →
      (s.writeReg index v).readReg index = v &&& writableBits index ∧
      ∀ j, j ≠ index → (s.writeReg index v).readReg j = s.readReg j

/-- `10_state.md` R31, R34, R35, `60_exceptions.md` R420, R421, R430: the fields of `STATUS`, `FAULT_INFO` and `CTRL`, the
write of 1 that clears `DONE`, and the level of `IRQ`. That this write acts while a command runs and while a fault is
latched too, which the list of R433 does not name, is log 8. -/
def Obligations.StatusFieldsAndInterrupt : Prop :=
  ∀ (s : State),
    (s.readReg 0x02).getLsbD 0 = s.busy ∧ (s.readReg 0x02).getLsbD 1 = s.done ∧
    (s.readReg 0x02).getLsbD 2 = s.fault.isSome ∧ (s.readReg 0x02).extractLsb' 3 5 = 0#5 ∧
    (s.fault = none → (s.readReg 0x02).extractLsb' 8 8 = 0#8 ∧ s.readReg 0x04 = 0#32) ∧
    (∀ f, s.fault = some f →
      (s.readReg 0x02).extractLsb' 8 8 = f.cause ∧ s.readReg 0x04 = f.info.setWidth 32) ∧
    (s.readReg 0x02).extractLsb' 16 16 = 0#16 ∧
    (∀ v, v.getLsbD 1 = true → s.writeReg 0x02 v = { s with done := false }) ∧
    (∀ v, v.getLsbD 1 = false → s.writeReg 0x02 v = s) ∧
    s.readReg 0x03 = (if s.irqEn then 1#32 else 0#32) ∧
    (∀ v, v.getLsbD 1 = false → s.writeReg 0x03 v = { s with irqEn := v.getLsbD 0 }) ∧
    s.irq = ((s.readReg 0x03).getLsbD 0 && ((s.readReg 0x02).getLsbD 1 || (s.readReg 0x02).getLsbD 2))

/-- `60_exceptions.md` R420, R421: the cause code and the sub-code of every fault. -/
def Obligations.FaultCodes : Prop :=
  (∀ e, (BlockFault.invalidBitstream e).cause = 1#8) ∧ BlockFault.truncatedInput.cause = 2#8 ∧
  (∀ op, (BlockFault.illegalCommand op).cause = 3#8) ∧ (∀ e, (BlockFault.contractViolation e).cause = 4#8) ∧
  BlockFault.resourceExhausted.cause = 5#8 ∧
  (BlockFault.invalidBitstream .badHybridConfig).info = 0x0101#16 ∧
  (BlockFault.invalidBitstream .hybridTooLong).info = 0x0102#16 ∧
  (BlockFault.invalidBitstream .valueOverflow).info = 0x0103#16 ∧
  (BlockFault.invalidBitstream .badDistribution).info = 0x0104#16 ∧
  (BlockFault.invalidBitstream .badPrefixCode).info = 0x0105#16 ∧
  (BlockFault.invalidBitstream .nestedLz77).info = 0x0106#16 ∧
  (BlockFault.invalidBitstream .badClusterMap).info = 0x0107#16 ∧
  (BlockFault.invalidBitstream .ansFinalState).info = 0x0108#16 ∧
  (BlockFault.invalidBitstream .lz77Overflow).info = 0x0109#16 ∧
  (BlockFault.invalidBitstream .treeTooLarge).info = 0x010A#16 ∧
  (BlockFault.invalidBitstream .badProperty).info = 0x010B#16 ∧
  (BlockFault.invalidBitstream .badPredictor).info = 0x010C#16 ∧
  (BlockFault.invalidBitstream .badMultiplier).info = 0x010D#16 ∧
  (BlockFault.invalidBitstream .badTransform).info = 0x010E#16 ∧
  (BlockFault.invalidBitstream .rctShape).info = 0x010F#16 ∧
  (BlockFault.invalidBitstream .squeezeShape).info = 0x0110#16 ∧
  (BlockFault.invalidBitstream .paletteShape).info = 0x0111#16 ∧
  BlockFault.truncatedInput.info = 0x0200#16 ∧
  (∀ op : BitVec 8, (BlockFault.illegalCommand op).info.toNat = op.toNat) ∧
  (BlockFault.contractViolation .badArg).info = 0x0401#16 ∧
  (BlockFault.contractViolation .badSlot).info = 0x0402#16 ∧
  (BlockFault.contractViolation .undefinedSample).info = 0x0403#16 ∧
  (BlockFault.contractViolation .decodedTwice).info = 0x0404#16 ∧
  (BlockFault.contractViolation .badBitdepth).info = 0x0405#16 ∧
  (BlockFault.contractViolation .wpProperty).info = 0x0406#16 ∧
  (BlockFault.contractViolation .busy).info = 0x0407#16 ∧
  BlockFault.resourceExhausted.info = 0x0500#16

/-- `10_state.md` R39, `70_reset_and_hazards.md` R470: an issue latches the registers; a write of one of them while
`BUSY` changes nothing else, a command gives the same result whatever the registers hold while it runs, and the next
issue latches what was written. -/
def Obligations.OperandsLatchedAtIssue : Prop :=
  (∀ (s : State) (w : Word), (s.issue w).latched = s.regs) ∧
  (∀ (s : State) (index : Nat) (v : Word), writableBits index ≠ 0#32 →
    ∃ r, s.writeReg index v = { s with regs := r }) ∧
  ∀ (i : Instr) (s t : State) (r : HostRegs), exec i s = .next t →
    exec i { s with regs := r } = .next { t with regs := r }

/-- `46_control.md` R404, `70_reset_and_hazards.md` R461: a soft reset leaves the reset state with a new run: the bits
the host has presented, else those not consumed yet. While `BUSY`, the running command's effects are lost and it has
consumed some number of bits from 0 to what its completion would consume (a free value, log 5). -/
def Obligations.SoftReset : Prop :=
  (∀ (s : State) (v : Word), v.getLsbD 1 = true → s.busy = false →
    s.writeReg 0x03 v =
      { State.reset with
        source := { rest := s.presented.getD s.source.rest, pos := 0 }, inputs := s.inputs, draws := s.draws }) ∧
  ∀ (s : State) (v : Word), v.getLsbD 1 = true → s.busy = true →
    ∃ n d, s.writeReg 0x03 v =
        { State.reset with
          source := { rest := s.presented.getD (s.source.rest.drop n), pos := 0 }, inputs := s.inputs, draws := d } ∧
      ∀ i t, decode s.cmd = .ok i → exec i s = .next t → n ≤ t.source.pos - s.source.pos

/-- `70_reset_and_hazards.md` R460: the reset values of the table, as the host reads them and in the stores, and the
hardware reset from any state. -/
def Obligations.ResetValues : Prop :=
  (State.reset.readReg 0x00 = 0x4A584C07#32 ∧ State.reset.readReg 0x02 = 0#32 ∧ State.reset.readReg 0x03 = 0#32 ∧
    State.reset.readReg 0x04 = 0#32 ∧ State.reset.readReg 0x05 = 0#32 ∧ State.reset.readReg 0x06 = 0#32 ∧
    (∀ k, k < 8 → State.reset.readReg (0x08 + k) = 0#32) ∧ (∀ k, k < 3 → State.reset.readReg (0x10 + k) = 0#32) ∧
    State.reset.readReg 0x13 = 0#32 ∧ State.reset.readReg 0x14 = 0#32 ∧ State.reset.readReg 0x15 = 8#32 ∧
    State.reset.readReg 0x16 = 0x00739D50#32 ∧ State.reset.readReg 0x17 = 0x00CCCD00#32 ∧
    State.reset.readReg 0x18 = 0#32 ∧ State.reset.readReg 0x19 = 0#32) ∧
  (∀ i, i < 8 → State.reset.slots[i]? = some none) ∧ (∀ i, i < 2 → State.reset.trees[i]? = some none) ∧
  State.reset.channels = [] ∧ State.reset.transforms = [] ∧ State.reset.fault = none ∧ State.reset.irq = false ∧
  ∀ (s : State) (bits : List Bool) (more : List Input), s.inputs = .hardReset bits :: more →
    step s = .next { State.reset with source := { rest := bits, pos := 0 }, inputs := more, draws := s.draws }

/-- A step runs the decoded command: where a command is running and the host waits or has nothing more to do, `step` is
`exec` of the command the issued word decodes to; and a command word placed by `withFetchWord` runs at the next step
(log 2). -/
def Obligations.StepRunsDecodedCommand : Prop :=
  (∀ (s : State) (i : Instr), s.busy = true → decode s.cmd = .ok i →
    (s.inputs = [] → step s = exec i s) ∧
    ∀ more, s.inputs = .wait :: more → step s = exec i { s with inputs := more }) ∧
  ∀ (s : State) (i : Instr),
    step (s.withFetchWord 32 (encode i).toNat) =
      exec i { s with cmd := encode i, latched := s.regs, busy := true, done := false, overrun := false }

/-- The host's other actions are taken one a step, in order, before the engine moves; an idle block waits for nothing
(`70_reset_and_hazards.md` R465, R480, log 1). -/
def Obligations.StepTakesHostActions : Prop :=
  (∀ (s : State) (index : Nat) (v : Word) (more : List Input), s.inputs = .write index v :: more →
    step s = .next (({ s with inputs := more } : State).writeReg index v)) ∧
  (∀ (s : State) (bits : List Bool) (more : List Input), s.inputs = .present bits :: more →
    step s = .next { s with inputs := more, presented := some bits }) ∧
  (∀ (s : State) (more : List Input), s.busy = false → s.inputs = .wait :: more →
    step s = .next { s with inputs := more }) ∧
  ∀ (s : State), s.busy = false → s.inputs = [] → step s = .next s

/-! ## Invariants -/

/-- Every step keeps the agreement of the status bits, so that no command runs while a fault is latched or `DONE` is set
(`10_state.md` R34, R72, `60_exceptions.md` R425, R433), and the reserved bits of `WP0` and `WP1` at 0 (`10_state.md`
R43). -/
def Obligations.StatusAndReservedBitsStayLegal : Prop :=
  ∀ (s t : State), step s = .next t → (StatusInv s → StatusInv t) ∧ (ReservedInv s → ReservedInv t)

/-- Every step keeps the canonical form of every sparse store (log 26). -/
def Obligations.StoresStayCanonical : Prop :=
  ∀ (s t : State), MemoryInv s → step s = .next t → MemoryInv t

/-- Every step keeps, while no fault is latched, at most `MAX_CHANNELS` records and `ARENA_CAPACITY` samples, and
`nbMeta` within the list, now and after every undoing (`10_state.md` R60 to R62). -/
def Obligations.ChannelListStaysWithinLimits : Prop :=
  ∀ (s t : State), StatusInv s → ListInv s → step s = .next t → ListInv t

/-- Every step keeps every tree store and every slot legal (`10_state.md` R45, R47, R48, `43_ma_tree.md` R272, R274). -/
def Obligations.TreesAndSlotsStayLegal : Prop :=
  ∀ (s t : State), StoresInv s → step s = .next t → StoresInv t

/-- The state after reset meets the invariants. -/
def Obligations.ResetMeetsInvariants : Prop :=
  StatusInv State.reset ∧ ReservedInv State.reset ∧ MemoryInv State.reset ∧ ListInv State.reset ∧
    StoresInv State.reset

/-- The model never stops: where every tree store and every slot is legal, every command ends in a next state, and so
does every step (log 13). -/
def Obligations.EveryCommandEnds : Prop :=
  ∀ (s : State), StoresInv s → (∀ i, ∃ t, exec i s = .next t) ∧ ∃ t, step s = .next t

/-! ## What commands leave unchanged -/

/-- The frame of every command: the engine writes no host register, and ends with `BUSY` 0 (`10_state.md` R34, R37,
`60_exceptions.md` R422). -/
def Obligations.EngineLeavesHostSide : Prop :=
  ∀ (i : Instr) (s t : State), exec i s = .next t →
    t.regs = s.regs ∧ t.latched = s.latched ∧ t.cmd = s.cmd ∧ t.irqEn = s.irqEn ∧ t.presented = s.presented ∧
      t.inputs = s.inputs ∧ t.draws = s.draws ∧ t.busy = false ∧ t.overrun = false

/-- The frame of every command, unit by unit: which commands may change a tree store, a slot, the channel list,
`nbMeta`, the transform list, the Bit Source and each result register, and which store or slot the operands name
(`10_state.md` R37, R49, R61, `70_reset_and_hazards.md` R471 to R473, and the command rules). -/
def Obligations.UnitsEachCommandChanges : Prop :=
  ∀ (i : Instr) (s t : State), exec i s = .next t →
    (i ≠ .treeLoad → t.trees = s.trees) ∧
    (∀ j : Nat, j ≠ s.latched.args.arg0.toNat → t.trees[j]? = s.trees[j]?) ∧
    (i ∉ [.esInit, .esRead, .esClone, .esFree, .treeLoad, .chDecode] → t.slots = s.slots) ∧
    (∀ j : Nat, i ∈ [.esInit, .esRead, .esFree] → j ≠ s.latched.args.arg0.toNat → t.slots[j]? = s.slots[j]?) ∧
    (∀ j : Nat, i ∈ [.esClone, .treeLoad] → j ≠ s.latched.args.arg1.toNat → t.slots[j]? = s.slots[j]?) ∧
    (∀ j : Nat, i = .chDecode → j ≠ s.latched.args.arg2.toNat → t.slots[j]? = s.slots[j]?) ∧
    (i ∉ [.chlClear, .chlAppend, .chDecode, .chWrite, .xfPushPalette, .xfPushSqueeze, .xfApply] →
      t.channels = s.channels) ∧
    (∀ j : Nat, i ∈ [.chDecode, .chWrite] → j ≠ s.latched.args.arg0.toNat → t.channels[j]? = s.channels[j]?) ∧
    (i ∉ [.chlClear, .xfPushPalette, .xfPushSqueeze, .xfApply] → t.nbMeta = s.nbMeta) ∧
    (i ∉ [.chlClear, .xfPushRct, .xfPushPalette, .xfPushSqueeze, .xfApply] → t.transforms = s.transforms) ∧
    (i ∉ [.hybExpand, .hybConfigRead, .esInit, .esRead, .treeLoad, .chDecode] → t.source = s.source) ∧
    (i ∉ [.hybExpand, .unpackSigned, .hybConfigRead, .esInit, .esRead, .treeLoad, .treeCompact, .treeWalk, .chlAppend,
        .chRead, .chInfo] → t.result0 = s.result0) ∧
    (i ∉ [.treeLoad, .treeCompact, .treeWalk, .chInfo] → t.result1 = s.result1) ∧
    (i ∉ [.treeWalk, .chInfo] → t.result2 = s.result2)

/-- `20_memory.md` R88, R83: whatever a command does and however it ends, the bits it consumed are the next bits, in
order, each once, and `BITPOS` counts them. -/
def Obligations.BitsConsumedInOrder : Prop :=
  ∀ (i : Instr) (s t : State), exec i s = .next t →
    ∃ k, k ≤ s.source.rest.length ∧ t.source = { rest := s.source.rest.drop k, pos := s.source.pos + k }

/-! ## Faults -/

/-- `60_exceptions.md` R422, R426, R427, `10_state.md` R38: taking a fault, what a command that faults leaves, and that
a latched fault stays until a reset. -/
def Obligations.FaultEntry : Prop :=
  (∀ (s : State) (f : BlockFault), s.fault = none →
    s.latchFault f = { s with fault := some f, busy := false, overrun := false }) ∧
  (∀ (i : Instr) (s t : State), s.fault = none → s.done = false → s.overrun = false → exec i s = .next t →
    t.busy = false ∧ ((t.done = true ∧ t.fault = none) ∨ (t.done = false ∧ t.fault ≠ none ∧
      t.result0 = s.result0 ∧ t.result1 = s.result1 ∧ t.result2 = s.result2))) ∧
  ∀ (s t : State) (f : BlockFault), s.fault = some f → step s = .next t →
    t.fault = some f ∨ (∃ v more, s.inputs = .write 0x03 v :: more ∧ v.getLsbD 1 = true) ∨
      ∃ bits more, s.inputs = .hardReset bits :: more

/-- `60_exceptions.md` R422, R423, `10_state.md` R62: the commands whose writes happen only at completion change nothing
on a fault but the fault latch, `BUSY` and the bits consumed; a command that exhausts the arena changes no state; and a
command whose operands are ill formed by themselves latches a fault before it reads a bit or changes anything. That an
`XF_APPLY` that exhausts the arena leaves the inversions it made before undone, and not as R363 and R422 leave another
fault's, is log 16. -/
def Obligations.FaultsThatChangeNothing : Prop :=
  (∀ (i : Instr) (s t : State) (f : BlockFault), s.fault = none → s.overrun = false → exec i s = .next t →
    t.fault = some f →
    (i ∈ [.esInit, .treeLoad, .esClone, .chlAppend, .xfPushRct, .xfPushPalette, .xfPushSqueeze] →
      t = { s with fault := some f, busy := false, source := t.source }) ∧
    (i ∈ [.chlAppend, .xfPushRct, .xfPushPalette, .xfPushSqueeze, .xfApply] → f = .resourceExhausted →
      t = { s with fault := some f, busy := false })) ∧
  ∀ (i : Instr) (s : State), i.wf s.latched.args = false →
    ∃ f, exec i s = .next (s.latchFault f) ∧
      f ∈ [.contractViolation .badArg, .contractViolation .badSlot, .invalidBitstream .badTransform]

/-! ## Control and sample access (`46_control.md`) -/

/-- `46_control.md` R400: `NOP` changes no state but its completion, and on an idle, unfaulted block leaves
`STATUS` 2. -/
def Obligations.NopCompletes : Prop :=
  (∀ s : State, s.overrun = false → exec .nop s = .next { s with busy := false, done := true }) ∧
  ∀ s : State, s.fault = none → s.busy = false →
    ∃ t, exec .nop (s.writeReg 0x01 0#32) = .next t ∧ t.readReg 0x02 = 2#32

/-- `46_control.md` R401: `CH_READ`. -/
def Obligations.ChReadReturnsSample : Prop :=
  ∀ s : State,
    (∀ v, s.overrun = false →
      s.sample s.latched.args.arg0.toNat s.latched.args.arg1.toNat s.latched.args.arg2.toNat = some v →
      exec .chRead s = .next { s with result0 := v, busy := false, done := true }) ∧
    (s.channels.length ≤ s.latched.args.arg0.toNat →
      exec .chRead s = .next (s.latchFault (.contractViolation .badArg))) ∧
    ∀ ch, s.channels[s.latched.args.arg0.toNat]? = some ch →
      (ch.width ≤ s.latched.args.arg1.toNat ∨ ch.height ≤ s.latched.args.arg2.toNat →
        exec .chRead s = .next (s.latchFault (.contractViolation .badArg))) ∧
      (s.latched.args.arg1.toNat < ch.width → s.latched.args.arg2.toNat < ch.height →
        ch.sample s.latched.args.arg1.toNat s.latched.args.arg2.toNat = none →
        exec .chRead s = .next (s.latchFault (.contractViolation .undefinedSample)))

/-- `46_control.md` R402: `CH_WRITE` writes one sample, so that it reads back, and leaves every other sample, and all of
every record but that sample, as it was. -/
def Obligations.ChWriteStoresSample : Prop :=
  ∀ s : State,
    (s.channels.length ≤ s.latched.args.arg0.toNat →
      exec .chWrite s = .next (s.latchFault (.contractViolation .badArg))) ∧
    ∀ ch, s.channels[s.latched.args.arg0.toNat]? = some ch →
      (ch.width ≤ s.latched.args.arg1.toNat ∨ ch.height ≤ s.latched.args.arg2.toNat →
        exec .chWrite s = .next (s.latchFault (.contractViolation .badArg))) ∧
      (s.overrun = false → s.latched.args.arg1.toNat < ch.width → s.latched.args.arg2.toNat < ch.height →
        ∃ m, exec .chWrite s = .next
            { s with
              channels := s.channels.set s.latched.args.arg0.toNat { ch with samples := m }
              busy := false
              done := true } ∧
          ∀ t, exec .chWrite s = .next t →
            t.sample s.latched.args.arg0.toNat s.latched.args.arg1.toNat s.latched.args.arg2.toNat =
              some s.latched.args.arg3 ∧
            ∀ c x y, ¬ (c = s.latched.args.arg0.toNat ∧ x = s.latched.args.arg1.toNat ∧
                y = s.latched.args.arg2.toNat) → t.sample c x y = s.sample c x y)

/-- `46_control.md` R403: `CH_INFO`. -/
def Obligations.ChInfoReportsRecord : Prop :=
  ∀ s : State,
    (s.channels.length ≤ s.latched.args.arg0.toNat →
      exec .chInfo s = .next (s.latchFault (.contractViolation .badArg))) ∧
    ∀ ch, s.overrun = false → s.channels[s.latched.args.arg0.toNat]? = some ch →
      ∃ flags : Word,
        exec .chInfo s = .next
          { s with
            result0 := BitVec.ofNat 32 ch.width
            result1 := BitVec.ofNat 32 ch.height
            result2 := flags
            busy := false
            done := true } ∧
        flags.getLsbD 0 = ch.decoded ∧ flags.getLsbD 1 = ch.forceWP ∧
        flags.getLsbD 2 = decide (s.latched.args.arg0.toNat < s.nbMeta) ∧ flags.extractLsb' 3 5 = 0#5 ∧
        ((flags.extractLsb' 8 8).toNat : Int) = ch.hshift % 256 ∧
        ((flags.extractLsb' 16 8).toNat : Int) = ch.vshift % 256 ∧ flags.extractLsb' 24 8 = 0#8

/-! ## Hybrid integers (`40_hybrid_integer.md`) -/

/-- `40_hybrid_integer.md` R155, R152: `HYB_EXPAND`, in arithmetic. -/
def Obligations.HybExpandExpandsToken : Prop :=
  ∀ s : State,
    let token := s.latched.args.arg0.toNat
    let config := s.latched.args.arg1.toNat
    let e := config % 16
    let m := config / 16 % 16
    let l := config / 256 % 16
    let n := e - m - l + (token - 2 ^ e) / 2 ^ (m + l)
    let raw := bitsToNat (s.source.rest.take n)
    let r := ((2 ^ m + token / 2 ^ l % 2 ^ m) * 2 ^ n + raw) * 2 ^ l + token % 2 ^ l
    let read := { s with source := { rest := s.source.rest.drop n, pos := s.source.pos + n } }
    (4096 ≤ config ∨ e < m + l → exec .hybExpand s = .next (s.latchFault (.contractViolation .badArg))) ∧
    (config < 4096 → m + l ≤ e →
      (token < 2 ^ e → s.overrun = false →
        exec .hybExpand s = .next { s with result0 := s.latched.args.arg0, busy := false, done := true }) ∧
      (2 ^ e ≤ token → 32 < n →
        exec .hybExpand s = .next (s.latchFault (.invalidBitstream .hybridTooLong))) ∧
      (2 ^ e ≤ token → n ≤ 32 → s.source.rest.length < n →
        exec .hybExpand s = .next (s.latchFault .truncatedInput)) ∧
      (2 ^ e ≤ token → n ≤ 32 → n ≤ s.source.rest.length → 2 ^ 32 ≤ r →
        exec .hybExpand s = .next (read.latchFault (.invalidBitstream .valueOverflow))) ∧
      (2 ^ e ≤ token → n ≤ 32 → n ≤ s.source.rest.length → r < 2 ^ 32 → s.overrun = false →
        exec .hybExpand s = .next { read with result0 := BitVec.ofNat 32 r, busy := false, done := true }))

/-- `40_hybrid_integer.md` R154: the identity below the split, the result strictly increasing in the token for zero raw
bits, and every result at or above the split from exactly one token and raw value. -/
def Obligations.HybridExpansionLaws : Prop :=
  ∀ c : HybridConfig, c.msbInToken + c.lsbInToken ≤ c.splitExponent →
    (∀ token b, token < 2 ^ c.splitExponent → hybridExpand token c b = .ok token b) ∧
    (∀ token b v b', 2 ^ c.splitExponent ≤ token → hybridExpand token c b = .ok v b' →
      ∃ raw, raw < 2 ^ hybridRawBits token c ∧ v = hybridSplice token c raw) ∧
    (∀ t t', t < t' →
      (if t < 2 ^ c.splitExponent then t else hybridSplice t c 0) <
        (if t' < 2 ^ c.splitExponent then t' else hybridSplice t' c 0)) ∧
    ∀ r, 2 ^ c.splitExponent ≤ r →
      ∃! p : Nat × Nat, 2 ^ c.splitExponent ≤ p.1 ∧ p.2 < 2 ^ hybridRawBits p.1 c ∧ hybridSplice p.1 c p.2 = r

/-- `40_hybrid_integer.md` R160, `00_scope.md` R16: `UNPACK_SIGNED`. -/
def Obligations.UnpackSignedMapsUnsignedToSigned : Prop :=
  ∀ s : State, s.overrun = false →
    ∃ v : Word, exec .unpackSigned s = .next { s with result0 := v, busy := false, done := true } ∧
      v.toInt =
        if s.latched.args.arg0.toNat % 2 = 0 then (s.latched.args.arg0.toNat : Int) / 2
        else -(((s.latched.args.arg0.toNat : Int) + 1) / 2)

/-- `40_hybrid_integer.md` R162, R151: `HYB_CONFIG_READ` returns, packed, the configuration whose fields are the next
bits, whatever it is, and consumes exactly those; another `L` is a bad argument; a field value above its bound, of any of
the three, is a bad configuration, after that field's bits; and a field whose bits run out is a truncated input, with
the fields before it consumed. -/
def Obligations.HybConfigReadParsesConfig : Prop :=
  ∀ s : State,
    let L := s.latched.args.arg0.toNat
    (L ∉ [5, 6, 7, 8, 15] → exec .hybConfigRead s = .next (s.latchFault (.contractViolation .badArg))) ∧
    (L ∈ [5, 6, 7, 8, 15] →
      (∀ c rest, s.overrun = false → c.Wf L → (c.splitExponent = L → c.msbInToken = 0 ∧ c.lsbInToken = 0) →
        s.source.rest = configBits L c ++ rest →
        exec .hybConfigRead s = .next
          { s with
            result0 := BitVec.ofNat 32 (c.splitExponent + 16 * c.msbInToken + 256 * c.lsbInToken)
            source := { rest := rest, pos := s.source.pos + (configBits L c).length }
            busy := false
            done := true }) ∧
      (s.source.rest.length < Nat.clog 2 (L + 1) → exec .hybConfigRead s = .next (s.latchFault .truncatedInput)) ∧
      ∀ e rest, e < 2 ^ Nat.clog 2 (L + 1) → s.source.rest = fieldBits (Nat.clog 2 (L + 1)) e ++ rest →
        let s1 : State := { s with source := { rest := rest, pos := s.source.pos + Nat.clog 2 (L + 1) } }
        (L < e → exec .hybConfigRead s = .next (s1.latchFault (.invalidBitstream .badHybridConfig))) ∧
        (e < L → rest.length < Nat.clog 2 (e + 1) → exec .hybConfigRead s = .next (s1.latchFault .truncatedInput)) ∧
        ∀ m rest', e < L → m < 2 ^ Nat.clog 2 (e + 1) → rest = fieldBits (Nat.clog 2 (e + 1)) m ++ rest' →
          let s2 : State := { s1 with source := { rest := rest', pos := s1.source.pos + Nat.clog 2 (e + 1) } }
          (e < m → exec .hybConfigRead s = .next (s2.latchFault (.invalidBitstream .badHybridConfig))) ∧
          (m ≤ e → rest'.length < Nat.clog 2 (e - m + 1) →
            exec .hybConfigRead s = .next (s2.latchFault .truncatedInput)) ∧
          ∀ l rest'', m ≤ e → e < m + l → l < 2 ^ Nat.clog 2 (e - m + 1) →
            rest' = fieldBits (Nat.clog 2 (e - m + 1)) l ++ rest'' →
            exec .hybConfigRead s = .next
              (({ s2 with
                  source := { rest := rest'', pos := s2.source.pos + Nat.clog 2 (e - m + 1) } } : State).latchFault
                (.invalidBitstream .badHybridConfig)))

/-! ## Entropy streams (`42_entropy_stream.md`) -/

/-- `42_entropy_stream.md` R230 to R235, `41_symbol_distribution.md` R190 to R194: `ES_INIT` checks its operands, parses,
and fills the slot only when the parse completes; the rule's own example, over its 7 bits; and the header it parses, part
by part, from the encoder's side: the LZ77 fields, the forms of the cluster map, the order of the parts, and the
alphabet sizes and codes of a stream of prefix codes. -/
def Obligations.EsInitFillsSlot : Prop :=
  (∀ s : State,
    let a := s.latched.args
    (8 ≤ a.arg0.toNat → exec .esInit s = .next (s.latchFault (.contractViolation .badSlot))) ∧
    (a.arg0.toNat < 8 → a.arg1 = 0#32 ∨ 2 ^ 20 < a.arg1.toNat ∨ a.arg2 >>> 1 ≠ 0#32 →
      exec .esInit s = .next (s.latchFault (.contractViolation .badArg))) ∧
    (a.arg0.toNat < 8 → a.arg1 ≠ 0#32 → a.arg1.toNat ≤ 2 ^ 20 → a.arg2 >>> 1 = 0#32 →
      (∀ cfg b, s.overrun = false → readEntropyStream a.arg1.toNat (a.arg2.getLsbD 0) s.source = .ok cfg b →
        exec .esInit s = .next
          { s with
            slots := s.slots.setIfInBounds a.arg0.toNat (some { config := cfg, coder := {} })
            source := b
            result0 := BitVec.ofNat 32 cfg.coding.numClusters
            busy := false
            done := true }) ∧
      (∀ f b, readEntropyStream a.arg1.toNat (a.arg2.getLsbD 0) s.source = .error (.raise f) b →
        exec .esInit s = .next (({ s with source := b } : State).latchFault f))) ∧
    ∀ rest, s.overrun = false → a.arg0.toNat < 8 → a.arg1 = 1#32 → a.arg2 = 0#32 →
      s.source.rest = [false, true, false, false, false, false, false] ++ rest →
      exec .esInit s = .next
        { s with
          slots := s.slots.setIfInBounds a.arg0.toNat (some {
            config := {
              clusterMap := [0]
              lz77 := none
              coding := .prefixCode [{
                config := { splitExponent := 0, msbInToken := 0, lsbInToken := 0 }
                alphabetSize := 1
                code := .zeroBits 0 }] }
            coder := {} })
          source := { rest := rest, pos := s.source.pos + 7 }
          result0 := 1#32
          busy := false
          done := true }) ∧
  /- R231, R232: the LZ77 part. -/
  (∀ d, Parses (readLz77 d) [false] none) ∧
  Rejects (readLz77 true) [true] (.invalidBitstream .nestedLz77) ∧
  (∀ symbolBits minSymbol lengthBits minLength c, U32Bits [(224, 0), (512, 0), (4096, 0), (8, 15)] symbolBits minSymbol →
    U32Bits [(3, 0), (4, 0), (5, 2), (9, 8)] lengthBits minLength → c.Written 8 →
    Parses (readLz77 false) (true :: symbolBits ++ lengthBits ++ configBits 8 c)
      (some { minSymbol := minSymbol, minLength := minLength, lengthConfig := c })) ∧
  /- R233, R235: no map for one context, and the simple form. -/
  Parses (readClusterMap 1) [] [0] ∧
  (∀ nbits map, nbits < 4 → 2 ≤ map.length → (∀ id ∈ map, id < 2 ^ nbits) →
    let bits := true :: fieldBits 2 nbits ++ map.flatMap (fieldBits nbits)
    ((∀ id ∈ map, ∀ j < id, j ∈ map) → Parses (readClusterMap map.length) bits map) ∧
    (¬ (∀ id ∈ map, ∀ j < id, j ∈ map) →
      Rejects (readClusterMap map.length) bits (.invalidBitstream .badClusterMap))) ∧
  /- R233 to R235: the nested form, of a stream that reads `symbols` from `symbolBits`. -/
  (∀ (useMtf : Bool) headerBits cfg symbolBits symbols c, 2 ≤ symbols.length →
    Parses readNestedStream headerBits cfg →
    (∀ rest pos, times symbols.length (readSymbol cfg 0 0)
        { coder := {}, source := { rest := symbolBits ++ rest, pos := pos } } =
      .ok symbols { coder := c, source := { rest := rest, pos := pos + symbolBits.length } }) →
    let bits := [false, useMtf] ++ headerBits ++ symbolBits
    let read := readClusterMap symbols.length
    (cfg.coding.usePrefixCode = false → c.hasState = true → c.ansState ≠ 0x130000#32 →
      Rejects read bits (.invalidBitstream .ansFinalState)) ∧
    (cfg.coding.usePrefixCode = true ∨ c.hasState = true ∧ c.ansState = 0x130000#32 →
      ((∃ id ∈ symbols, 256 ≤ id) → Rejects read bits (.invalidBitstream .badClusterMap)) ∧
      ∀ map, (∀ id ∈ map, id < 256) → symbols = (if useMtf then moveToFront (List.range 256) map else map) →
        ((∀ id ∈ map, ∀ j < id, j ∈ map) → Parses read bits map) ∧
        (¬ (∀ id ∈ map, ∀ j < id, j ∈ map) → Rejects read bits (.invalidBitstream .badClusterMap)))) ∧
  /- R231: the parts in order, of a stream with `k` clusters; a nested stream has one context and no LZ77. -/
  (∀ k codingBits coding,
    ((∃ bits, codingBits = true :: bits ∧ Parses (readPrefixCoding k) bits coding) ∨
      ∃ L bits, 5 ≤ L ∧ L ≤ 8 ∧ codingBits = false :: fieldBits 2 (L - 5) ++ bits ∧
        Parses (readAnsCoding L k) bits coding) →
    (k = 1 → Parses readNestedStream (false :: codingBits) { clusterMap := [0], lz77 := none, coding := coding }) ∧
    ∀ n d lz77Bits lz77 mapBits map, Parses (readLz77 d) lz77Bits lz77 →
      Parses (readClusterMap (n + if lz77.isSome then 1 else 0)) mapBits map → k = map.foldl max 0 + 1 →
      Parses (readEntropyStream n d) (lz77Bits ++ mapBits ++ codingBits)
        { clusterMap := map, lz77 := lz77, coding := coding }) ∧
  (∀ (ds : List PrefixDist) (sizeBits codeBits : PrefixDist → List Bool),
    (∀ d ∈ ds, d.config.Written 15 ∧ Parses readPrefixAlphabetSize (sizeBits d) d.alphabetSize ∧
      Parses (readPrefixCode d.alphabetSize) (codeBits d) d.code) →
    Parses (readPrefixCoding ds.length)
      (ds.flatMap (fun d => configBits 15 d.config) ++ ds.flatMap sizeBits ++ ds.flatMap codeBits) (.prefixCode ds)) ∧
  (∀ (L : Nat) (ds : List AnsDist) (freqBits : AnsDist → List Bool),
    (∀ d ∈ ds, d.config.Written L ∧ Parses (readAnsFreqs L) (freqBits d) d.freqs ∧ d.table = buildAlias d.freqs L) →
    Parses (readAnsCoding L ds.length) (ds.flatMap (fun d => configBits L d.config) ++ ds.flatMap freqBits)
      (.ans L ds)) ∧
  /- `41_symbol_distribution.md` R190: alphabet sizes. -/
  Parses readPrefixAlphabetSize [false] 1 ∧
  (∀ n v, n < 16 → v < 2 ^ n →
    let bits := true :: fieldBits 4 n ++ fieldBits n v
    (1 + 2 ^ n + v ≤ 32768 → Parses readPrefixAlphabetSize bits (1 + 2 ^ n + v)) ∧
    (32768 < 1 + 2 ^ n + v → Rejects readPrefixAlphabetSize bits (.invalidBitstream .badPrefixCode))) ∧
  /- R191, R192: no bits for one symbol, and the simple code. -/
  Parses (readPrefixCode 1) [] (.zeroBits 0) ∧
  (∀ (A : Nat) (symbols : List Nat), 2 ≤ A → 1 ≤ symbols.length → symbols.length ≤ 4 → (∀ v ∈ symbols, v < A) →
    let field := fieldBits (Nat.log 2 (A - 1) + 1)
    let bits := fieldBits 2 1 ++ fieldBits 2 (symbols.length - 1) ++ symbols.flatMap field
    (¬ symbols.Nodup → Rejects (readPrefixCode A) bits (.invalidBitstream .badPrefixCode)) ∧
    (symbols.Nodup →
      (∀ v, symbols = [v] → Parses (readPrefixCode A) bits (.zeroBits v)) ∧
      ∀ form lengths, (form, lengths) ∈ [([], [1, 1]), ([], [1, 2, 2]), ([false], [2, 2, 2, 2]), ([true], [1, 2, 3, 3])] →
        symbols.length = lengths.length →
        ∃ lens, Parses (readPrefixCode A) (bits ++ form) (.canonical lens) ∧ lens.length = A ∧
          (∀ (i v : Nat), symbols[i]? = some v → lens[v]? = lengths[i]?) ∧ ∀ v, v < A → v ∉ symbols → lens[v]? = some 0)) ∧
  (∀ (A count : Nat) (symbols : List Nat) (v : Nat), 2 ≤ A → symbols.length < count → count ≤ 4 → (∀ v ∈ symbols, v < A) → A ≤ v →
    v < 2 ^ (Nat.log 2 (A - 1) + 1) →
    let field := fieldBits (Nat.log 2 (A - 1) + 1)
    Rejects (readPrefixCode A) (fieldBits 2 1 ++ fieldBits 2 (count - 1) ++ symbols.flatMap field ++ field v)
      (.invalidBitstream .badPrefixCode)) ∧
  /- R191, R193: the complex code, and its code of code lengths, from the lengths `vs` that are written. -/
  (∀ A hskip clBits clCode lengthBits lens, 2 ≤ A → hskip ∈ [0, 2, 3] → Parses (readCodeLengthCode hskip) clBits clCode →
    Parses (readCodeLengths A clCode) lengthBits lens →
    Parses (readPrefixCode A) (fieldBits 2 hskip ++ clBits ++ lengthBits) (.canonical lens)) ∧
  (∀ (hskip : Nat) (vs : List Nat), (∀ v ∈ vs, v ≤ 5) → hskip + vs.length ≤ 18 →
    let order := [1, 2, 3, 4, 0, 5, 17, 6, 16, 7, 8, 9, 10, 11, 12, 13, 14, 15]
    let bits := vs.flatMap clCodeBits
    (codeSpace 5 vs = 32 → vs.getLast? ≠ some 0 →
      ∃ cl, Parses (readCodeLengthCode hskip) bits (.canonical cl) ∧ cl.length = 18 ∧
        ∀ (i s : Nat), order[i]? = some s → cl[s]? = some (if hskip ≤ i then vs.getD (i - hskip) 0 else 0)) ∧
    (∀ (i v s : Nat), hskip + vs.length = 18 → vs[i]? = some v → v ≠ 0 → (∀ (j u : Nat), vs[j]? = some u → j ≠ i → u = 0) →
      order[hskip + i]? = some s → Parses (readCodeLengthCode hskip) bits (.zeroBits s)) ∧
    (hskip + vs.length = 18 → codeSpace 5 vs < 32 → (vs.filter (· ≠ 0)).length ≠ 1 →
      Rejects (readCodeLengthCode hskip) bits (.invalidBitstream .badPrefixCode)) ∧
    (32 < codeSpace 5 vs → codeSpace 5 vs.dropLast < 32 →
      Rejects (readCodeLengthCode hskip) bits (.invalidBitstream .badPrefixCode))) ∧
  /- R194: the lengths, from the groups of codes that stand for them, where `code p` are the bits of code-length symbol
  `p`: a complete code, an incomplete one, and one more code that runs past the alphabet or over-subscribes the code. -/
  ∀ A clCode code groups, (∀ p ∈ groups.flatMap LengthGroup.symbols, Parses (prefixDecode clCode) (code p) p) →
    groupsWf groups →
    let lens := groupLengths 8 groups
    let bits := groups.flatMap (LengthGroup.bits code)
    (lens.length ≤ A → codeSpace 15 lens = 32768 → lens.getLast? ≠ some 0 →
      Parses (readCodeLengths A clCode) bits (lens ++ List.replicate (A - lens.length) 0)) ∧
    (lens.length = A → codeSpace 15 lens < 32768 →
      Rejects (readCodeLengths A clCode) bits (.invalidBitstream .badPrefixCode)) ∧
    ∀ g, ((∃ l, g = .literal l) ∨ ∃ d, g = .repeatPrevious [d] ∨ g = .repeatZero [d]) → groupsWf (groups ++ [g]) →
      (∀ p ∈ g.symbols, Parses (prefixDecode clCode) (code p) p) → lens.length < A → codeSpace 15 lens < 32768 →
      A < (groupLengths 8 (groups ++ [g])).length ∨ 32768 < codeSpace 15 (groupLengths 8 (groups ++ [g])) →
      Rejects (readCodeLengths A clCode) (bits ++ g.bits code) (.invalidBitstream .badPrefixCode)

/-- `42_entropy_stream.md` R240, R242, R248: `ES_READ`: the operand checks, the next value of a pending copy with no
bits, a literal, and the start of a copy, each leaving its value in the window; and the distance a copy starts from. -/
def Obligations.EsReadReturnsSymbol : Prop :=
  ∀ s : State,
    let a := s.latched.args
    (s.stream? a.arg0 = none → exec .esRead s = .next (s.latchFault (.contractViolation .badSlot))) ∧
    ∀ st, s.stream? a.arg0 = some st →
      (st.config.numContexts - (if st.config.lz77.isSome then 1 else 0) ≤ a.arg1.toNat →
        exec .esRead s = .next (s.latchFault (.contractViolation .badArg))) ∧
      (a.arg1.toNat < st.config.numContexts - (if st.config.lz77.isSome then 1 else 0) → s.overrun = false →
        (0 < st.coder.copyRemaining →
          let v := windowRead st.coder.window st.coder.copyPos
          exec .esRead s = .next
            { s with
              slots := s.slots.setIfInBounds a.arg0.toNat (some { st with
                coder := { st.coder with
                  window := windowWrite st.coder.window st.coder.numDecoded v
                  numDecoded := st.coder.numDecoded + 1
                  copyPos := st.coder.copyPos + 1
                  copyRemaining := st.coder.copyRemaining - 1 } })
              result0 := v
              busy := false
              done := true }) ∧
        (∀ k token r, st.coder.copyRemaining = 0 → st.config.clusterMap[a.arg1.toNat]? = some k →
          decodeToken st.config k { coder := st.coder, source := s.source } = .ok token r →
          (∀ hc v b, (∀ z, st.config.lz77 = some z → token < z.minSymbol) →
            st.config.coding.hybridConfig? k = some hc → hybridExpand token hc r.source = .ok v b →
            exec .esRead s = .next
              { s with
                slots := s.slots.setIfInBounds a.arg0.toNat (some { st with
                  coder := { r.coder with
                    window := windowWrite r.coder.window r.coder.numDecoded (BitVec.ofNat 32 v)
                    numDecoded := r.coder.numDecoded + 1 } })
                source := b
                result0 := BitVec.ofNat 32 v
                busy := false
                done := true }) ∧
          ∀ z extra b kd dtoken r' dc raw b', st.config.lz77 = some z → 3 ≤ z.minLength → z.minSymbol ≤ token →
            hybridExpand (token - z.minSymbol) z.lengthConfig r.source = .ok extra b →
            (2 ^ 32 ≤ extra + z.minLength →
              exec .esRead s = .next
                (({ s with
                    slots := s.slots.setIfInBounds a.arg0.toNat (some { st with coder := r.coder })
                    source := b } : State).latchFault (.invalidBitstream .lz77Overflow))) ∧
            (extra + z.minLength < 2 ^ 32 → st.config.clusterMap[st.config.numContexts - 1]? = some kd →
              decodeToken st.config kd { coder := r.coder, source := b } = .ok dtoken r' →
              st.config.coding.hybridConfig? kd = some dc → hybridExpand dtoken dc r'.source = .ok raw b' →
              let d := min (distanceMap raw a.arg2.toNat) (min r'.coder.numDecoded (2 ^ 20))
              let v := windowRead r'.coder.window (r'.coder.numDecoded - d)
              exec .esRead s = .next
                { s with
                  slots := s.slots.setIfInBounds a.arg0.toNat (some { st with
                    coder := { r'.coder with
                      window := windowWrite r'.coder.window r'.coder.numDecoded v
                      numDecoded := r'.coder.numDecoded + 1
                      copyPos := r'.coder.numDecoded - d + 1
                      copyRemaining := extra + z.minLength - 1 } })
                  source := b'
                  result0 := v
                  busy := false
                  done := true }) ∧
            1 ≤ distanceMap raw a.arg2.toNat ∧
            (a.arg2.toNat = 0 → distanceMap raw a.arg2.toNat = raw + 1) ∧
            (a.arg2.toNat ≠ 0 → 120 ≤ raw → distanceMap raw a.arg2.toNat = raw - 119) ∧
            (a.arg2.toNat ≠ 0 → raw < 120 → ∃ dx dy : Int, special[raw]? = some (dx, dy) ∧
              (distanceMap raw a.arg2.toNat : Int) = max 1 (dx + (a.arg2.toNat : Int) * dy))))

/-- `41_symbol_distribution.md` R183: one ANS symbol: the priming, the alias lookup, the new state, which stays below
`2^32`, and the refill below `2^16`. -/
def Obligations.AnsSymbolDecode : Prop :=
  ∀ (L : Nat) (d : AnsDist) (c : Coder) (b : BitSource),
    (c.hasState = false → 32 ≤ b.rest.length →
      ansDecode L d { coder := c, source := b } =
        ansDecode L d {
          coder := { c with ansState := BitVec.ofNat 32 (bitsToNat (b.rest.take 32)), hasState := true }
          source := { rest := b.rest.drop 32, pos := b.pos + 32 } }) ∧
    (c.hasState = false → b.rest.length < 32 →
      ansDecode L d { coder := c, source := b } = .error (.raise .truncatedInput) { coder := c, source := b }) ∧
    ∀ sym off f, c.hasState = true → aliasLookup L d.table (c.ansState.toNat % 4096) = some (sym, off) →
      d.freqs[sym]? = some f → f ≤ 4096 → off < 4096 →
      let x := f * (c.ansState.toNat / 4096) + off
      x < 2 ^ 32 ∧
      (2 ^ 16 ≤ x → ansDecode L d { coder := c, source := b } =
        .ok sym { coder := { c with ansState := BitVec.ofNat 32 x }, source := b }) ∧
      (x < 2 ^ 16 → 16 ≤ b.rest.length → ansDecode L d { coder := c, source := b } =
        .ok sym {
          coder := { c with ansState := BitVec.ofNat 32 (x * 2 ^ 16 + bitsToNat (b.rest.take 16)) }
          source := { rest := b.rest.drop 16, pos := b.pos + 16 } }) ∧
      (x < 2 ^ 16 → b.rest.length < 16 → ansDecode L d { coder := c, source := b } =
        .error (.raise .truncatedInput) { coder := { c with ansState := BitVec.ofNat 32 x }, source := b })

/-- `42_entropy_stream.md` R252, R254, R255: `ES_VALIDATE`, with the open parameter `UNPRIMED_FINAL_OK` for a stream that
has read no symbol, `ES_CLONE` and `ES_FREE`. -/
def Obligations.EsValidateCloneAndFree : Prop :=
  ∀ s : State,
    let a := s.latched.args
    let pass := exec .esValidate s = .next { s with busy := false, done := true }
    let refuse := exec .esValidate s = .next (s.latchFault (.invalidBitstream .ansFinalState))
    (s.stream? a.arg0 = none → exec .esValidate s = .next (s.latchFault (.contractViolation .badSlot))) ∧
    (∀ st, s.overrun = false → s.stream? a.arg0 = some st →
      (∀ ds, st.config.coding = .prefixCode ds → pass) ∧
      ∀ L ds, st.config.coding = .ans L ds →
        (st.coder.hasState = false → if Config.unprimedFinalOk = true then pass else refuse) ∧
        (st.coder.hasState = true → st.coder.ansState = 0x130000#32 → pass) ∧
        (st.coder.hasState = true → st.coder.ansState ≠ 0x130000#32 → refuse)) ∧
    (8 ≤ a.arg0.toNat ∨ 8 ≤ a.arg1.toNat ∨ s.stream? a.arg0 = none →
      exec .esClone s = .next (s.latchFault (.contractViolation .badSlot))) ∧
    (∀ st, s.overrun = false → a.arg1.toNat < 8 → s.stream? a.arg0 = some st →
      exec .esClone s = .next
        { s with
          slots := s.slots.setIfInBounds a.arg1.toNat (some {
            config := st.config
            coder := {
              ansState := 0#32, hasState := false, window := [], numDecoded := 0, copyRemaining := 0, copyPos := 0 } })
          busy := false
          done := true }) ∧
    (8 ≤ a.arg0.toNat → exec .esFree s = .next (s.latchFault (.contractViolation .badSlot))) ∧
    (s.overrun = false → a.arg0.toNat < 8 →
      exec .esFree s = .next
        { s with slots := s.slots.setIfInBounds a.arg0.toNat none, busy := false, done := true })

/-! ## Symbol distributions (`41_symbol_distribution.md`) -/

/-- `41_symbol_distribution.md` R177: every ANS distribution that parses has `2^L` frequencies that sum to 4096. -/
def Obligations.DistributionsSumTo4096 : Prop :=
  ∀ (L : Nat) (b b' : BitSource) (D : List Nat), 5 ≤ L → L ≤ 8 → readAnsFreqs L b = .ok D b' →
    D.length = 2 ^ L ∧ D.sum = 4096

/-- `41_symbol_distribution.md` R182: the alias table of a distribution maps each 12-bit index to a symbol and an offset
below its frequency, each such pair from exactly one index. -/
def Obligations.AliasTableIsExact : Prop :=
  ∀ (L : Nat) (D : List Nat), 5 ≤ L → L ≤ 8 → D.length = 2 ^ L → D.sum = 4096 →
    (∀ x, x < 4096 → ∃ s off, aliasLookup L (buildAlias D L) x = some (s, off) ∧ off < D.getD s 0) ∧
    ∀ s off, s < 2 ^ L → off < D.getD s 0 →
      ∃! x, x < 4096 ∧ aliasLookup L (buildAlias D L) x = some (s, off)

/-- `41_symbol_distribution.md` R196, R197, `20_memory.md` R85: every symbol of a canonical code is decoded from the
bits of its own code, whatever follows, and exactly those bits are consumed. -/
def Obligations.CanonicalCodeDecodes : Prop :=
  ∀ (lens : List Nat) (s l c : Nat) (rest : List Bool) (pos : Nat), (s, l, c) ∈ canonicalCodes lens → c < 2 ^ l →
    prefixDecode (.canonical lens) { rest := codeBits l c ++ rest, pos := pos } =
      .ok s { rest := rest, pos := pos + l }

/-! ## MA trees (`43_ma_tree.md`) -/

/-- `43_ma_tree.md` R270, R272 to R274: `TREE_LOAD` checks its operands, parses a tree and a data stream with one context
for each leaf, and writes the store and the slot only when both complete; a tree it loads is legal, has one leaf more
than decisions, and its leaves have the contexts from 0 up in order; and the
74 bits of program P1 (`95_test_vectors.md` section 3) load the tree and the stream that program names. -/
def Obligations.TreeLoadStoresTree : Prop :=
  ∀ s : State,
    let a := s.latched.args
    (2 ≤ a.arg0.toNat → exec .treeLoad s = .next (s.latchFault (.contractViolation .badArg))) ∧
    (a.arg0.toNat < 2 → 8 ≤ a.arg1.toNat →
      exec .treeLoad s = .next (s.latchFault (.contractViolation .badSlot))) ∧
    (a.arg0.toNat < 2 → a.arg1.toNat < 8 →
      (∀ nodes leafCount b data b', s.overrun = false → readTree s.source = .ok (nodes, leafCount) b →
        readEntropyStream leafCount false b = .ok data b' →
        (exec .treeLoad s = .next
          { s with
            trees := s.trees.setIfInBounds a.arg0.toNat (some nodes)
            slots := s.slots.setIfInBounds a.arg1.toNat (some { config := data, coder := {} })
            source := b'
            result0 := BitVec.ofNat 32 nodes.length
            result1 := BitVec.ofNat 32 leafCount
            busy := false
            done := true }) ∧
        TreeWf nodes ∧ nodes.length + 1 = 2 * leafCount ∧ leafContexts nodes = List.range leafCount) ∧
      (∀ f b, readTree s.source = .error (.raise f) b →
        exec .treeLoad s = .next (({ s with source := b } : State).latchFault f)) ∧
      (∀ nodes leafCount b f b', readTree s.source = .ok (nodes, leafCount) b →
        readEntropyStream leafCount false b = .error (.raise f) b' →
        exec .treeLoad s = .next (({ s with source := b' } : State).latchFault f)) ∧
      ∀ rest, s.overrun = false → s.source.rest = fieldBits 74 0x030C5012A14700802486 ++ rest →
        exec .treeLoad s = .next
          { s with
            trees := s.trees.setIfInBounds a.arg0.toNat
              (some [.leaf { context := 0, predictor := .zero, offset := 5, multiplier := 1 }])
            slots := s.slots.setIfInBounds a.arg1.toNat (some {
              config := {
                clusterMap := [0]
                lz77 := none
                coding := .prefixCode [{
                  config := { splitExponent := 4, msbInToken := 0, lsbInToken := 0 }
                  alphabetSize := 7
                  code := .zeroBits 6 }] }
              coder := {} })
            source := { rest := rest, pos := s.source.pos + 74 }
            result0 := 1#32
            result1 := 1#32
            busy := false
            done := true })

/-- `43_ma_tree.md` R280: `TREE_COMPACT` reports the size and the weighted-predictor uses of the residual tree, and
changes nothing else; no decision of that tree tests a property that was fixed. -/
def Obligations.TreeCompactReportsResidual : Prop :=
  ∀ s : State,
    let a := s.latched.args
    let fix : Frozen := {
      channel := a.arg1.toNat
      stream := a.arg2.toNat
      row := if a.arg3 = 1#32 then some a.arg4.toNat else none }
    (s.tree? a.arg0 = none ∨ 2 ≤ a.arg3.toNat →
      exec .treeCompact s = .next (s.latchFault (.contractViolation .badArg))) ∧
    ∀ nodes, s.overrun = false → s.tree? a.arg0 = some nodes → a.arg3.toNat < 2 → TreeWf nodes →
      ∃ R, compactify nodes fix = some R ∧
        (R.anyDecision fun k => k ≤ 1 || (k == 2 && a.arg3 == 1#32)) = false ∧
        exec .treeCompact s = .next
          { s with
            result0 := BitVec.ofNat 32 R.size
            result1 := (if R.anyLeaf (fun l => l.predictor == .weighted) then 1#32 else 0#32) |||
              (if R.anyDecision (fun k => k == 15) then 2#32 else 0#32)
            busy := false
            done := true }

/-- `43_ma_tree.md` R282: for every property vector that agrees with the fixed properties, walking the residual tree
ends as walking the full tree does: at the same leaf, or with the same fault. -/
def Obligations.ResidualTreeWalksAlike : Prop :=
  ∀ (nodes : List Node) (fix : Frozen) (R : RTree) (P : Nat → Except Stop Int), TreeWf nodes →
    compactify nodes fix = some R → (∀ k v, fix.value? k = some v → P k = .ok v) →
    R.walk P = walk nodes P nodes.length 0

/-- `43_ma_tree.md` R286, R285: `TREE_WALK` checks its operands, then reports the leaf the walk ends at, or latches the
fault the walk meets; a walk over properties that all have values ends at a leaf. -/
def Obligations.TreeWalkReportsLeaf : Prop :=
  ∀ s : State,
    let a := s.latched.args
    (s.tree? a.arg0 = none ∨ s.channels.length ≤ a.arg1.toNat →
      exec .treeWalk s = .next (s.latchFault (.contractViolation .badArg))) ∧
    ∀ (nodes : List Node) (ch : Channel), s.tree? a.arg0 = some nodes → s.channels[a.arg1.toNat]? = some ch →
      (ch.width ≤ a.arg2.toNat ∨ ch.height ≤ a.arg3.toNat →
        exec .treeWalk s = .next (s.latchFault (.contractViolation .badArg))) ∧
      (a.arg2.toNat < ch.width → a.arg3.toNat < ch.height →
        let P := property {
            channel := a.arg1.toNat
            streamId := s.latched.streamId.toNat
            plane := { w := ch.width, m := ch.samples }
            refs := refChannels s.channels a.arg1.toNat ch }
          (.error (.raise (.contractViolation .wpProperty))) a.arg2.toNat a.arg3.toNat
        (∀ n l, s.overrun = false → walk nodes P nodes.length 0 = .ok (n, l) →
          nodes[n]? = some (.leaf l) ∧
          exec .treeWalk s = .next
            { s with
              result0 := BitVec.ofNat 32 n
              result1 := BitVec.ofNat 32 l.context
              result2 := BitVec.ofNat 32 l.predictor.id
              busy := false
              done := true }) ∧
        (∀ f, walk nodes P nodes.length 0 = .error (.raise f) → exec .treeWalk s = .next (s.latchFault f)) ∧
        (TreeWf nodes → (∀ (n k : Nat) (v : Int) (lc rc : Nat), nodes[n]? = some (Node.decision k v lc rc) → ∃ x, P k = .ok x) →
          ∃ n l, walk nodes P nodes.length 0 = .ok (n, l)))

/-! ## Channels (`44_channel_decoder.md`) -/

/-- `44_channel_decoder.md` R300, R301: `CHL_CLEAR` and `CHL_APPEND`. -/
def Obligations.ChannelListCommands : Prop :=
  ∀ s : State,
    let a := s.latched.args
    (s.overrun = false →
      exec .chlClear s = .next { s with channels := [], transforms := [], nbMeta := 0, busy := false, done := true }) ∧
    (2 ^ 31 ≤ a.arg0.toNat ∨ 2 ^ 31 ≤ a.arg1.toNat →
      exec .chlAppend s = .next (s.latchFault (.contractViolation .badArg))) ∧
    (a.arg0.toNat < 2 ^ 31 → a.arg1.toNat < 2 ^ 31 →
      (4096 ≤ s.channels.length ∨
          Config.arenaCapacity < totalArea s.channels + a.arg0.toNat * a.arg1.toNat →
        exec .chlAppend s = .next (s.latchFault .resourceExhausted)) ∧
      (s.overrun = false → s.channels.length < 4096 →
        totalArea s.channels + a.arg0.toNat * a.arg1.toNat ≤ Config.arenaCapacity →
        exec .chlAppend s = .next
          { s with
            channels := s.channels ++ [{
              width := a.arg0.toNat
              height := a.arg1.toNat
              hshift := a.arg2.toInt
              vshift := a.arg3.toInt
              originX := a.arg4.toInt
              originY := a.arg5.toInt
              decoded := false
              forceWP := false
              samples := [] }]
            result0 := BitVec.ofNat 32 s.channels.length
            busy := false
            done := true }))

/-- `44_channel_decoder.md` R340, R341: the checks of `CH_DECODE`, in order, none of which changes anything; and a
channel with no samples, which is marked decoded. -/
def Obligations.ChDecodeChecksFirst : Prop :=
  ∀ s : State,
    let a := s.latched.args
    let c := a.arg0.toNat
    (s.channels.length ≤ c ∨ s.tree? a.arg1 = none →
      exec .chDecode s = .next (s.latchFault (.contractViolation .badArg))) ∧
    ∀ ch nodes, s.channels[c]? = some ch → s.tree? a.arg1 = some nodes →
      (s.stream? a.arg2 = none → exec .chDecode s = .next (s.latchFault (.contractViolation .badSlot))) ∧
      ∀ st, s.stream? a.arg2 = some st →
        (ch.decoded = true → exec .chDecode s = .next (s.latchFault (.contractViolation .decodedTwice))) ∧
        (s.overrun = false → ch.decoded = false → ch.width = 0 ∨ ch.height = 0 →
          exec .chDecode s = .next
            { s with channels := s.channels.set c { ch with decoded := true }, busy := false, done := true }) ∧
        ∀ R, ch.decoded = false → 0 < ch.width → 0 < ch.height →
          compactify nodes { channel := c, stream := s.latched.streamId.toNat, row := none } = some R →
          (R.anyLeaf (fun l => decide (st.config.readableContexts ≤ l.context)) = true →
            exec .chDecode s = .next (s.latchFault (.contractViolation .badArg))) ∧
          (R.anyLeaf (fun l => decide (st.config.readableContexts ≤ l.context)) = false →
            R.anyDecision (fun k => decide (16 ≤ k ∧ (refChannels s.channels c ch).length ≤ (k - 16) / 4)) = true →
            exec .chDecode s = .next (s.latchFault (.invalidBitstream .badProperty)))

/-- `44_channel_decoder.md` R343: a 1x1 channel whose tree is one leaf with predictor 0, and a 2x1 channel whose tree is
one leaf with predictor 1, decode to the values the law gives, for every leaf offset and multiplier and every symbol. -/
def Obligations.ChDecodeScenarioLaws : Prop :=
  ∀ (s : State) (ch : Channel) (l : Leaf) (st : Stream),
    let a := s.latched.args
    let c := a.arg0.toNat
    let dm := s.latched.distMult.toNat
    s.overrun = false → s.channels[c]? = some ch → ch.decoded = false → ch.height = 1 →
    s.tree? a.arg1 = some [.leaf l] → s.stream? a.arg2 = some st → l.context < st.config.readableContexts →
    ∀ tok r, readSymbol st.config l.context dm { coder := st.coder, source := s.source } = .ok tok r →
      let v := unpackSignedNat tok * l.multiplier + l.offset
      inI32 v = true →
      (ch.width = 1 → l.predictor = .zero →
        ∃ t, exec .chDecode s = .next t ∧ t.done = true ∧ t.fault = s.fault ∧ t.sample c 0 0 = some (BitVec.ofInt 32 v) ∧
          t.source = r.source ∧ t.slots = s.slots.setIfInBounds a.arg2.toNat (some { st with coder := r.coder }) ∧
          ∃ m, t.channels = s.channels.set c { ch with decoded := true, samples := m }) ∧
      (∀ tok' r', ch.width = 2 → l.predictor = .west → readSymbol st.config l.context dm r = .ok tok' r' →
        let v' := unpackSignedNat tok' * l.multiplier + l.offset + v
        inI32 v' = true →
        ∃ t, exec .chDecode s = .next t ∧ t.done = true ∧ t.fault = s.fault ∧ t.sample c 0 0 = some (BitVec.ofInt 32 v) ∧
          t.sample c 1 0 = some (BitVec.ofInt 32 v') ∧ t.source = r'.source ∧
          t.slots = s.slots.setIfInBounds a.arg2.toNat (some { st with coder := r'.coder }) ∧
          ∃ m, t.channels = s.channels.set c { ch with decoded := true, samples := m })

/-- `44_channel_decoder.md` R340, R332, R334, `43_ma_tree.md` R282: what a completed `CH_DECODE` has decoded, said of the
channel's final samples and the whole tree. There is a sequence of stream positions and of predictor rows, one for each
pixel in row-major order, such that every sample is its symbol, unpacked, times the multiplier, plus the offset, plus
the prediction, with the leaf the full tree's walk ends at. -/
def Obligations.ChDecodeSolvesPixelEquations : Prop :=
  ∀ (s t : State) (ch : Channel) (nodes : List Node) (st : Stream),
    let a := s.latched.args
    let c := a.arg0.toNat
    let dm := s.latched.distMult.toNat
    let q := wpParams s.latched
    s.fault = none → s.channels[c]? = some ch → s.tree? a.arg1 = some nodes → TreeWf nodes →
    s.stream? a.arg2 = some st → exec .chDecode s = .next t → t.fault = none →
    ∃ (m : Memory) (R : Nat → Reading) (W : Nat → WpState),
      let plane : Plane := { w := ch.width, m := m }
      let ctx : PropertyContext := {
        channel := c, streamId := s.latched.streamId.toNat, plane := plane, refs := refChannels s.channels c ch }
      t.channels = s.channels.set c { ch with decoded := true, samples := m } ∧
      R 0 = { coder := st.coder, source := s.source } ∧ W 0 = {} ∧
      t.source = (R ch.area).source ∧ t.stream? a.arg2 = some { st with coder := (R ch.area).coder } ∧
      ∀ x y, x < ch.width → y < ch.height →
        let p := y * ch.width + x
        ∃ o n leaf tok pred v,
          wpPredict q (W p) plane x y = .ok o ∧
          walk nodes (property ctx (.ok o.maxErr) x y) nodes.length 0 = .ok (n, leaf) ∧
          readSymbol st.config leaf.context dm (R p) = .ok tok (R (p + 1)) ∧
          predict leaf.predictor plane x y o.pred = .ok pred ∧
          v = unpackSignedNat tok * leaf.multiplier + leaf.offset + pred ∧ inI32 v = true ∧
          Memory.read m p = some (BitVec.ofInt 32 v) ∧ W (p + 1) = wpUpdate (W p) o ch.width x y v

/-- `44_channel_decoder.md` R310, R320 to R322: the neighbours of a pixel and the fourteen predictors. What predictor 4
takes on a tie is the open parameter `SELECT_TIE` (log 9). -/
def Obligations.NeighboursAndPredictors : Prop :=
  ∀ (p : Plane) (f : Nat → Nat → Int) (x y : Nat) (wp : Int), x < p.w → KnownBefore p f x y →
    let b := neighboursOf f p.w x y
    (p.W x y = .ok b.W ∧ p.N x y = .ok b.N ∧ p.NW x y = .ok b.NW ∧ p.NE x y = .ok b.NE ∧ p.WW x y = .ok b.WW ∧
      p.NN x y = .ok b.NN ∧ p.NEE x y = .ok b.NEE) ∧
    predict .zero p x y wp = .ok 0 ∧ predict .west p x y wp = .ok b.W ∧ predict .north p x y wp = .ok b.N ∧
    predict .average p x y wp = .ok ((b.W + b.N).tdiv 2) ∧
    (|b.N - b.NW| < |b.W - b.NW| → predict .select p x y wp = .ok b.W) ∧
    (|b.W - b.NW| < |b.N - b.NW| → predict .select p x y wp = .ok b.N) ∧
    (|b.N - b.NW| = |b.W - b.NW| →
      predict .select p x y wp = .ok (if Config.selectTie = .north then b.N else b.W)) ∧
    predict .clampedGradient p x y wp =
      .ok (max (min b.W b.N) (min (max b.W b.N) (b.W + b.N - b.NW))) ∧
    predict .weighted p x y wp = .ok wp ∧ predict .northEast p x y wp = .ok b.NE ∧
    predict .northWest p x y wp = .ok b.NW ∧ predict .westWest p x y wp = .ok b.WW ∧
    predict .averageWestNorthWest p x y wp = .ok ((b.W + b.NW).tdiv 2) ∧
    predict .averageNorthNorthWest p x y wp = .ok ((b.N + b.NW).tdiv 2) ∧
    predict .averageNorthNorthEast p x y wp = .ok ((b.N + b.NE).tdiv 2) ∧
    predict .weightedSum p x y wp =
      .ok ((6 * b.N - 2 * b.NN + 7 * b.W + b.WW + b.NEE + 3 * b.NE + 8).tdiv 16)

/-- `44_channel_decoder.md` R315 to R317: the properties 0 to 14 of a pixel, property 15, the four values that property
`16 + 4q + r` takes from the reference channel `q`, and when there is no such channel; and which channels `refs(c)` lists,
in which order. -/
def Obligations.PixelProperties : Prop :=
  (∀ (channels : List Channel) (c : Nat) (ch : Channel), ∃ js : List Nat,
    (∀ j, j ∈ js ↔ j < c ∧ ∃ r, channels[j]? = some r ∧ r.shape = ch.shape) ∧ js.Pairwise (fun j j' => j' < j) ∧
      (refChannels channels c ch).map some = js.map fun j => channels[j]?) ∧
  ∀ (ctx : PropertyContext) (f : Nat → Nat → Int) (maxErr : Except Stop Int) (x y : Nat), x < ctx.plane.w →
    KnownBefore ctx.plane f x y →
    let b := neighboursOf f ctx.plane.w x y
    let b' := neighboursOf f ctx.plane.w (x - 1) y
    let P := property ctx maxErr x y
    P 0 = .ok ctx.channel ∧ P 1 = .ok ctx.streamId ∧ P 2 = .ok y ∧ P 3 = .ok x ∧ P 4 = .ok |b.N| ∧ P 5 = .ok |b.W| ∧
    P 6 = .ok b.N ∧ P 7 = .ok b.W ∧ P 8 = .ok (if 0 < x then b.W - (b'.W + b'.N - b'.NW) else b.W) ∧
    P 9 = .ok (b.W + b.N - b.NW) ∧ P 10 = .ok (b.W - b.NW) ∧ P 11 = .ok (b.NW - b.N) ∧ P 12 = .ok (b.N - b.NE) ∧
    P 13 = .ok (b.N - b.NN) ∧ P 14 = .ok (b.W - b.WW) ∧ P 15 = maxErr ∧
    (∀ k, 16 ≤ k → ctx.refs.length ≤ (k - 16) / 4 → P k = .error (.raise (.invalidBitstream .badProperty))) ∧
    ∀ (q : Nat) (ref : Channel) (t : Nat → Nat → Int), ctx.refs[q]? = some ref →
      (∀ x' y', x' ≤ x → x ≤ x' + 1 → y' ≤ y → y ≤ y' + 1 →
        sampleAt ref.width ref.samples x' y' = .ok (t x' y')) →
      let v := t x y
      let gW := if 0 < x then t (x - 1) y else 0
      let gN := if 0 < y then t x (y - 1) else gW
      let gNW := if 0 < x ∧ 0 < y then t (x - 1) (y - 1) else gW
      let g := max (min gW gN) (min (max gW gN) (gW + gN - gNW))
      P (16 + 4 * q) = .ok |v| ∧ P (16 + 4 * q + 1) = .ok v ∧ P (16 + 4 * q + 2) = .ok |v - g| ∧
        P (16 + 4 * q + 3) = .ok (v - g)

/-- `44_channel_decoder.md` R330 to R334, `10_state.md` R43: the fields of `WP0` and `WP1`; the weight of an error; the
weighted average; the prediction at a pixel, with its weights and their bounds, its four sub-predictions, the test that
leaves the average unclamped, and the largest error with its tie rule; and the update of the error rows. -/
def Obligations.WeightedPredictorLaws : Prop :=
  (∀ r : HostRegs, ∃ m0 m1 m2 m3 : Nat,
    wpParams r = {
      p1C := r.wp0.toNat % 32, p2C := r.wp0.toNat / 2 ^ 5 % 32, p3Ca := r.wp0.toNat / 2 ^ 10 % 32
      p3Cb := r.wp0.toNat / 2 ^ 15 % 32, p3Cc := r.wp0.toNat / 2 ^ 20 % 32, p3Cd := r.wp0.toNat / 2 ^ 25 % 32
      p3Ce := r.wp1.toNat % 32, maxWeights := [m0, m1, m2, m3] } ∧
    m0 = r.wp1.toNat / 2 ^ 8 % 16 ∧ m1 = r.wp1.toNat / 2 ^ 12 % 16 ∧ m2 = r.wp1.toNat / 2 ^ 16 % 16 ∧
    m3 = r.wp1.toNat / 2 ^ 20 % 16) ∧
  (∀ e maxw,
    let k := e / 2 ^ (Nat.log 2 (e + 1) - 5)
    k < 64 ∧ errorWeight e maxw = 4 + maxw * (2 ^ 24 / (k + 1)) / 2 ^ (Nat.log 2 (e + 1) - 5)) ∧
  (∀ (s0 s1 s2 s3 : Int) (w0 w1 w2 w3 : Nat), 4 ≤ w0 → 4 ≤ w1 → 4 ≤ w2 → 4 ≤ w3 →
    let r := fun v : Nat => v / 2 ^ (Nat.log 2 (w0 + w1 + w2 + w3) - 4)
    let ws := r w0 + r w1 + r w2 + r w3
    weightedAverage [s0, s1, s2, s3] [w0, w1, w2, w3] =
      (((ws / 2 : Nat) : Int) - 1 + (s0 * r w0 + s1 * r w1 + s2 * r w2 + s3 * r w3)) * ((2 ^ 24 / ws : Nat) : Int)
        / 2 ^ 24) ∧
  ∀ (q : WpParams) (st : WpState) (w x y : Nat) (N W NE NW NN : Int) (r0 r1 r2 r3 : ErrorRow) (m0 m1 m2 m3 : Nat),
    st.pe = [r0, r1, r2, r3] → q.maxWeights = [m0, m1, m2, m3] →
    let cur := if y % 2 = 1 then 0 else w + 2
    let prev := if y % 2 = 1 then w + 2 else 0
    let posN := prev + x
    let posNE := if x + 1 < w then posN + 1 else posN
    let posNW := if 0 < x then posN - 1 else posN
    let weight := fun (r : ErrorRow) (m : Nat) => errorWeight (errorAt r posN + errorAt r posNE + errorAt r posNW).toNat m
    let w0 := weight r0 m0
    let w1 := weight r1 m1
    let w2 := weight r2 m2
    let w3 := weight r3 m3
    let L := Nat.log 2 (w0 + w1 + w2 + w3)
    let ws := w0 / 2 ^ (L - 4) + w1 / 2 ^ (L - 4) + w2 / 2 ^ (L - 4) + w3 / 2 ^ (L - 4)
    let teW := if 0 < x then errorAt st.err (cur + x - 1) else 0
    let teN := errorAt st.err posN
    let teNW := errorAt st.err posNW
    let teNE := errorAt st.err posNE
    let o := wpCompute q st w x y N W NE NW NN
    let average := weightedAverage o.sp [w0, w1, w2, w3]
    let lo := min (min (8 * W) (8 * NE)) (8 * N)
    let hi := max (max (8 * W) (8 * NE)) (8 * N)
    (4 ≤ w0 ∧ 4 ≤ w1 ∧ 4 ≤ w2 ∧ 4 ≤ w3 ∧ 4 ≤ L ∧ 12 ≤ ws ∧ ws ≤ 31) ∧
    o.sp = [
      8 * W + 8 * NE - 8 * N,
      8 * N - (teN + teW + teNE) * q.p1C / 32,
      8 * W - (teN + teW + teNW) * q.p2C / 32,
      8 * N - (teNW * q.p3Ca + teN * q.p3Cb + teNE * q.p3Cc + (8 * NN - 8 * N) * q.p3Cd + (8 * NW - 8 * W) * q.p3Ce)
        / 32] ∧
    (((0 ≤ teN ∧ 0 ≤ teW ∧ 0 ≤ teNW) ∨ (teN < 0 ∧ teW < 0 ∧ teNW < 0)) ∧ ¬ (teN = teW ∧ teN = teNW) →
      o.full = average) ∧
    (¬ (((0 ≤ teN ∧ 0 ≤ teW ∧ 0 ≤ teNW) ∨ (teN < 0 ∧ teW < 0 ∧ teNW < 0)) ∧ ¬ (teN = teW ∧ teN = teNW)) →
      o.full = max lo (min hi average)) ∧
    o.pred = (o.full + 3) / 8 ∧
    (∃ i : Nat, [teW, teN, teNW, teNE][i]? = some o.maxErr ∧
      ∀ (j : Nat) (v : Int), [teW, teN, teNW, teNE][j]? = some v →
        |v| ≤ |o.maxErr| ∧ (j < i → |v| < |o.maxErr|)) ∧
    ∀ v : Int,
      let u := wpUpdate st o w x y v
      (errorAt u.err (cur + x) = o.full - 8 * v ∧ ∀ i, i ≠ cur + x → errorAt u.err i = errorAt st.err i) ∧
      u.pe.length = 4 ∧
      ∀ (j : Nat) (r r' : ErrorRow) (sp : Int), st.pe[j]? = some r → u.pe[j]? = some r' → o.sp[j]? = some sp →
        errorAt r' (cur + x) = (|sp - 8 * v| + 3) / 8 ∧
        errorAt r' (prev + x + 1) = errorAt r (prev + x + 1) + (|sp - 8 * v| + 3) / 8 ∧
        ∀ i, i ≠ cur + x → i ≠ prev + x + 1 → errorAt r' i = errorAt r i

/-! ## Transforms (`45_transforms.md`) -/

/-- `45_transforms.md` R360: `XF_PUSH_RCT`. -/
def Obligations.XfPushRctRecordsTransform : Prop :=
  ∀ s : State,
    let a := s.latched.args
    let b := a.arg0.toNat
    (42 ≤ a.arg1.toNat ∨ s.channels.length < b + 3 →
      exec .xfPushRct s = .next (s.latchFault (.invalidBitstream .badTransform))) ∧
    ∀ c0 c1 c2, a.arg1.toNat < 42 → s.channels[b]? = some c0 → s.channels[b + 1]? = some c1 →
      s.channels[b + 2]? = some c2 →
      (¬ (c0.shape = c1.shape ∧ c0.shape = c2.shape) →
        exec .xfPushRct s = .next (s.latchFault (.invalidBitstream .rctShape))) ∧
      (s.overrun = false → c0.shape = c1.shape → c0.shape = c2.shape →
        exec .xfPushRct s = .next
          { s with
            transforms := s.transforms ++ [{ transform := .rct b a.arg1.toNat, nbMetaBefore := s.nbMeta }]
            busy := false
            done := true })

/-- `45_transforms.md` R361, R380: `XF_PUSH_PALETTE`: its checks in order, and its list step. That the bound of 4096
records and of `2^31 - 1` on a side also ends in `ResourceExhausted` is log 15. -/
def Obligations.XfPushPaletteInsertsPalette : Prop :=
  ∀ s : State,
    let a := s.latched.args
    let b := a.arg0.toNat
    let n := a.arg1.toNat
    (n = 0 ∨ s.channels.length < b + n ∨ 13 < a.arg4.toNat →
      exec .xfPushPalette s = .next (s.latchFault (.invalidBitstream .badTransform))) ∧
    ∀ q, n ≠ 0 → b + n ≤ s.channels.length → q.id = a.arg4.toNat →
      let group := (s.channels.drop b).take n
      (¬ (∀ c ∈ group, ∀ c' ∈ group, c.shape = c'.shape) →
        exec .xfPushPalette s = .next (s.latchFault (.invalidBitstream .paletteShape))) ∧
      ((∀ c ∈ group, ∀ c' ∈ group, c.shape = c'.shape) →
        (b < s.nbMeta → s.nbMeta < b + n →
          exec .xfPushPalette s = .next (s.latchFault (.invalidBitstream .badTransform))) ∧
        ((b < s.nbMeta → b + n ≤ s.nbMeta) →
          ∀ index, s.channels[b]? = some index →
          let pal : Channel := {
            width := a.arg2.toNat, height := n, hshift := -1, vshift := -1, originX := 0, originY := 0
            decoded := false, forceWP := false, samples := [] }
          let list := pal :: s.channels.take b ++
            [{ index with forceWP := index.forceWP || a.arg4 == 6#32 }] ++ s.channels.drop (b + n)
          (¬ (list.length ≤ 4096 ∧ totalArea list ≤ Config.arenaCapacity ∧
              ∀ c ∈ list, c.width < 2 ^ 31 ∧ c.height < 2 ^ 31) →
            exec .xfPushPalette s = .next (s.latchFault .resourceExhausted)) ∧
          (s.overrun = false → list.length ≤ 4096 → totalArea list ≤ Config.arenaCapacity →
            (∀ c ∈ list, c.width < 2 ^ 31 ∧ c.height < 2 ^ 31) →
            exec .xfPushPalette s = .next
              { s with
                channels := list
                nbMeta := if s.nbMeta ≤ b then s.nbMeta + 1 else s.nbMeta + 2 - n
                transforms := s.transforms ++
                  [{ transform := .palette b n a.arg2.toNat a.arg3.toNat q, nbMetaBefore := s.nbMeta }]
                busy := false
                done := true })))

/-- `45_transforms.md` R362, R375: `XF_PUSH_SQUEEZE`: its checks in order, and its list step. That the bound of 4096
records also ends in `ResourceExhausted` is log 15. -/
def Obligations.XfPushSqueezeInsertsResiduals : Prop :=
  ∀ s : State,
    let a := s.latched.args
    let b := a.arg0.toNat
    let n := a.arg1.toNat
    let horizontal := a.arg2.getLsbD 0
    let inPlace := a.arg2.getLsbD 1
    let group := (s.channels.drop b).take n
    (4 ≤ a.arg2.toNat → exec .xfPushSqueeze s = .next (s.latchFault (.contractViolation .badArg))) ∧
    (a.arg2.toNat < 4 →
      (n = 0 ∨ s.channels.length < b + n ∨ (b < s.nbMeta ∧ (s.nbMeta < b + n ∨ inPlace = false)) ∨
          (∃ ch ∈ group, 30 < ch.hshift ∨ 30 < ch.vshift ∨ ch.width = 0 ∨ ch.height = 0) →
        exec .xfPushSqueeze s = .next (s.latchFault (.invalidBitstream .badTransform))) ∧
      (n ≠ 0 → b + n ≤ s.channels.length → (b < s.nbMeta → b + n ≤ s.nbMeta ∧ inPlace = true) →
        (∀ ch ∈ group, ch.hshift ≤ 30 ∧ ch.vshift ≤ 30 ∧ ch.width ≠ 0 ∧ ch.height ≠ 0) →
        let half := group.map fun ch =>
          if horizontal then
            { ch with
              width := (ch.width + 1) / 2, hshift := if 0 ≤ ch.hshift then ch.hshift + 1 else ch.hshift
              decoded := false, samples := [] }
          else
            { ch with
              height := (ch.height + 1) / 2, vshift := if 0 ≤ ch.vshift then ch.vshift + 1 else ch.vshift
              decoded := false, samples := [] }
        let residuals := group.map fun ch => ({
          width := if horizontal then ch.width - (ch.width + 1) / 2 else ch.width
          height := if horizontal then ch.height else ch.height - (ch.height + 1) / 2
          hshift := if horizontal = true ∧ (0 : Int) ≤ ch.hshift then ch.hshift + 1 else ch.hshift
          vshift := if horizontal = false ∧ (0 : Int) ≤ ch.vshift then ch.vshift + 1 else ch.vshift
          originX := 0, originY := 0, decoded := false, forceWP := false, samples := [] } : Channel)
        let list :=
          if inPlace then s.channels.take b ++ half ++ residuals ++ s.channels.drop (b + n)
          else s.channels.take b ++ half ++ s.channels.drop (b + n) ++ residuals
        (¬ (list.length ≤ 4096 ∧ totalArea list ≤ Config.arenaCapacity ∧
            ∀ c ∈ list, c.width < 2 ^ 31 ∧ c.height < 2 ^ 31) →
          exec .xfPushSqueeze s = .next (s.latchFault .resourceExhausted)) ∧
        (s.overrun = false → list.length ≤ 4096 → totalArea list ≤ Config.arenaCapacity →
          (∀ c ∈ list, c.width < 2 ^ 31 ∧ c.height < 2 ^ 31) →
          exec .xfPushSqueeze s = .next
            { s with
              channels := list
              nbMeta := if b < s.nbMeta then s.nbMeta + n else s.nbMeta
              transforms := s.transforms ++ [{
                transform := .squeeze b n horizontal inPlace (if inPlace then b + n else s.channels.length)
                nbMetaBefore := s.nbMeta }]
              busy := false
              done := true })))

/-- `45_transforms.md` R363, R370 to R372: `XF_APPLY` with an empty list completes and changes nothing; with one RCT of
any of the 42 types it gives back the three arrays whose forward transform the channels hold. That three records with no
samples end decoded too is log 19. -/
def Obligations.XfApplyUndoesRct : Prop :=
  (∀ s : State, s.overrun = false → s.transforms = [] →
    exec .xfApply s = .next { s with busy := false, done := true }) ∧
  ∀ (s : State) (m rctType nbMeta p0 p1 p2 : Nat) (c0 c1 c2 : Channel) (o : Nat → Nat → Nat → Int),
    s.overrun = false → rctType < 42 →
    s.transforms = [{ transform := .rct m rctType, nbMetaBefore := nbMeta }] →
    s.channels[m]? = some c0 → s.channels[m + 1]? = some c1 → s.channels[m + 2]? = some c2 →
    c0.shape = c1.shape → c0.shape = c2.shape → rctOffsets[rctType / 7]? = some (p0, p1, p2) →
    (∀ k x y, inI32 (o k x y) = true) →
    (∀ x y, x < c0.width → y < c0.height →
      let f := forwardRct (rctType % 7) (o p0 x y) (o p1 x y) (o p2 x y)
      inI32 f.1 = true ∧ inI32 f.2.1 = true ∧ inI32 f.2.2 = true ∧
        c0.sample x y = some (BitVec.ofInt 32 f.1) ∧ c1.sample x y = some (BitVec.ofInt 32 f.2.1) ∧
        c2.sample x y = some (BitVec.ofInt 32 f.2.2)) →
    ∃ t, exec .xfApply s = .next t ∧ t.done = true ∧ t.fault = s.fault ∧ t.nbMeta = nbMeta ∧ t.transforms = [] ∧
      t.channels.length = s.channels.length ∧
      (∀ k x y, k < 3 → x < c0.width → y < c0.height → t.sample (m + k) x y = some (BitVec.ofInt 32 (o k x y))) ∧
      (∀ k, k < 3 → ∃ ch, t.channels[m + k]? = some ch ∧ ch.decoded = true ∧ ch.shape = c0.shape) ∧
      ∀ j, j < m ∨ m + 3 ≤ j → t.channels[j]? = s.channels[j]?

/-- `45_transforms.md` R379, R390: the inverse squeeze of a line's forward squeeze is the line, for every line of
integers; and the values of `SmoothTendency`, on which that law does not depend: falling, rising, neither. Its second cut
never follows its first. -/
def Obligations.SqueezeLineRoundTrip : Prop :=
  (∀ line : List Int,
    (forwardAverages line).length = (line.length + 1) / 2 ∧
    (forwardResiduals none line).length = line.length / 2 ∧
    unsqueezeLine none (forwardAverages line) (forwardResiduals none line) = line) ∧
  ∀ B a n : Int,
    let t := smoothTendency B a n
    (n ≤ a → a ≤ B →
      let d := (4 * B - 3 * n - a + 6) / 12
      (d - d % 2 ≤ 2 * (B - a) → d + d % 2 ≤ 2 * (a - n) → t = d) ∧
      (d - d % 2 ≤ 2 * (B - a) → 2 * (a - n) < d + d % 2 → t = 2 * (a - n)) ∧
      (2 * (B - a) < d - d % 2 → t = 2 * (B - a) + 1)) ∧
    (B ≤ a → a ≤ n →
      let d := -((3 * n + a - 4 * B + 6) / 12)
      (2 * (B - a) ≤ d + d % 2 → 2 * (a - n) ≤ d - d % 2 → t = d) ∧
      (2 * (B - a) ≤ d + d % 2 → d - d % 2 < 2 * (a - n) → t = 2 * (a - n)) ∧
      (d + d % 2 < 2 * (B - a) → t = 2 * (B - a) - 1)) ∧
    (B < a ∧ n < a ∨ a < B ∧ a < n → t = 0)

/-- `45_transforms.md` R363, R376 to R378, R390: `XF_APPLY` with one squeeze of one channel, horizontal or vertical,
gives back the array whose forward squeeze the two records hold, and removes the residual record. -/
def Obligations.XfApplyUndoesSqueeze : Prop :=
  ∀ (s : State) (b r nbMeta : Nat) (horizontal inPlace : Bool) (A R : Channel) (f : Nat → Nat → Int),
    s.overrun = false → s.transforms = [{ transform := .squeeze b 1 horizontal inPlace r, nbMetaBefore := nbMeta }] →
    b < r → s.channels[b]? = some A → s.channels[r]? = some R →
    A.lineCount horizontal = R.lineCount horizontal →
    let n := A.lineLength horizontal + R.lineLength horizontal
    let line := fun i => (List.range n).map (f i)
    A.lineLength horizontal = (n + 1) / 2 → (∀ i j, inI32 (f i j) = true) →
    (∀ i, i < A.lineCount horizontal →
      (∀ j v, (forwardAverages (line i))[j]? = some v → A.lineSample horizontal i j = some (BitVec.ofInt 32 v)) ∧
      (∀ j v, (forwardResiduals none (line i))[j]? = some v →
        inI32 v = true ∧ R.lineSample horizontal i j = some (BitVec.ofInt 32 v))) →
    ∃ t ch, exec .xfApply s = .next t ∧ t.done = true ∧ t.fault = s.fault ∧ t.nbMeta = nbMeta ∧ t.transforms = [] ∧
      t.channels.length + 1 = s.channels.length ∧ t.channels[b]? = some ch ∧ ch.decoded = true ∧
      ch.lineCount horizontal = A.lineCount horizontal ∧ ch.lineLength horizontal = n ∧
      (∀ i j, i < A.lineCount horizontal → j < n → ch.lineSample horizontal i j = some (BitVec.ofInt 32 (f i j))) ∧
      (∀ j, j ≠ b → j < r → t.channels[j]? = s.channels[j]?) ∧
      ∀ j, r ≤ j → t.channels[j]? = s.channels[j + 1]?

/-- `45_transforms.md` R363, R381, R382, R384: `XF_APPLY` with one palette without deltas, whose index channel selects
explicit entries only, gives every output sample its entry's component, whatever `BITDEPTH` is; another `BITDEPTH` than
1 to 32 is a fault. With any number of deltas, any indices and any of the predictors, it gives the arrays `f k` that solve
the outputs' equations: the palette value, plus, for an index below `nbDeltas`, the prediction from the output's own
earlier samples, over predictor rows `W k` that start fresh and follow the output. The arena check is log 16. -/
def Obligations.XfApplyExpandsPalette : Prop :=
  (∀ (s : State) (b n P nbMeta : Nat) (q : Predictor) (pal index : Channel),
    s.transforms = [{ transform := .palette b n P 0 q, nbMetaBefore := nbMeta }] →
    (s.latched.bitDepth.toNat = 0 ∨ 32 < s.latched.bitDepth.toNat →
      ∃ t, exec .xfApply s = .next t ∧ (s.fault = none → t.fault = some (.contractViolation .badBitdepth))) ∧
    (s.overrun = false → 1 ≤ s.latched.bitDepth.toNat → s.latched.bitDepth.toNat ≤ 32 →
      s.channels[0]? = some pal → s.channels[b + 1]? = some index → pal.width = P → pal.height = n →
      fitsArena (unpalettedList s.channels b (List.replicate n index)) = true →
      (∀ x y, x < index.width → y < index.height →
        ∃ v, index.sample x y = some v ∧ 0 ≤ v.toInt ∧ v.toInt < P) →
      (∀ i k, i < P → k < n → (pal.sample i k).isSome = true) →
      ∃ t, exec .xfApply s = .next t ∧ t.done = true ∧ t.fault = s.fault ∧ t.nbMeta = nbMeta ∧ t.transforms = [] ∧
        t.channels.length + 2 = s.channels.length + n ∧
        (∀ k x y v, k < n → index.sample x y = some v → t.sample (b + k) x y = pal.sample v.toNat k) ∧
        (∀ k, k < n → ∃ ch, t.channels[b + k]? = some ch ∧ ch.decoded = true ∧ ch.shape = index.shape) ∧
        (∀ j, j < b → t.channels[j]? = s.channels[j + 1]?) ∧
        ∀ j, b + n ≤ j → t.channels[j]? = s.channels[j + 2 - n]?)) ∧
  ∀ (s : State) (b n nbDeltas nbMeta : Nat) (q : Predictor) (pal index : Channel) (f : Nat → Nat → Nat → Int)
    (W : Nat → Nat → WpState) (o : Nat → Nat → Nat → WpPrediction),
    s.overrun = false →
    s.transforms = [{ transform := .palette b n pal.width nbDeltas q, nbMetaBefore := nbMeta }] →
    1 ≤ s.latched.bitDepth.toNat → s.latched.bitDepth.toNat ≤ 32 →
    s.channels[0]? = some pal → s.channels[b + 1]? = some index → pal.height = n →
    fitsArena (unpalettedList s.channels b (List.replicate n index)) = true →
    let plane := fun k => ({ w := index.width, m := samplesOf index.width index.height (f k) } : Plane)
    (∀ k, W k 0 = {}) →
    (∀ k x y, k < n → x < index.width → y < index.height →
      let p := y * index.width + x
      wpPredict (wpParams s.latched) (W k p) (plane k) x y = .ok (o k x y) ∧
      W k (p + 1) = wpUpdate (W k p) (o k x y) index.width x y (f k x y) ∧
      ∃ idx base pred, index.sample x y = some idx ∧
        paletteValue pal pal.width idx.toInt k (min s.latched.bitDepth.toNat 24) = .ok base ∧
        predict q (plane k) x y (o k x y).pred = .ok pred ∧
        f k x y = base + (if idx.toInt < nbDeltas then pred else 0) ∧ inI32 (f k x y) = true) →
    ∃ t, exec .xfApply s = .next t ∧ t.done = true ∧ t.fault = s.fault ∧ t.nbMeta = nbMeta ∧ t.transforms = [] ∧
      t.channels.length + 2 = s.channels.length + n ∧
      (∀ k, k < n → ∃ ch, t.channels[b + k]? = some ch ∧ ch.decoded = true ∧ ch.shape = index.shape ∧
        ∀ x y, x < index.width → y < index.height → ch.sample x y = some (BitVec.ofInt 32 (f k x y))) ∧
      (∀ j, j < b → t.channels[j]? = s.channels[j + 1]?) ∧
      ∀ j, b + n ≤ j → t.channels[j]? = s.channels[j + 2 - n]?

/-- `45_transforms.md` R382, R383: the values a palette index selects outside the explicit entries: with
`i = (-(idx + 1)) mod 143`, a negative index gives the component of row `(i + 1) >> 1` of the delta palette, negated for
an even `i`, times `2^(bd - 8)` above 8 bits; the two cubes; and 0 for components from 3 up. -/
def Obligations.ImplicitPaletteEntries : Prop :=
  ∀ (pal : Channel) (P : Nat) (idx : Int) (k bd : Nat), 1 ≤ bd → bd ≤ 24 →
    (idx < 0 ∨ (P : Int) ≤ idx → 3 ≤ k → paletteValue pal P idx k bd = .ok 0) ∧
    (idx < 0 → paletteValue pal P (idx - 143) k bd = paletteValue pal P idx k bd ∧
      ∃ i row, i < 143 ∧ ((i : Nat) : Int) = (-(idx + 1)) % 143 ∧ delta[(i + 1) / 2]? = some row ∧
        (k < 3 → paletteValue pal P idx k bd =
          .ok ((if k = 0 then row.1 else if k = 1 then row.2.1 else row.2.2) * (if i % 2 = 1 then 1 else -1) *
            (if 8 < bd then 2 ^ (bd - 8) else 1)))) ∧
    (idx < 0 → bd ≤ 8 → paletteValue pal P idx k bd = paletteValue pal P idx k 8) ∧
    ((P : Int) ≤ idx → idx < P + 64 → k < 3 →
      ∃ digit : Nat, digit < 4 ∧ ((digit : Nat) : Int) = (idx - P) / 4 ^ k % 4 ∧
        paletteValue pal P idx k bd = .ok ((digit * (2 ^ bd - 1) / 4 : Nat) + ((2 ^ (bd - 3) : Nat) : Int))) ∧
    ((P : Int) + 64 ≤ idx → k < 3 →
      ∃ digit : Nat, digit < 5 ∧ ((digit : Nat) : Int) = (idx - P - 64) / 5 ^ k % 5 ∧
        paletteValue pal P idx k bd = .ok ((digit * (2 ^ bd - 1) / 4 : Nat) : Int))

/-- `45_transforms.md` R364: after any session of completed commands from a state with no transform pushed, an
`XF_APPLY` that completes leaves the list with the length, order and shapes it had, followed by what was appended, and
`nbMeta` as it was. -/
def Obligations.XfApplyRestoresListShape : Prop :=
  ∀ (s t u : State) (added : List (Nat × Nat × Int × Int)) (r : HostRegs), s.transforms = [] → Session s added t →
    exec .xfApply { t with latched := r } = .next u → u.fault = none →
    u.channels.map Channel.shape = s.channels.map Channel.shape ++ added ∧ u.nbMeta = s.nbMeta ∧ u.transforms = []
end

