-- ==== Sys2Proof/Laws/State.lean ====
section
/-! SUPPORT. What each update of the state leaves in each field: one lemma per field per update. -/

namespace Sys2Proof.Machine

variable (s : State)

/-! ## `State.setSource` -/

@[simp] theorem State.setSource_regs (b : BitSource) : (s.setSource b).regs = s.regs := rfl
@[simp] theorem State.setSource_latched (b : BitSource) : (s.setSource b).latched = s.latched := rfl
@[simp] theorem State.setSource_cmd (b : BitSource) : (s.setSource b).cmd = s.cmd := rfl
@[simp] theorem State.setSource_busy (b : BitSource) : (s.setSource b).busy = s.busy := rfl
@[simp] theorem State.setSource_done (b : BitSource) : (s.setSource b).done = s.done := rfl
@[simp] theorem State.setSource_fault (b : BitSource) : (s.setSource b).fault = s.fault := rfl
@[simp] theorem State.setSource_overrun (b : BitSource) : (s.setSource b).overrun = s.overrun := rfl
@[simp] theorem State.setSource_irqEn (b : BitSource) : (s.setSource b).irqEn = s.irqEn := rfl
@[simp] theorem State.setSource_result0 (b : BitSource) : (s.setSource b).result0 = s.result0 := rfl
@[simp] theorem State.setSource_result1 (b : BitSource) : (s.setSource b).result1 = s.result1 := rfl
@[simp] theorem State.setSource_result2 (b : BitSource) : (s.setSource b).result2 = s.result2 := rfl
@[simp] theorem State.setSource_source (b : BitSource) : (s.setSource b).source = b := rfl
@[simp] theorem State.setSource_presented (b : BitSource) : (s.setSource b).presented = s.presented := rfl
@[simp] theorem State.setSource_slots (b : BitSource) : (s.setSource b).slots = s.slots := rfl
@[simp] theorem State.setSource_trees (b : BitSource) : (s.setSource b).trees = s.trees := rfl
@[simp] theorem State.setSource_channels (b : BitSource) : (s.setSource b).channels = s.channels := rfl
@[simp] theorem State.setSource_nbMeta (b : BitSource) : (s.setSource b).nbMeta = s.nbMeta := rfl
@[simp] theorem State.setSource_transforms (b : BitSource) : (s.setSource b).transforms = s.transforms := rfl
@[simp] theorem State.setSource_inputs (b : BitSource) : (s.setSource b).inputs = s.inputs := rfl
@[simp] theorem State.setSource_draws (b : BitSource) : (s.setSource b).draws = s.draws := rfl

/-! ## `State.setSlot` -/

@[simp] theorem State.setSlot_regs (i : Nat) (v : Option Stream) : (s.setSlot i v).regs = s.regs := rfl
@[simp] theorem State.setSlot_latched (i : Nat) (v : Option Stream) : (s.setSlot i v).latched = s.latched := rfl
@[simp] theorem State.setSlot_cmd (i : Nat) (v : Option Stream) : (s.setSlot i v).cmd = s.cmd := rfl
@[simp] theorem State.setSlot_busy (i : Nat) (v : Option Stream) : (s.setSlot i v).busy = s.busy := rfl
@[simp] theorem State.setSlot_done (i : Nat) (v : Option Stream) : (s.setSlot i v).done = s.done := rfl
@[simp] theorem State.setSlot_fault (i : Nat) (v : Option Stream) : (s.setSlot i v).fault = s.fault := rfl
@[simp] theorem State.setSlot_overrun (i : Nat) (v : Option Stream) : (s.setSlot i v).overrun = s.overrun := rfl
@[simp] theorem State.setSlot_irqEn (i : Nat) (v : Option Stream) : (s.setSlot i v).irqEn = s.irqEn := rfl
@[simp] theorem State.setSlot_result0 (i : Nat) (v : Option Stream) : (s.setSlot i v).result0 = s.result0 := rfl
@[simp] theorem State.setSlot_result1 (i : Nat) (v : Option Stream) : (s.setSlot i v).result1 = s.result1 := rfl
@[simp] theorem State.setSlot_result2 (i : Nat) (v : Option Stream) : (s.setSlot i v).result2 = s.result2 := rfl
@[simp] theorem State.setSlot_source (i : Nat) (v : Option Stream) : (s.setSlot i v).source = s.source := rfl
@[simp] theorem State.setSlot_presented (i : Nat) (v : Option Stream) : (s.setSlot i v).presented = s.presented := rfl
@[simp] theorem State.setSlot_slots (i : Nat) (v : Option Stream) : (s.setSlot i v).slots = s.slots.setIfInBounds i v :=
  rfl
@[simp] theorem State.setSlot_trees (i : Nat) (v : Option Stream) : (s.setSlot i v).trees = s.trees := rfl
@[simp] theorem State.setSlot_channels (i : Nat) (v : Option Stream) : (s.setSlot i v).channels = s.channels := rfl
@[simp] theorem State.setSlot_nbMeta (i : Nat) (v : Option Stream) : (s.setSlot i v).nbMeta = s.nbMeta := rfl
@[simp] theorem State.setSlot_transforms (i : Nat) (v : Option Stream) : (s.setSlot i v).transforms = s.transforms :=
  rfl
@[simp] theorem State.setSlot_inputs (i : Nat) (v : Option Stream) : (s.setSlot i v).inputs = s.inputs := rfl
@[simp] theorem State.setSlot_draws (i : Nat) (v : Option Stream) : (s.setSlot i v).draws = s.draws := rfl

/-! ## `State.setTree` -/

@[simp] theorem State.setTree_regs (i : Nat) (v : List Node) : (s.setTree i v).regs = s.regs := rfl
@[simp] theorem State.setTree_latched (i : Nat) (v : List Node) : (s.setTree i v).latched = s.latched := rfl
@[simp] theorem State.setTree_cmd (i : Nat) (v : List Node) : (s.setTree i v).cmd = s.cmd := rfl
@[simp] theorem State.setTree_busy (i : Nat) (v : List Node) : (s.setTree i v).busy = s.busy := rfl
@[simp] theorem State.setTree_done (i : Nat) (v : List Node) : (s.setTree i v).done = s.done := rfl
@[simp] theorem State.setTree_fault (i : Nat) (v : List Node) : (s.setTree i v).fault = s.fault := rfl
@[simp] theorem State.setTree_overrun (i : Nat) (v : List Node) : (s.setTree i v).overrun = s.overrun := rfl
@[simp] theorem State.setTree_irqEn (i : Nat) (v : List Node) : (s.setTree i v).irqEn = s.irqEn := rfl
@[simp] theorem State.setTree_result0 (i : Nat) (v : List Node) : (s.setTree i v).result0 = s.result0 := rfl
@[simp] theorem State.setTree_result1 (i : Nat) (v : List Node) : (s.setTree i v).result1 = s.result1 := rfl
@[simp] theorem State.setTree_result2 (i : Nat) (v : List Node) : (s.setTree i v).result2 = s.result2 := rfl
@[simp] theorem State.setTree_source (i : Nat) (v : List Node) : (s.setTree i v).source = s.source := rfl
@[simp] theorem State.setTree_presented (i : Nat) (v : List Node) : (s.setTree i v).presented = s.presented := rfl
@[simp] theorem State.setTree_slots (i : Nat) (v : List Node) : (s.setTree i v).slots = s.slots := rfl
@[simp] theorem State.setTree_trees (i : Nat) (v : List Node) : (s.setTree i v).trees = s.trees.setIfInBounds i (some v) :=
  rfl
@[simp] theorem State.setTree_channels (i : Nat) (v : List Node) : (s.setTree i v).channels = s.channels := rfl
@[simp] theorem State.setTree_nbMeta (i : Nat) (v : List Node) : (s.setTree i v).nbMeta = s.nbMeta := rfl
@[simp] theorem State.setTree_transforms (i : Nat) (v : List Node) : (s.setTree i v).transforms = s.transforms := rfl
@[simp] theorem State.setTree_inputs (i : Nat) (v : List Node) : (s.setTree i v).inputs = s.inputs := rfl
@[simp] theorem State.setTree_draws (i : Nat) (v : List Node) : (s.setTree i v).draws = s.draws := rfl

/-! ## `State.setChannels` -/

@[simp] theorem State.setChannels_regs (l : List Channel) : (s.setChannels l).regs = s.regs := rfl
@[simp] theorem State.setChannels_latched (l : List Channel) : (s.setChannels l).latched = s.latched := rfl
@[simp] theorem State.setChannels_cmd (l : List Channel) : (s.setChannels l).cmd = s.cmd := rfl
@[simp] theorem State.setChannels_busy (l : List Channel) : (s.setChannels l).busy = s.busy := rfl
@[simp] theorem State.setChannels_done (l : List Channel) : (s.setChannels l).done = s.done := rfl
@[simp] theorem State.setChannels_fault (l : List Channel) : (s.setChannels l).fault = s.fault := rfl
@[simp] theorem State.setChannels_overrun (l : List Channel) : (s.setChannels l).overrun = s.overrun := rfl
@[simp] theorem State.setChannels_irqEn (l : List Channel) : (s.setChannels l).irqEn = s.irqEn := rfl
@[simp] theorem State.setChannels_result0 (l : List Channel) : (s.setChannels l).result0 = s.result0 := rfl
@[simp] theorem State.setChannels_result1 (l : List Channel) : (s.setChannels l).result1 = s.result1 := rfl
@[simp] theorem State.setChannels_result2 (l : List Channel) : (s.setChannels l).result2 = s.result2 := rfl
@[simp] theorem State.setChannels_source (l : List Channel) : (s.setChannels l).source = s.source := rfl
@[simp] theorem State.setChannels_presented (l : List Channel) : (s.setChannels l).presented = s.presented := rfl
@[simp] theorem State.setChannels_slots (l : List Channel) : (s.setChannels l).slots = s.slots := rfl
@[simp] theorem State.setChannels_trees (l : List Channel) : (s.setChannels l).trees = s.trees := rfl
@[simp] theorem State.setChannels_channels (l : List Channel) : (s.setChannels l).channels = l := rfl
@[simp] theorem State.setChannels_nbMeta (l : List Channel) : (s.setChannels l).nbMeta = s.nbMeta := rfl
@[simp] theorem State.setChannels_transforms (l : List Channel) : (s.setChannels l).transforms = s.transforms := rfl
@[simp] theorem State.setChannels_inputs (l : List Channel) : (s.setChannels l).inputs = s.inputs := rfl
@[simp] theorem State.setChannels_draws (l : List Channel) : (s.setChannels l).draws = s.draws := rfl

/-! ## `State.setChannel` -/

@[simp] theorem State.setChannel_regs (c : Nat) (ch : Channel) : (s.setChannel c ch).regs = s.regs := rfl
@[simp] theorem State.setChannel_latched (c : Nat) (ch : Channel) : (s.setChannel c ch).latched = s.latched := rfl
@[simp] theorem State.setChannel_cmd (c : Nat) (ch : Channel) : (s.setChannel c ch).cmd = s.cmd := rfl
@[simp] theorem State.setChannel_busy (c : Nat) (ch : Channel) : (s.setChannel c ch).busy = s.busy := rfl
@[simp] theorem State.setChannel_done (c : Nat) (ch : Channel) : (s.setChannel c ch).done = s.done := rfl
@[simp] theorem State.setChannel_fault (c : Nat) (ch : Channel) : (s.setChannel c ch).fault = s.fault := rfl
@[simp] theorem State.setChannel_overrun (c : Nat) (ch : Channel) : (s.setChannel c ch).overrun = s.overrun := rfl
@[simp] theorem State.setChannel_irqEn (c : Nat) (ch : Channel) : (s.setChannel c ch).irqEn = s.irqEn := rfl
@[simp] theorem State.setChannel_result0 (c : Nat) (ch : Channel) : (s.setChannel c ch).result0 = s.result0 := rfl
@[simp] theorem State.setChannel_result1 (c : Nat) (ch : Channel) : (s.setChannel c ch).result1 = s.result1 := rfl
@[simp] theorem State.setChannel_result2 (c : Nat) (ch : Channel) : (s.setChannel c ch).result2 = s.result2 := rfl
@[simp] theorem State.setChannel_source (c : Nat) (ch : Channel) : (s.setChannel c ch).source = s.source := rfl
@[simp] theorem State.setChannel_presented (c : Nat) (ch : Channel) : (s.setChannel c ch).presented = s.presented :=
  rfl
@[simp] theorem State.setChannel_slots (c : Nat) (ch : Channel) : (s.setChannel c ch).slots = s.slots := rfl
@[simp] theorem State.setChannel_trees (c : Nat) (ch : Channel) : (s.setChannel c ch).trees = s.trees := rfl
@[simp] theorem State.setChannel_channels (c : Nat) (ch : Channel) : (s.setChannel c ch).channels = s.channels.set c ch :=
  rfl
@[simp] theorem State.setChannel_nbMeta (c : Nat) (ch : Channel) : (s.setChannel c ch).nbMeta = s.nbMeta := rfl
@[simp] theorem State.setChannel_transforms (c : Nat) (ch : Channel) : (s.setChannel c ch).transforms = s.transforms :=
  rfl
@[simp] theorem State.setChannel_inputs (c : Nat) (ch : Channel) : (s.setChannel c ch).inputs = s.inputs := rfl
@[simp] theorem State.setChannel_draws (c : Nat) (ch : Channel) : (s.setChannel c ch).draws = s.draws := rfl

/-! ## `State.setNbMeta` -/

@[simp] theorem State.setNbMeta_regs (n : Nat) : (s.setNbMeta n).regs = s.regs := rfl
@[simp] theorem State.setNbMeta_latched (n : Nat) : (s.setNbMeta n).latched = s.latched := rfl
@[simp] theorem State.setNbMeta_cmd (n : Nat) : (s.setNbMeta n).cmd = s.cmd := rfl
@[simp] theorem State.setNbMeta_busy (n : Nat) : (s.setNbMeta n).busy = s.busy := rfl
@[simp] theorem State.setNbMeta_done (n : Nat) : (s.setNbMeta n).done = s.done := rfl
@[simp] theorem State.setNbMeta_fault (n : Nat) : (s.setNbMeta n).fault = s.fault := rfl
@[simp] theorem State.setNbMeta_overrun (n : Nat) : (s.setNbMeta n).overrun = s.overrun := rfl
@[simp] theorem State.setNbMeta_irqEn (n : Nat) : (s.setNbMeta n).irqEn = s.irqEn := rfl
@[simp] theorem State.setNbMeta_result0 (n : Nat) : (s.setNbMeta n).result0 = s.result0 := rfl
@[simp] theorem State.setNbMeta_result1 (n : Nat) : (s.setNbMeta n).result1 = s.result1 := rfl
@[simp] theorem State.setNbMeta_result2 (n : Nat) : (s.setNbMeta n).result2 = s.result2 := rfl
@[simp] theorem State.setNbMeta_source (n : Nat) : (s.setNbMeta n).source = s.source := rfl
@[simp] theorem State.setNbMeta_presented (n : Nat) : (s.setNbMeta n).presented = s.presented := rfl
@[simp] theorem State.setNbMeta_slots (n : Nat) : (s.setNbMeta n).slots = s.slots := rfl
@[simp] theorem State.setNbMeta_trees (n : Nat) : (s.setNbMeta n).trees = s.trees := rfl
@[simp] theorem State.setNbMeta_channels (n : Nat) : (s.setNbMeta n).channels = s.channels := rfl
@[simp] theorem State.setNbMeta_nbMeta (n : Nat) : (s.setNbMeta n).nbMeta = n := rfl
@[simp] theorem State.setNbMeta_transforms (n : Nat) : (s.setNbMeta n).transforms = s.transforms := rfl
@[simp] theorem State.setNbMeta_inputs (n : Nat) : (s.setNbMeta n).inputs = s.inputs := rfl
@[simp] theorem State.setNbMeta_draws (n : Nat) : (s.setNbMeta n).draws = s.draws := rfl

/-! ## `State.setTransforms` -/

@[simp] theorem State.setTransforms_regs (l : List TransformRecord) : (s.setTransforms l).regs = s.regs := rfl
@[simp] theorem State.setTransforms_latched (l : List TransformRecord) : (s.setTransforms l).latched = s.latched :=
  rfl
@[simp] theorem State.setTransforms_cmd (l : List TransformRecord) : (s.setTransforms l).cmd = s.cmd := rfl
@[simp] theorem State.setTransforms_busy (l : List TransformRecord) : (s.setTransforms l).busy = s.busy := rfl
@[simp] theorem State.setTransforms_done (l : List TransformRecord) : (s.setTransforms l).done = s.done := rfl
@[simp] theorem State.setTransforms_fault (l : List TransformRecord) : (s.setTransforms l).fault = s.fault := rfl
@[simp] theorem State.setTransforms_overrun (l : List TransformRecord) : (s.setTransforms l).overrun = s.overrun :=
  rfl
@[simp] theorem State.setTransforms_irqEn (l : List TransformRecord) : (s.setTransforms l).irqEn = s.irqEn := rfl
@[simp] theorem State.setTransforms_result0 (l : List TransformRecord) : (s.setTransforms l).result0 = s.result0 :=
  rfl
@[simp] theorem State.setTransforms_result1 (l : List TransformRecord) : (s.setTransforms l).result1 = s.result1 :=
  rfl
@[simp] theorem State.setTransforms_result2 (l : List TransformRecord) : (s.setTransforms l).result2 = s.result2 :=
  rfl
@[simp] theorem State.setTransforms_source (l : List TransformRecord) : (s.setTransforms l).source = s.source := rfl
@[simp] theorem State.setTransforms_presented (l : List TransformRecord) : (s.setTransforms l).presented = s.presented :=
  rfl
@[simp] theorem State.setTransforms_slots (l : List TransformRecord) : (s.setTransforms l).slots = s.slots := rfl
@[simp] theorem State.setTransforms_trees (l : List TransformRecord) : (s.setTransforms l).trees = s.trees := rfl
@[simp] theorem State.setTransforms_channels (l : List TransformRecord) : (s.setTransforms l).channels = s.channels :=
  rfl
@[simp] theorem State.setTransforms_nbMeta (l : List TransformRecord) : (s.setTransforms l).nbMeta = s.nbMeta := rfl
@[simp] theorem State.setTransforms_transforms (l : List TransformRecord) : (s.setTransforms l).transforms = l := rfl
@[simp] theorem State.setTransforms_inputs (l : List TransformRecord) : (s.setTransforms l).inputs = s.inputs := rfl
@[simp] theorem State.setTransforms_draws (l : List TransformRecord) : (s.setTransforms l).draws = s.draws := rfl

/-! ## `State.markDecoded` -/

@[simp] theorem State.markDecoded_regs (c : Nat) : (s.markDecoded c).regs = s.regs := rfl
@[simp] theorem State.markDecoded_latched (c : Nat) : (s.markDecoded c).latched = s.latched := rfl
@[simp] theorem State.markDecoded_cmd (c : Nat) : (s.markDecoded c).cmd = s.cmd := rfl
@[simp] theorem State.markDecoded_busy (c : Nat) : (s.markDecoded c).busy = s.busy := rfl
@[simp] theorem State.markDecoded_done (c : Nat) : (s.markDecoded c).done = s.done := rfl
@[simp] theorem State.markDecoded_fault (c : Nat) : (s.markDecoded c).fault = s.fault := rfl
@[simp] theorem State.markDecoded_overrun (c : Nat) : (s.markDecoded c).overrun = s.overrun := rfl
@[simp] theorem State.markDecoded_irqEn (c : Nat) : (s.markDecoded c).irqEn = s.irqEn := rfl
@[simp] theorem State.markDecoded_result0 (c : Nat) : (s.markDecoded c).result0 = s.result0 := rfl
@[simp] theorem State.markDecoded_result1 (c : Nat) : (s.markDecoded c).result1 = s.result1 := rfl
@[simp] theorem State.markDecoded_result2 (c : Nat) : (s.markDecoded c).result2 = s.result2 := rfl
@[simp] theorem State.markDecoded_source (c : Nat) : (s.markDecoded c).source = s.source := rfl
@[simp] theorem State.markDecoded_presented (c : Nat) : (s.markDecoded c).presented = s.presented := rfl
@[simp] theorem State.markDecoded_slots (c : Nat) : (s.markDecoded c).slots = s.slots := rfl
@[simp] theorem State.markDecoded_trees (c : Nat) : (s.markDecoded c).trees = s.trees := rfl
@[simp] theorem State.markDecoded_channels (c : Nat) : (s.markDecoded c).channels = s.channels.modify c fun ch => { ch with decoded := true } :=
  rfl
@[simp] theorem State.markDecoded_nbMeta (c : Nat) : (s.markDecoded c).nbMeta = s.nbMeta := rfl
@[simp] theorem State.markDecoded_transforms (c : Nat) : (s.markDecoded c).transforms = s.transforms := rfl
@[simp] theorem State.markDecoded_inputs (c : Nat) : (s.markDecoded c).inputs = s.inputs := rfl
@[simp] theorem State.markDecoded_draws (c : Nat) : (s.markDecoded c).draws = s.draws := rfl

/-! ## `State.pushTransform` -/

@[simp] theorem State.pushTransform_regs (n : Nat) (t : Transform) : (s.pushTransform n t).regs = s.regs := rfl
@[simp] theorem State.pushTransform_latched (n : Nat) (t : Transform) : (s.pushTransform n t).latched = s.latched :=
  rfl
@[simp] theorem State.pushTransform_cmd (n : Nat) (t : Transform) : (s.pushTransform n t).cmd = s.cmd := rfl
@[simp] theorem State.pushTransform_busy (n : Nat) (t : Transform) : (s.pushTransform n t).busy = s.busy := rfl
@[simp] theorem State.pushTransform_done (n : Nat) (t : Transform) : (s.pushTransform n t).done = s.done := rfl
@[simp] theorem State.pushTransform_fault (n : Nat) (t : Transform) : (s.pushTransform n t).fault = s.fault := rfl
@[simp] theorem State.pushTransform_overrun (n : Nat) (t : Transform) : (s.pushTransform n t).overrun = s.overrun :=
  rfl
@[simp] theorem State.pushTransform_irqEn (n : Nat) (t : Transform) : (s.pushTransform n t).irqEn = s.irqEn := rfl
@[simp] theorem State.pushTransform_result0 (n : Nat) (t : Transform) : (s.pushTransform n t).result0 = s.result0 :=
  rfl
@[simp] theorem State.pushTransform_result1 (n : Nat) (t : Transform) : (s.pushTransform n t).result1 = s.result1 :=
  rfl
@[simp] theorem State.pushTransform_result2 (n : Nat) (t : Transform) : (s.pushTransform n t).result2 = s.result2 :=
  rfl
@[simp] theorem State.pushTransform_source (n : Nat) (t : Transform) : (s.pushTransform n t).source = s.source := rfl
@[simp] theorem State.pushTransform_presented (n : Nat) (t : Transform) : (s.pushTransform n t).presented = s.presented :=
  rfl
@[simp] theorem State.pushTransform_slots (n : Nat) (t : Transform) : (s.pushTransform n t).slots = s.slots := rfl
@[simp] theorem State.pushTransform_trees (n : Nat) (t : Transform) : (s.pushTransform n t).trees = s.trees := rfl
@[simp] theorem State.pushTransform_channels (n : Nat) (t : Transform) : (s.pushTransform n t).channels = s.channels :=
  rfl
@[simp] theorem State.pushTransform_nbMeta (n : Nat) (t : Transform) : (s.pushTransform n t).nbMeta = s.nbMeta := rfl
@[simp] theorem State.pushTransform_transforms (n : Nat) (t : Transform) : (s.pushTransform n t).transforms = s.transforms ++ [{ transform := t, nbMetaBefore := n }] :=
  rfl
@[simp] theorem State.pushTransform_inputs (n : Nat) (t : Transform) : (s.pushTransform n t).inputs = s.inputs := rfl
@[simp] theorem State.pushTransform_draws (n : Nat) (t : Transform) : (s.pushTransform n t).draws = s.draws := rfl

/-! ## `State.writeResults` -/

@[simp] theorem State.writeResults_regs (r : Results) : (s.writeResults r).regs = s.regs := rfl
@[simp] theorem State.writeResults_latched (r : Results) : (s.writeResults r).latched = s.latched := rfl
@[simp] theorem State.writeResults_cmd (r : Results) : (s.writeResults r).cmd = s.cmd := rfl
@[simp] theorem State.writeResults_busy (r : Results) : (s.writeResults r).busy = s.busy := rfl
@[simp] theorem State.writeResults_done (r : Results) : (s.writeResults r).done = s.done := rfl
@[simp] theorem State.writeResults_fault (r : Results) : (s.writeResults r).fault = s.fault := rfl
@[simp] theorem State.writeResults_overrun (r : Results) : (s.writeResults r).overrun = s.overrun := rfl
@[simp] theorem State.writeResults_irqEn (r : Results) : (s.writeResults r).irqEn = s.irqEn := rfl
@[simp] theorem State.writeResults_result0 (r : Results) : (s.writeResults r).result0 = r.r0.getD s.result0 := rfl
@[simp] theorem State.writeResults_result1 (r : Results) : (s.writeResults r).result1 = r.r1.getD s.result1 := rfl
@[simp] theorem State.writeResults_result2 (r : Results) : (s.writeResults r).result2 = r.r2.getD s.result2 := rfl
@[simp] theorem State.writeResults_source (r : Results) : (s.writeResults r).source = s.source := rfl
@[simp] theorem State.writeResults_presented (r : Results) : (s.writeResults r).presented = s.presented := rfl
@[simp] theorem State.writeResults_slots (r : Results) : (s.writeResults r).slots = s.slots := rfl
@[simp] theorem State.writeResults_trees (r : Results) : (s.writeResults r).trees = s.trees := rfl
@[simp] theorem State.writeResults_channels (r : Results) : (s.writeResults r).channels = s.channels := rfl
@[simp] theorem State.writeResults_nbMeta (r : Results) : (s.writeResults r).nbMeta = s.nbMeta := rfl
@[simp] theorem State.writeResults_transforms (r : Results) : (s.writeResults r).transforms = s.transforms := rfl
@[simp] theorem State.writeResults_inputs (r : Results) : (s.writeResults r).inputs = s.inputs := rfl
@[simp] theorem State.writeResults_draws (r : Results) : (s.writeResults r).draws = s.draws := rfl

/-! ## `State.latchFault` -/

@[simp] theorem State.latchFault_regs (f : BlockFault) : (s.latchFault f).regs = s.regs := rfl
@[simp] theorem State.latchFault_latched (f : BlockFault) : (s.latchFault f).latched = s.latched := rfl
@[simp] theorem State.latchFault_cmd (f : BlockFault) : (s.latchFault f).cmd = s.cmd := rfl
@[simp] theorem State.latchFault_busy (f : BlockFault) : (s.latchFault f).busy = false := rfl
@[simp] theorem State.latchFault_done (f : BlockFault) : (s.latchFault f).done = s.done := rfl
@[simp] theorem State.latchFault_fault (f : BlockFault) : (s.latchFault f).fault = s.fault.or (some f) := rfl
@[simp] theorem State.latchFault_overrun (f : BlockFault) : (s.latchFault f).overrun = false := rfl
@[simp] theorem State.latchFault_irqEn (f : BlockFault) : (s.latchFault f).irqEn = s.irqEn := rfl
@[simp] theorem State.latchFault_result0 (f : BlockFault) : (s.latchFault f).result0 = s.result0 := rfl
@[simp] theorem State.latchFault_result1 (f : BlockFault) : (s.latchFault f).result1 = s.result1 := rfl
@[simp] theorem State.latchFault_result2 (f : BlockFault) : (s.latchFault f).result2 = s.result2 := rfl
@[simp] theorem State.latchFault_source (f : BlockFault) : (s.latchFault f).source = s.source := rfl
@[simp] theorem State.latchFault_presented (f : BlockFault) : (s.latchFault f).presented = s.presented := rfl
@[simp] theorem State.latchFault_slots (f : BlockFault) : (s.latchFault f).slots = s.slots := rfl
@[simp] theorem State.latchFault_trees (f : BlockFault) : (s.latchFault f).trees = s.trees := rfl
@[simp] theorem State.latchFault_channels (f : BlockFault) : (s.latchFault f).channels = s.channels := rfl
@[simp] theorem State.latchFault_nbMeta (f : BlockFault) : (s.latchFault f).nbMeta = s.nbMeta := rfl
@[simp] theorem State.latchFault_transforms (f : BlockFault) : (s.latchFault f).transforms = s.transforms := rfl
@[simp] theorem State.latchFault_inputs (f : BlockFault) : (s.latchFault f).inputs = s.inputs := rfl
@[simp] theorem State.latchFault_draws (f : BlockFault) : (s.latchFault f).draws = s.draws := rfl

/-! ## `State.issue` -/

@[simp] theorem State.issue_regs (w : Word) : (s.issue w).regs = s.regs := rfl
@[simp] theorem State.issue_latched (w : Word) : (s.issue w).latched = s.regs := rfl
@[simp] theorem State.issue_cmd (w : Word) : (s.issue w).cmd = w := rfl
@[simp] theorem State.issue_busy (w : Word) : (s.issue w).busy = true := rfl
@[simp] theorem State.issue_done (w : Word) : (s.issue w).done = false := rfl
@[simp] theorem State.issue_fault (w : Word) : (s.issue w).fault = s.fault := rfl
@[simp] theorem State.issue_overrun (w : Word) : (s.issue w).overrun = false := rfl
@[simp] theorem State.issue_irqEn (w : Word) : (s.issue w).irqEn = s.irqEn := rfl
@[simp] theorem State.issue_result0 (w : Word) : (s.issue w).result0 = s.result0 := rfl
@[simp] theorem State.issue_result1 (w : Word) : (s.issue w).result1 = s.result1 := rfl
@[simp] theorem State.issue_result2 (w : Word) : (s.issue w).result2 = s.result2 := rfl
@[simp] theorem State.issue_source (w : Word) : (s.issue w).source = s.source := rfl
@[simp] theorem State.issue_presented (w : Word) : (s.issue w).presented = s.presented := rfl
@[simp] theorem State.issue_slots (w : Word) : (s.issue w).slots = s.slots := rfl
@[simp] theorem State.issue_trees (w : Word) : (s.issue w).trees = s.trees := rfl
@[simp] theorem State.issue_channels (w : Word) : (s.issue w).channels = s.channels := rfl
@[simp] theorem State.issue_nbMeta (w : Word) : (s.issue w).nbMeta = s.nbMeta := rfl
@[simp] theorem State.issue_transforms (w : Word) : (s.issue w).transforms = s.transforms := rfl
@[simp] theorem State.issue_inputs (w : Word) : (s.issue w).inputs = s.inputs := rfl
@[simp] theorem State.issue_draws (w : Word) : (s.issue w).draws = s.draws := rfl

/-! ## `State.complete` (`10_state.md` R34, `60_exceptions.md` R425) -/

theorem State.complete_of_not_overrun (r : Results) (h : s.overrun = false) :
    s.complete r = { s.writeResults r with busy := false, done := true } := by simp [State.complete, h]

theorem State.complete_of_overrun (r : Results) (h : s.overrun = true) :
    s.complete r = (s.writeResults r).latchFault (.contractViolation .busy) := by simp [State.complete, h]

@[simp] theorem State.complete_regs (r : Results) : (s.complete r).regs = s.regs := by
  unfold State.complete; split <;> rfl
@[simp] theorem State.complete_latched (r : Results) : (s.complete r).latched = s.latched := by
  unfold State.complete; split <;> rfl
@[simp] theorem State.complete_cmd (r : Results) : (s.complete r).cmd = s.cmd := by
  unfold State.complete; split <;> rfl
@[simp] theorem State.complete_irqEn (r : Results) : (s.complete r).irqEn = s.irqEn := by
  unfold State.complete; split <;> rfl
@[simp] theorem State.complete_source (r : Results) : (s.complete r).source = s.source := by
  unfold State.complete; split <;> rfl
@[simp] theorem State.complete_presented (r : Results) : (s.complete r).presented = s.presented := by
  unfold State.complete; split <;> rfl
@[simp] theorem State.complete_slots (r : Results) : (s.complete r).slots = s.slots := by
  unfold State.complete; split <;> rfl
@[simp] theorem State.complete_trees (r : Results) : (s.complete r).trees = s.trees := by
  unfold State.complete; split <;> rfl
@[simp] theorem State.complete_channels (r : Results) : (s.complete r).channels = s.channels := by
  unfold State.complete; split <;> rfl
@[simp] theorem State.complete_nbMeta (r : Results) : (s.complete r).nbMeta = s.nbMeta := by
  unfold State.complete; split <;> rfl
@[simp] theorem State.complete_transforms (r : Results) : (s.complete r).transforms = s.transforms := by
  unfold State.complete; split <;> rfl
@[simp] theorem State.complete_inputs (r : Results) : (s.complete r).inputs = s.inputs := by
  unfold State.complete; split <;> rfl
@[simp] theorem State.complete_draws (r : Results) : (s.complete r).draws = s.draws := by
  unfold State.complete; split <;> rfl
@[simp] theorem State.complete_result0 (r : Results) : (s.complete r).result0 = r.r0.getD s.result0 := by
  unfold State.complete; split <;> rfl
@[simp] theorem State.complete_result1 (r : Results) : (s.complete r).result1 = r.r1.getD s.result1 := by
  unfold State.complete; split <;> rfl
@[simp] theorem State.complete_result2 (r : Results) : (s.complete r).result2 = r.r2.getD s.result2 := by
  unfold State.complete; split <;> rfl
@[simp] theorem State.complete_busy (r : Results) : (s.complete r).busy = false := by
  unfold State.complete; split <;> rfl
@[simp] theorem State.complete_overrun (r : Results) : (s.complete r).overrun = false := by
  unfold State.complete; split
  · rfl
  · simpa using ‹¬ s.overrun = true›
theorem State.complete_done (r : Results) : (s.complete r).done = (s.done || !s.overrun) := by
  unfold State.complete; split <;> simp_all
theorem State.complete_fault (r : Results) :
    (s.complete r).fault = if s.overrun then s.fault.or (some (.contractViolation .busy)) else s.fault := by
  unfold State.complete; split <;> rfl

/-- Latching keeps the first fault (`60_exceptions.md` R426). -/
theorem State.latchFault_of_none (f : BlockFault) (h : s.fault = none) :
    s.latchFault f = { s with fault := some f, busy := false, overrun := false } := by
  simp [State.latchFault, h]

end Sys2Proof.Machine
end

