-- ==== Sys2Proof/Laws/Memory.lean ====
section
/-! SUPPORT. The sparse stores: a read after a write, what a write leaves alone, and that every operation keeps the
canonical form. -/

namespace Sys2Proof.Machine

/-! ## Reads after writes -/

@[simp] theorem Memory.read_nil (k : Nat) : Memory.read [] k = none := rfl

theorem Memory.read_cons (e : Nat × Word) (m : Memory) (k : Nat) :
    Memory.read (e :: m) k = if k = e.1 then some e.2 else Memory.read m k := rfl

theorem Memory.read_write_same (m : Memory) (k : Nat) (v : Word) : Memory.read (Memory.write m k v) k = some v := by
  induction m with
  | nil => simp [Memory.write, Memory.read_cons]
  | cons e m ih =>
    simp only [Memory.write]
    split
    · simp [Memory.read_cons]
    · split
      · simp [Memory.read_cons]
      · rename_i h
        simp [Memory.read_cons, h, ih]

theorem Memory.read_write_other (m : Memory) {j k : Nat} (v : Word) (h : j ≠ k) :
    Memory.read (Memory.write m k v) j = Memory.read m j := by
  induction m with
  | nil => simp [Memory.write, Memory.read_cons, h]
  | cons e m ih =>
    simp only [Memory.write]
    split
    · simp [Memory.read_cons, h]
    · split
      · rename_i hk
        subst hk
        rw [Memory.read_cons, Memory.read_cons, if_neg h, if_neg h]
      · simp [Memory.read_cons, ih]

theorem Memory.read_write (m : Memory) (j k : Nat) (v : Word) :
    Memory.read (Memory.write m k v) j = if j = k then some v else Memory.read m j := by
  split
  · subst j; exact Memory.read_write_same m k v
  · exact Memory.read_write_other m v ‹_›

theorem Memory.read_eq_none_of_lt {m : Memory} {k : Nat} (h : ∀ e ∈ m, k < e.1) : Memory.read m k = none := by
  induction m with
  | nil => rfl
  | cons e m ih =>
    have := h e (by simp)
    rw [Memory.read_cons, if_neg (by omega)]
    exact ih fun e' he' => h e' (by simp [he'])

theorem Memory.read_erase_other (m : Memory) {j k : Nat} (h : j ≠ k) :
    Memory.read (Memory.erase m k) j = Memory.read m j := by
  induction m with
  | nil => rfl
  | cons e m ih =>
    simp only [Memory.erase]
    split
    · rename_i hk; subst hk; rw [Memory.read_cons, if_neg h]
    · simp [Memory.read_cons, ih]

theorem Memory.read_erase_same {m : Memory} (hw : Memory.wf m) (k : Nat) :
    Memory.read (Memory.erase m k) k = none := by
  induction m with
  | nil => rfl
  | cons e m ih =>
    rw [Memory.wf, List.pairwise_cons] at hw
    simp only [Memory.erase]
    split
    · rename_i hk; subst hk; exact Memory.read_eq_none_of_lt hw.1
    · rename_i hk; simp [Memory.read_cons, hk, ih hw.2]

/-! ## The canonical form -/

theorem Memory.mem_write {m : Memory} {k : Nat} {v : Word} {e : Nat × Word} (h : e ∈ Memory.write m k v) :
    e = (k, v) ∨ e ∈ m := by
  induction m with
  | nil => simpa [Memory.write] using h
  | cons e' m ih =>
    simp only [Memory.write] at h
    split at h
    · simpa using h
    · split at h
      · rcases List.mem_cons.1 h with h | h
        · exact .inl h
        · exact .inr (by simp [h])
      · rcases List.mem_cons.1 h with h | h
        · exact .inr (by simp [h])
        · rcases ih h with h | h
          · exact .inl h
          · exact .inr (by simp [h])

theorem Memory.mem_erase {m : Memory} {k : Nat} {e : Nat × Word} (h : e ∈ Memory.erase m k) : e ∈ m := by
  induction m with
  | nil => simp [Memory.erase] at h
  | cons e' m ih =>
    simp only [Memory.erase] at h
    split at h
    · simp [h]
    · rcases List.mem_cons.1 h with h | h
      · simp [h]
      · simp [ih h]

@[simp] theorem Memory.wf_nil : Memory.wf [] := List.Pairwise.nil

theorem Memory.wf_write {m : Memory} (hw : Memory.wf m) (k : Nat) (v : Word) : Memory.wf (Memory.write m k v) := by
  induction m with
  | nil => simp [Memory.write, Memory.wf]
  | cons e m ih =>
    rw [Memory.wf, List.pairwise_cons] at hw
    simp only [Memory.write]
    split
    · rename_i hk
      rw [Memory.wf, List.pairwise_cons, List.pairwise_cons]
      exact ⟨fun a ha => by
        rcases List.mem_cons.1 ha with rfl | ha
        · exact hk
        · exact Nat.lt_trans hk (hw.1 a ha), hw⟩
    · split
      · rename_i hk; subst hk
        rw [Memory.wf, List.pairwise_cons]; exact hw
      · rw [Memory.wf, List.pairwise_cons]
        refine ⟨fun a ha => ?_, ih hw.2⟩
        rcases Memory.mem_write ha with rfl | ha
        · show e.1 < k; omega
        · exact hw.1 a ha

theorem Memory.wf_erase {m : Memory} (hw : Memory.wf m) (k : Nat) : Memory.wf (Memory.erase m k) := by
  induction m with
  | nil => exact hw
  | cons e m ih =>
    rw [Memory.wf, List.pairwise_cons] at hw
    simp only [Memory.erase]
    split
    · exact hw.2
    · rw [Memory.wf, List.pairwise_cons]
      exact ⟨fun a ha => hw.1 a (Memory.mem_erase ha), ih hw.2⟩

/-- Equal contents are equal lists, whatever the writes that made them. -/
theorem Memory.ext_of_wf {m m' : Memory} (hw : Memory.wf m) (hw' : Memory.wf m')
    (h : ∀ k, Memory.read m k = Memory.read m' k) : m = m' := by
  induction m generalizing m' with
  | nil =>
    cases m' with
    | nil => rfl
    | cons e m' =>
      have := h e.1
      rw [Memory.read_cons] at this
      simp at this
  | cons e m ih =>
    rw [Memory.wf, List.pairwise_cons] at hw
    cases m' with
    | nil =>
      have := h e.1
      rw [Memory.read_cons] at this
      simp at this
    | cons e' m' =>
      rw [Memory.wf, List.pairwise_cons] at hw'
      obtain ⟨k, v⟩ := e
      obtain ⟨k', v'⟩ := e'
      have hk : k = k' := by
        have h1 := h k
        have h2 := h k'
        simp only [Memory.read_cons] at h1 h2
        rcases Nat.lt_trichotomy k k' with hlt | heq | hlt
        · rw [if_pos trivial, if_neg (by omega), Memory.read_eq_none_of_lt fun a ha =>
            Nat.lt_trans hlt (hw'.1 a ha)] at h1
          simp at h1
        · exact heq
        · rw [if_pos trivial, if_neg (by omega), Memory.read_eq_none_of_lt fun a ha =>
            Nat.lt_trans hlt (hw.1 a ha)] at h2
          simp at h2
      subst hk
      have hv := h k
      simp only [Memory.read_cons, if_pos] at hv
      cases hv
      congr 1
      apply ih hw.2 hw'.2
      intro j
      by_cases hj : j = k
      · subst hj
        rw [Memory.read_eq_none_of_lt hw.1, Memory.read_eq_none_of_lt hw'.1]
      · have := h j
        simpa only [Memory.read_cons, if_neg hj] using this

/-! ## The LZ77 window -/

@[simp] theorem windowWf_nil : windowWf [] := ⟨Memory.wf_nil, by simp⟩

theorem windowWf_write {m : Memory} (hw : windowWf m) (i : Nat) (v : Word) : windowWf (windowWrite m i v) := by
  unfold windowWrite
  split
  · exact ⟨Memory.wf_erase hw.1 _, fun e he => hw.2 e (Memory.mem_erase he)⟩
  · refine ⟨Memory.wf_write hw.1 _ _, fun e he => ?_⟩
    rcases Memory.mem_write he with rfl | he
    · exact ⟨‹_›, Nat.mod_lt _ (by decide)⟩
    · exact hw.2 e he

theorem windowRead_write {m : Memory} (hw : windowWf m) (i j : Nat) (v : Word) :
    windowRead (windowWrite m i v) j
      = if j % Config.windowSize = i % Config.windowSize then v else windowRead m j := by
  unfold windowRead windowWrite
  split
  · rename_i hv
    split
    · rename_i h; rw [h, Memory.read_erase_same hw.1, hv]; rfl
    · rw [Memory.read_erase_other _ ‹_›]
  · split
    · rename_i h; rw [h, Memory.read_write_same]; rfl
    · rw [Memory.read_write_other _ _ ‹_›]

/-! ## The samples of a record -/

theorem Channel.samplesWf_write {ch : Channel} (hw : ch.samplesWf) {x y : Nat} (hx : x < ch.width) (hy : y < ch.height)
    (v : Word) : Channel.samplesWf { ch with samples := Memory.write ch.samples (y * ch.width + x) v } := by
  refine ⟨Memory.wf_write hw.1 _ _, fun e he => ?_⟩
  rcases Memory.mem_write he with rfl | he
  · show y * ch.width + x < ch.width * ch.height
    calc y * ch.width + x < y * ch.width + ch.width := by omega
      _ = ch.width * (y + 1) := by rw [Nat.mul_comm, Nat.mul_add, Nat.mul_one]
      _ ≤ ch.width * ch.height := Nat.mul_le_mul_left _ hy
  · exact hw.2 e he

/-- Two positions inside a record are one key only when they are one position. -/
theorem position_inj {w x y x' y' : Nat} (hx : x < w) (hx' : x' < w) (h : y * w + x = y' * w + x') :
    x = x' ∧ y = y' := by
  have hw : 0 < w := by omega
  have h1 : (y * w + x) % w = (y' * w + x') % w := by rw [h]
  have h2 : (y * w + x) / w = (y' * w + x') / w := by rw [h]
  rw [Nat.mul_comm y, Nat.mul_comm y', Nat.mul_add_mod, Nat.mul_add_mod, Nat.mod_eq_of_lt hx,
    Nat.mod_eq_of_lt hx'] at h1
  rw [Nat.mul_comm y, Nat.mul_comm y', Nat.mul_add_div hw, Nat.mul_add_div hw, Nat.div_eq_of_lt hx,
    Nat.div_eq_of_lt hx'] at h2
  exact ⟨h1, by omega⟩

end Sys2Proof.Machine
end

