-- ==== Sys2Proof/Laws/Engine.lean ====
section
/-! SUPPORT. How the engine's monad computes, and a small logic of relations that computations keep: the laws later
proofs cite instead of unfolding a computation. -/

namespace Sys2Proof.Machine

variable {σ τ α β : Type}

/-! ## Equations -/

@[simp] theorem eng_pure (a : α) (s : σ) : (pure a : Eng σ α) s = .ok a s := rfl

theorem eng_bind (m : Eng σ α) (f : α → Eng σ β) (s : σ) :
    (m >>= f) s = match m s with
      | .ok a t => f a t
      | .error e t => .error e t := by
  show EStateM.bind m f s = _
  unfold EStateM.bind
  cases m s <;> rfl

theorem eng_bind_ok {m : Eng σ α} {f : α → Eng σ β} {s t : σ} {a : α} (h : m s = .ok a t) :
    (m >>= f) s = f a t := by rw [eng_bind, h]

theorem eng_bind_error {m : Eng σ α} {f : α → Eng σ β} {s t : σ} {e : Stop} (h : m s = .error e t) :
    (m >>= f) s = .error e t := by rw [eng_bind, h]

@[simp] theorem raise_apply (f : BlockFault) (s : σ) : (raise f : Eng σ α) s = .error (.raise f) s := rfl

@[simp] theorem require_apply (c : Prop) [Decidable c] (f : BlockFault) (s : σ) :
    require c f s = if c then .ok () s else .error (.raise f) s := rfl

@[simp] theorem checkBitstream_apply (c : Prop) [Decidable c] (e : BitstreamError) (s : σ) :
    checkBitstream c e s = if c then .ok () s else .error (.raise (.invalidBitstream e)) s := rfl

@[simp] theorem checkContract_apply (c : Prop) [Decidable c] (e : ContractError) (s : σ) :
    checkContract c e s = if c then .ok () s else .error (.raise (.contractViolation e)) s := rfl

@[simp] theorem orRaise_apply (o : Option α) (f : BlockFault) (s : σ) :
    orRaise o f s = match o with
      | some a => .ok a s
      | none => .error (.raise f) s := by cases o <;> rfl

@[simp] theorem orBroken_apply (o : Option α) (f : Fault) (s : σ) :
    orBroken o f s = match o with
      | some a => .ok a s
      | none => .error (.broken f) s := by cases o <;> rfl

@[simp] theorem ofExcept_apply (x : Except Stop α) (s : σ) :
    ofExcept x s = match x with
      | .ok a => .ok a s
      | .error e => .error e s := by cases x <;> rfl

theorem onPart_apply (get : σ → τ) (put : τ → σ → σ) (m : Eng τ α) (s : σ) :
    onPart get put m s = match m (get s) with
      | .ok a t => .ok a (put t s)
      | .error e t => .error e (put t s) := rfl

theorem onSource_apply (m : Parse α) (s : State) :
    onSource m s = match m s.source with
      | .ok a b => .ok a (s.setSource b)
      | .error e b => .error e (s.setSource b) := by
  show onPart _ _ m s = _
  rw [onPart_apply]
  cases m s.source <;> rfl

@[simp] theorem latchedArgs_apply (s : State) : latchedArgs s = .ok s.latched.args s := rfl

@[simp] theorem theState_apply (s : State) : theState s = .ok s s := rfl

@[simp] theorem update_apply (f : State → State) (s : State) : update f s = .ok () (f s) := rfl

/-! ## A command read from its head -/

theorem latchedArgs_bind (k : Args → Eng State α) (s : State) : (latchedArgs >>= k) s = k s.latched.args s := by
  rw [eng_bind]; rfl

theorem theState_bind (k : State → Eng State α) (s : State) : (theState >>= k) s = k s s := by
  rw [eng_bind]; rfl

theorem update_bind (f : State → State) (k : Unit → Eng State α) (s : State) : (update f >>= k) s = k () (f s) := by
  rw [eng_bind]; rfl

theorem require_bind (c : Prop) [Decidable c] (f : BlockFault) (k : Unit → Eng σ α) (s : σ) :
    (require c f >>= k) s = if c then k () s else .error (.raise f) s := by
  rw [eng_bind, require_apply]
  by_cases h : c
  · rw [if_pos h, if_pos h]
  · rw [if_neg h, if_neg h]

theorem checkContract_bind (c : Prop) [Decidable c] (e : ContractError) (k : Unit → Eng σ α) (s : σ) :
    (checkContract c e >>= k) s = if c then k () s else .error (.raise (.contractViolation e)) s :=
  require_bind c _ k s

theorem checkBitstream_bind (c : Prop) [Decidable c] (e : BitstreamError) (k : Unit → Eng σ α) (s : σ) :
    (checkBitstream c e >>= k) s = if c then k () s else .error (.raise (.invalidBitstream e)) s :=
  require_bind c _ k s

theorem orRaise_bind (o : Option β) (f : BlockFault) (k : β → Eng σ α) (s : σ) :
    (orRaise o f >>= k) s = match o with
      | some b => k b s
      | none => .error (.raise f) s := by
  rw [eng_bind, orRaise_apply]
  cases o <;> rfl

theorem orBroken_bind (o : Option β) (f : Fault) (k : β → Eng σ α) (s : σ) :
    (orBroken o f >>= k) s = match o with
      | some b => k b s
      | none => .error (.broken f) s := by
  rw [eng_bind, orBroken_apply]
  cases o <;> rfl

theorem ofExcept_bind (x : Except Stop β) (k : β → Eng σ α) (s : σ) :
    (ofExcept x >>= k) s = match x with
      | .ok b => k b s
      | .error e => .error e s := by
  rw [eng_bind, ofExcept_apply]
  cases x <;> rfl

theorem onSource_bind (m : Parse β) (k : β → Eng State α) (s : State) :
    (onSource m >>= k) s = match m s.source with
      | .ok a b => k a (s.setSource b)
      | .error e b => .error e (s.setSource b) := by
  rw [eng_bind, onSource_apply]
  cases m s.source <;> rfl

/-! ## Relations kept by a computation -/

/-- The stop is a fault of the block, not a state the model cannot go on from. -/
def Stop.IsRaise (e : Stop) : Prop := ∃ f, e = .raise f

@[simp] theorem Stop.isRaise_raise (f : BlockFault) : (Stop.raise f).IsRaise := ⟨f, rfl⟩

/-- However `m` ends, its last state is related to its first by `R`; when it completes, `Q` holds of its value, and
when it stops early, it is with a fault of the block. -/
def Runs (R : σ → σ → Prop) (m : Eng σ α) (Q : α → Prop) : Prop :=
  ∀ s, match m s with
    | .ok a t => R s t ∧ Q a
    | .error e t => R s t ∧ e.IsRaise

/-- A relation that holds between a state and itself, and across two computations in a row. -/
structure Kept (R : σ → σ → Prop) : Prop where
  refl : ∀ s, R s s
  trans : ∀ s t u, R s t → R t u → R s u

variable {R : σ → σ → Prop} {Q : α → Prop}

theorem Runs.ok {m : Eng σ α} (h : Runs R m Q) {s t : σ} {a : α} (e : m s = .ok a t) : R s t ∧ Q a := by
  have := h s; rwa [e] at this

theorem Runs.error {m : Eng σ α} (h : Runs R m Q) {s t : σ} {x : Stop} (e : m s = .error x t) :
    R s t ∧ x.IsRaise := by
  have := h s; rwa [e] at this

theorem Runs.mono {m : Eng σ α} {Q' : α → Prop} (h : Runs R m Q) (hq : ∀ a, Q a → Q' a) : Runs R m Q' := by
  intro s
  have := h s
  cases hm : m s <;> rw [hm] at this
  · exact ⟨this.1, hq _ this.2⟩
  · exact this

theorem Runs.weaken {m : Eng σ α} {R' : σ → σ → Prop} (h : Runs R m Q) (hr : ∀ s t, R s t → R' s t) :
    Runs R' m Q := by
  intro s
  have := h s
  cases hm : m s <;> rw [hm] at this <;> exact ⟨hr _ _ this.1, this.2⟩

theorem Runs.pure (k : Kept R) {a : α} (h : Q a) : Runs R (Pure.pure a) Q := fun s => ⟨k.refl s, h⟩

theorem Runs.bind (k : Kept R) {m : Eng σ α} {f : α → Eng σ β} {Q' : β → Prop}
    (h : Runs R m Q) (hf : ∀ a, Q a → Runs R (f a) Q') : Runs R (m >>= f) Q' := by
  intro s
  rw [eng_bind]
  have h1 := h s
  cases hm : m s with
  | ok a t =>
    rw [hm] at h1
    have h2 := hf a h1.2 t
    show match f a t with
      | .ok a u => R s u ∧ Q' a
      | .error e u => R s u ∧ e.IsRaise
    cases hf' : f a t <;> rw [hf'] at h2 <;> exact ⟨k.trans _ _ _ h1.1 h2.1, h2.2⟩
  | error e t => rw [hm] at h1; exact h1

theorem Runs.raise (k : Kept R) (f : BlockFault) : Runs R (Machine.raise f : Eng σ α) Q :=
  fun s => ⟨k.refl s, f, rfl⟩

theorem Runs.require (k : Kept R) {c : Prop} [Decidable c] {f : BlockFault} :
    Runs R (Machine.require c f) fun _ => c := by
  intro s
  rw [require_apply]
  split <;> rename_i h <;> split at h <;> cases h
  · exact ⟨k.refl s, ‹c›⟩
  · exact ⟨k.refl s, f, rfl⟩

theorem Runs.checkBitstream (k : Kept R) {c : Prop} [Decidable c] {e : BitstreamError} :
    Runs R (Machine.checkBitstream c e) fun _ => c := Runs.require k

theorem Runs.checkContract (k : Kept R) {c : Prop} [Decidable c] {e : ContractError} :
    Runs R (Machine.checkContract c e) fun _ => c := Runs.require k

theorem Runs.orRaise (k : Kept R) {o : Option α} {f : BlockFault} :
    Runs R (Machine.orRaise o f) fun a => o = some a := by
  intro s
  cases o
  · exact ⟨k.refl s, f, rfl⟩
  · exact ⟨k.refl s, rfl⟩

theorem Runs.orBroken (k : Kept R) {o : Option α} {f : Fault} (h : ∃ a, o = some a ∧ Q a) :
    Runs R (Machine.orBroken o f) Q := by
  obtain ⟨a, rfl, ha⟩ := h
  exact fun s => ⟨k.refl s, ha⟩

theorem Runs.ofExcept (k : Kept R) {x : Except Stop α} (ho : ∀ a, x = .ok a → Q a)
    (he : ∀ e, x = .error e → e.IsRaise) : Runs R (Machine.ofExcept x) Q := by
  intro s
  cases x with
  | ok a => exact ⟨k.refl s, ho a rfl⟩
  | error e => exact ⟨k.refl s, he e rfl⟩

theorem Runs.onPart {get : σ → τ} {put : τ → σ → σ} {m : Eng τ α} {R' : τ → τ → Prop} (h : Runs R' m Q)
    (hr : ∀ s t, R' (get s) t → R s (put t s)) : Runs R (Machine.onPart get put m) Q := by
  intro s
  rw [onPart_apply]
  have := h (get s)
  cases hm : m (get s) <;> rw [hm] at this <;> exact ⟨hr _ _ this.1, this.2⟩

theorem Runs.times (k : Kept R) {m : Eng σ α} (h : Runs R m Q) :
    ∀ n, Runs R (Machine.times n m) fun as => as.length = n ∧ ∀ a ∈ as, Q a
  | 0 => Runs.pure k (by simp)
  | n + 1 => Runs.bind k h fun a ha => Runs.bind k (Runs.times k h n) fun as has =>
      Runs.pure k ⟨by simp [has.1], by simpa using ⟨ha, has.2⟩⟩

theorem Runs.forAll (k : Kept R) {f : α → Eng σ β} {Q' : β → Prop} :
    ∀ {l : List α}, (∀ a ∈ l, Runs R (f a) Q') →
      Runs R (Machine.forAll f l) fun bs => bs.length = l.length ∧ ∀ b ∈ bs, Q' b
  | [], _ => Runs.pure k (by simp)
  | a :: l, h => Runs.bind k (h a (by simp)) fun b hb =>
      Runs.bind k (Runs.forAll k fun a' ha' => h a' (by simp [ha'])) fun bs hbs =>
        Runs.pure k ⟨by simp [hbs.1], by simpa using ⟨hb, hbs.2⟩⟩

/-! ## Relations kept whatever the state -/

/-- However `m` ends, on any state at all, its last state is related to its first by `R`. -/
def Keeps (R : σ → σ → Prop) (m : Eng σ α) : Prop :=
  ∀ s, match m s with
    | .ok _ t => R s t
    | .error _ t => R s t

theorem Keeps.ok {m : Eng σ α} (h : Keeps R m) {s t : σ} {a : α} (e : m s = .ok a t) : R s t := by
  have := h s; rwa [e] at this

theorem Keeps.error {m : Eng σ α} (h : Keeps R m) {s t : σ} {x : Stop} (e : m s = .error x t) : R s t := by
  have := h s; rwa [e] at this

theorem Runs.keeps {m : Eng σ α} (h : Runs R m Q) : Keeps R m := by
  intro s
  have := h s
  cases hm : m s <;> rw [hm] at this <;> exact this.1

theorem Keeps.weaken {m : Eng σ α} {R' : σ → σ → Prop} (h : Keeps R m) (hr : ∀ s t, R s t → R' s t) :
    Keeps R' m := by
  intro s
  have := h s
  cases hm : m s <;> rw [hm] at this <;> exact hr _ _ this

theorem Keeps.pure (k : Kept R) (a : α) : Keeps R (Pure.pure a : Eng σ α) := fun s => k.refl s

theorem Keeps.bind (k : Kept R) {m : Eng σ α} {f : α → Eng σ β} (h : Keeps R m) (hf : ∀ a, Keeps R (f a)) :
    Keeps R (m >>= f) := by
  intro s
  rw [eng_bind]
  have h1 := h s
  cases hm : m s with
  | ok a t =>
    rw [hm] at h1
    have h2 := hf a t
    show match f a t with
      | .ok _ u => R s u
      | .error _ u => R s u
    cases hf' : f a t <;> rw [hf'] at h2 <;> exact k.trans _ _ _ h1 h2
  | error e t => rw [hm] at h1; exact h1

theorem Keeps.raise (k : Kept R) (f : BlockFault) : Keeps R (Machine.raise f : Eng σ α) := fun s => k.refl s

theorem Keeps.require (k : Kept R) {c : Prop} [Decidable c] {f : BlockFault} : Keeps R (Machine.require c f) :=
  (Runs.require k).keeps

theorem Keeps.checkBitstream (k : Kept R) {c : Prop} [Decidable c] {e : BitstreamError} :
    Keeps R (Machine.checkBitstream c e) := Keeps.require k

theorem Keeps.checkContract (k : Kept R) {c : Prop} [Decidable c] {e : ContractError} :
    Keeps R (Machine.checkContract c e) := Keeps.require k

theorem Keeps.orRaise (k : Kept R) {o : Option α} {f : BlockFault} : Keeps R (Machine.orRaise o f) :=
  (Runs.orRaise k).keeps

theorem Keeps.orBroken (k : Kept R) {o : Option α} {f : Fault} : Keeps R (Machine.orBroken o f) := by
  intro s
  cases o <;> exact k.refl s

theorem Keeps.ofExcept (k : Kept R) {x : Except Stop α} : Keeps R (Machine.ofExcept x) := by
  intro s
  cases x <;> exact k.refl s

theorem Keeps.onPart {get : σ → τ} {put : τ → σ → σ} {m : Eng τ α} {R' : τ → τ → Prop} (h : Keeps R' m)
    (hr : ∀ s t, R' (get s) t → R s (put t s)) : Keeps R (Machine.onPart get put m) := by
  intro s
  rw [onPart_apply]
  have := h (get s)
  cases hm : m (get s) <;> rw [hm] at this <;> exact hr _ _ this

theorem Keeps.forAll (k : Kept R) {f : α → Eng σ β} : ∀ l : List α, (∀ a, Keeps R (f a)) → Keeps R (Machine.forAll f l)
  | [], _ => Keeps.pure k _
  | _ :: l, h => Keeps.bind k (h _) fun _ => Keeps.bind k (Keeps.forAll k l h) fun _ => Keeps.pure k _

/-! ## Closing a command -/

/-- Everything `runCommand` can answer. -/
theorem runCommand_cases (body : Cmd) (s : State) :
    (∃ r t, body s = .ok r t ∧ runCommand body s = .next (t.complete r)) ∨
    (∃ f t, body s = .error (.raise f) t ∧ runCommand body s = .next (t.latchFault f)) ∨
    (∃ f t, body s = .error (.broken f) t ∧ runCommand body s = .fault f) := by
  unfold runCommand
  cases h : body s with
  | ok r t => exact .inl ⟨r, t, rfl, rfl⟩
  | error e t =>
    cases e with
    | raise f => exact .inr (.inl ⟨f, t, rfl, rfl⟩)
    | broken f => exact .inr (.inr ⟨f, t, rfl, rfl⟩)

theorem runCommand_ok {body : Cmd} {s t : State} {r : Results} (h : body s = .ok r t) :
    runCommand body s = .next (t.complete r) := by simp [runCommand, h]

theorem runCommand_raise {body : Cmd} {s t : State} {f : BlockFault} (h : body s = .error (.raise f) t) :
    runCommand body s = .next (t.latchFault f) := by simp [runCommand, h]

theorem runCommand_broken {body : Cmd} {s t : State} {f : Fault} (h : body s = .error (.broken f) t) :
    runCommand body s = .fault f := by simp [runCommand, h]

end Sys2Proof.Machine
end

