-- ==== Sys2Proof/Laws/Source.lean ====
section
/-! SUPPORT. The Bit Source: every parse consumes a stretch of bits once and in order (`20_memory.md` R83, R88), stops
only with a fault of the block, and what its value satisfies. -/

namespace Sys2Proof.Machine

/-- `b'` is `b` with its next `k` bits consumed, for some `k`. -/
def Advances (b b' : BitSource) : Prop :=
  ∃ k, k ≤ b.rest.length ∧ b'.rest = b.rest.drop k ∧ b'.pos = b.pos + k

theorem Advances.refl (b : BitSource) : Advances b b := ⟨0, by omega, by simp, by simp⟩

theorem Advances.trans {a b c : BitSource} (h : Advances a b) (h' : Advances b c) : Advances a c := by
  obtain ⟨k, hk, hr, hp⟩ := h
  obtain ⟨k', hk', hr', hp'⟩ := h'
  rw [hr, List.length_drop] at hk'
  exact ⟨k + k', by omega, by rw [hr', hr, List.drop_drop], by rw [hp', hp]; omega⟩

theorem kept_advances : Kept Advances := ⟨Advances.refl, fun _ _ _ => Advances.trans⟩

theorem Advances.pos_le {a b : BitSource} (h : Advances a b) : a.pos ≤ b.pos := by
  obtain ⟨k, _, _, hp⟩ := h; omega

/-! ## The primitives (`00_scope.md` R14, R15) -/

theorem bitsToNat_lt (l : List Bool) : bitsToNat l < 2 ^ l.length := by
  induction l with
  | nil => simp [bitsToNat]
  | cons b l ih =>
    rw [bitsToNat, List.length_cons, Nat.pow_succ]
    have : b.toNat ≤ 1 := Bool.toNat_le b
    omega

theorem readBits_ok {n : Nat} {b : BitSource} (h : n ≤ b.rest.length) :
    readBits n b = .ok (bitsToNat (b.rest.take n)) { rest := b.rest.drop n, pos := b.pos + n } := if_pos h

theorem readBits_truncated {n : Nat} {b : BitSource} (h : b.rest.length < n) :
    readBits n b = .error (.raise .truncatedInput) b := if_neg (by omega)

theorem readBits_runs (n : Nat) : Runs Advances (readBits n) fun v => v < 2 ^ n := by
  intro b
  by_cases h : n ≤ b.rest.length
  · rw [readBits_ok h]
    refine ⟨⟨n, h, rfl, rfl⟩, ?_⟩
    have := bitsToNat_lt (b.rest.take n)
    rwa [List.length_take, Nat.min_eq_left h] at this
  · rw [readBits_truncated (by omega)]
    exact ⟨Advances.refl b, _, rfl⟩

theorem skipBits_runs (n : Nat) : Runs Advances (skipBits n) fun _ => True := by
  intro b
  unfold skipBits
  split <;> rename_i h <;> split at h <;> cases h
  · exact ⟨⟨n, ‹_›, rfl, rfl⟩, trivial⟩
  · exact ⟨Advances.refl b, _, rfl⟩

theorem peekBits_runs (n : Nat) : Runs Advances (peekBits n) fun v => v < 2 ^ n := by
  intro b
  refine ⟨Advances.refl b, ?_⟩
  have h := bitsToNat_lt (b.rest.take n)
  exact Nat.lt_of_lt_of_le h (Nat.pow_le_pow_right (by omega) (by simp))

theorem readBool_runs : Runs Advances readBool fun _ => True :=
  Runs.bind kept_advances (readBits_runs 1) fun _ _ => Runs.pure kept_advances trivial

/-! ## Fields and hybrid integers -/

theorem readU32_runs (d0 d1 d2 d3 : Nat × Nat) :
    Runs Advances (readU32 d0 d1 d2 d3) fun v => min (min d0.1 d1.1) (min d2.1 d3.1) ≤ v := by
  refine Runs.bind kept_advances (readBits_runs 2) fun sel _ => ?_
  refine Runs.bind kept_advances (readBits_runs _) fun extra _ => Runs.pure kept_advances ?_
  split
  · omega
  · split
    · omega
    · split <;> omega

theorem readU8_runs : Runs Advances readU8 fun _ => True := by
  refine Runs.bind kept_advances readBool_runs fun more _ => ?_
  split
  · refine Runs.bind kept_advances (readBits_runs 3) fun n _ => ?_
    split
    · exact Runs.pure kept_advances trivial
    · exact Runs.bind kept_advances (readBits_runs n) fun _ _ => Runs.pure kept_advances trivial
  · exact Runs.pure kept_advances trivial

theorem readHybridConfig_runs (L : Nat) : Runs Advances (readHybridConfig L) (HybridConfig.Wf L) := by
  refine Runs.bind kept_advances (readBits_runs _) fun e _ => ?_
  refine Runs.bind kept_advances (Runs.checkBitstream kept_advances) fun _ he => ?_
  split
  · exact Runs.pure kept_advances ⟨by simp, he⟩
  · refine Runs.bind kept_advances (readBits_runs _) fun m _ => ?_
    refine Runs.bind kept_advances (Runs.checkBitstream kept_advances) fun _ _ => ?_
    refine Runs.bind kept_advances (readBits_runs _) fun l _ => ?_
    refine Runs.bind kept_advances (Runs.checkBitstream kept_advances) fun _ hl => ?_
    exact Runs.pure kept_advances ⟨hl, he⟩

theorem hybridExpand_runs {c : HybridConfig} (hc : c.splitExponent ≤ 32) (token : Nat) :
    Runs Advances (hybridExpand token c) fun v => v < 2 ^ 32 := by
  unfold hybridExpand
  split
  · rename_i h
    rw [Nat.one_shiftLeft] at h
    exact Runs.pure kept_advances (Nat.lt_of_lt_of_le h (Nat.pow_le_pow_right (by omega) hc))
  · refine Runs.bind kept_advances (Runs.checkBitstream kept_advances) fun _ _ => ?_
    refine Runs.bind kept_advances (readBits_runs _) fun raw _ => ?_
    exact Runs.bind kept_advances (Runs.checkBitstream kept_advances) fun _ h => Runs.pure kept_advances h

/-! ## ANS distributions -/

theorem readLogCount_runs : Runs Advances readLogCount fun _ => True := by
  refine Runs.bind kept_advances (peekBits_runs 7) fun p _ => ?_
  exact Runs.bind kept_advances (skipBits_runs _) fun _ _ => Runs.pure kept_advances trivial

theorem readSimpleAns_runs (L : Nat) :
    Runs Advances (readSimpleAns L) fun D => D.length = 2 ^ L := by
  refine Runs.bind kept_advances readBool_runs fun two _ => ?_
  refine Runs.bind kept_advances readU8_runs fun s0 _ => ?_
  refine Runs.bind kept_advances (Q := fun _ => True) ?_ fun s1 _ => ?_
  · split
    · exact readU8_runs
    · exact Runs.pure kept_advances trivial
  · refine Runs.bind kept_advances (Runs.checkBitstream kept_advances) fun _ _ => ?_
    split
    · refine Runs.bind kept_advances (Runs.checkBitstream kept_advances) fun _ _ => ?_
      exact Runs.bind kept_advances (readBits_runs _) fun _ _ => Runs.pure kept_advances (by simp)
    · exact Runs.pure kept_advances (by simp)

@[simp] theorem length_tabulate {α : Type} (n : Nat) (f : Nat → α) : (tabulate n f).length = n := by
  simp [tabulate]

theorem readFlatAns_runs (L : Nat) : Runs Advances (readFlatAns L) fun D => D.length = 2 ^ L := by
  refine Runs.bind kept_advances readU8_runs fun v _ => ?_
  exact Runs.bind kept_advances (Runs.checkBitstream kept_advances) fun _ _ => Runs.pure kept_advances (by simp)

theorem readUnary_runs : ∀ n, Runs Advances (readUnary n) fun _ => True
  | 0 => Runs.pure kept_advances trivial
  | n + 1 => by
    refine Runs.bind kept_advances readBool_runs fun more _ => ?_
    split
    · exact Runs.bind kept_advances (readUnary_runs n) fun _ _ => Runs.pure kept_advances trivial
    · exact Runs.pure kept_advances trivial

theorem scanLogCounts_runs (a : Nat) : ∀ rounds i st, Runs Advances (scanLogCounts rounds a i st) fun _ => True
  | 0, _, _ => Runs.pure kept_advances trivial
  | rounds + 1, i, st => by
    unfold scanLogCounts
    split
    · exact Runs.pure kept_advances trivial
    · refine Runs.bind kept_advances readLogCount_runs fun c _ => ?_
      split
      · exact Runs.bind kept_advances readU8_runs fun r _ => scanLogCounts_runs a rounds _ _
      · exact scanLogCounts_runs a rounds _ _

theorem readFreq_runs (shift c : Nat) (o : Bool) : Runs Advances (readFreq shift c o) fun _ => True := by
  unfold readFreq
  split
  · exact Runs.pure kept_advances trivial
  · split
    · exact Runs.pure kept_advances trivial
    · exact Runs.bind kept_advances (readBits_runs _) fun _ _ => Runs.pure kept_advances trivial

theorem fillFreqs_runs (shift : Nat) (scan : LogScan) (omitPos : Nat) :
    ∀ rounds i st, Runs Advances (fillFreqs shift scan omitPos rounds i st)
      fun fs => fs.length = st.rev.length + rounds
  | 0, _, st => Runs.pure kept_advances (by simp)
  | rounds + 1, i, st => by
    unfold fillFreqs
    simp only
    generalize hst : (if scan.same.getD i 0 ≠ 0 then
      ({ st with numSame := scan.same.getD i 0 - 1, prev := st.rev.headD 0 } : FreqFill) else st) = st'
    have hrev : st'.rev = st.rev := by rw [← hst]; split <;> rfl
    split
    · exact (fillFreqs_runs shift scan omitPos rounds _ _).mono fun fs h => by
        simp only [List.length_cons] at h; rw [hrev] at h; omega
    · refine Runs.bind kept_advances (readFreq_runs _ _ _) fun f _ => ?_
      exact (fillFreqs_runs shift scan omitPos rounds _ _).mono fun fs h => by
        simp only [List.length_cons] at h; rw [hrev] at h; omega

theorem readGeneralAns_runs (L : Nat) : Runs Advances (readGeneralAns L) fun D => D.length = 2 ^ L := by
  refine Runs.bind kept_advances (readUnary_runs 3) fun n _ => ?_
  refine Runs.bind kept_advances (readBits_runs _) fun v _ => ?_
  refine Runs.bind kept_advances (Runs.checkBitstream kept_advances) fun _ _ => ?_
  refine Runs.bind kept_advances readU8_runs fun u _ => ?_
  refine Runs.bind kept_advances (Runs.checkBitstream kept_advances) fun _ ha => ?_
  refine Runs.bind kept_advances (scanLogCounts_runs _ _ _ _) fun scan _ => ?_
  refine Runs.bind kept_advances (Runs.orRaise kept_advances) fun om _ => ?_
  refine Runs.bind kept_advances (Runs.checkBitstream kept_advances) fun _ _ => ?_
  refine Runs.bind kept_advances (fillFreqs_runs _ _ _ _ _ _) fun fs hfs => ?_
  refine Runs.bind kept_advances (Runs.checkBitstream kept_advances) fun _ _ => ?_
  refine Runs.pure kept_advances ?_
  simp only [List.length_nil, Nat.zero_add] at hfs
  simp only [List.length_append, List.length_set, List.length_replicate, hfs]
  omega

theorem readAnsFreqs_runs (L : Nat) : Runs Advances (readAnsFreqs L) fun D => D.length = 2 ^ L := by
  refine Runs.bind kept_advances readBool_runs fun simple _ => ?_
  split
  · exact readSimpleAns_runs L
  · refine Runs.bind kept_advances readBool_runs fun flat _ => ?_
    split
    · exact readFlatAns_runs L
    · exact readGeneralAns_runs L

/-! ## Prefix codes -/

theorem readPrefixAlphabetSize_runs : Runs Advances readPrefixAlphabetSize fun _ => True := by
  refine Runs.bind kept_advances readBool_runs fun more _ => ?_
  split
  · refine Runs.bind kept_advances (readBits_runs 4) fun n _ => ?_
    refine Runs.bind kept_advances (readBits_runs n) fun v _ => ?_
    exact Runs.bind kept_advances (Runs.checkBitstream kept_advances) fun _ _ => Runs.pure kept_advances trivial
  · exact Runs.pure kept_advances trivial

theorem prefixScan_advances (codes : List (Nat × Nat × Nat)) :
    ∀ (bits : List Bool) (c l pos : Nat),
      match prefixScan codes c l bits pos with
      | .ok _ b => Advances { rest := bits, pos := pos } b
      | .error e b => Advances { rest := bits, pos := pos } b ∧ e.IsRaise
  | [], c, l, pos => ⟨Advances.refl _, _, rfl⟩
  | bit :: bits, c, l, pos => by
    have one : Advances { rest := bit :: bits, pos := pos } { rest := bits, pos := pos + 1 } :=
      ⟨1, by simp, by simp, rfl⟩
    unfold prefixScan
    cases symbolOfCode codes (2 * c + bit.toNat) (l + 1) with
    | some s => exact one
    | none =>
      have := prefixScan_advances codes bits (2 * c + bit.toNat) (l + 1) (pos + 1)
      simp only
      cases h : prefixScan codes (2 * c + bit.toNat) (l + 1) bits (pos + 1) <;> rw [h] at this
      · exact one.trans this
      · exact ⟨one.trans this.1, this.2⟩

theorem prefixDecode_runs (code : PrefixCode) : Runs Advances (prefixDecode code) fun _ => True := by
  cases code with
  | zeroBits s => exact Runs.pure kept_advances trivial
  | canonical lens =>
    intro b
    have := prefixScan_advances (canonicalCodes lens) b.rest 0 0 b.pos
    have eq : prefixDecode (.canonical lens) b = prefixScan (canonicalCodes lens) 0 0 b.rest b.pos := rfl
    rw [eq]
    cases h : prefixScan (canonicalCodes lens) 0 0 b.rest b.pos <;> rw [h] at this
    · exact ⟨this, trivial⟩
    · exact this

theorem readSimplePrefix_runs (A : Nat) : Runs Advances (readSimplePrefix A) fun _ => True := by
  have sym : Runs Advances (readSimpleSymbol A) fun _ => True :=
    Runs.bind kept_advances (readBits_runs _) fun _ _ =>
      Runs.bind kept_advances (Runs.checkBitstream kept_advances) fun _ _ => Runs.pure kept_advances trivial
  refine Runs.bind kept_advances (readBits_runs 2) fun k _ => ?_
  refine Runs.bind kept_advances (Runs.times kept_advances sym _) fun syms _ => ?_
  refine Runs.bind kept_advances (Runs.checkBitstream kept_advances) fun _ _ => ?_
  split
  · exact Runs.pure kept_advances trivial
  · split
    · exact Runs.pure kept_advances trivial
    · split
      · exact Runs.pure kept_advances trivial
      · exact Runs.bind kept_advances readBool_runs fun _ _ => Runs.pure kept_advances trivial

theorem readClCode_runs : Runs Advances readClCode fun _ => True := by
  refine Runs.bind kept_advances (peekBits_runs 4) fun p _ => ?_
  exact Runs.bind kept_advances (skipBits_runs _) fun _ _ => Runs.pure kept_advances trivial

theorem scanClCodes_runs : ∀ syms st, Runs Advances (scanClCodes syms st) fun _ => True
  | [], _ => Runs.pure kept_advances trivial
  | sym :: more, st => by
    unfold scanClCodes
    refine Runs.bind kept_advances readClCode_runs fun v _ => ?_
    split
    · exact scanClCodes_runs more _
    · simp only
      split
      · exact Runs.pure kept_advances trivial
      · exact scanClCodes_runs more _

theorem readCodeLengthCode_runs (hskip : Nat) : Runs Advances (readCodeLengthCode hskip) fun _ => True := by
  refine Runs.bind kept_advances (scanClCodes_runs _ _) fun st _ => ?_
  refine Runs.bind kept_advances (Runs.checkBitstream kept_advances) fun _ _ => ?_
  split <;> exact Runs.pure kept_advances trivial

theorem scanLengths_runs (A : Nat) (code : PrefixCode) :
    ∀ rounds st, Runs Advances (scanLengths A code rounds st) fun _ => True
  | 0, _ => Runs.pure kept_advances trivial
  | rounds + 1, st => by
    unfold scanLengths
    split
    · refine Runs.bind kept_advances (prefixDecode_runs code) fun p _ => ?_
      split
      · exact scanLengths_runs A code rounds _
      · refine Runs.bind kept_advances (readBits_runs _) fun v _ => ?_
        refine Runs.bind kept_advances (Runs.checkBitstream kept_advances) fun _ _ => ?_
        exact scanLengths_runs A code rounds _
    · exact Runs.pure kept_advances trivial

theorem readPrefixCode_runs (A : Nat) : Runs Advances (readPrefixCode A) fun _ => True := by
  unfold readPrefixCode
  split
  · exact Runs.pure kept_advances trivial
  · refine Runs.bind kept_advances (readBits_runs 2) fun hskip _ => ?_
    split
    · exact readSimplePrefix_runs A
    · refine Runs.bind kept_advances (readCodeLengthCode_runs hskip) fun code _ => ?_
      refine Runs.bind kept_advances (Q := fun _ => True) ?_ fun _ _ => Runs.pure kept_advances trivial
      refine Runs.bind kept_advances (scanLengths_runs A code _ _) fun st _ => ?_
      exact Runs.bind kept_advances (Runs.checkBitstream kept_advances) fun _ _ => Runs.pure kept_advances trivial

end Sys2Proof.Machine
end

