-- ==== Sys2Proof/Laws/Stream.lean ====
section
/-! SUPPORT. Entropy streams: what a parsed header satisfies, and what reading a symbol of a legal stream can do. -/

namespace Sys2Proof.Machine

/-! ## Alias tables (`41_symbol_distribution.md` R180, R181) -/

theorem aliasFill_keeps (bucket T : Nat) : ∀ rounds (w : AliasWork),
    w.symbols.length = T → (∀ v ∈ w.symbols, v < T) → (∀ v ∈ w.overfull, v < T) →
      (aliasFill bucket rounds w).symbols.length = T ∧ ∀ v ∈ (aliasFill bucket rounds w).symbols, v < T
  | 0, w, hl, hs, _ => ⟨hl, hs⟩
  | rounds + 1, w, hl, hs, ho => by
    unfold aliasFill
    split
    · rename_i o os u us heq _
      have ho' : o < T := ho o (by simp [heq])
      apply aliasFill_keeps bucket T rounds
      · simpa using hl
      · intro v hv
        rcases List.mem_or_eq_of_mem_set hv with h | h
        · exact hs v h
        · omega
      · intro v hv
        apply ho
        rw [heq]
        simp only at hv
        split at hv
        · exact hv
        · exact List.mem_cons_of_mem _ hv
    · exact ⟨hl, hs⟩

theorem buildAlias_length (D : List Nat) (L : Nat) : (buildAlias D L).length = 2 ^ L := by
  unfold buildAlias
  split <;> simp

theorem buildAlias_symbol_lt {D : List Nat} {L : Nat} (h : D.length = 2 ^ L) :
    ∀ e ∈ buildAlias D L, e.symbol < 2 ^ L := by
  intro e he
  unfold buildAlias at he
  split at he
  · rename_i s hs
    simp only [tabulate, List.mem_map] at he
    obtain ⟨i, _, rfl⟩ := he
    have := (List.findIdx?_eq_some_iff_findIdx_eq.1 hs).1
    simpa [h] using this
  · simp only [tabulate, List.mem_map, List.mem_range] at he
    obtain ⟨i, hi, rfl⟩ := he
    have hpos : 0 < 2 ^ L := Nat.two_pow_pos L
    have keep := aliasFill_keeps (2 ^ (12 - L)) (2 ^ L) (2 ^ L) (aliasStart D L) (by simp [aliasStart])
      (by intro v hv; simp only [aliasStart, List.mem_replicate] at hv; omega)
      (by intro v hv; simp only [aliasStart, List.mem_reverse, List.mem_filter, List.mem_range] at hv; exact hv.1)
    unfold aliasSlotOf
    simp only
    split
    · exact hi
    · show (aliasFill (2 ^ (12 - L)) (2 ^ L) (aliasStart D L)).symbols.getD i 0 < 2 ^ L
      rw [List.getD_eq_getElem?_getD, List.getElem?_eq_getElem (by rw [keep.1]; exact hi)]
      exact keep.2 _ (List.getElem_mem _)

theorem aliasLookup_some {L : Nat} {table : List AliasSlot} (hL : L ≤ 12) (hl : table.length = 2 ^ L)
    (hs : ∀ e ∈ table, e.symbol < 2 ^ L) {x : Nat} (hx : x < 4096) :
    ∃ p, aliasLookup L table x = some p ∧ p.1 < 2 ^ L := by
  have hi : x >>> (12 - L) < 2 ^ L := by
    rw [Nat.shiftRight_eq_div_pow, Nat.div_lt_iff_lt_mul (Nat.two_pow_pos _), ← Nat.pow_add,
      show L + (12 - L) = 12 by omega]
    exact hx
  unfold aliasLookup
  simp only
  rw [List.getElem?_eq_getElem (by rw [hl]; exact hi)]
  refine ⟨_, rfl, ?_⟩
  simp only
  split
  · exact hs _ (List.getElem_mem _)
  · exact hi

/-! ## Reading a symbol -/

/-- What reading a symbol changes: it consumes bits, and keeps the window's canonical form. -/
def ReadingKept (r r' : Reading) : Prop :=
  Advances r.source r'.source ∧ (windowWf r.coder.window → windowWf r'.coder.window)

theorem kept_reading : Kept ReadingKept :=
  ⟨fun _ => ⟨Advances.refl _, id⟩, fun _ _ _ h h' => ⟨h.1.trans h'.1, fun w => h'.2 (h.2 w)⟩⟩

theorem theCoder_runs : Runs ReadingKept theCoder fun _ => True := fun r => ⟨kept_reading.refl r, trivial⟩

theorem parse_runs {α : Type} {m : Parse α} {Q : α → Prop} (h : Runs Advances m Q) : Runs ReadingKept (parse m) Q :=
  Runs.onPart h fun _ _ ha => ⟨ha, id⟩

theorem updateCoder_runs {f : Coder → Coder} (h : ∀ c, windowWf c.window → windowWf (f c).window) :
    Runs ReadingKept (updateCoder f) fun _ => True := fun r => ⟨⟨Advances.refl _, h r.coder⟩, trivial⟩

theorem updateCoder_runs_same {f : Coder → Coder} (h : ∀ c, (f c).window = c.window) :
    Runs ReadingKept (updateCoder f) fun _ => True :=
  updateCoder_runs fun c hc => by rw [h c]; exact hc

theorem windowWf_emit {c : Coder} (h : windowWf c.window) (v : Word) : windowWf (c.emit v).window :=
  windowWf_write h _ _

theorem emitCopied_runs : Runs ReadingKept emitCopied fun v => v < 2 ^ 32 := by
  refine Runs.bind kept_reading theCoder_runs fun c _ => ?_
  refine Runs.bind kept_reading (updateCoder_runs ?_) fun _ _ => Runs.pure kept_reading ?_
  · intro c hc; exact windowWf_emit (c := { c with copyPos := _, copyRemaining := _ }) hc _
  · exact BitVec.isLt _

theorem ansDecode_runs {L : Nat} {d : AnsDist} (hL : L ≤ 8) (hf : d.freqs.length = 2 ^ L)
    (ht : d.table.length = 2 ^ L) (hs : ∀ e ∈ d.table, e.symbol < 2 ^ L) :
    Runs ReadingKept (ansDecode L d) fun _ => True := by
  have prime : Runs ReadingKept ansPrime fun _ => True := by
    refine Runs.bind kept_reading theCoder_runs fun c _ => ?_
    split
    · exact Runs.pure kept_reading trivial
    · refine Runs.bind kept_reading (parse_runs (readBits_runs 32)) fun v _ => ?_
      exact updateCoder_runs_same fun _ => rfl
  have refill : Runs ReadingKept ansRefill fun _ => True := by
    refine Runs.bind kept_reading theCoder_runs fun c _ => ?_
    split
    · refine Runs.bind kept_reading (parse_runs (readBits_runs 16)) fun v _ => ?_
      exact updateCoder_runs_same fun _ => rfl
    · exact Runs.pure kept_reading trivial
  refine Runs.bind kept_reading prime fun _ _ => ?_
  refine Runs.bind kept_reading theCoder_runs fun c _ => ?_
  obtain ⟨p, hp, hlt⟩ := aliasLookup_some (x := c.ansState.toNat % Config.ansTotal) (by omega) ht hs
    (Nat.mod_lt _ (by decide))
  refine Runs.bind kept_reading (Runs.orBroken kept_reading (Q := fun a => a.1 < 2 ^ L) ⟨p, hp, hlt⟩) fun so hso => ?_
  refine Runs.bind kept_reading (Runs.orBroken kept_reading (Q := fun _ => True)
    ⟨_, List.getElem?_eq_getElem (by rw [hf]; exact hso), trivial⟩) fun f _ => ?_
  refine Runs.bind kept_reading (updateCoder_runs_same fun _ => rfl) fun _ _ => ?_
  exact Runs.bind kept_reading refill fun _ _ => Runs.pure kept_reading trivial

theorem decodeToken_runs {cfg : StreamConfig} (hc : CodingWf cfg.coding) {k : Nat} (hk : k < cfg.coding.numClusters) :
    Runs ReadingKept (decodeToken cfg k) fun _ => True := by
  unfold decodeToken
  cases hcod : cfg.coding with
  | ans L ds =>
    rw [hcod] at hc hk
    obtain ⟨_, hL, hds⟩ := hc
    have hd := List.getElem?_eq_getElem hk
    refine Runs.bind kept_reading (Runs.orBroken kept_reading (Q := fun d => d ∈ ds)
      ⟨_, hd, List.getElem_mem hk⟩) fun d hd => ?_
    obtain ⟨_, hf, ht, hs⟩ := hds d hd
    exact ansDecode_runs hL hf ht hs
  | prefixCode ds =>
    rw [hcod] at hk
    refine Runs.bind kept_reading (Runs.orBroken kept_reading (Q := fun _ => True)
      ⟨_, List.getElem?_eq_getElem hk, trivial⟩) fun d _ => ?_
    exact parse_runs (prefixDecode_runs _)

theorem hybridConfig?_wf {c : Coding} (hc : CodingWf c) {k : Nat} (hk : k < c.numClusters) :
    ∃ h, c.hybridConfig? k = some h ∧ h.splitExponent ≤ 32 := by
  cases c with
  | ans L ds =>
    have hd := List.getElem?_eq_getElem hk
    obtain ⟨hw, _⟩ := hc.2.2 _ (List.getElem_mem hk)
    have := hc.2.1
    exact ⟨_, by simp only [Coding.hybridConfig?, hd]; rfl, by have := hw.2; omega⟩
  | prefixCode ds =>
    have hd := List.getElem?_eq_getElem hk
    have hw := hc _ (List.getElem_mem hk)
    exact ⟨_, by simp only [Coding.hybridConfig?, hd]; rfl, by have := hw.2; omega⟩

theorem StreamWf.clusterOf {cfg : StreamConfig} (h : StreamWf cfg) {i : Nat} (hi : i < cfg.numContexts) :
    ∃ k, cfg.clusterMap[i]? = some k ∧ k < cfg.coding.numClusters :=
  ⟨_, List.getElem?_eq_getElem hi, h.2.1 _ (List.getElem_mem hi)⟩

theorem StreamWf.numContexts_pos {cfg : StreamConfig} (h : StreamWf cfg) : 0 < cfg.numContexts := by
  have := h.1
  unfold StreamConfig.readableContexts at this
  omega

theorem startCopy_runs {cfg : StreamConfig} (h : StreamWf cfg) {z : Lz77Config} (hz : cfg.lz77 = some z)
    (token dm : Nat) : Runs ReadingKept (startCopy cfg z token dm) fun _ => True := by
  obtain ⟨k, hk, hk'⟩ := h.clusterOf (i := cfg.numContexts - 1) (by have := h.numContexts_pos; omega)
  refine Runs.bind kept_reading (parse_runs (hybridExpand_runs ?_ _)) fun extra _ => ?_
  · have := (h.2.2.2 z hz).2.2; omega
  refine Runs.bind kept_reading (Runs.checkBitstream kept_reading) fun _ _ => ?_
  refine Runs.bind kept_reading (Runs.orBroken kept_reading (Q := fun a => a < cfg.coding.numClusters)
    ⟨k, hk, hk'⟩) fun kd hkd => ?_
  refine Runs.bind kept_reading (decodeToken_runs h.2.2.1 hkd) fun dtoken _ => ?_
  refine Runs.bind kept_reading (Runs.orBroken kept_reading (hybridConfig?_wf h.2.2.1 hkd)) fun dcfg hd => ?_
  refine Runs.bind kept_reading (parse_runs (hybridExpand_runs hd _)) fun raw _ => ?_
  exact updateCoder_runs_same fun _ => rfl

/-- Reading a symbol of a legal stream: it never stops the model, consumes bits in order, keeps the window's form, and
answers a `u32`. -/
theorem readSymbol_runs {cfg : StreamConfig} (h : StreamWf cfg) {ctx : Nat} (hctx : ctx < cfg.numContexts) (dm : Nat) :
    Runs ReadingKept (readSymbol cfg ctx dm) fun v => v < 2 ^ 32 := by
  refine Runs.bind kept_reading theCoder_runs fun c _ => ?_
  split
  · exact emitCopied_runs
  · obtain ⟨k, hk, hk'⟩ := h.clusterOf hctx
    refine Runs.bind kept_reading (Runs.orBroken kept_reading (Q := fun a => a < cfg.coding.numClusters)
      ⟨k, hk, hk'⟩) fun k hk => ?_
    refine Runs.bind kept_reading (decodeToken_runs h.2.2.1 hk) fun token _ => ?_
    split
    · rename_i z hz
      have hz' : cfg.lz77 = some z := (Option.filter_eq_some_iff.1 hz).1
      exact Runs.bind kept_reading (startCopy_runs h hz' token dm) fun _ _ => emitCopied_runs
    · refine Runs.bind kept_reading (Runs.orBroken kept_reading (hybridConfig?_wf h.2.2.1 hk)) fun hc hhc => ?_
      refine Runs.bind kept_reading (parse_runs (hybridExpand_runs hhc _)) fun v hv => ?_
      refine Runs.bind kept_reading (updateCoder_runs fun c hc => windowWf_emit hc _) fun _ _ => ?_
      exact Runs.pure kept_reading hv

/-! ## Reading on any state -/

theorem ansDecode_keeps (L : Nat) (d : AnsDist) : Keeps ReadingKept (ansDecode L d) := by
  refine Keeps.bind kept_reading ?_ fun _ => Keeps.bind kept_reading theCoder_runs.keeps fun c =>
    Keeps.bind kept_reading (Keeps.orBroken kept_reading) fun so => Keeps.bind kept_reading (Keeps.orBroken kept_reading)
      fun f => Keeps.bind kept_reading (updateCoder_runs_same fun _ => rfl).keeps fun _ =>
        Keeps.bind kept_reading ?_ fun _ => Keeps.pure kept_reading _
  · refine Keeps.bind kept_reading theCoder_runs.keeps fun c => ?_
    split
    · exact Keeps.pure kept_reading _
    · exact Keeps.bind kept_reading (parse_runs (readBits_runs 32)).keeps fun v =>
        (updateCoder_runs_same fun _ => rfl).keeps
  · refine Keeps.bind kept_reading theCoder_runs.keeps fun c => ?_
    split
    · exact Keeps.bind kept_reading (parse_runs (readBits_runs 16)).keeps fun v =>
        (updateCoder_runs_same fun _ => rfl).keeps
    · exact Keeps.pure kept_reading _

theorem decodeToken_keeps (cfg : StreamConfig) (k : Nat) : Keeps ReadingKept (decodeToken cfg k) := by
  unfold decodeToken
  split
  · exact Keeps.bind kept_reading (Keeps.orBroken kept_reading) fun d => ansDecode_keeps _ d
  · exact Keeps.bind kept_reading (Keeps.orBroken kept_reading) fun d => (parse_runs (prefixDecode_runs d.code)).keeps

theorem hybridExpand_keeps (token : Nat) (c : HybridConfig) : Keeps Advances (hybridExpand token c) := by
  unfold hybridExpand
  split
  · exact Keeps.pure kept_advances _
  · exact Keeps.bind kept_advances (Keeps.checkBitstream kept_advances) fun _ =>
      Keeps.bind kept_advances (readBits_runs _).keeps fun _ =>
        Keeps.bind kept_advances (Keeps.checkBitstream kept_advances) fun _ => Keeps.pure kept_advances _

theorem parse_keeps {α : Type} {m : Parse α} (h : Keeps Advances m) : Keeps ReadingKept (parse m) :=
  Keeps.onPart h fun _ _ ha => ⟨ha, id⟩

/-- Reading a symbol of any stream at all consumes bits in order and keeps the window's form. -/
theorem readSymbol_keeps (cfg : StreamConfig) (ctx dm : Nat) : Keeps ReadingKept (readSymbol cfg ctx dm) := by
  refine Keeps.bind kept_reading theCoder_runs.keeps fun c => ?_
  split
  · exact emitCopied_runs.keeps
  · refine Keeps.bind kept_reading (Keeps.orBroken kept_reading) fun k =>
      Keeps.bind kept_reading (decodeToken_keeps cfg k) fun token => ?_
    split
    · rename_i z _
      refine Keeps.bind kept_reading ?_ fun _ => emitCopied_runs.keeps
      refine Keeps.bind kept_reading (parse_keeps (hybridExpand_keeps _ _)) fun extra =>
        Keeps.bind kept_reading (Keeps.checkBitstream kept_reading) fun _ =>
          Keeps.bind kept_reading (Keeps.orBroken kept_reading) fun kd =>
            Keeps.bind kept_reading (decodeToken_keeps cfg kd) fun dtoken =>
              Keeps.bind kept_reading (Keeps.orBroken kept_reading) fun dcfg =>
                Keeps.bind kept_reading (parse_keeps (hybridExpand_keeps _ _)) fun raw =>
                  (updateCoder_runs_same fun _ => rfl).keeps
    · exact Keeps.bind kept_reading (Keeps.orBroken kept_reading) fun hc =>
        Keeps.bind kept_reading (parse_keeps (hybridExpand_keeps _ _)) fun v =>
          Keeps.bind kept_reading (updateCoder_runs fun c hc => windowWf_emit hc _).keeps fun _ =>
            Keeps.pure kept_reading _

theorem validateFinal_runs {σ : Type} {R : σ → σ → Prop} (k : Kept R) (cfg : StreamConfig) (c : Coder) :
    Runs R (validateFinal cfg c) fun _ => True := by
  unfold validateFinal
  split
  · exact Runs.pure k trivial
  · split
    · exact (Runs.checkBitstream k).mono fun _ _ => trivial
    · exact (Runs.checkBitstream k).mono fun _ _ => trivial

theorem onFreshStream_runs {α : Type} {m : Reader α} {Q : α → Prop} (h : Runs ReadingKept m Q) :
    Runs Advances (onFreshStream m) Q := by
  intro b
  have := h { coder := {}, source := b }
  unfold onFreshStream
  cases hm : m { coder := {}, source := b } <;> rw [hm] at this
  · exact ⟨this.1.1, this.2⟩
  · exact ⟨this.1.1, this.2⟩

/-! ## Headers (`42_entropy_stream.md` R231 to R236) -/

theorem readAnsCoding_runs {L : Nat} (h5 : 5 ≤ L) (h8 : L ≤ 8) (n : Nat) :
    Runs Advances (readAnsCoding L n) fun c => CodingWf c ∧ c.numClusters = n := by
  refine Runs.bind kept_advances (Runs.times kept_advances (readHybridConfig_runs L) n) fun configs hcs => ?_
  refine Runs.bind kept_advances (Runs.forAll kept_advances (Q' := fun d : AnsDist =>
    d.config.Wf L ∧ d.freqs.length = 2 ^ L ∧ d.table.length = 2 ^ L ∧ ∀ e ∈ d.table, e.symbol < 2 ^ L)
      fun c hc => ?_) fun ds hds => Runs.pure kept_advances ⟨⟨h5, h8, hds.2⟩, ?_⟩
  · refine Runs.bind kept_advances (readAnsFreqs_runs L) fun D hD => Runs.pure kept_advances ?_
    exact ⟨hcs.2 c hc, hD, buildAlias_length D L, buildAlias_symbol_lt hD⟩
  · show ds.length = n
    rw [hds.1, hcs.1]

theorem readPrefixCoding_runs (n : Nat) :
    Runs Advances (readPrefixCoding n) fun c => CodingWf c ∧ c.numClusters = n := by
  refine Runs.bind kept_advances (Runs.times kept_advances (readHybridConfig_runs 15) n) fun configs hcs => ?_
  refine Runs.bind kept_advances (Runs.times kept_advances readPrefixAlphabetSize_runs n) fun sizes hss => ?_
  refine Runs.bind kept_advances (Runs.forAll kept_advances fun A _ => readPrefixCode_runs A) fun codes hcd => ?_
  refine Runs.pure kept_advances ⟨?_, ?_⟩
  · intro d hd
    simp only [List.mem_map] at hd
    obtain ⟨e, he, rfl⟩ := hd
    exact hcs.2 _ (List.of_mem_zip he).1
  · show (List.map _ _).length = n
    simp [hcs.1, hss.1, hcd.1]

theorem readLz77_runs (d : Bool) :
    Runs Advances (readLz77 d) fun o =>
      (o.isSome = true → d = false) ∧ ∀ z, o = some z → 3 ≤ z.minLength ∧ z.lengthConfig.Wf 8 := by
  refine Runs.bind kept_advances readBool_runs fun enabled _ => ?_
  split
  · refine Runs.bind kept_advances (Runs.checkBitstream kept_advances) fun _ hd => ?_
    refine Runs.bind kept_advances (readU32_runs _ _ _ _) fun _ _ => ?_
    refine Runs.bind kept_advances (readU32_runs _ _ _ _) fun minLength hm => ?_
    refine Runs.bind kept_advances (readHybridConfig_runs 8) fun lc hl => Runs.pure kept_advances ?_
    refine ⟨fun _ => hd, ?_⟩
    rintro z ⟨⟩
    exact ⟨by simpa using hm, hl⟩
  · exact Runs.pure kept_advances (by simp)

theorem le_foldl_max (l : List Nat) (a : Nat) : a ≤ l.foldl max a ∧ ∀ x ∈ l, x ≤ l.foldl max a := by
  induction l generalizing a with
  | nil => simp
  | cons y l ih =>
    have h := ih (max a y)
    refine ⟨by simp only [List.foldl_cons]; omega, fun x hx => ?_⟩
    simp only [List.foldl_cons]
    rcases List.mem_cons.1 hx with rfl | hx
    · omega
    · exact h.2 x hx

/-- A header parse over a reader of maps that answers one id for each context. -/
theorem readStreamWith_runs {readMap : Nat → Parse (List Nat)} {n : Nat} {d : Bool}
    (h : ∀ m, m = n ∨ d = false → Runs Advances (readMap m) fun map => map.length = m) (hn : 0 < n) :
    Runs Advances (readStreamWith readMap n d) fun c => StreamWf c ∧ c.readableContexts = n := by
  refine Runs.bind kept_advances (readLz77_runs d) fun lz77 hz => ?_
  refine Runs.bind kept_advances (h _ (by
    split
    · exact .inr (hz.1 ‹_›)
    · exact .inl rfl)) fun map hmap => ?_
  have fits : ∀ c : Coding, CodingWf c ∧ c.numClusters = 1 + map.foldl max 0 →
      StreamWf { clusterMap := map, lz77 := lz77, coding := c } ∧
        StreamConfig.readableContexts { clusterMap := map, lz77 := lz77, coding := c } = n := by
    intro c hc
    have hr : StreamConfig.readableContexts { clusterMap := map, lz77 := lz77, coding := c } = n := by
      show map.length - (if lz77.isSome = true then 1 else 0) = n
      rw [hmap]; split <;> omega
    refine ⟨⟨by rw [hr]; exact hn, fun k hk => ?_, hc.1, hz.2⟩, hr⟩
    rw [hc.2]
    have := (le_foldl_max map 0).2 k hk
    omega
  refine Runs.bind kept_advances readBool_runs fun usePrefix _ => ?_
  split
  · exact Runs.bind kept_advances (readPrefixCoding_runs _) fun c hc => Runs.pure kept_advances (fits c hc)
  · refine Runs.bind kept_advances (readBits_runs 2) fun v hv => ?_
    exact Runs.bind kept_advances (readAnsCoding_runs (by omega) (by omega) _) fun c hc =>
      Runs.pure kept_advances (fits c hc)

theorem inverseMtf_length (mtf map : List Nat) : (inverseMtf mtf map).length = map.length := by
  induction map generalizing mtf with
  | nil => rfl
  | cons j more ih => simp [inverseMtf, ih]

theorem readNestedMap_runs (n : Nat) : Runs Advances (readNestedMap n) fun map => map.length = n := by
  have nested : Runs Advances readNestedStream fun c => StreamWf c ∧ c.readableContexts = 1 :=
    readStreamWith_runs (by
      rintro m (rfl | h)
      · exact Runs.pure kept_advances rfl
      · cases h) (by omega)
  refine Runs.bind kept_advances readBool_runs fun useMtf _ => ?_
  refine Runs.bind kept_advances nested fun cfg hcfg => ?_
  refine Runs.bind kept_advances (Q := fun map => map.length = n) (onFreshStream_runs ?_) fun map hmap => ?_
  · have h0 : 0 < cfg.numContexts := hcfg.1.numContexts_pos
    refine Runs.bind kept_reading (Runs.times kept_reading (readSymbol_runs hcfg.1 h0 0) n) fun map hmap => ?_
    refine Runs.bind kept_reading theCoder_runs fun c _ => ?_
    exact Runs.bind kept_reading (validateFinal_runs kept_reading cfg c) fun _ _ => Runs.pure kept_reading hmap.1
  · refine Runs.bind kept_advances (Runs.checkBitstream kept_advances) fun _ _ => Runs.pure kept_advances ?_
    split
    · rw [inverseMtf_length, hmap]
    · exact hmap

theorem readClusterMap_runs (n : Nat) : Runs Advances (readClusterMap n) fun map => map.length = n := by
  unfold readClusterMap
  split
  · rename_i h; subst h; exact Runs.pure kept_advances rfl
  · refine Runs.bind kept_advances readBool_runs fun simple _ => ?_
    refine Runs.bind kept_advances (Q := fun map => map.length = n) ?_ fun map hmap => ?_
    · split
      · refine Runs.bind kept_advances (readBits_runs 2) fun nbits _ => ?_
        exact (Runs.times kept_advances (readBits_runs nbits) n).mono fun _ h => h.1
      · exact readNestedMap_runs n
    · exact Runs.bind kept_advances (Runs.checkBitstream kept_advances) fun _ _ => Runs.pure kept_advances hmap

/-- A parsed header is legal, and its caller may read the contexts it asked for. -/
theorem readEntropyStream_runs {n : Nat} (hn : 0 < n) (d : Bool) :
    Runs Advances (readEntropyStream n d) fun c => StreamWf c ∧ c.readableContexts = n :=
  readStreamWith_runs (fun m _ => readClusterMap_runs m) hn

end Sys2Proof.Machine
end

