-- ==== Sys2Proof/Laws/Tree.lean ====
section
/-! SUPPORT. MA trees: a parsed tree is legal, and a legal tree can be walked and compactified down to a leaf. -/

namespace Sys2Proof.Machine

/-! ## Parsing (`43_ma_tree.md` R271 to R274) -/

theorem inI32_unpackSigned {u : Nat} (h : u < 2 ^ 32) : inI32 (unpackSignedNat u) = true := by
  unfold inI32 unpackSignedNat
  split <;> simp <;> omega

theorem NodeWf.mono {m n i : Nat} (h : m ≤ n) {x : Node} (hx : NodeWf m i x) : NodeWf n i x := by
  cases x with
  | decision k v l r => exact ⟨hx.1, hx.2.1, hx.2.2.1, hx.2.2.2.1, by have := hx.2.2.2.2; omega⟩
  | leaf l => exact hx

/-- What holds of a tree under construction with `left` nodes still to come. -/
structure Building (left : Nat) (b : TreeBuild) : Prop where
  nodes : ∀ (i : Nat) (n : Node), b.rev.reverse[i]? = some n → NodeWf (b.count + left) i n
  length : b.rev.length = b.count
  leaves : b.count + 1 = 2 * b.leafCount + left
  contexts : leafContexts b.rev.reverse = List.range b.leafCount

theorem Building.add {left left' : Nat} {b b' : TreeBuild} (h : Building (left + 1) b) {n : Node}
    (hrev : b'.rev = n :: b.rev) (hcount : b'.count = b.count + 1) (hleft : b.count + (left + 1) ≤ b'.count + left')
    (hn : NodeWf (b'.count + left') b.count n) (hleaves : b'.count + 1 = 2 * b'.leafCount + left')
    (hctx : leafContexts b.rev.reverse ++ leafContexts [n] = List.range b'.leafCount) : Building left' b' := by
  refine ⟨fun i x hx => ?_, ?_, hleaves, ?_⟩
  · rw [hrev, List.reverse_cons] at hx
    by_cases hi : i < b.rev.length
    · rw [List.getElem?_append_left (by simpa using hi)] at hx
      exact (h.nodes i x hx).mono hleft
    · rw [List.getElem?_append_right (by simpa using hi)] at hx
      simp only [List.length_reverse] at hx
      have hi' : i = b.rev.length := by
        by_contra hne
        rw [List.getElem?_eq_none (by simp; omega)] at hx
        cases hx
      subst hi'
      simp at hx
      subst hx
      rw [h.length]
      exact hn
  · rw [hrev, List.length_cons, h.length, hcount]
  · rw [hrev, List.reverse_cons]
    show List.filterMap _ (b.rev.reverse ++ [n]) = _
    rw [List.filterMap_append]
    exact hctx

theorem readLeaf_runs {cfg : StreamConfig} (h : StreamWf cfg) (h6 : 6 ≤ cfg.numContexts) (c : Nat) :
    Runs ReadingKept (readLeaf cfg c) fun l =>
      l.context = c ∧ inI32 l.offset = true ∧ 1 ≤ l.multiplier ∧ l.multiplier ≤ 2 ^ 31 - 1 := by
  have sym : ∀ i, i < 6 → Runs ReadingKept (readSymbol cfg i 0) fun v => v < 2 ^ 32 :=
    fun i hi => readSymbol_runs h (by omega) 0
  refine Runs.bind kept_reading (sym 2 (by omega)) fun p _ => ?_
  refine Runs.bind kept_reading (Runs.orRaise kept_reading) fun predictor _ => ?_
  refine Runs.bind kept_reading (sym 3 (by omega)) fun o ho => ?_
  refine Runs.bind kept_reading (sym 4 (by omega)) fun mulLog _ => ?_
  refine Runs.bind kept_reading (Runs.checkBitstream kept_reading) fun _ hlog => ?_
  refine Runs.bind kept_reading (sym 5 (by omega)) fun mulBits _ => ?_
  refine Runs.bind kept_reading (Runs.checkBitstream kept_reading) fun _ hbits => ?_
  refine Runs.pure kept_reading ⟨rfl, inI32_unpackSigned ho, ?_, ?_⟩
  · show 1 ≤ (mulBits + 1) <<< mulLog
    rw [Nat.shiftLeft_eq]
    exact Nat.mul_pos (by omega) (Nat.two_pow_pos _)
  · show (mulBits + 1) <<< mulLog ≤ 2 ^ 31 - 1
    rw [Nat.one_shiftLeft] at hbits
    rw [Nat.shiftLeft_eq]
    have h2 : 2 ≤ 2 ^ (31 - mulLog) := by
      calc 2 = 2 ^ 1 := rfl
        _ ≤ 2 ^ (31 - mulLog) := Nat.pow_le_pow_right (by omega) (by omega)
    have hp : 2 ^ (31 - mulLog) * 2 ^ mulLog = 2 ^ 31 := by
      rw [← Nat.pow_add]; congr 1; omega
    have hpos := Nat.two_pow_pos mulLog
    calc (mulBits + 1) * 2 ^ mulLog ≤ (2 ^ (31 - mulLog) - 1) * 2 ^ mulLog :=
          Nat.mul_le_mul_right _ (by omega)
      _ = 2 ^ 31 - 2 ^ mulLog := by rw [Nat.sub_mul, hp, Nat.one_mul]
      _ ≤ 2 ^ 31 - 1 := by omega

theorem readNodes_runs {cfg : StreamConfig} (h : StreamWf cfg) (h6 : 6 ≤ cfg.numContexts) :
    ∀ (room left : Nat) (b : TreeBuild), Building left b →
      Runs ReadingKept (readNodes cfg room left b) fun b' => Building 0 b' ∧ b'.count ≤ b.count + room
  | room, 0, b, hb => by
    cases room <;> exact Runs.pure kept_reading ⟨hb, by omega⟩
  | 0, left + 1, b, _ => Runs.raise kept_reading _
  | room + 1, left + 1, b, hb => by
    have sym : ∀ i, i < 6 → Runs ReadingKept (readSymbol cfg i 0) fun v => v < 2 ^ 32 :=
      fun i hi => readSymbol_runs h (by omega) 0
    unfold readNodes
    refine Runs.bind kept_reading (sym 1 (by omega)) fun p _ => ?_
    refine Runs.bind kept_reading (Runs.checkBitstream kept_reading) fun _ hp => ?_
    split
    · rename_i hpos
      refine Runs.bind kept_reading (sym 0 (by omega)) fun v hv => ?_
      refine (readNodes_runs h h6 room (left + 2) _ (hb.add (left' := left + 2) rfl rfl ?_ ?_ ?_ ?_)).mono
        fun b' hb' => ⟨hb'.1, by have := hb'.2; simp only at this; omega⟩
      · simp only; omega
      · exact ⟨by omega, inI32_unpackSigned hv, by omega, by omega, by simp only; omega⟩
      · simp only; have := hb.leaves; omega
      · rw [hb.contexts]; simp [leafContexts]
    · refine Runs.bind kept_reading (readLeaf_runs h h6 b.leafCount) fun l hl => ?_
      refine (readNodes_runs h h6 room left _ (hb.add (left' := left) rfl rfl ?_ ?_ ?_ ?_)).mono
        fun b' hb' => ⟨hb'.1, by have := hb'.2; simp only at this; omega⟩
      · simp only; omega
      · exact hl.2
      · simp only; have := hb.leaves; omega
      · rw [hb.contexts]; simp [leafContexts, hl.1, List.range_succ]

/-- A parsed tree is legal, has two nodes less one for each leaf, and numbers its leaves' contexts in node order. -/
theorem readTree_runs :
    Runs Advances readTree fun t => TreeWf t.1 ∧ t.1.length + 1 = 2 * t.2 ∧ leafContexts t.1 = List.range t.2 := by
  refine Runs.bind kept_advances (readEntropyStream_runs (n := 6) (by omega) false) fun cfg hcfg => ?_
  have h6 : 6 ≤ cfg.numContexts := by
    have := hcfg.2
    unfold StreamConfig.readableContexts at this
    omega
  have start : Building 1 { rev := [], count := 0, leafCount := 0 } :=
    ⟨by simp, rfl, rfl, rfl⟩
  refine Runs.bind kept_advances (Q := fun b => Building 0 b ∧ b.count ≤ Config.maxNodes)
    (onFreshStream_runs ?_) fun b hb => Runs.pure kept_advances ?_
  · refine Runs.bind kept_reading (readNodes_runs hcfg.1 h6 _ _ _ start) fun b hb => ?_
    refine Runs.bind kept_reading theCoder_runs fun c _ => ?_
    refine Runs.bind kept_reading (validateFinal_runs kept_reading cfg c) fun _ _ => Runs.pure kept_reading ?_
    exact ⟨hb.1, by simpa using hb.2⟩
  · have hlen : b.rev.reverse.length = b.count := by rw [List.length_reverse, hb.1.length]
    have hl := hb.1.leaves
    refine ⟨⟨?_, by rw [hlen]; exact hb.2, fun i n hn => ?_⟩, by simp only; rw [hlen]; omega, hb.1.contexts⟩
    · intro hnil
      have hnil' : b.rev.reverse = [] := hnil
      rw [hnil'] at hlen
      simp at hlen
      omega
    · rw [hlen]; exact hb.1.nodes i n hn

/-! ## Walking and compactifying (R282, R285) -/

theorem TreeWf.child_lt {nodes : List Node} (h : TreeWf nodes) {n : Nat} {k : Nat} {v : Int} {lc rc : Nat}
    (hn : nodes[n]? = some (.decision k v lc rc)) : n < lc ∧ n < rc ∧ lc < nodes.length ∧ rc < nodes.length := by
  have := h.2.2 n _ hn
  exact ⟨this.2.2.1, by have := this.2.2; omega, by have := this.2.2; omega, this.2.2.2.2⟩

theorem residual_exists {nodes : List Node} (h : TreeWf nodes) (fix : Frozen) :
    ∀ depth n, n < nodes.length → nodes.length ≤ n + depth → ∃ r, residual nodes fix depth n = some r
  | 0, n, hn, hd => by omega
  | depth + 1, n, hn, hd => by
    unfold residual
    rw [List.getElem?_eq_getElem hn]
    cases hx : nodes[n] with
    | leaf l => exact ⟨_, rfl⟩
    | decision k v lc rc =>
      obtain ⟨h1, h2, h3, h4⟩ := h.child_lt (n := n) (by rw [List.getElem?_eq_getElem hn, hx])
      obtain ⟨l, hl⟩ := residual_exists h fix depth lc h3 (by omega)
      obtain ⟨r, hr⟩ := residual_exists h fix depth rc h4 (by omega)
      simp only
      cases fix.value? k with
      | some x =>
        simp only
        split
        · exact ⟨l, hl⟩
        · exact ⟨r, hr⟩
      | none => exact ⟨.decision k v l r, by simp only [hl, hr]; rfl⟩

/-- A legal tree compactifies, whatever is fixed. -/
theorem compactify_exists {nodes : List Node} (h : TreeWf nodes) (fix : Frozen) :
    ∃ r, compactify nodes fix = some r :=
  residual_exists h fix _ 0 (List.length_pos_iff.2 h.1) (by omega)

/-- Walking a legal tree ends at a leaf, or where a property it asks for stops it. -/
theorem walk_cases {nodes : List Node} (h : TreeWf nodes) (P : Nat → Except Stop Int) :
    ∀ depth n, n < nodes.length → nodes.length ≤ n + depth →
      (∃ m l, walk nodes P depth n = .ok (m, l) ∧ nodes[m]? = some (.leaf l)) ∨
      ∃ k e, P k = .error e ∧ walk nodes P depth n = .error e
  | 0, n, hn, hd => by omega
  | depth + 1, n, hn, hd => by
    unfold walk
    have hget := List.getElem?_eq_getElem hn
    rw [hget]
    cases hx : nodes[n] with
    | leaf l => exact .inl ⟨n, l, rfl, by rw [hget, hx]⟩
    | decision k v lc rc =>
      obtain ⟨h1, h2, h3, h4⟩ := h.child_lt (n := n) (by rw [hget, hx])
      simp only
      cases hP : P k with
      | error e => exact .inr ⟨k, e, hP, rfl⟩
      | ok x =>
        show (∃ m l, (walk nodes P depth (if v < x then lc else rc)) = .ok (m, l) ∧ _) ∨
          ∃ k e, P k = .error e ∧ walk nodes P depth (if v < x then lc else rc) = .error e
        split
        · exact walk_cases h P depth lc h3 (by omega)
        · exact walk_cases h P depth rc h4 (by omega)

/-- Walking a residual tree ends at one of its leaves, or where a property it asks for stops it. -/
theorem RTree.walk_cases (P : Nat → Except Stop Int) (q : Leaf → Bool) :
    ∀ t : RTree, (∃ m l, t.walk P = .ok (m, l) ∧ (q l = true → t.anyLeaf q = true)) ∨
      ∃ k e, P k = .error e ∧ t.walk P = .error e
  | .leaf n l => .inl ⟨n, l, rfl, id⟩
  | .decision k v l r => by
    unfold RTree.walk
    cases hP : P k with
    | error e => exact .inr ⟨k, e, hP, rfl⟩
    | ok x =>
      show (∃ m lf, (if v < x then l.walk P else r.walk P) = .ok (m, lf) ∧ _) ∨
        ∃ k e, P k = .error e ∧ (if v < x then l.walk P else r.walk P) = .error e
      split
      · rcases RTree.walk_cases P q l with ⟨m, lf, h, hq⟩ | h
        · exact .inl ⟨m, lf, h, fun hl => by simp [RTree.anyLeaf, hq hl]⟩
        · exact .inr h
      · rcases RTree.walk_cases P q r with ⟨m, lf, h, hq⟩ | h
        · exact .inl ⟨m, lf, h, fun hl => by simp [RTree.anyLeaf, hq hl]⟩
        · exact .inr h

end Sys2Proof.Machine
end

