-- ==== Sys2Proof/Laws/Commands.lean ====
section
/-! SUPPORT. The meaning of each command in closed form: its checks in order, then its effect. Later proofs cite these
instead of unfolding a command. -/

namespace Sys2Proof.Machine

/-! ## Hybrid integers (`40_hybrid_integer.md`) -/

theorem hybExpandBody_eq (s : State) :
    hybExpandBody s =
      if configFits s.latched.args.arg1 = true then
        match hybridExpand s.latched.args.arg0.toNat (unpackConfig s.latched.args.arg1) s.source with
        | .ok v b => .ok { r0 := some (Word.ofNat v) } (s.setSource b)
        | .error e b => .error e (s.setSource b)
      else .error (.raise (.contractViolation .badArg)) s := by
  unfold hybExpandBody
  simp only [latchedArgs_bind, checkContract_bind, onSource_bind]
  split
  · cases hybridExpand s.latched.args.arg0.toNat (unpackConfig s.latched.args.arg1) s.source <;> rfl
  · rfl

theorem hybConfigReadBody_eq (s : State) :
    hybConfigReadBody s =
      if isLogAlphabetSize s.latched.args.arg0 = true then
        match readHybridConfig s.latched.args.arg0.toNat s.source with
        | .ok c b => .ok { r0 := some (packConfig c) } (s.setSource b)
        | .error e b => .error e (s.setSource b)
      else .error (.raise (.contractViolation .badArg)) s := by
  unfold hybConfigReadBody
  simp only [latchedArgs_bind, checkContract_bind, onSource_bind]
  split
  · cases readHybridConfig s.latched.args.arg0.toNat s.source <;> rfl
  · rfl

theorem unpackSignedBody_eq (s : State) :
    unpackSignedBody s = .ok { r0 := some (Word.ofInt (unpackSignedNat s.latched.args.arg0.toNat)) } s := rfl

/-! ## Entropy streams (`42_entropy_stream.md`) -/

theorem slotOperand_apply (a : Word) (s : State) :
    slotOperand a s = match s.stream? a with
      | some st => .ok st s
      | none => .error (.raise (.contractViolation .badSlot)) s := by
  show (theState >>= fun s => orRaise (s.stream? a) (.contractViolation .badSlot)) s = _
  rw [eng_bind, theState_apply]
  show orRaise (s.stream? a) _ s = _
  rw [orRaise_apply]
  cases s.stream? a <;> rfl

theorem slotOperand_bind {α : Type} (a : Word) (k : Stream → Eng State α) (s : State) :
    (slotOperand a >>= k) s = match s.stream? a with
      | some st => k st s
      | none => .error (.raise (.contractViolation .badSlot)) s := by
  rw [eng_bind, slotOperand_apply]
  cases s.stream? a <;> rfl

theorem onSlot_apply {α : Type} (i : Nat) (st : Stream) (m : Reader α) (s : State) :
    onSlot i st m s = match m { coder := st.coder, source := s.source } with
      | .ok a r => .ok a ((s.setSource r.source).setSlot i (some { st with coder := r.coder }))
      | .error e r => .error e ((s.setSource r.source).setSlot i (some { st with coder := r.coder })) := by
  unfold onSlot
  rw [onPart_apply]
  cases m { coder := st.coder, source := s.source } <;> rfl

theorem onSlot_bind {α β : Type} (i : Nat) (st : Stream) (m : Reader β) (k : β → Eng State α) (s : State) :
    (onSlot i st m >>= k) s = match m { coder := st.coder, source := s.source } with
      | .ok a r => k a ((s.setSource r.source).setSlot i (some { st with coder := r.coder }))
      | .error e r => .error e ((s.setSource r.source).setSlot i (some { st with coder := r.coder })) := by
  rw [eng_bind, onSlot_apply]
  cases m { coder := st.coder, source := s.source } <;> rfl

theorem esInitBody_eq (s : State) :
    esInitBody s =
      if isSlot s.latched.args.arg0 = true then
        if s.latched.args.arg1 ≠ 0#32 ∧ s.latched.args.arg1.toNat ≤ Config.maxContexts ∧
            zeroFrom s.latched.args.arg2 1 = true then
          match readEntropyStream s.latched.args.arg1.toNat (flagBit s.latched.args.arg2 0) s.source with
          | .ok cfg b =>
            .ok { r0 := some (Word.ofNat cfg.coding.numClusters) }
              ((s.setSource b).setSlot s.latched.args.arg0.toNat (some { config := cfg, coder := {} }))
          | .error e b => .error e (s.setSource b)
        else .error (.raise (.contractViolation .badArg)) s
      else .error (.raise (.contractViolation .badSlot)) s := by
  unfold esInitBody
  simp only [latchedArgs_bind, checkContract_bind, onSource_bind]
  split
  · split
    · cases readEntropyStream s.latched.args.arg1.toNat (flagBit s.latched.args.arg2 0) s.source <;> rfl
    · rfl
  · rfl

theorem esReadBody_eq (s : State) :
    esReadBody s =
      match s.stream? s.latched.args.arg0 with
      | none => .error (.raise (.contractViolation .badSlot)) s
      | some st =>
        if s.latched.args.arg1.toNat < st.config.readableContexts then
          match readSymbol st.config s.latched.args.arg1.toNat s.latched.args.arg2.toNat
              { coder := st.coder, source := s.source } with
          | .ok v r =>
            .ok { r0 := some (Word.ofNat v) }
              ((s.setSource r.source).setSlot s.latched.args.arg0.toNat (some { st with coder := r.coder }))
          | .error e r =>
            .error e ((s.setSource r.source).setSlot s.latched.args.arg0.toNat (some { st with coder := r.coder }))
        else .error (.raise (.contractViolation .badArg)) s := by
  unfold esReadBody
  simp only [latchedArgs_bind, slotOperand_bind]
  cases s.stream? s.latched.args.arg0 with
  | none => rfl
  | some st =>
    simp only [checkContract_bind, onSlot_bind]
    split
    · cases readSymbol st.config s.latched.args.arg1.toNat s.latched.args.arg2.toNat
        { coder := st.coder, source := s.source } <;> rfl
    · rfl

theorem validateFinal_apply {σ : Type} (cfg : StreamConfig) (c : Coder) (s : σ) :
    validateFinal cfg c s =
      if cfg.coding.usePrefixCode = true ∨
          (if c.hasState = true then c.ansState = Config.ansTerminal else Config.unprimedFinalOk = true) then
        .ok () s
      else .error (.raise (.invalidBitstream .ansFinalState)) s := by
  unfold validateFinal
  by_cases hp : cfg.coding.usePrefixCode = true
  · simp [hp]
  · by_cases hs : c.hasState = true
    · simp [hp, hs]
    · simp [hp, hs]

theorem esValidateBody_eq (s : State) :
    esValidateBody s =
      match s.stream? s.latched.args.arg0 with
      | none => .error (.raise (.contractViolation .badSlot)) s
      | some st =>
        if st.config.coding.usePrefixCode = true ∨
            (if st.coder.hasState = true then st.coder.ansState = Config.ansTerminal
              else Config.unprimedFinalOk = true) then
          .ok {} s
        else .error (.raise (.invalidBitstream .ansFinalState)) s := by
  unfold esValidateBody
  simp only [latchedArgs_bind, slotOperand_bind]
  cases s.stream? s.latched.args.arg0 with
  | none => rfl
  | some st =>
    simp only [eng_bind, validateFinal_apply]
    by_cases h : st.config.coding.usePrefixCode = true ∨
      (if st.coder.hasState = true then st.coder.ansState = Config.ansTerminal else Config.unprimedFinalOk = true)
    · rw [if_pos h, if_pos h]; rfl
    · rw [if_neg h, if_neg h]

theorem esCloneBody_eq (s : State) :
    esCloneBody s =
      if isSlot s.latched.args.arg1 = true then
        match s.stream? s.latched.args.arg0 with
        | none => .error (.raise (.contractViolation .badSlot)) s
        | some st => .ok {} (s.setSlot s.latched.args.arg1.toNat (some { config := st.config, coder := {} }))
      else .error (.raise (.contractViolation .badSlot)) s := by
  unfold esCloneBody
  simp only [latchedArgs_bind, slotOperand_bind, checkContract_bind]
  split
  · cases s.stream? s.latched.args.arg0 <;> rfl
  · rfl

theorem esFreeBody_eq (s : State) :
    esFreeBody s =
      if isSlot s.latched.args.arg0 = true then .ok {} (s.setSlot s.latched.args.arg0.toNat none)
      else .error (.raise (.contractViolation .badSlot)) s := by
  unfold esFreeBody
  simp only [latchedArgs_bind, checkContract_bind]
  split <;> rfl

/-! ## Trees (`43_ma_tree.md`) -/

theorem treeOperand_apply (a : Word) (s : State) :
    treeOperand a s = match s.tree? a with
      | some nodes => .ok nodes s
      | none => .error (.raise (.contractViolation .badArg)) s := by
  show (theState >>= fun s => orRaise (s.tree? a) (.contractViolation .badArg)) s = _
  rw [eng_bind, theState_apply]
  show orRaise (s.tree? a) _ s = _
  rw [orRaise_apply]
  cases s.tree? a <;> rfl

theorem treeOperand_bind {α : Type} (a : Word) (k : List Node → Eng State α) (s : State) :
    (treeOperand a >>= k) s = match s.tree? a with
      | some nodes => k nodes s
      | none => .error (.raise (.contractViolation .badArg)) s := by
  rw [eng_bind, treeOperand_apply]
  cases s.tree? a <;> rfl

theorem channelOperand_apply (a : Word) (s : State) :
    channelOperand a s = match s.channels[a.toNat]? with
      | some ch => .ok ch s
      | none => .error (.raise (.contractViolation .badArg)) s := by
  show (theState >>= fun s => orRaise s.channels[a.toNat]? (.contractViolation .badArg)) s = _
  rw [eng_bind, theState_apply]
  show orRaise s.channels[a.toNat]? _ s = _
  rw [orRaise_apply]
  cases s.channels[a.toNat]? <;> rfl

theorem channelOperand_bind {α : Type} (a : Word) (k : Channel → Eng State α) (s : State) :
    (channelOperand a >>= k) s = match s.channels[a.toNat]? with
      | some ch => k ch s
      | none => .error (.raise (.contractViolation .badArg)) s := by
  rw [eng_bind, channelOperand_apply]
  cases s.channels[a.toNat]? <;> rfl

theorem treeLoadBody_eq (s : State) :
    treeLoadBody s =
      if isTree s.latched.args.arg0 = true then
        if isSlot s.latched.args.arg1 = true then
          match readTree s.source with
          | .error e b => .error e (s.setSource b)
          | .ok t b =>
            match readEntropyStream t.2 false b with
            | .error e b' => .error e (s.setSource b')
            | .ok data b' =>
              .ok { r0 := some (Word.ofNat t.1.length), r1 := some (Word.ofNat t.2) }
                (((s.setSource b').setTree s.latched.args.arg0.toNat t.1).setSlot s.latched.args.arg1.toNat
                  (some { config := data, coder := {} }))
        else .error (.raise (.contractViolation .badSlot)) s
      else .error (.raise (.contractViolation .badArg)) s := by
  unfold treeLoadBody
  simp only [latchedArgs_bind, checkContract_bind, onSource_bind]
  split
  · split
    · cases readTree s.source with
      | error e b => rfl
      | ok t b =>
        simp only [State.setSource_source]
        cases readEntropyStream t.2 false b <;> rfl
    · rfl
  · rfl

/-- The properties `TREE_COMPACT` fixes (R280). -/
def compactFix (a : Args) : Frozen where
  channel := a.arg1.toNat
  stream := a.arg2.toNat
  row := if flagBit a.arg3 0 then some a.arg4.toNat else none

theorem treeCompactBody_eq (s : State) :
    treeCompactBody s =
      match s.tree? s.latched.args.arg0 with
      | none => .error (.raise (.contractViolation .badArg)) s
      | some nodes =>
        if zeroFrom s.latched.args.arg3 1 = true then
          match compactify nodes (compactFix s.latched.args) with
          | none => .error (.broken .danglingNode) s
          | some r => .ok {
              r0 := some (Word.ofNat r.size)
              r1 := some (usesWpFlags (r.anyLeaf fun l => l.predictor == .weighted) (r.anyDecision fun k => k == 15)) } s
        else .error (.raise (.contractViolation .badArg)) s := by
  unfold treeCompactBody
  simp only [latchedArgs_bind, treeOperand_bind]
  cases s.tree? s.latched.args.arg0 with
  | none => rfl
  | some nodes =>
    simp only [checkContract_bind]
    split
    · simp only [orBroken_bind, compactFix]
      split
      · rename_i hc; rw [hc]; rfl
      · rename_i hc; rw [hc]
    · rfl

/-- The properties a `TREE_WALK` reads (R286). -/
def walkProperty (s : State) (ch : Channel) : Nat → Except Stop Int :=
  property (propertyContext s s.latched.args.arg1.toNat ch) (.error (.raise (.contractViolation .wpProperty)))
    s.latched.args.arg2.toNat s.latched.args.arg3.toNat

theorem treeWalkBody_eq (s : State) :
    treeWalkBody s =
      match s.tree? s.latched.args.arg0 with
      | none => .error (.raise (.contractViolation .badArg)) s
      | some nodes =>
        match s.channels[s.latched.args.arg1.toNat]? with
        | none => .error (.raise (.contractViolation .badArg)) s
        | some ch =>
          if s.latched.args.arg2.toNat < ch.width ∧ s.latched.args.arg3.toNat < ch.height then
            match walk nodes (walkProperty s ch) nodes.length 0 with
            | .error e => .error e s
            | .ok n => .ok {
                r0 := some (Word.ofNat n.1)
                r1 := some (Word.ofNat n.2.context)
                r2 := some (Word.ofNat n.2.predictor.id) } s
          else .error (.raise (.contractViolation .badArg)) s := by
  unfold treeWalkBody
  simp only [latchedArgs_bind, treeOperand_bind]
  cases s.tree? s.latched.args.arg0 with
  | none => rfl
  | some nodes =>
    simp only [channelOperand_bind]
    cases s.channels[s.latched.args.arg1.toNat]? with
    | none => rfl
    | some ch =>
      simp only [checkContract_bind]
      split
      · simp only [theState_bind, ofExcept_bind, walkProperty]
        split
        · rename_i hw; rw [hw]; rfl
        · rename_i hw; rw [hw]
      · rfl

/-! ## Channels (`44_channel_decoder.md`, `46_control.md`) -/

theorem chlClearBody_eq (s : State) :
    chlClearBody s = .ok {} (((s.setChannels []).setTransforms []).setNbMeta 0) := rfl

theorem chlAppendBody_eq (s : State) :
    chlAppendBody s =
      if s.latched.args.arg0.toNat ≤ Config.maxDimension ∧ s.latched.args.arg1.toNat ≤ Config.maxDimension then
        if s.channels.length < Config.maxChannels then
          if totalArea s.channels + (appendedChannel s.latched.args).area ≤ Config.arenaCapacity then
            .ok { r0 := some (Word.ofNat s.channels.length) }
              (s.setChannels (s.channels ++ [appendedChannel s.latched.args]))
          else .error (.raise .resourceExhausted) s
        else .error (.raise .resourceExhausted) s
      else .error (.raise (.contractViolation .badArg)) s := by
  unfold chlAppendBody
  simp only [latchedArgs_bind, checkContract_bind]
  split
  · simp only [theState_bind, require_bind]
    split
    · split <;> rfl
    · rfl
  · rfl

theorem chReadBody_eq (s : State) :
    chReadBody s =
      match s.channels[s.latched.args.arg0.toNat]? with
      | none => .error (.raise (.contractViolation .badArg)) s
      | some ch =>
        if s.latched.args.arg1.toNat < ch.width ∧ s.latched.args.arg2.toNat < ch.height then
          match ch.sample s.latched.args.arg1.toNat s.latched.args.arg2.toNat with
          | none => .error (.raise (.contractViolation .undefinedSample)) s
          | some v => .ok { r0 := some v } s
        else .error (.raise (.contractViolation .badArg)) s := by
  unfold chReadBody
  simp only [latchedArgs_bind, channelOperand_bind]
  cases s.channels[s.latched.args.arg0.toNat]? with
  | none => rfl
  | some ch =>
    simp only [checkContract_bind]
    split
    · simp only [orRaise_bind]
      cases ch.sample s.latched.args.arg1.toNat s.latched.args.arg2.toNat <;> rfl
    · rfl

theorem chWriteBody_eq (s : State) :
    chWriteBody s =
      match s.channels[s.latched.args.arg0.toNat]? with
      | none => .error (.raise (.contractViolation .badArg)) s
      | some ch =>
        if s.latched.args.arg1.toNat < ch.width ∧ s.latched.args.arg2.toNat < ch.height then
          .ok {} (s.setChannel s.latched.args.arg0.toNat { ch with
            samples := Memory.write ch.samples
              (s.latched.args.arg2.toNat * ch.width + s.latched.args.arg1.toNat) s.latched.args.arg3 })
        else .error (.raise (.contractViolation .badArg)) s := by
  unfold chWriteBody
  simp only [latchedArgs_bind, channelOperand_bind]
  cases s.channels[s.latched.args.arg0.toNat]? with
  | none => rfl
  | some ch =>
    simp only [checkContract_bind]
    split <;> rfl

theorem chInfoBody_eq (s : State) :
    chInfoBody s =
      match s.channels[s.latched.args.arg0.toNat]? with
      | none => .error (.raise (.contractViolation .badArg)) s
      | some ch => .ok {
          r0 := some (Word.ofNat ch.width)
          r1 := some (Word.ofNat ch.height)
          r2 := some (channelFlags ch (s.latched.args.arg0.toNat < s.nbMeta)) } s := by
  unfold chInfoBody
  simp only [latchedArgs_bind, channelOperand_bind]
  cases s.channels[s.latched.args.arg0.toNat]? <;> rfl

/-- What `CH_DECODE` decodes a channel with (R340). -/
def decodeJob (s : State) (c : Nat) (ch : Channel) (t : RTree) (st : Stream) : DecodeJob where
  tree := t
  config := st.config
  width := ch.width
  channel := c
  streamId := s.latched.streamId.toNat
  refs := refChannels s.channels c ch
  distMult := s.latched.distMult.toNat
  params := wpParams s.latched

theorem onPixels_apply (i c : Nat) (st : Stream) (ch : Channel) (m : Eng PixelState Unit) (s : State) :
    onPixels i c st ch m s =
      match m { reading := { coder := st.coder, source := s.source }, samples := ch.samples, wp := {} } with
      | .ok a p => .ok a
          (((s.setSource p.reading.source).setSlot i (some { st with coder := p.reading.coder })).setChannel c
            { ch with samples := p.samples })
      | .error e p => .error e
          (((s.setSource p.reading.source).setSlot i (some { st with coder := p.reading.coder })).setChannel c
            { ch with samples := p.samples }) := by
  unfold onPixels
  rw [onPart_apply]
  cases m { reading := { coder := st.coder, source := s.source }, samples := ch.samples, wp := {} } <;> rfl

theorem onPixels_bind {α : Type} (i c : Nat) (st : Stream) (ch : Channel) (m : Eng PixelState Unit)
    (k : Unit → Eng State α) (s : State) :
    (onPixels i c st ch m >>= k) s =
      match m { reading := { coder := st.coder, source := s.source }, samples := ch.samples, wp := {} } with
      | .ok a p => k a
          (((s.setSource p.reading.source).setSlot i (some { st with coder := p.reading.coder })).setChannel c
            { ch with samples := p.samples })
      | .error e p => .error e
          (((s.setSource p.reading.source).setSlot i (some { st with coder := p.reading.coder })).setChannel c
            { ch with samples := p.samples }) := by
  rw [eng_bind, onPixels_apply]
  cases m { reading := { coder := st.coder, source := s.source }, samples := ch.samples, wp := {} } <;> rfl

theorem decodeChannel_eq (a : Args) (ch : Channel) (nodes : List Node) (st : Stream) (s : State) :
    decodeChannel a ch nodes st s =
      match compactify nodes { channel := a.arg0.toNat, stream := s.latched.streamId.toNat, row := none } with
      | none => .error (.broken .danglingNode) s
      | some t =>
        if contextsFit t st.config = true then
          if propertiesFit t (refChannels s.channels a.arg0.toNat ch).length = true then
            match decodePixels (decodeJob s a.arg0.toNat ch t st) ch.area 0
                { reading := { coder := st.coder, source := s.source }, samples := ch.samples, wp := {} } with
            | .ok _ p => .ok ()
                ((((s.setSource p.reading.source).setSlot a.arg2.toNat
                  (some { st with coder := p.reading.coder })).setChannel a.arg0.toNat
                  { ch with samples := p.samples }).markDecoded a.arg0.toNat)
            | .error e p => .error e
                (((s.setSource p.reading.source).setSlot a.arg2.toNat
                  (some { st with coder := p.reading.coder })).setChannel a.arg0.toNat { ch with samples := p.samples })
          else .error (.raise (.invalidBitstream .badProperty)) s
        else .error (.raise (.contractViolation .badArg)) s := by
  unfold decodeChannel
  simp only [theState_bind, orBroken_bind]
  cases compactify nodes { channel := a.arg0.toNat, stream := s.latched.streamId.toNat, row := none } with
  | none => rfl
  | some t =>
    simp only [checkContract_bind]
    split
    · simp only [checkBitstream_bind]
      split
      · simp only [onPixels_bind]
        show (match decodePixels (decodeJob s a.arg0.toNat ch t st) ch.area 0
            { reading := { coder := st.coder, source := s.source }, samples := ch.samples, wp := {} } with
          | .ok a p => _
          | .error e p => _) = _
        cases decodePixels (decodeJob s a.arg0.toNat ch t st) ch.area 0
          { reading := { coder := st.coder, source := s.source }, samples := ch.samples, wp := {} } <;> rfl
      · rfl
    · rfl

theorem chDecodeBody_eq (s : State) :
    chDecodeBody s =
      match s.channels[s.latched.args.arg0.toNat]? with
      | none => .error (.raise (.contractViolation .badArg)) s
      | some ch =>
        match s.tree? s.latched.args.arg1 with
        | none => .error (.raise (.contractViolation .badArg)) s
        | some nodes =>
          match s.stream? s.latched.args.arg2 with
          | none => .error (.raise (.contractViolation .badSlot)) s
          | some st =>
            if ch.decoded = false then
              if ch.area = 0 then .ok {} (s.markDecoded s.latched.args.arg0.toNat)
              else
                match decodeChannel s.latched.args ch nodes st s with
                | .ok _ t => .ok {} t
                | .error e t => .error e t
            else .error (.raise (.contractViolation .decodedTwice)) s := by
  unfold chDecodeBody
  simp only [latchedArgs_bind, channelOperand_bind]
  cases s.channels[s.latched.args.arg0.toNat]? with
  | none => rfl
  | some ch =>
    simp only [treeOperand_bind]
    cases s.tree? s.latched.args.arg1 with
    | none => rfl
    | some nodes =>
      simp only [slotOperand_bind]
      cases s.stream? s.latched.args.arg2 with
      | none => rfl
      | some st =>
        simp only [checkContract_bind]
        split
        · split
          · rfl
          · rw [eng_bind]
            cases decodeChannel s.latched.args ch nodes st s <;> rfl
        · rfl

/-! ## Transforms (`45_transforms.md`) -/

theorem xfPushRctBody_eq (s : State) :
    xfPushRctBody s =
      if s.latched.args.arg1.toNat < 42 then
        if s.latched.args.arg0.toNat + 3 ≤ s.channels.length then
          if allSameShape ((s.channels.drop s.latched.args.arg0.toNat).take 3) = true then
            .ok {} (s.pushTransform s.nbMeta (.rct s.latched.args.arg0.toNat s.latched.args.arg1.toNat))
          else .error (.raise (.invalidBitstream .rctShape)) s
        else .error (.raise (.invalidBitstream .badTransform)) s
      else .error (.raise (.invalidBitstream .badTransform)) s := by
  unfold xfPushRctBody
  simp only [latchedArgs_bind, theState_bind, checkBitstream_bind]
  split
  · split
    · split <;> rfl
    · rfl
  · rfl

/-- What a legal palette push leaves (R380). -/
def afterPalettePush (s : State) (a : Args) (q : Predictor) : State :=
  ((s.setChannels (palettedList s.channels a.arg0.toNat a.arg1.toNat a.arg2.toNat q)).setNbMeta
    (palettedMeta s.nbMeta a.arg0.toNat a.arg1.toNat)).pushTransform s.nbMeta
      (.palette a.arg0.toNat a.arg1.toNat a.arg2.toNat a.arg3.toNat q)

theorem xfPushPaletteBody_eq (s : State) :
    xfPushPaletteBody s =
      if s.latched.args.arg1.toNat ≠ 0 ∧
          s.latched.args.arg0.toNat + s.latched.args.arg1.toNat ≤ s.channels.length then
        match predictorOfId? s.latched.args.arg4.toNat with
        | none => .error (.raise (.invalidBitstream .badTransform)) s
        | some q =>
          if allSameShape ((s.channels.drop s.latched.args.arg0.toNat).take s.latched.args.arg1.toNat) = true then
            if s.latched.args.arg0.toNat < s.nbMeta →
                s.latched.args.arg0.toNat + s.latched.args.arg1.toNat ≤ s.nbMeta then
              if fitsArena (palettedList s.channels s.latched.args.arg0.toNat s.latched.args.arg1.toNat
                  s.latched.args.arg2.toNat q) = true then
                .ok {} (afterPalettePush s s.latched.args q)
              else .error (.raise .resourceExhausted) s
            else .error (.raise (.invalidBitstream .badTransform)) s
          else .error (.raise (.invalidBitstream .paletteShape)) s
      else .error (.raise (.invalidBitstream .badTransform)) s := by
  unfold xfPushPaletteBody
  simp only [latchedArgs_bind, theState_bind, checkBitstream_bind]
  split
  · simp only [orRaise_bind]
    cases predictorOfId? s.latched.args.arg4.toNat with
    | none => rfl
    | some q =>
      simp only [checkBitstream_bind]
      split
      · split
        · simp only [require_bind]
          split <;> rfl
        · rfl
      · rfl
  · rfl

/-- Where the residuals of a squeeze push go (R375). -/
def squeezePos (s : State) (a : Args) : Nat :=
  if flagBit a.arg2 1 = true then a.arg0.toNat + a.arg1.toNat else s.channels.length

/-- The channel list after a squeeze push (R375). -/
def afterSqueezeList (s : State) (a : Args) : List Channel :=
  squeezedList s.channels a.arg0.toNat a.arg1.toNat (flagBit a.arg2 0) (squeezePos s a)

/-- What a legal squeeze push leaves (R375). -/
def afterSqueezePush (s : State) (a : Args) : State :=
  ((s.setChannels (afterSqueezeList s a)).setNbMeta
    (if a.arg0.toNat < s.nbMeta then s.nbMeta + a.arg1.toNat else s.nbMeta)).pushTransform s.nbMeta
      (.squeeze a.arg0.toNat a.arg1.toNat (flagBit a.arg2 0) (flagBit a.arg2 1) (squeezePos s a))

theorem xfPushSqueezeBody_eq (s : State) :
    xfPushSqueezeBody s =
      if zeroFrom s.latched.args.arg2 2 = true then
        if s.latched.args.arg1.toNat ≠ 0 ∧
            s.latched.args.arg0.toNat + s.latched.args.arg1.toNat ≤ s.channels.length then
          if s.latched.args.arg0.toNat < s.nbMeta →
              s.latched.args.arg0.toNat + s.latched.args.arg1.toNat ≤ s.nbMeta ∧
                flagBit s.latched.args.arg2 1 = true then
            if ((s.channels.drop s.latched.args.arg0.toNat).take s.latched.args.arg1.toNat).all squeezable = true then
              if fitsArena (afterSqueezeList s s.latched.args) = true then
                .ok {} (afterSqueezePush s s.latched.args)
              else .error (.raise .resourceExhausted) s
            else .error (.raise (.invalidBitstream .badTransform)) s
          else .error (.raise (.invalidBitstream .badTransform)) s
        else .error (.raise (.invalidBitstream .badTransform)) s
      else .error (.raise (.contractViolation .badArg)) s := by
  unfold xfPushSqueezeBody
  simp only [latchedArgs_bind, theState_bind, checkContract_bind, checkBitstream_bind, require_bind]
  split
  · split
    · split
      · split
        · by_cases h : fitsArena (afterSqueezeList s s.latched.args) = true
          · rw [if_pos h]; exact (if_pos h).trans rfl
          · rw [if_neg h]; exact if_neg h
        · rfl
      · rfl
    · rfl
  · rfl

theorem allOrExhausted_apply (m : Eng State Unit) (s : State) :
    allOrExhausted m s = match m s with
      | .ok a t => .ok a t
      | .error (.raise .resourceExhausted) _ => .error (.raise .resourceExhausted) s
      | .error e t => .error e t := rfl

theorem xfApplyBody_eq (s : State) :
    xfApplyBody s =
      match undoTransforms s.transforms.reverse s with
      | .ok _ t => .ok {} t
      | .error (.raise .resourceExhausted) _ => .error (.raise .resourceExhausted) s
      | .error e t => .error e t := by
  unfold xfApplyBody
  rw [theState_bind, eng_bind, allOrExhausted_apply]
  cases undoTransforms s.transforms.reverse s with
  | ok _ t => rfl
  | error e t =>
    cases e with
    | broken f => rfl
    | raise f => cases f <;> rfl

end Sys2Proof.Machine
end

