-- ==== Sys2Proof/Laws/Channel.lean ====
section
/-! SUPPORT. What decoding a channel and undoing a transform can do: the pixel loops stop only with a fault of the
block, keep the samples inside the record and in canonical form, and consume bits in order. -/

namespace Sys2Proof.Machine

/-! ## Computations over samples stop with a fault of the block -/

/-- A computation that changes nothing stops, if it does, with a fault of the block. -/
def Raises {α : Type} (x : Except Stop α) : Prop := ∀ e, x = .error e → e.IsRaise

theorem Raises.ok {α : Type} (a : α) : Raises (.ok a : Except Stop α) := by intro e h; cases h

theorem Raises.pure {α : Type} (a : α) : Raises (Pure.pure a : Except Stop α) := Raises.ok a

theorem Raises.bind {α β : Type} {x : Except Stop α} {f : α → Except Stop β} (h : Raises x) (hf : ∀ a, Raises (f a)) :
    Raises (x >>= f) := by
  cases x with
  | ok a => exact hf a
  | error e =>
    intro e' h'
    have h'' : (Except.error e : Except Stop β) = .error e' := h'
    cases h''
    exact h e rfl

theorem Raises.ite {α : Type} {c : Prop} [Decidable c] {x y : Except Stop α} (hx : Raises x) (hy : Raises y) :
    Raises (if c then x else y) := by
  split
  · exact hx
  · exact hy

theorem sampleAt_raises (w : Nat) (m : Memory) (x y : Nat) : Raises (sampleAt w m x y) := by
  unfold sampleAt
  split
  · exact Raises.ok _
  · intro e h; cases h; exact ⟨_, rfl⟩

theorem Plane.W_raises (p : Plane) (x y : Nat) : Raises (p.W x y) :=
  Raises.ite (sampleAt_raises _ _ _ _) (Raises.ite (sampleAt_raises _ _ _ _) (Raises.ok _))

theorem Plane.N_raises (p : Plane) (x y : Nat) : Raises (p.N x y) :=
  Raises.ite (sampleAt_raises _ _ _ _) (p.W_raises x y)

theorem Plane.NW_raises (p : Plane) (x y : Nat) : Raises (p.NW x y) :=
  Raises.ite (sampleAt_raises _ _ _ _) (p.W_raises x y)

theorem Plane.NE_raises (p : Plane) (x y : Nat) : Raises (p.NE x y) :=
  Raises.ite (sampleAt_raises _ _ _ _) (p.N_raises x y)

theorem Plane.WW_raises (p : Plane) (x y : Nat) : Raises (p.WW x y) :=
  Raises.ite (sampleAt_raises _ _ _ _) (p.W_raises x y)

theorem Plane.NN_raises (p : Plane) (x y : Nat) : Raises (p.NN x y) :=
  Raises.ite (sampleAt_raises _ _ _ _) (p.N_raises x y)

theorem Plane.NEE_raises (p : Plane) (x y : Nat) : Raises (p.NEE x y) :=
  Raises.ite (sampleAt_raises _ _ _ _) (p.NE_raises x y)

theorem predict_raises (q : Predictor) (p : Plane) (x y : Nat) (wp : Int) : Raises (predict q p x y wp) := by
  cases q <;> unfold predict <;>
    repeat first
      | exact Raises.pure _
      | exact Raises.ok _
      | exact p.W_raises _ _
      | exact p.N_raises _ _
      | exact p.NW_raises _ _
      | exact p.NE_raises _ _
      | exact p.WW_raises _ _
      | exact p.NN_raises _ _
      | exact p.NEE_raises _ _
      | refine Raises.bind ?_ fun _ => ?_

theorem wpPredict_raises (q : WpParams) (st : WpState) (p : Plane) (x y : Nat) : Raises (wpPredict q st p x y) :=
  Raises.bind (p.N_raises _ _) fun _ => Raises.bind (p.W_raises _ _) fun _ => Raises.bind (p.NE_raises _ _) fun _ =>
    Raises.bind (p.NW_raises _ _) fun _ => Raises.bind (p.NN_raises _ _) fun _ => Raises.pure _

theorem crossProperty_raises (t : Plane) (r x y : Nat) : Raises (crossProperty t r x y) := by
  refine Raises.bind (sampleAt_raises _ _ _ _) fun _ => Raises.bind (Raises.ite (sampleAt_raises _ _ _ _) (Raises.ok _))
    fun _ => Raises.bind (Raises.ite (sampleAt_raises _ _ _ _) (Raises.ok _)) fun _ =>
      Raises.bind (Raises.ite (sampleAt_raises _ _ _ _) (Raises.ok _)) fun _ => Raises.pure _

theorem gradientProperty_raises (p : Plane) (x y : Nat) : Raises (gradientProperty p x y) :=
  Raises.bind (p.W_raises _ _) fun _ => Raises.bind (p.N_raises _ _) fun _ => Raises.bind (p.NW_raises _ _) fun _ =>
    Raises.pure _

theorem property_raises {ctx : PropertyContext} {maxErr : Except Stop Int} (h : Raises maxErr) (x y k : Nat) :
    Raises (property ctx maxErr x y k) := by
  unfold property
  split
  all_goals first
    | exact Raises.ok _
    | exact h
    | exact ctx.plane.N_raises _ _
    | exact ctx.plane.W_raises _ _
    | exact gradientProperty_raises _ _ _
    | skip
  · exact Raises.bind (ctx.plane.N_raises _ _) fun _ => Raises.pure _
  · exact Raises.bind (ctx.plane.W_raises _ _) fun _ => Raises.pure _
  · exact Raises.bind (ctx.plane.W_raises _ _) fun _ => Raises.ite
      (Raises.bind (gradientProperty_raises _ _ _) fun _ => Raises.pure _) (Raises.pure _)
  · exact Raises.bind (ctx.plane.W_raises _ _) fun _ => Raises.bind (ctx.plane.NW_raises _ _) fun _ => Raises.pure _
  · exact Raises.bind (ctx.plane.NW_raises _ _) fun _ => Raises.bind (ctx.plane.N_raises _ _) fun _ => Raises.pure _
  · exact Raises.bind (ctx.plane.N_raises _ _) fun _ => Raises.bind (ctx.plane.NE_raises _ _) fun _ => Raises.pure _
  · exact Raises.bind (ctx.plane.N_raises _ _) fun _ => Raises.bind (ctx.plane.NN_raises _ _) fun _ => Raises.pure _
  · exact Raises.bind (ctx.plane.W_raises _ _) fun _ => Raises.bind (ctx.plane.WW_raises _ _) fun _ => Raises.pure _
  · split
    · exact crossProperty_raises _ _ _ _
    · intro e he; cases he; exact ⟨_, rfl⟩

theorem paletteValue_raises (pal : Channel) (P : Nat) (idx : Int) (k bd : Nat) : Raises (paletteValue pal P idx k bd) := by
  unfold paletteValue
  exact Raises.ite (Raises.ok _) (Raises.ite (sampleAt_raises _ _ _ _) (Raises.ite (Raises.ok _)
    (Raises.ite (Raises.ok _) (Raises.ok _))))

theorem readLine_raises {f : Nat → Except Stop Int} (h : ∀ i, Raises (f i)) : ∀ n i, Raises (readLine f n i)
  | 0, _ => Raises.ok _
  | n + 1, i => Raises.bind (h i) fun _ => Raises.bind (readLine_raises h n (i + 1)) fun _ => Raises.pure _

theorem unsqueezeLines_raises {avg res : Nat → Nat → Except Stop Int} (ha : ∀ i j, Raises (avg i j))
    (hr : ∀ i j, Raises (res i j)) (na nr : Nat) : ∀ lines i, Raises (unsqueezeLines avg res na nr lines i)
  | 0, _ => Raises.ok _
  | lines + 1, i => Raises.bind (readLine_raises (ha i) na 0) fun _ => Raises.bind (readLine_raises (hr i) nr 0) fun _ =>
      Raises.bind (unsqueezeLines_raises ha hr na nr lines (i + 1)) fun _ => Raises.pure _

/-! ## Decoding pixels (`44_channel_decoder.md` R340) -/

/-- Samples in canonical form, inside an area. -/
def SamplesIn (area : Nat) (m : Memory) : Prop := Memory.wf m ∧ ∀ e ∈ m, e.1 < area

theorem SamplesIn.write {area k : Nat} {m : Memory} (h : SamplesIn area m) (hk : k < area) (v : Word) :
    SamplesIn area (Memory.write m k v) := by
  refine ⟨Memory.wf_write h.1 k v, fun e he => ?_⟩
  rcases Memory.mem_write he with h' | h'
  · subst h'; exact hk
  · exact h.2 e h'

/-- What decoding pixels of a record of `area` samples changes. -/
def PixelsKept (area : Nat) (s t : PixelState) : Prop :=
  ReadingKept s.reading t.reading ∧ (SamplesIn area s.samples → SamplesIn area t.samples)

theorem kept_pixels (area : Nat) : Kept (PixelsKept area) :=
  ⟨fun _ => ⟨kept_reading.refl _, id⟩,
    fun _ _ _ h h' => ⟨kept_reading.trans _ _ _ h.1 h'.1, fun w => h'.2 (h.2 w)⟩⟩

/-- Position `p` of a record of width `w` is column `p % w` of row `p / w`. -/
theorem row_col (p w : Nat) : p / w * w + p % w = p := by rw [Nat.mul_comm]; exact Nat.div_add_mod p w

theorem decodePixel_keeps (j : DecodeJob) {area p : Nat} (hp : p < area) :
    Keeps (PixelsKept area) (decodePixel j (p % j.width) (p / j.width)) := by
  have k := kept_pixels area
  refine Keeps.bind k (fun s => k.refl s) fun st => Keeps.bind k (Keeps.ofExcept k) fun o =>
    Keeps.bind k (Keeps.ofExcept k) fun leaf => Keeps.bind k ?_ fun tok => Keeps.bind k (Keeps.ofExcept k) fun pr =>
      Keeps.bind k (Keeps.checkBitstream k) fun _ => ?_
  · exact Keeps.onPart (readSymbol_keeps _ _ _) fun s t h => ⟨h, id⟩
  · intro s
    refine ⟨kept_reading.refl _, fun h => ?_⟩
    show SamplesIn area (Memory.write s.samples _ _)
    rw [row_col]
    exact h.write hp _

theorem decodePixels_keeps (j : DecodeJob) (area : Nat) : ∀ left p, p + left ≤ area →
    Keeps (PixelsKept area) (decodePixels j left p)
  | 0, _, _ => Keeps.pure (kept_pixels area) _
  | left + 1, p, h => Keeps.bind (kept_pixels area) (decodePixel_keeps j (by omega)) fun _ =>
      decodePixels_keeps j area left (p + 1) (by omega)

/-- A job of a legal stream whose tree only asks for contexts the stream has. -/
def DecodeJob.Wf (j : DecodeJob) : Prop := StreamWf j.config ∧ contextsFit j.tree j.config = true

theorem decodePixel_runs {j : DecodeJob} (h : j.Wf) {area p : Nat} (hp : p < area) :
    Runs (PixelsKept area) (decodePixel j (p % j.width) (p / j.width)) fun _ => True := by
  have k := kept_pixels area
  refine Runs.bind k (Q := fun _ => True) (fun s => ⟨k.refl s, trivial⟩) fun st _ => ?_
  refine Runs.bind k (Runs.ofExcept k (Q := fun _ => True) (fun _ _ => trivial) (wpPredict_raises _ _ _ _ _)) fun o _ => ?_
  refine Runs.bind k (Q := fun leaf => leaf.2.context < j.config.readableContexts) (Runs.ofExcept k ?_ ?_) fun leaf hl => ?_
  · intro a ha
    rcases RTree.walk_cases (property _ _ _ _) (fun l => j.config.readableContexts ≤ l.context) j.tree with
      ⟨m, l, he, hq⟩ | ⟨kk, e, _, he⟩
    · rw [he] at ha; cases ha
      have h2 := h.2
      unfold contextsFit at h2
      by_contra hc
      rw [hq (by simpa using hc)] at h2
      simp at h2
    · rw [he] at ha; cases ha
  · intro e he
    rcases RTree.walk_cases (property _ _ _ _) (fun l => j.config.readableContexts ≤ l.context) j.tree with
      ⟨m, l, he', _⟩ | ⟨kk, e', hP, he'⟩
    · rw [he'] at he; cases he
    · rw [he'] at he; cases he
      exact property_raises (Raises.ok _) _ _ _ _ hP
  refine Runs.bind k (Q := fun _ => True) ?_ fun tok _ => ?_
  · refine (Runs.onPart (readSymbol_runs h.1 ?_ _) fun s t h => ⟨h, id⟩).mono fun _ _ => trivial
    unfold StreamConfig.readableContexts at hl; omega
  refine Runs.bind k (Runs.ofExcept k (Q := fun _ => True) (fun _ _ => trivial) (predict_raises _ _ _ _ _)) fun pr _ => ?_
  refine Runs.bind k (Runs.checkBitstream k) fun _ _ => ?_
  intro s
  refine ⟨⟨kept_reading.refl _, fun h => ?_⟩, trivial⟩
  show SamplesIn area (Memory.write s.samples _ _)
  rw [row_col]
  exact h.write hp _

/-- Decoding pixels of a legal job never stops the model. -/
theorem decodePixels_runs {j : DecodeJob} (h : j.Wf) (area : Nat) : ∀ left p, p + left ≤ area →
    Runs (PixelsKept area) (decodePixels j left p) fun _ => True
  | 0, _, _ => Runs.pure (kept_pixels area) trivial
  | left + 1, p, hp => Runs.bind (kept_pixels area) (decodePixel_runs h (by omega)) fun _ _ =>
      decodePixels_runs h area left (p + 1) (by omega)

/-! ## Undoing transforms: the pixel loops (`45_transforms.md` R370, R377, R378, R381) -/

/-- What an RCT over records of `area` samples changes. -/
def TripleKept (area : Nat) (s t : Triple) : Prop :=
  (SamplesIn area s.m0 → SamplesIn area t.m0) ∧ (SamplesIn area s.m1 → SamplesIn area t.m1) ∧
    (SamplesIn area s.m2 → SamplesIn area t.m2)

theorem kept_triple (area : Nat) : Kept (TripleKept area) :=
  ⟨fun _ => ⟨id, id, id⟩,
    fun _ _ _ h h' => ⟨fun w => h'.1 (h.1 w), fun w => h'.2.1 (h.2.1 w), fun w => h'.2.2 (h.2.2 w)⟩⟩

theorem rctPixel_runs (rctType w : Nat) {area p : Nat} (hp : p < area) :
    Runs (TripleKept area) (rctPixel rctType w (p % w) (p / w)) fun _ => True := by
  have k := kept_triple area
  have r := fun m => Runs.ofExcept k (Q := fun _ => True) (fun _ _ => trivial) (sampleAt_raises w m (p % w) (p / w))
  refine Runs.bind k (Q := fun _ => True) (fun s => ⟨k.refl s, trivial⟩) fun st _ => Runs.bind k (r _) fun a _ =>
    Runs.bind k (r _) fun b _ => Runs.bind k (r _) fun c _ => Runs.bind k (Runs.checkBitstream k) fun _ _ => ?_
  intro s
  refine ⟨⟨fun h => ?_, fun h => ?_, fun h => ?_⟩, trivial⟩ <;> (dsimp only; rw [row_col]; exact h.write hp _)

theorem rctPixels_runs (rctType w area : Nat) : ∀ left p, p + left ≤ area →
    Runs (TripleKept area) (rctPixels rctType w left p) fun _ => True
  | 0, _, _ => Runs.pure (kept_triple area) trivial
  | left + 1, p, hp => Runs.bind (kept_triple area) (rctPixel_runs rctType w (by omega)) fun _ _ =>
      rctPixels_runs rctType w area left (p + 1) (by omega)

/-- What inverting a palette changes in an output of `area` samples. -/
def PaletteKept (area : Nat) (s t : PaletteState) : Prop := SamplesIn area s.samples → SamplesIn area t.samples

theorem kept_palette (area : Nat) : Kept (PaletteKept area) := ⟨fun _ => id, fun _ _ _ h h' w => h' (h w)⟩

theorem palettePixel_runs (j : PaletteJob) (c : Nat) {area p : Nat} (hp : p < area) :
    Runs (PaletteKept area) (palettePixel j c (p % j.index.width) (p / j.index.width)) fun _ => True := by
  have k := kept_palette area
  refine Runs.bind k (Q := fun _ => True) (fun s => ⟨k.refl s, trivial⟩) fun st _ => Runs.bind k (Q := fun _ => True) ?_
    fun o _ => Runs.bind k (Runs.ofExcept k (Q := fun _ => True) (fun _ _ => trivial) (sampleAt_raises _ _ _ _))
      fun idx _ => Runs.bind k (Runs.ofExcept k (Q := fun _ => True) (fun _ _ => trivial) (paletteValue_raises _ _ _ _ _))
        fun base _ => Runs.bind k (Q := fun _ => True) ?_ fun pr _ => Runs.bind k (Runs.checkBitstream k) fun _ _ => ?_
  · split
    · exact Runs.ofExcept k (fun _ _ => trivial) (wpPredict_raises _ _ _ _ _)
    · exact Runs.pure k trivial
  · split
    · exact Runs.ofExcept k (fun _ _ => trivial) (predict_raises _ _ _ _ _)
    · exact Runs.pure k trivial
  · intro s
    refine ⟨fun h => ?_, trivial⟩
    show SamplesIn area (Memory.write s.samples _ _)
    rw [row_col]
    exact h.write hp _

theorem palettePixels_runs (j : PaletteJob) (c area : Nat) : ∀ left p, p + left ≤ area →
    Runs (PaletteKept area) (palettePixels j c left p) fun _ => True
  | 0, _, _ => Runs.pure (kept_palette area) trivial
  | left + 1, p, hp => Runs.bind (kept_palette area) (palettePixel_runs j c (by omega)) fun _ _ =>
      palettePixels_runs j c area left (p + 1) (by omega)

/-- The samples of a record made from its values are canonical. -/
theorem samplesOf_in (w h : Nat) (f : Nat → Nat → Int) : SamplesIn (w * h) (samplesOf w h f) := by
  refine ⟨?_, ?_⟩
  · unfold samplesOf tabulate Memory.wf
    rw [List.pairwise_map]
    exact List.pairwise_lt_range.imp fun h => h
  · intro e he
    unfold samplesOf tabulate at he
    simp only [List.mem_map, List.mem_range] at he
    obtain ⟨p, hp, rfl⟩ := he
    exact hp

/-- Reading a sample of a record made from its values. -/
theorem read_samplesOf {w h : Nat} (f : Nat → Nat → Int) {p : Nat} (hp : p < w * h) :
    Memory.read (samplesOf w h f) p = some (Word.ofInt (f (p % w) (p / w))) := by
  unfold samplesOf tabulate
  suffices H : ∀ n b, b ≤ p → p < b + n → Memory.read ((List.range' b n).map fun p => (p, Word.ofInt (f (p % w) (p / w)))) p =
      some (Word.ofInt (f (p % w) (p / w))) by
    rw [List.range_eq_range']; exact H _ 0 (by omega) (by omega)
  intro n
  induction n with
  | zero => intro b h1 h2; omega
  | succ n ih =>
    intro b h1 h2
    rw [List.range'_succ, List.map_cons, Memory.read_cons]
    by_cases hb : p = b
    · subst hb; simp
    · simp only [hb, if_false]; exact ih (b + 1) (by omega) (by omega)

end Sys2Proof.Machine
end

