-- ==== Sys2Proof/Laws/Header.lean ====
section
/-! SUPPORT. The parses from the encoder's side: how `Parses` and `Rejects` compose, and what the field readers read
(`20_memory.md` R83, `30_encoding.md` R110, R113, `40_hybrid_integer.md` R151). -/

namespace Sys2Proof.Machine

variable {α β : Type}

/-! ## Composition -/

theorem parses_pure (a : α) : Parses (pure a) [] a := fun _ _ => rfl

theorem Parses.bind {m : Parse α} {f : α → Parse β} {bits bits' : List Bool} {a : α} {b : β} (h : Parses m bits a)
    (h' : Parses (f a) bits' b) : Parses (m >>= f) (bits ++ bits') b := by
  intro rest pos
  rw [List.append_assoc, eng_bind_ok (h _ _), h' _ _, List.length_append, Nat.add_assoc]

/-- A parse followed by one that reads no bits. -/
theorem Parses.bind_nil {m : Parse α} {f : α → Parse β} {bits : List Bool} {a : α} {b : β} (h : Parses m bits a)
    (h' : Parses (f a) [] b) : Parses (m >>= f) bits b := by
  simpa using h.bind h'

theorem Parses.bind_rejects {m : Parse α} {f : α → Parse β} {bits bits' : List Bool} {a : α} {e : BlockFault}
    (h : Parses m bits a) (h' : Rejects (f a) bits' e) : Rejects (m >>= f) (bits ++ bits') e := by
  intro rest pos
  rw [List.append_assoc, eng_bind_ok (h _ _), h' _ _, List.length_append, Nat.add_assoc]

/-- A parse followed by a fault that reads no bits. -/
theorem Parses.bind_rejects_nil {m : Parse α} {f : α → Parse β} {bits : List Bool} {a : α} {e : BlockFault}
    (h : Parses m bits a) (h' : Rejects (f a) [] e) : Rejects (m >>= f) bits e := by
  simpa using h.bind_rejects h'

theorem Rejects.bind {m : Parse α} {f : α → Parse β} {bits : List Bool} {e : BlockFault} (h : Rejects m bits e) :
    Rejects (m >>= f) bits e := fun rest pos => eng_bind_error (h rest pos)

/-- A check that holds reads nothing. -/
theorem Parses.check {c : Prop} [Decidable c] {e : BitstreamError} {f : Unit → Parse β} {bits : List Bool} {b : β}
    (hc : c) (h : Parses (f ()) bits b) : Parses (checkBitstream c e >>= f) bits b := by
  intro rest pos
  rw [checkBitstream_bind, if_pos hc]; exact h _ _

theorem Rejects.check {c : Prop} [Decidable c] {e : BitstreamError} {f : Unit → Parse β} {bits : List Bool}
    {g : BlockFault} (hc : c) (h : Rejects (f ()) bits g) : Rejects (checkBitstream c e >>= f) bits g := by
  intro rest pos
  rw [checkBitstream_bind, if_pos hc]; exact h _ _

/-- A check that fails reads nothing. -/
theorem rejects_check {c : Prop} [Decidable c] {e : BitstreamError} {f : Unit → Parse β} (hc : ¬ c) :
    Rejects (checkBitstream c e >>= f) [] (.invalidBitstream e) := by
  intro rest pos
  rw [checkBitstream_bind, if_neg hc]; rfl

/-- Over the bits `bits`, whatever follows them, `m` goes on as `m'` does after them. -/
def Leads (m m' : Parse α) (bits : List Bool) : Prop :=
  ∀ rest pos, m { rest := bits ++ rest, pos := pos } = m' { rest := rest, pos := pos + bits.length }

theorem Leads.refl (m : Parse α) : Leads m m [] := fun _ _ => rfl

theorem Leads.trans {m m' m'' : Parse α} {bits bits' : List Bool} (h : Leads m m' bits) (h' : Leads m' m'' bits') :
    Leads m m'' (bits ++ bits') := by
  intro rest pos
  rw [List.append_assoc, h _ _, h' _ _, List.length_append, Nat.add_assoc]

theorem Leads.parses {m m' : Parse α} {bits bits' : List Bool} {a : α} (h : Leads m m' bits) (h' : Parses m' bits' a) :
    Parses m (bits ++ bits') a := by
  intro rest pos
  rw [List.append_assoc, h _ _, h' _ _, List.length_append, Nat.add_assoc]

theorem Leads.rejects {m m' : Parse α} {bits bits' : List Bool} {e : BlockFault} (h : Leads m m' bits)
    (h' : Rejects m' bits' e) : Rejects m (bits ++ bits') e := by
  intro rest pos
  rw [List.append_assoc, h _ _, h' _ _, List.length_append, Nat.add_assoc]

/-- After a parse that reads `bits`, the rest goes on with its value. -/
theorem Parses.leads {m : Parse α} {f : α → Parse β} {bits : List Bool} {a : α} (h : Parses m bits a) :
    Leads (m >>= f) (f a) bits := fun rest pos => eng_bind_ok (h rest pos)

/-- After a check that holds, the rest goes on. -/
theorem leads_check {c : Prop} [Decidable c] {e : BitstreamError} {f : Unit → Parse β} (hc : c) :
    Leads (checkBitstream c e >>= f) (f ()) [] := fun rest pos => by rw [checkBitstream_bind, if_pos hc]; rfl

theorem Parses.times {m : Parse β} {bits : α → List Bool} {g : α → β} : ∀ l : List α,
    (∀ a ∈ l, Parses m (bits a) (g a)) → Parses (times l.length m) (l.flatMap bits) (l.map g)
  | [], _ => parses_pure _
  | a :: l, h => (h a (by simp)).bind ((Parses.times l fun a' ha => h a' (by simp [ha])).bind_nil (parses_pure _))

/-- A parse repeated once for each element of a list, answering the list. -/
theorem Parses.times_id {m : Parse α} {bits : α → List Bool} (l : List α) (h : ∀ a ∈ l, Parses m (bits a) a) :
    Parses (Machine.times l.length m) (l.flatMap bits) l := by
  simpa using Parses.times (g := id) l h

theorem Parses.forAll {γ : Type} {f : α → Parse β} {i : γ → α} {bits : γ → List Bool} {g : γ → β} : ∀ l : List γ,
    (∀ a ∈ l, Parses (f (i a)) (bits a) (g a)) → Parses (forAll f (l.map i)) (l.flatMap bits) (l.map g)
  | [], _ => parses_pure _
  | a :: l, h => (h a (by simp)).bind ((Parses.forAll l fun a' ha => h a' (by simp [ha])).bind_nil (parses_pure _))

/-! ## Fields -/

theorem fieldBits_length (n v : Nat) : (fieldBits n v).length = n := by simp [fieldBits, tabulate]

theorem bitsToNat_fieldBits (n : Nat) : ∀ v, v < 2 ^ n → bitsToNat (fieldBits n v) = v := by
  unfold fieldBits tabulate
  induction n with
  | zero => intro v h; simp at h; simp [h, bitsToNat]
  | succ n ih =>
    intro v h
    rw [List.range_succ_eq_map, List.map_cons, List.map_map, bitsToNat]
    have : (List.range n).map (v.testBit ∘ Nat.succ) = (List.range n).map (v / 2).testBit := by
      congr 1; funext i; simp [Nat.testBit_succ]
    rw [this, ih (v / 2) (by rw [Nat.pow_succ] at h; omega), Nat.testBit_zero]
    rcases Nat.mod_two_eq_zero_or_one v with h | h <;> simp [h] <;> omega

/-- A field of `n` bits reads as the value it was written from. -/
theorem parses_readBits {n v : Nat} (h : v < 2 ^ n) : Parses (readBits n) (fieldBits n v) v := by
  intro rest pos
  rw [readBits_ok (by simp [fieldBits_length])]
  simp [fieldBits_length, bitsToNat_fieldBits n v h]

theorem parses_readBool (b : Bool) : Parses readBool [b] b := by
  intro rest pos
  cases b <;> rfl

theorem parses_readU32 {d0 d1 d2 d3 : Nat × Nat} {bits : List Bool} {v : Nat} (h : U32Bits [d0, d1, d2, d3] bits v) :
    Parses (readU32 d0 d1 d2 d3) bits v := by
  obtain ⟨sel, base, n, extra, hs, he, rfl, rfl⟩ := h
  have hlt : sel < 4 := by simpa using (List.getElem?_eq_some_iff.1 hs).1
  refine (parses_readBits (by omega)).bind ?_
  have hd : (if sel = 0 then d0 else if sel = 1 then d1 else if sel = 2 then d2 else d3) = (base, n) := by
    match sel, hs with
    | 0, h | 1, h | 2, h | 3, h => simpa using h
  simp only [hd]
  exact (parses_readBits he).bind_nil (parses_pure _)

theorem ceilLog2_eq (v : Nat) : ceilLog2 v = Nat.clog 2 v := by
  unfold ceilLog2 floorLog2
  split
  · rw [Nat.clog_of_right_le_one (by omega)]
  · rw [Nat.log2_eq_log_two]
    have hu : v - 1 < 2 ^ (Nat.log 2 (v - 1) + 1) := Nat.lt_pow_succ_log_self (by omega) _
    have hl : 2 ^ Nat.log 2 (v - 1) ≤ v - 1 := Nat.pow_log_le_self 2 (by omega)
    have hc : v ≤ 2 ^ Nat.clog 2 v := Nat.le_pow_clog (by omega) v
    refine Nat.le_antisymm ?_ (Nat.clog_le_of_le_pow (by omega))
    by_contra h
    have : 2 ^ Nat.clog 2 v ≤ 2 ^ Nat.log 2 (v - 1) := Nat.pow_le_pow_right (by omega) (by omega)
    omega

theorem lt_two_pow_clog {v n : Nat} (h : v ≤ n) : v < 2 ^ ceilLog2 (n + 1) := by
  rw [ceilLog2_eq]
  exact Nat.lt_of_lt_of_le (by omega) (Nat.le_pow_clog (by omega) (n + 1))

theorem bitLength_eq {v : Nat} (h : v ≠ 0) : bitLength v = Nat.log 2 v + 1 := by
  unfold bitLength floorLog2
  rw [if_neg h, Nat.log2_eq_log_two]

/-- `ReadHybridConfig` reads back what the encoder writes. -/
theorem parses_readHybridConfig {L : Nat} {c : HybridConfig} (h : c.Written L) :
    Parses (readHybridConfig L) (configBits L c) c := by
  obtain ⟨⟨h1, h2⟩, h3⟩ := h
  unfold readHybridConfig configBits
  rw [← ceilLog2_eq, ← ceilLog2_eq, ← ceilLog2_eq]
  refine (parses_readBits (lt_two_pow_clog h2)).bind (Parses.check h2 ?_)
  by_cases he : c.splitExponent = L
  · obtain ⟨hm, hl⟩ := h3 he
    rw [if_pos he, if_pos he]
    have : c = { splitExponent := c.splitExponent, msbInToken := 0, lsbInToken := 0 } := by
      cases c; simp_all
    rw [← this]
    exact parses_pure _
  · rw [if_neg he, if_neg he]
    refine (parses_readBits (lt_two_pow_clog (by omega))).bind (Parses.check (by omega) ?_)
    exact (parses_readBits (lt_two_pow_clog (by omega))).bind_nil (Parses.check h1 (parses_pure _))

/-- Every length of a code-length code reads back. -/
theorem parses_readClCode {v : Nat} (h : v ≤ 5) : Parses readClCode (clCodeBits v) v := by
  intro rest pos
  have hp : v = 0 ∨ v = 1 ∨ v = 2 ∨ v = 3 ∨ v = 4 ∨ v = 5 := by omega
  rcases hp with rfl | rfl | rfl | rfl | rfl | rfl <;>
    rcases rest with _ | ⟨_ | _, _ | ⟨_ | _, rest⟩⟩ <;> rfl

/-! ## LZ77 and cluster maps (`42_entropy_stream.md` R232 to R235) -/

theorem parses_readLz77_off (d : Bool) : Parses (readLz77 d) [false] none :=
  (parses_readBool false).bind_nil (parses_pure _)

theorem rejects_readLz77_nested : Rejects (readLz77 true) [true] (.invalidBitstream .nestedLz77) :=
  (parses_readBool true).bind_rejects_nil (rejects_check (by decide))

theorem parses_readLz77_on {symbolBits lengthBits : List Bool} {minSymbol minLength : Nat} {c : HybridConfig}
    (hs : U32Bits [(224, 0), (512, 0), (4096, 0), (8, 15)] symbolBits minSymbol)
    (hl : U32Bits [(3, 0), (4, 0), (5, 2), (9, 8)] lengthBits minLength) (hc : c.Written 8) :
    Parses (readLz77 false) (true :: symbolBits ++ lengthBits ++ configBits 8 c)
      (some { minSymbol := minSymbol, minLength := minLength, lengthConfig := c }) := by
  rw [show true :: symbolBits ++ lengthBits ++ configBits 8 c =
    [true] ++ (symbolBits ++ (lengthBits ++ configBits 8 c)) by simp]
  refine (parses_readBool true).bind (Parses.check rfl ?_)
  exact (parses_readU32 hs).bind ((parses_readU32 hl).bind ((parses_readHybridConfig hc).bind_nil (parses_pure _)))

theorem foldl_max_le_iff (l : List Nat) (a m : Nat) : l.foldl max a ≤ m ↔ a ≤ m ∧ ∀ x ∈ l, x ≤ m := by
  induction l generalizing a with
  | nil => simp
  | cons b l ih => rw [List.foldl_cons, ih]; simp [and_assoc]

theorem foldl_max_mem {l : List Nat} (h : l ≠ []) : l.foldl max 0 ∈ l := by
  have hle := ((foldl_max_le_iff l 0 _).1 (Nat.le_refl _)).2
  by_contra hn
  have hlt : ∀ x ∈ l, x < l.foldl max 0 := fun x hx =>
    Nat.lt_of_le_of_ne (hle x hx) fun e => hn (e ▸ hx)
  obtain ⟨x, hx⟩ := List.exists_mem_of_ne_nil l h
  have hx0 := hlt x hx
  have : l.foldl max 0 ≤ l.foldl max 0 - 1 :=
    (foldl_max_le_iff _ _ _).2 ⟨by omega, fun y hy => by have := hlt y hy; omega⟩
  omega

/-- `CheckClusterMap` on ids below 256: every id below one that occurs occurs. -/
theorem clusterMapOk_iff {map : List Nat} (hne : map ≠ []) (h : ∀ id ∈ map, id < 256) :
    clusterMapOk map = true ↔ ∀ id ∈ map, ∀ j < id, j ∈ map := by
  have hle := ((foldl_max_le_iff map 0 _).1 (Nat.le_refl _)).2
  have hmem := foldl_max_mem hne
  have hb := h _ hmem
  unfold clusterMapOk
  simp only [Bool.and_eq_true, decide_eq_true_eq, List.all_eq_true, List.mem_range, List.contains_eq_mem]
  constructor
  · rintro ⟨_, hall⟩ id hid j hj
    exact hall j (by have := hle id hid; omega)
  · intro hall
    refine ⟨by omega, fun j hj => ?_⟩
    by_cases e : j = map.foldl max 0
    · exact e ▸ hmem
    · exact hall _ hmem j (by omega)

/-- What `ReadClusterMap` does with more than one context. -/
theorem readClusterMap_eq {n : Nat} (h : n ≠ 1) : readClusterMap n = (do
    let simple ← readBool
    let map ← (if simple then readSimpleMap n else readNestedMap n)
    checkBitstream (clusterMapOk map = true) .badClusterMap
    pure map) := if_neg h

/-- A form of the cluster map, then its check. -/
theorem readClusterMap_form {simple : Bool} {bits : List Bool} {map : List Nat} {n : Nat} (hn : n ≠ 1) (hne : map ≠ [])
    (h : Parses (if simple then readSimpleMap n else readNestedMap n) bits map) (hid : ∀ id ∈ map, id < 256) :
    ((∀ id ∈ map, ∀ j < id, j ∈ map) → Parses (readClusterMap n) (simple :: bits) map) ∧
    (¬ (∀ id ∈ map, ∀ j < id, j ∈ map) →
      Rejects (readClusterMap n) (simple :: bits) (.invalidBitstream .badClusterMap)) := by
  rw [readClusterMap_eq hn, ← clusterMapOk_iff hne hid]
  exact ⟨fun hc => (parses_readBool simple).bind (h.bind_nil (Parses.check hc (parses_pure _))),
    fun hc => (parses_readBool simple).bind_rejects (h.bind_rejects_nil (rejects_check hc))⟩

theorem parses_readSimpleMap {nbits : Nat} {map : List Nat} (hn : nbits < 4) (hid : ∀ id ∈ map, id < 2 ^ nbits) :
    Parses (readSimpleMap map.length) (fieldBits 2 nbits ++ map.flatMap (fieldBits nbits)) map :=
  (parses_readBits (by omega)).bind (Parses.times_id map fun _ h => parses_readBits (hid _ h))

theorem inverseMtf_moveToFront (map : List Nat) : ∀ mtf, (∀ id ∈ map, id ∈ mtf) →
    inverseMtf mtf (moveToFront mtf map) = map := by
  induction map with
  | nil => intro mtf _; rfl
  | cons id map ih =>
    intro mtf h
    have hv : mtf.getD (mtf.idxOf id) 0 = id := by
      rw [List.getD_eq_getElem?_getD, List.getElem?_eq_getElem (List.idxOf_lt_length_iff.2 (h id (by simp)))]
      simp
    show mtf.getD (mtf.idxOf id) 0 :: inverseMtf (mtf.getD (mtf.idxOf id) 0 :: mtf.eraseIdx (mtf.idxOf id))
      (moveToFront (id :: mtf.erase id) map) = _
    rw [hv, ← List.erase_eq_eraseIdx_of_idxOf rfl, ih]
    intro x hx
    by_cases e : x = id
    · simp [e]
    · exact List.mem_cons_of_mem _ ((List.mem_erase_of_ne e).2 (h x (by simp [hx])))

theorem moveToFront_lt (map : List Nat) : ∀ mtf, (∀ id ∈ map, id ∈ mtf) → ∀ j ∈ moveToFront mtf map, j < mtf.length := by
  induction map with
  | nil => intro mtf _ j hj; cases hj
  | cons id map ih =>
    intro mtf h j hj
    have hm : id ∈ mtf := h id (by simp)
    rcases List.mem_cons.1 hj with rfl | hj
    · exact List.idxOf_lt_length_iff.2 hm
    · have := ih (id :: mtf.erase id) (fun x hx => by
        by_cases e : x = id
        · simp [e]
        · exact List.mem_cons_of_mem _ ((List.mem_erase_of_ne e).2 (h x (by simp [hx])))) j hj
      rw [List.length_cons, List.length_erase_of_mem hm] at this
      have := List.length_pos_of_mem hm
      omega

theorem moveToFront_length (map : List Nat) : ∀ mtf, (moveToFront mtf map).length = map.length := by
  induction map with
  | nil => intro mtf; rfl
  | cons id map ih => intro mtf; simp [moveToFront, ih]

/-- The symbols of a nested stream, then the check of its final state. -/
def nestedSymbols (cfg : StreamConfig) (n : Nat) : Parse (List Nat) := onFreshStream do
  let map ← times n (readSymbol cfg 0 0)
  let c ← theCoder
  validateFinal cfg c
  pure map

theorem readNestedMap_eq (n : Nat) : readNestedMap n = (do
    let useMtf ← readBool
    let cfg ← readNestedStream
    let map ← nestedSymbols cfg n
    checkBitstream (∀ id ∈ map, id < 256) .badClusterMap
    pure (if useMtf then inverseMtf (List.range 256) map else map)) := rfl

/-- What the symbols of a nested stream do, by the final state of its coder part. -/
theorem nestedSymbols_reads {cfg : StreamConfig} {n : Nat} {symbolBits : List Bool} {symbols : List Nat} {c : Coder}
    (h : ∀ rest pos, times n (readSymbol cfg 0 0)
        { coder := {}, source := { rest := symbolBits ++ rest, pos := pos } } =
      .ok symbols { coder := c, source := { rest := rest, pos := pos + symbolBits.length } }) :
    (cfg.coding.usePrefixCode = true ∨ c.hasState = true ∧ c.ansState = 0x130000#32 →
      Parses (nestedSymbols cfg n) symbolBits symbols) ∧
    (cfg.coding.usePrefixCode = false → c.hasState = true → c.ansState ≠ 0x130000#32 →
      Rejects (nestedSymbols cfg n) symbolBits (.invalidBitstream .ansFinalState)) := by
  refine ⟨fun hf rest pos => ?_, fun hp hs ha rest pos => ?_⟩ <;>
  · unfold nestedSymbols onFreshStream
    rw [eng_bind_ok (h rest pos)]
    simp only [theCoder, eng_bind, validateFinal, Config.ansTerminal]
    first
      | (rcases hf with h | ⟨h, h'⟩ <;> by_cases hh : cfg.coding.usePrefixCode = true <;> simp_all)
      | simp_all

/-! ## The parts of a header in order (`42_entropy_stream.md` R231) -/

/-- The bits of the coding of `k` clusters, with the bit that says which kind it is. -/
def CodingBits (k : Nat) (bits : List Bool) (coding : Coding) : Prop :=
  (∃ more, bits = true :: more ∧ Parses (readPrefixCoding k) more coding) ∨
    ∃ L more, 5 ≤ L ∧ L ≤ 8 ∧ bits = false :: fieldBits 2 (L - 5) ++ more ∧ Parses (readAnsCoding L k) more coding

theorem parses_readStreamWith {readMap : Nat → Parse (List Nat)} {n : Nat} {d : Bool}
    {lz77Bits mapBits codingBits : List Bool} {lz77 : Option Lz77Config} {map : List Nat} {coding : Coding}
    (hz : Parses (readLz77 d) lz77Bits lz77) (hm : Parses (readMap (if lz77.isSome then n + 1 else n)) mapBits map)
    (hc : CodingBits (1 + map.foldl max 0) codingBits coding) :
    Parses (readStreamWith readMap n d) (lz77Bits ++ (mapBits ++ codingBits))
      { clusterMap := map, lz77 := lz77, coding := coding } := by
  refine hz.bind (hm.bind ?_)
  rcases hc with ⟨more, rfl, hb⟩ | ⟨L, more, hL, hL', rfl, hb⟩
  · exact (parses_readBool true).bind (hb.bind_nil (parses_pure _))
  · refine (parses_readBool false).bind ((parses_readBits (by omega)).bind ?_)
    rw [show 5 + (L - 5) = L by omega]
    exact hb.bind_nil (parses_pure _)

theorem parses_readPrefixCoding {ds : List PrefixDist} {sizeBits codeBits : PrefixDist → List Bool}
    (h : ∀ d ∈ ds, d.config.Written 15 ∧ Parses readPrefixAlphabetSize (sizeBits d) d.alphabetSize ∧
      Parses (readPrefixCode d.alphabetSize) (codeBits d) d.code) :
    Parses (readPrefixCoding ds.length)
      (ds.flatMap (fun d => configBits 15 d.config) ++ ds.flatMap sizeBits ++ ds.flatMap codeBits) (.prefixCode ds) := by
  rw [List.append_assoc]
  refine (Parses.times (g := PrefixDist.config) ds fun d hd => parses_readHybridConfig (h d hd).1).bind
    ((Parses.times (g := PrefixDist.alphabetSize) ds fun d hd => (h d hd).2.1).bind
      ((Parses.forAll (i := PrefixDist.alphabetSize) (g := PrefixDist.code) ds fun d hd => (h d hd).2.2).bind_nil ?_))
  have e : ((ds.map PrefixDist.config).zip ((ds.map PrefixDist.alphabetSize).zip (ds.map PrefixDist.code))).map
      (fun e => ({ config := e.1, alphabetSize := e.2.1, code := e.2.2 } : PrefixDist)) = ds := by
    clear h
    induction ds with
    | nil => rfl
    | cons d ds ih => exact congrArg (d :: ·) ih
  rw [e]
  exact parses_pure _

theorem parses_readAnsCoding {L : Nat} {ds : List AnsDist} {freqBits : AnsDist → List Bool}
    (h : ∀ d ∈ ds, d.config.Written L ∧ Parses (readAnsFreqs L) (freqBits d) d.freqs ∧
      d.table = buildAlias d.freqs L) :
    Parses (readAnsCoding L ds.length) (ds.flatMap (fun d => configBits L d.config) ++ ds.flatMap freqBits)
      (.ans L ds) := by
  refine (Parses.times (g := AnsDist.config) ds fun d hd => parses_readHybridConfig (h d hd).1).bind
    (Parses.bind_nil (a := ds) ?_ (parses_pure _))
  have := Parses.forAll (f := fun c => do
    let D ← readAnsFreqs L
    pure { config := c, freqs := D, table := buildAlias D L : AnsDist }) (i := AnsDist.config) (g := id) ds
    (bits := freqBits) fun d hd => (h d hd).2.1.bind_nil (by rw [← (h d hd).2.2]; exact parses_pure _)
  rwa [List.map_id] at this

end Sys2Proof.Machine
end

