-- ==== Sys2Proof/Laws/CodeHeader.lean ====
section
/-! SUPPORT. The parse of a stream's prefix codes from the encoder's side: alphabet sizes, simple codes, the code of
code lengths and the lengths it codes (`41_symbol_distribution.md` R190 to R194). -/

namespace Sys2Proof.Machine

/-! ## Alphabet sizes and simple codes (R190 to R192) -/

theorem readPrefixAlphabetSize_reads {n v : Nat} (hn : n < 16) (hv : v < 2 ^ n) :
    (1 + 2 ^ n + v ≤ 32768 →
      Parses readPrefixAlphabetSize (true :: fieldBits 4 n ++ fieldBits n v) (1 + 2 ^ n + v)) ∧
    (32768 < 1 + 2 ^ n + v →
      Rejects readPrefixAlphabetSize (true :: fieldBits 4 n ++ fieldBits n v) (.invalidBitstream .badPrefixCode)) := by
  rw [← Nat.one_shiftLeft]
  refine ⟨fun h => ?_, fun h => ?_⟩
  · exact (parses_readBool true).bind ((parses_readBits (by omega)).bind ((parses_readBits hv).bind_nil
      (Parses.check h (parses_pure _))))
  · exact (parses_readBool true).bind_rejects ((parses_readBits (by omega)).bind_rejects
      ((parses_readBits hv).bind_rejects_nil (rejects_check (by omega))))

theorem readSimpleSymbol_reads {A v : Nat} (hA : 2 ≤ A) (hv : v < 2 ^ (Nat.log 2 (A - 1) + 1)) :
    (v < A → Parses (readSimpleSymbol A) (fieldBits (Nat.log 2 (A - 1) + 1) v) v) ∧
    (A ≤ v → Rejects (readSimpleSymbol A) (fieldBits (Nat.log 2 (A - 1) + 1) v) (.invalidBitstream .badPrefixCode)) := by
  unfold readSimpleSymbol
  rw [bitLength_eq (by omega)]
  exact ⟨fun h => (parses_readBits hv).bind_nil (Parses.check h (parses_pure _)),
    fun h => (parses_readBits hv).bind_rejects_nil (rejects_check (by omega))⟩

theorem lt_symbol_field {A v : Nat} (h : v < A) : v < 2 ^ (Nat.log 2 (A - 1) + 1) :=
  Nat.lt_of_le_of_lt (by omega : v ≤ A - 1) (Nat.lt_pow_succ_log_self (by omega) _)

/-- The symbols of a simple code, up to the first that is no symbol of the alphabet. -/
theorem rejects_symbols {A v : Nat} (hA : 2 ≤ A) (hv : v < 2 ^ (Nat.log 2 (A - 1) + 1)) (hAv : A ≤ v) :
    ∀ (before : List Nat) (n : Nat), before.length < n → (∀ u ∈ before, u < A) →
      Rejects (times n (readSimpleSymbol A))
        (before.flatMap (fieldBits (Nat.log 2 (A - 1) + 1)) ++ fieldBits (Nat.log 2 (A - 1) + 1) v)
        (.invalidBitstream .badPrefixCode)
  | [], n + 1, _, _ => ((readSimpleSymbol_reads hA hv).2 hAv).bind
  | u :: before, n + 1, hn, h => by
    rw [List.flatMap_cons, List.append_assoc]
    exact ((readSimpleSymbol_reads hA (lt_symbol_field (h u (by simp)))).1 (h u (by simp))).bind_rejects
      (rejects_symbols hA hv hAv before n (by simpa using hn) fun w hw => h w (by simp [hw])).bind

theorem parses_symbols {A : Nat} (hA : 2 ≤ A) (symbols : List Nat) (h : ∀ v ∈ symbols, v < A) :
    Parses (times symbols.length (readSimpleSymbol A)) (symbols.flatMap (fieldBits (Nat.log 2 (A - 1) + 1))) symbols :=
  Parses.times_id symbols fun v hv => (readSimpleSymbol_reads hA (lt_symbol_field (h v hv))).1 (h v hv)

/-- What `ReadPrefixCode` does with more than one symbol. -/
theorem readPrefixCode_eq {A : Nat} (h : 2 ≤ A) : readPrefixCode A = (do
    let hskip ← readBits 2
    if hskip = 1 then readSimplePrefix A
    else
      let clcode ← readCodeLengthCode hskip
      let lens ← readCodeLengths A clcode
      pure (.canonical lens)) := if_neg (by omega)

/-- A simple code up to its number of symbols. -/
theorem readPrefixCode_simple {A k : Nat} (h : 2 ≤ A) (hk : k < 4) :
    Leads (readPrefixCode A) (do
      let syms ← times (k + 1) (readSimpleSymbol A)
      checkBitstream syms.Nodup .badPrefixCode
      if k + 1 = 1 then pure (.zeroBits (syms.headD 0))
      else if k + 1 = 2 then pure (.canonical (lengthsOf A syms [1, 1]))
      else if k + 1 = 3 then pure (.canonical (lengthsOf A syms [1, 2, 2]))
      else
        let deep ← readBool
        pure (.canonical (lengthsOf A syms (if deep then [1, 2, 3, 3] else [2, 2, 2, 2]))))
      (fieldBits 2 1 ++ fieldBits 2 k) := by
  rw [readPrefixCode_eq h]
  refine (parses_readBits (v := 1) (by omega)).leads.trans ?_
  rw [if_pos rfl]
  exact (parses_readBits (by omega)).leads

/-- Set the entries `syms` to `lens`, one after the other. -/
def setAll (acc : List Nat) (syms lens : List Nat) : List Nat :=
  (syms.zip lens).foldl (fun acc e => acc.set e.1 e.2) acc

theorem setAll_spec (syms : List Nat) : ∀ (acc lens : List Nat), syms.length = lens.length → syms.Nodup →
    (∀ v ∈ syms, v < acc.length) →
    (setAll acc syms lens).length = acc.length ∧
      (∀ (i v : Nat), syms[i]? = some v → (setAll acc syms lens)[v]? = lens[i]?) ∧
      ∀ v, v ∉ syms → (setAll acc syms lens)[v]? = acc[v]? := by
  induction syms with
  | nil => intro acc lens _ _ _; exact ⟨rfl, by simp, fun _ _ => rfl⟩
  | cons s syms ih =>
    intro acc lens h hn hs
    obtain ⟨l, lens, rfl⟩ : ∃ l ls, lens = l :: ls := by
      cases lens with
      | nil => cases h
      | cons l ls => exact ⟨l, ls, rfl⟩
    have hn' := List.nodup_cons.1 hn
    obtain ⟨a, b, c⟩ := ih (acc.set s l) lens (by simpa using h) hn'.2 fun v hv => by
      simpa using hs v (by simp [hv])
    refine ⟨by simpa [setAll] using a, fun i v hv => ?_, fun v hv => ?_⟩
    · cases i with
      | zero =>
        obtain rfl : s = v := by simpa using hv
        show (setAll (acc.set s l) syms lens)[s]? = some l
        rw [c s hn'.1, List.getElem?_set_self (hs s (by simp))]
      | succ i => exact b i v (by simpa using hv)
    · show (setAll (acc.set s l) syms lens)[v]? = _
      rw [c v fun h => hv (by simp [h]), List.getElem?_set_ne fun e => hv (by simp [e])]

theorem lengthsOf_spec {A : Nat} {syms lens : List Nat} (h : syms.length = lens.length) (hn : syms.Nodup)
    (hs : ∀ v ∈ syms, v < A) :
    (lengthsOf A syms lens).length = A ∧ (∀ (i v : Nat), syms[i]? = some v → (lengthsOf A syms lens)[v]? = lens[i]?) ∧
      ∀ v, v < A → v ∉ syms → (lengthsOf A syms lens)[v]? = some 0 := by
  obtain ⟨a, b, c⟩ := setAll_spec syms (List.replicate A 0) lens h hn (by simpa using hs)
  refine ⟨by rw [List.length_replicate] at a; exact a, b, fun v hv hn => ?_⟩
  have := c v hn
  rwa [List.getElem?_replicate, if_pos hv] at this

/-! ## The code of code lengths (R193) -/

theorem codeSpace_cons (n l : Nat) (ls : List Nat) :
    codeSpace n (l :: ls) = (if l = 0 then 0 else 2 ^ n / 2 ^ l) + codeSpace n ls := by simp [codeSpace]

theorem codeSpace_append (n : Nat) (a b : List Nat) : codeSpace n (a ++ b) = codeSpace n a + codeSpace n b := by
  simp [codeSpace]

theorem codeSpace_singleton (n l : Nat) : codeSpace n [l] = if l = 0 then 0 else 2 ^ n / 2 ^ l := by simp [codeSpace]

theorem codeSpace_replicate (n k l : Nat) :
    codeSpace n (List.replicate k l) = k * (if l = 0 then 0 else 2 ^ n / 2 ^ l) := by
  unfold codeSpace; rw [List.map_replicate, List.sum_replicate]; rfl

/-- The scan of code-length-code lengths after `vs` from `st`. -/
def ClScan.after (st : ClScan) (order vs : List Nat) : ClScan where
  lengths := setAll st.lengths order vs
  space := st.space - (codeSpace 5 vs : Nat)
  numCodes := st.numCodes + (vs.filter (· ≠ 0)).length

theorem shift32 (v : Nat) : (32 >>> v : Nat) = 2 ^ 5 / 2 ^ v := Nat.shiftRight_eq_div_pow _ _

theorem ClScan.after_cons (st : ClScan) (o : Nat) (order : List Nat) (v : Nat) (vs : List Nat) :
    st.after (o :: order) (v :: vs) =
      (if v = 0 then { st with lengths := st.lengths.set o 0 }
        else ⟨st.lengths.set o v, st.space - ((32 >>> v : Nat) : Int), st.numCodes + 1⟩ : ClScan).after order vs := by
  unfold ClScan.after
  rw [codeSpace_cons, shift32]
  by_cases h : v = 0
  · subst h; simp [setAll]
  · simp only [if_neg h]
    generalize 2 ^ 5 / 2 ^ v = k
    have hf : ((v :: vs).filter (· ≠ 0)).length = (vs.filter (· ≠ 0)).length + 1 := by simp [h]
    rw [hf, ClScan.mk.injEq]
    exact ⟨rfl, by push_cast; omega, by omega⟩

/-- Lengths that leave space are read, and the scan goes on. -/
theorem scanClCodes_leads (vs : List Nat) (hv : ∀ v ∈ vs, v ≤ 5) : ∀ (order : List Nat) (st : ClScan),
    vs.length ≤ order.length → ((codeSpace 5 vs : Nat) : Int) < st.space →
    Leads (scanClCodes order st) (scanClCodes (order.drop vs.length) (st.after order vs)) (vs.flatMap clCodeBits) := by
  induction vs with
  | nil => intro order st _ _; simpa [ClScan.after, setAll, codeSpace] using Leads.refl _
  | cons v vs ih =>
    intro order st hl hs
    obtain ⟨o, order, rfl⟩ : ∃ o os, order = o :: os := by
      cases order with
      | nil => simp at hl
      | cons o os => exact ⟨o, os, rfl⟩
    rw [ClScan.after_cons, List.flatMap_cons]
    refine (parses_readClCode (hv v (by simp))).leads.trans ?_
    rw [codeSpace_cons] at hs
    have hv' : ∀ u ∈ vs, u ≤ 5 := fun u hu => hv u (by simp [hu])
    by_cases h0 : v = 0
    · rw [if_pos h0, if_pos h0, h0]
      exact ih hv' order _ (by simpa using hl) (by simpa [h0] using hs)
    · rw [if_neg h0] at hs
      rw [if_neg h0, if_neg h0]
      simp only [shift32]
      generalize 2 ^ 5 / 2 ^ v = k at hs
      rw [if_neg (by push_cast at hs; omega)]
      exact ih hv' order _ (by simpa using hl) (by push_cast at hs; show _ < st.space - (k : Int); omega)

/-- The length that takes the last of the space ends the scan. -/
theorem parses_scanClCodes_last {v o : Nat} {order : List Nat} {st : ClScan} (hv : v ≤ 5) (h0 : v ≠ 0)
    (hs : st.space ≤ ((2 ^ 5 / 2 ^ v : Nat) : Int)) :
    Parses (scanClCodes (o :: order) st) (clCodeBits v) (st.after (o :: order) [v]) := by
  refine (parses_readClCode hv).bind_nil ?_
  rw [ClScan.after_cons, if_neg h0, if_neg h0]
  simp only [shift32]
  generalize 2 ^ 5 / 2 ^ v = k at hs
  rw [if_pos (by omega)]
  simpa [ClScan.after, setAll, codeSpace] using parses_pure _

theorem zip_take_length (a b : List Nat) : (a.take b.length).zip b = a.zip b := by
  induction a generalizing b with
  | nil => simp
  | cons x a ih =>
    cases b with
    | nil => simp
    | cons y b => simp [ih]

theorem setAll_append (acc order pre : List Nat) (o v : Nat) (more : List Nat)
    (h : order.drop pre.length = o :: more) (hl : pre.length ≤ order.length) :
    setAll acc order (pre ++ [v]) = setAll (setAll acc order pre) (o :: more) [v] := by
  conv_lhs => rw [← List.take_append_drop pre.length order, h]
  unfold setAll
  rw [List.zip_append (by simpa using hl), List.foldl_append, zip_take_length]

theorem ClScan.after_append (st : ClScan) (order pre : List Nat) (o v : Nat) (more : List Nat)
    (h : order.drop pre.length = o :: more) (hl : pre.length ≤ order.length) :
    st.after order (pre ++ [v]) = (st.after order pre).after (o :: more) [v] := by
  unfold ClScan.after
  rw [setAll_append _ _ _ _ _ _ h hl, codeSpace_append, ClScan.mk.injEq]
  refine ⟨rfl, by push_cast; omega, ?_⟩
  rw [List.filter_append, List.length_append]
  exact (Nat.add_assoc _ _ _).symm

/-- The scan's start. -/
def ClScan.start : ClScan := { lengths := List.replicate 18 0, space := 32, numCodes := 0 }

/-- The scan of the lengths `vs`, ended by the last of them or by the end of the order. -/
theorem parses_scanClCodes {hskip : Nat} {vs : List Nat} (hv : ∀ v ∈ vs, v ≤ 5) (hl : hskip + vs.length ≤ 18)
    (h : codeSpace 5 vs.dropLast < 32 ∧ 32 ≤ codeSpace 5 vs ∨ hskip + vs.length = 18 ∧ codeSpace 5 vs < 32) :
    Parses (scanClCodes (clCodeOrder.drop hskip) ClScan.start) (vs.flatMap clCodeBits)
      (ClScan.start.after (clCodeOrder.drop hskip) vs) := by
  have hol : (clCodeOrder.drop hskip).length = 18 - hskip := by simp [clCodeOrder]
  rcases h with ⟨h1, h2⟩ | ⟨h1, h2⟩
  · have hne : vs ≠ [] := by rintro rfl; simp [codeSpace] at h2
    obtain ⟨pre, v, rfl⟩ : ∃ pre v, vs = pre ++ [v] := ⟨_, _, (List.dropLast_append_getLast hne).symm⟩
    rw [List.dropLast_concat] at h1
    rw [codeSpace_append, codeSpace_singleton] at h2
    have h0 : v ≠ 0 := by rintro rfl; simp at h2; omega
    rw [if_neg h0] at h2
    simp only [List.length_append, List.length_singleton] at hl
    obtain ⟨o, more, ho⟩ : ∃ o os, (clCodeOrder.drop hskip).drop pre.length = o :: os := by
      cases h : (clCodeOrder.drop hskip).drop pre.length with
      | nil => have := congrArg List.length h; rw [List.length_drop, hol] at this; simp at this; omega
      | cons o os => exact ⟨o, os, rfl⟩
    rw [List.flatMap_append, List.flatMap_singleton, ClScan.after_append _ _ _ _ _ _ ho (by omega)]
    refine (scanClCodes_leads pre (fun u hu => hv u (by simp [hu])) _ _ (by omega)
      (by show _ < (32 : Int); omega)).parses ?_
    rw [ho]
    refine parses_scanClCodes_last (hv v (by simp)) h0 ?_
    show (32 : Int) - (codeSpace 5 pre : Nat) ≤ _
    generalize 2 ^ 5 / 2 ^ v = k at h2 ⊢
    omega
  · rw [← List.append_nil (vs.flatMap clCodeBits)]
    refine (scanClCodes_leads vs hv _ _ (by omega) (by show _ < (32 : Int); omega)).parses ?_
    rw [List.drop_eq_nil_of_le (by omega)]
    exact parses_pure _

theorem codeSpace_le (vs : List Nat) : codeSpace 5 vs ≤ 16 * (vs.filter (· ≠ 0)).length := by
  induction vs with
  | nil => simp [codeSpace]
  | cons v vs ih =>
    rw [codeSpace_cons]
    by_cases h : v = 0
    · simpa [h] using ih
    · have h1 : 2 ^ 5 / 2 ^ v ≤ 16 := by
        have : 2 ^ 1 ≤ 2 ^ v := Nat.pow_le_pow_right (by omega) (by omega)
        exact Nat.le_trans (Nat.div_le_div_left this (by omega)) (by omega)
      have : ((v :: vs).filter (· ≠ 0)).length = (vs.filter (· ≠ 0)).length + 1 := by simp [h]
      rw [if_neg h]
      omega

/-- The lengths of the 18 code-length symbols after the scan, in the order of transmission. -/
theorem clLengths_spec {hskip : Nat} {vs : List Nat} (hl : hskip + vs.length ≤ 18) :
    (ClScan.start.after (clCodeOrder.drop hskip) vs).lengths.length = 18 ∧
      ∀ (i s : Nat), clCodeOrder[i]? = some s → (ClScan.start.after (clCodeOrder.drop hskip) vs).lengths[s]? =
        some (if hskip ≤ i then vs.getD (i - hskip) 0 else 0) := by
  have hsub : ((clCodeOrder.drop hskip).take vs.length).Sublist clCodeOrder :=
    (List.take_sublist _ _).trans (List.drop_sublist _ _)
  have hnd : clCodeOrder.Nodup := by decide
  have hlt : ∀ v ∈ clCodeOrder, v < 18 := by decide
  have e : (ClScan.start.after (clCodeOrder.drop hskip) vs).lengths =
      setAll (List.replicate 18 0) ((clCodeOrder.drop hskip).take vs.length) vs := by
    show setAll _ _ _ = _
    unfold setAll
    rw [zip_take_length]; rfl
  obtain ⟨a, b, c⟩ := setAll_spec ((clCodeOrder.drop hskip).take vs.length) (List.replicate 18 0) vs
    (by simp [clCodeOrder]; omega) (hnd.sublist hsub) fun v hv => by simpa using hlt v (hsub.subset hv)
  rw [e]
  refine ⟨by rw [a]; simp, fun i s hi => ?_⟩
  by_cases hle : hskip ≤ i ∧ i < hskip + vs.length
  · rw [b (i - hskip) s (by
      rw [List.getElem?_take, if_pos (by omega), List.getElem?_drop, show hskip + (i - hskip) = i by omega]
      exact hi), if_pos hle.1, List.getD_eq_getElem?_getD, List.getElem?_eq_getElem (by omega)]
    rfl
  · have hn : s ∉ (clCodeOrder.drop hskip).take vs.length := by
      intro hm
      obtain ⟨j, hj⟩ := List.mem_iff_getElem?.1 hm
      rw [List.getElem?_take] at hj
      split at hj
      · rw [List.getElem?_drop] at hj
        obtain ⟨_, h1⟩ := List.getElem?_eq_some_iff.1 hj
        obtain ⟨_, h2⟩ := List.getElem?_eq_some_iff.1 hi
        have := (List.Nodup.getElem_inj_iff hnd).1 (h1.trans h2.symm)
        omega
      · cases hj
    rw [c s hn, List.getElem?_replicate, if_pos (hlt s (List.mem_of_getElem? hi))]
    split
    · rw [List.getD_eq_getElem?_getD, List.getElem?_eq_none (by omega)]; rfl
    · rfl

/-- A list with one element other than 0. -/
theorem filter_single {vs : List Nat} : ∀ {i v : Nat}, vs[i]? = some v → v ≠ 0 →
    (∀ (j u : Nat), vs[j]? = some u → j ≠ i → u = 0) → vs.filter (· ≠ 0) = [v] := by
  induction vs with
  | nil => intro i v h; simp at h
  | cons a vs ih =>
    intro i v h h0 hz
    cases i with
    | zero =>
      obtain rfl : a = v := by simpa using h
      rw [List.filter_cons_of_pos (by simpa using h0), List.filter_eq_nil_iff.2 fun u hu => ?_]
      obtain ⟨j, hj⟩ := List.mem_iff_getElem?.1 hu
      simp [hz (j + 1) u (by simpa using hj) (by omega)]
    | succ i =>
      rw [List.filter_cons_of_neg (by simp [hz 0 a (by simp) (by omega)])]
      exact ih (by simpa using h) h0 fun j u hj hne => hz (j + 1) u (by simpa using hj) (by omega)

/-- Everything `ReadCodeLengthCode` does over the lengths `vs`. -/
theorem readCodeLengthCode_reads {hskip : Nat} {vs : List Nat} (hv : ∀ v ∈ vs, v ≤ 5) (hl : hskip + vs.length ≤ 18) :
    (codeSpace 5 vs = 32 → vs.getLast? ≠ some 0 →
      ∃ cl, Parses (readCodeLengthCode hskip) (vs.flatMap clCodeBits) (.canonical cl) ∧ cl.length = 18 ∧
        ∀ (i s : Nat), clCodeOrder[i]? = some s →
          cl[s]? = some (if hskip ≤ i then vs.getD (i - hskip) 0 else 0)) ∧
    (∀ (i v s : Nat), hskip + vs.length = 18 → vs[i]? = some v → v ≠ 0 →
      (∀ (j u : Nat), vs[j]? = some u → j ≠ i → u = 0) → clCodeOrder[hskip + i]? = some s →
      Parses (readCodeLengthCode hskip) (vs.flatMap clCodeBits) (.zeroBits s)) ∧
    (hskip + vs.length = 18 → codeSpace 5 vs < 32 → (vs.filter (· ≠ 0)).length ≠ 1 →
      Rejects (readCodeLengthCode hskip) (vs.flatMap clCodeBits) (.invalidBitstream .badPrefixCode)) ∧
    (32 < codeSpace 5 vs → codeSpace 5 vs.dropLast < 32 →
      Rejects (readCodeLengthCode hskip) (vs.flatMap clCodeBits) (.invalidBitstream .badPrefixCode)) := by
  have hcs := codeSpace_le vs
  have hn : (ClScan.start.after (clCodeOrder.drop hskip) vs).numCodes = (vs.filter (· ≠ 0)).length := Nat.zero_add _
  have hsp : (ClScan.start.after (clCodeOrder.drop hskip) vs).space = 32 - (codeSpace 5 vs : Nat) := rfl
  obtain ⟨hlen, hval⟩ := clLengths_spec hl
  refine ⟨fun h1 h2 => ?_, fun i v s h1 h2 h3 h4 h5 => ?_, fun h1 h2 h3 => ?_, fun h1 h2 => ?_⟩
  · have hd : codeSpace 5 vs.dropLast < 32 := by
      have hne : vs ≠ [] := by rintro rfl; simp [codeSpace] at h1
      obtain ⟨pre, v, rfl⟩ : ∃ pre v, vs = pre ++ [v] := ⟨_, _, (List.dropLast_append_getLast hne).symm⟩
      have h0 : v ≠ 0 := by simpa using h2
      have : 0 < 2 ^ 5 / 2 ^ v :=
        Nat.div_pos (Nat.pow_le_pow_right (by omega) (hv v (by simp))) (by positivity)
      rw [List.dropLast_concat]
      rw [codeSpace_append, codeSpace_singleton, if_neg h0] at h1
      omega
    refine ⟨_, ?_, hlen, hval⟩
    refine (parses_scanClCodes hv hl (Or.inl ⟨hd, by omega⟩)).bind_nil
      (Parses.check (Or.inr (by rw [hsp]; omega)) ?_)
    rw [if_neg (by rw [hn]; omega)]
    exact parses_pure _
  · have hone := filter_single h2 h3 h4
    rw [hone] at hcs
    replace hn : (ClScan.start.after (clCodeOrder.drop hskip) vs).numCodes = 1 := by rw [hn, hone]; rfl
    refine (parses_scanClCodes hv hl (Or.inr ⟨h1, by simp at hcs; omega⟩)).bind_nil (Parses.check (Or.inl hn) ?_)
    rw [if_pos hn]
    have hlt : ∀ v ∈ clCodeOrder, v < 18 := by decide
    have hs18 := hlt s (List.mem_of_getElem? h5)
    have hat : ∀ (i s : Nat), clCodeOrder[i]? = some s → ∀ h : s < _,
        (ClScan.start.after (clCodeOrder.drop hskip) vs).lengths[s]'h =
          if hskip ≤ i then vs.getD (i - hskip) 0 else 0 := fun i s hi h => by
      have := hval i s hi
      rw [List.getElem?_eq_getElem h] at this
      simpa using this
    have hidx : (ClScan.start.after (clCodeOrder.drop hskip) vs).lengths.findIdx (· != 0) = s := by
      rw [List.findIdx_eq (by omega)]
      refine ⟨?_, fun j hj => ?_⟩
      · rw [hat _ _ h5, if_pos (by omega), show hskip + i - hskip = i by omega, List.getD_eq_getElem?_getD, h2]
        simpa using h3
      · have hex : ∀ j < 18, ∃ i, i < 18 ∧ clCodeOrder[i]? = some j := by decide
        obtain ⟨i', hi', he⟩ := hex j (by omega)
        have hne : i' ≠ hskip + i := by
          rintro rfl
          rw [h5] at he
          have : s = j := by simpa using he
          omega
        rw [hat _ _ he]
        split
        · have hl' : i' - hskip < vs.length := by omega
          rw [List.getD_eq_getElem?_getD, List.getElem?_eq_getElem hl']
          simp [h4 (i' - hskip) vs[i' - hskip] (List.getElem?_eq_getElem hl') (by omega)]
        · rfl
    rw [hidx]
    exact parses_pure _
  · exact (parses_scanClCodes hv hl (Or.inr ⟨h1, h2⟩)).bind_rejects_nil
      (rejects_check (by rw [hn, hsp]; omega))
  · have hc' := codeSpace_le vs.dropLast
    exact (parses_scanClCodes hv hl (Or.inl ⟨h2, by omega⟩)).bind_rejects_nil
      (rejects_check (by rw [hn, hsp]; omega))

/-! ## The lengths (R194) -/

/-- The scan holds the lengths `lens`. -/
structure LengthScan.Holds (st : LengthScan) (lens : List Nat) : Prop where
  rev : st.rev = lens.reverse
  count : st.count = lens.length
  space : st.space = 32768 - (codeSpace 15 lens : Nat)

/-- The run that a repeat code of length `len` extends. -/
def LengthScan.runOf (st : LengthScan) (len : Nat) : Nat := if st.repeatLen ≠ len then 0 else st.repeats

theorem shift32768 (l : Nat) : (32768 >>> l : Nat) = 2 ^ 15 / 2 ^ l := Nat.shiftRight_eq_div_pow _ _

theorem LengthScan.Holds.literal {st : LengthScan} {lens : List Nat} (h : st.Holds lens) (l : Nat) :
    (st.literal l).Holds (lens ++ [l]) := by
  refine ⟨?_, ?_, ?_⟩
  · show l :: st.rev = _; rw [h.rev]; simp
  · show st.count + 1 = _; rw [h.count]; simp
  · show (if l ≠ 0 then st.space - ((32768 >>> l : Nat) : Int) else st.space) = _
    rw [codeSpace_append, codeSpace_singleton, h.space, shift32768]
    by_cases h0 : l = 0
    · simp [h0]
    · rw [if_pos h0, if_neg h0]
      generalize 2 ^ 15 / 2 ^ l = k
      push_cast; omega

theorem LengthScan.Holds.run {st : LengthScan} {lens : List Nat} (h : st.Holds lens) (len total k : Nat) :
    (st.run len total k).Holds (lens ++ List.replicate k len) := by
  refine ⟨?_, ?_, ?_⟩
  · show List.replicate k len ++ st.rev = _; rw [h.rev]; simp
  · show st.count + k = _; rw [h.count]; simp
  · show (if len ≠ 0 then st.space - (k * (32768 >>> len) : Nat) else st.space) = _
    rw [codeSpace_append, codeSpace_replicate, h.space, shift32768]
    by_cases h0 : len = 0
    · simp [h0]
    · rw [if_pos h0, if_neg h0]; push_cast; ring

/-- The two repeat codes: the symbol, its extra bits, and the length it repeats. -/
def RepeatCode (p extra len prev : Nat) : Prop := p = 16 ∧ extra = 2 ∧ len = prev ∨ p = 17 ∧ extra = 3 ∧ len = 0

variable {A : Nat} {clCode : PrefixCode} {code : Nat → List Bool}

theorem scanLengths_succ (rounds : Nat) {st : LengthScan} (hc : st.count < A) (hs : 0 < st.space) :
    scanLengths A clCode (rounds + 1) st = (do
      let p ← prefixDecode clCode
      if p < 16 then scanLengths A clCode rounds (st.literal p)
      else
        let extra := if p = 16 then 2 else 3
        let newLen := if p = 16 then st.prevLen else 0
        let old := if st.repeatLen ≠ newLen then 0 else st.repeats
        let v ← readBits extra
        let total := repeatCount old extra v
        checkBitstream (st.count + (total - old) ≤ A) .badPrefixCode
        scanLengths A clCode rounds (st.run newLen total (total - old))) := if_pos ⟨hc, hs⟩

theorem scanLengths_literal {l : Nat} {st : LengthScan} {rounds : Nat} (hl : l < 16)
    (hp : Parses (prefixDecode clCode) (code l) l) (hc : st.count < A) (hs : 0 < st.space) :
    Leads (scanLengths A clCode (rounds + 1) st) (scanLengths A clCode rounds (st.literal l)) (code l) := by
  intro rest pos
  rw [scanLengths_succ rounds hc hs, eng_bind_ok (hp rest pos), if_pos hl]

/-- A repeat code and its extra bits, up to the check that the run fits in the alphabet. -/
theorem scanLengths_repeat {p extra len d : Nat} {st : LengthScan} {rounds : Nat} (hk : RepeatCode p extra len st.prevLen)
    (hd : d < 2 ^ extra) (hp : Parses (prefixDecode clCode) (code p) p) (hc : st.count < A) (hs : 0 < st.space) :
    Leads (scanLengths A clCode (rounds + 1) st) (do
      checkBitstream (st.count + (repeatCount (st.runOf len) extra d - st.runOf len) ≤ A) .badPrefixCode
      scanLengths A clCode rounds (st.run len (repeatCount (st.runOf len) extra d)
        (repeatCount (st.runOf len) extra d - st.runOf len))) (code p ++ fieldBits extra d) := by
  rw [scanLengths_succ rounds hc hs]
  refine hp.leads.trans ?_
  rcases hk with ⟨rfl, rfl, rfl⟩ | ⟨rfl, rfl, rfl⟩ <;> exact (parses_readBits hd).leads

theorem repeatCount_gt {run extra : Nat} (d : Nat) (hr : run = 0 ∨ 3 ≤ run) (he : 2 ≤ extra) :
    run < repeatCount run extra d ∧ 3 ≤ repeatCount run extra d := by
  unfold repeatCount
  rw [Nat.shiftLeft_eq]
  rcases hr with rfl | h
  · simp
  · rw [if_pos (by omega)]
    have h4 : 2 ^ 2 ≤ 2 ^ extra := Nat.pow_le_pow_right (by omega) he
    have := Nat.mul_le_mul_left (run - 2) h4
    omega

/-- `runLength` from a run under way. -/
def runFrom (extra run : Nat) (digits : List Nat) : Nat :=
  digits.foldl (fun run d => (if 0 < run then (run - 2) * 2 ^ extra else 0) + d + 3) run

theorem runFrom_cons (extra run d : Nat) (digits : List Nat) :
    runFrom extra run (d :: digits) = runFrom extra (repeatCount run extra d) digits := by
  unfold runFrom repeatCount
  rw [List.foldl_cons, Nat.shiftLeft_eq]
  congr 1
  by_cases h : 0 < run
  · rw [if_pos h, if_pos h]
  · rw [if_neg h, if_neg h, Nat.eq_zero_of_not_pos h]

theorem runFrom_ge {extra : Nat} (he : 2 ≤ extra) (digits : List Nat) : ∀ run, run = 0 ∨ 3 ≤ run →
    run ≤ runFrom extra run digits := by
  induction digits with
  | nil => intro run _; exact Nat.le_refl _
  | cons d digits ih =>
    intro run hr
    have := repeatCount_gt d hr he
    rw [runFrom_cons]
    exact Nat.le_trans (Nat.le_of_lt this.1) (ih _ (Or.inr this.2))

theorem runFrom_gt {extra : Nat} (he : 2 ≤ extra) {digits : List Nat} (hne : digits ≠ []) {run : Nat}
    (hr : run = 0 ∨ 3 ≤ run) : run < runFrom extra run digits := by
  cases digits with
  | nil => exact absurd rfl hne
  | cons d digits =>
    have := repeatCount_gt d hr he
    rw [runFrom_cons]
    exact Nat.lt_of_lt_of_le this.1 (runFrom_ge he digits _ (Or.inr this.2))

/-- Adding a positive number of lengths to lengths within the space leaves less of it, unless they are zeros. -/
theorem codeSpace_before_lt {lens : List Nat} {k len : Nat} (hk : 0 < k) (hl : len ≤ 15)
    (h0 : codeSpace 15 lens < 32768 ∨ len ≠ 0) (h : codeSpace 15 (lens ++ List.replicate k len) ≤ 32768) :
    codeSpace 15 lens < 32768 := by
  rcases h0 with h0 | h0
  · exact h0
  · rw [codeSpace_append, codeSpace_replicate, if_neg h0] at h
    have hp : 0 < 2 ^ 15 / 2 ^ len := Nat.div_pos (Nat.pow_le_pow_right (by omega) hl) (by positivity)
    have := Nat.mul_le_mul hk hp
    omega

/-- A row of one repeat code is read, and the scan goes on with its run. -/
theorem scanLengths_row {p extra len prev : Nat} (hk : RepeatCode p extra len prev) (hl : len ≤ 15)
    (hp : Parses (prefixDecode clCode) (code p) p) (digits : List Nat) : ∀ (st : LengthScan) (lens : List Nat)
    (rounds : Nat), st.Holds lens → st.prevLen = prev → (st.runOf len = 0 ∨ 3 ≤ st.runOf len) →
    (∀ d ∈ digits, d < 2 ^ extra) → codeSpace 15 lens < 32768 → A - st.count ≤ rounds →
    let more := List.replicate (runFrom extra (st.runOf len) digits - st.runOf len) len
    (lens ++ more).length ≤ A → codeSpace 15 (lens ++ more) ≤ 32768 →
    ∃ st' rounds', st'.Holds (lens ++ more) ∧ st'.prevLen = prev ∧ (digits ≠ [] → st'.repeatLen = len) ∧
      A - st'.count ≤ rounds' ∧
      Leads (scanLengths A clCode rounds st) (scanLengths A clCode rounds' st')
        (digits.flatMap fun d => code p ++ fieldBits extra d) := by
  have he : 2 ≤ extra := by unfold RepeatCode at hk; omega
  induction digits with
  | nil =>
    intro st lens rounds hg hpl _ _ _ hr more _ _
    exact ⟨st, rounds, by simpa [more, runFrom] using hg, hpl, fun h => absurd rfl h, hr, Leads.refl _⟩
  | cons d digits ih =>
    intro st lens rounds hg hpl hrun hd hcs hr more hlen hsp
    have hgt := repeatCount_gt d hrun he
    have hge := runFrom_ge he digits _ (Or.inr hgt.2)
    simp only [more, runFrom_cons] at hlen hsp ⊢
    clear more
    obtain ⟨r1, hr1⟩ : ∃ r, repeatCount (st.runOf len) extra d = r := ⟨_, rfl⟩
    obtain ⟨r0, hr0⟩ : ∃ r, st.runOf len = r := ⟨_, rfl⟩
    rw [hr1] at hlen hsp hge hgt ⊢
    rw [hr0] at hlen hsp hgt ⊢
    have hcount := hg.count
    have hspace := hg.space
    simp only [List.length_append, List.length_replicate] at hlen
    obtain ⟨rounds, rfl⟩ : ∃ n, rounds = n + 1 := ⟨rounds - 1, by omega⟩
    have hstep := (scanLengths_repeat (rounds := rounds) (by rw [hpl]; exact hk) (hd d (by simp)) hp
      (by omega : st.count < A) (by omega)).trans (leads_check (by rw [hr1, hr0]; omega))
    rw [hr1, hr0, List.append_nil] at hstep
    have hsplit : List.replicate (runFrom extra r1 digits - r0) len =
        List.replicate (r1 - r0) len ++ List.replicate (runFrom extra r1 digits - r1) len := by
      rw [List.replicate_append_replicate]; congr 1; omega
    have hrun' : (st.run len r1 (r1 - r0)).runOf len = r1 := by
      show (if len ≠ len then 0 else r1) = r1; simp
    rw [List.flatMap_cons]
    by_cases hnil : digits = []
    · subst hnil
      exact ⟨_, rounds, hg.run len r1 (r1 - r0), hpl, fun _ => rfl, by
        show A - (st.count + (r1 - r0)) ≤ rounds; omega, by simpa using hstep⟩
    · have hgt2 := runFrom_gt he hnil (Or.inr hgt.2 : r1 = 0 ∨ 3 ≤ r1)
      rw [hsplit, ← List.append_assoc] at hsp ⊢
      have hcs' : codeSpace 15 (lens ++ List.replicate (r1 - r0) len) < 32768 := by
        refine codeSpace_before_lt (by omega : 0 < runFrom extra r1 digits - r1) hl ?_ hsp
        by_cases hz : len = 0
        · left; rw [codeSpace_append, codeSpace_replicate, if_pos hz]; omega
        · exact Or.inr hz
      obtain ⟨st', rounds', h1, h2, h3, h4, h5⟩ := ih (st.run len r1 (r1 - r0)) _ rounds (hg.run len r1 (r1 - r0)) hpl
        (by rw [hrun']; exact Or.inr hgt.2) (fun d' hd' => hd d' (by simp [hd'])) hcs'
        (by show A - (st.count + (r1 - r0)) ≤ rounds; omega)
        (by rw [hrun']; simp only [List.length_append, List.length_replicate]; omega) (by rw [hrun']; exact hsp)
      rw [hrun'] at h1
      exact ⟨st', rounds', h1, h2, fun _ => h3 hnil, h4, hstep.trans h5⟩

/-- The scan is ready for groups after the last length `prev` other than 0: a row that comes first starts its run. -/
def LengthScan.Ready (st : LengthScan) (prev : Nat) (groups : List LengthGroup) : Prop :=
  st.prevLen = prev ∧ prev ≠ 0 ∧ prev ≤ 15 ∧
    (∀ digits, groups.head? = some (.repeatPrevious digits) → st.runOf prev = 0) ∧
    ∀ digits, groups.head? = some (.repeatZero digits) → st.runOf 0 = 0

/-- Every group before which the code is not complete is read, and the scan goes on with its lengths. -/
theorem scanLengths_groups (more groups : List LengthGroup) : ∀ (st : LengthScan) (lens : List Nat) (prev rounds : Nat),
    st.Holds lens → st.Ready prev (groups ++ more) → groupsWf (groups ++ more) →
    (∀ p ∈ groups.flatMap LengthGroup.symbols, Parses (prefixDecode clCode) (code p) p) →
    (∀ before g after, groups = before ++ g :: after → codeSpace 15 (lens ++ groupLengths prev before) < 32768) →
    (lens ++ groupLengths prev groups).length ≤ A → codeSpace 15 (lens ++ groupLengths prev groups) ≤ 32768 →
    A - st.count ≤ rounds →
    ∃ st' prev' rounds', st'.Holds (lens ++ groupLengths prev groups) ∧ st'.Ready prev' more ∧
      groupLengths prev (groups ++ more) = groupLengths prev groups ++ groupLengths prev' more ∧
      A - st'.count ≤ rounds' ∧
      Leads (scanLengths A clCode rounds st) (scanLengths A clCode rounds' st')
        (groups.flatMap (LengthGroup.bits code)) := by
  induction groups with
  | nil =>
    intro st lens prev rounds hg hr _ _ _ _ _ hrd
    exact ⟨st, prev, rounds, by simpa [groupLengths] using hg, hr, by simp [groupLengths], hrd, Leads.refl _⟩
  | cons g groups ih =>
    intro st lens prev rounds hg hr hwf hsy hpre hlen hcs hrd
    have h0 := hpre [] g groups rfl
    simp only [groupLengths, List.append_nil] at h0
    have hspace := hg.space
    have hcount := hg.count
    obtain ⟨hr1, hr2, hr15, hr3, hr4⟩ := hr
    rw [List.flatMap_cons]
    have hsy' : ∀ p ∈ groups.flatMap LengthGroup.symbols, Parses (prefixDecode clCode) (code p) p := fun p hp =>
      hsy p (by simp only [List.flatMap_cons, List.mem_append]; exact Or.inr hp)
    -- What a row does, for either code.
    have row : ∀ p extra len digits, RepeatCode p extra len prev → digits ≠ [] → (∀ d ∈ digits, d < 2 ^ extra) →
        Parses (prefixDecode clCode) (code p) p → st.runOf len = 0 → groupsWf (groups ++ more) →
        (∀ digits', (groups ++ more).head? = some (.repeatPrevious digits') → len ≠ prev) →
        (∀ digits', (groups ++ more).head? = some (.repeatZero digits') → len ≠ 0) →
        (∀ gs, groupLengths prev (g :: gs) = List.replicate (runFrom extra 0 digits) len ++ groupLengths prev gs) →
        ∃ st' prev' rounds', st'.Holds (lens ++ groupLengths prev (g :: groups)) ∧ st'.Ready prev' more ∧
          groupLengths prev (g :: groups ++ more) = groupLengths prev (g :: groups) ++ groupLengths prev' more ∧
          A - st'.count ≤ rounds' ∧
          Leads (scanLengths A clCode rounds st) (scanLengths A clCode rounds' st')
            ((digits.flatMap fun d => code p ++ fieldBits extra d) ++ groups.flatMap (LengthGroup.bits code)) := by
      intro p extra len digits hk hne hd hp hrun hwf' hprev hzero heq
      have hlen15 : len ≤ 15 := by unfold RepeatCode at hk; omega
      have eq : ∀ gs, lens ++ groupLengths prev (g :: gs) =
          (lens ++ List.replicate (runFrom extra 0 digits) len) ++ groupLengths prev gs := fun gs => by
        rw [heq, List.append_assoc]
      rw [eq] at hlen hcs ⊢
      obtain ⟨st1, rounds1, a1, a2, a3, a4, a5⟩ := scanLengths_row (A := A) hk hlen15 hp digits st lens rounds hg hr1
        (Or.inl hrun) hd h0 hrd
        (by rw [hrun, Nat.sub_zero]; simp only [List.length_append, List.length_replicate] at hlen ⊢; omega)
        (by rw [hrun, Nat.sub_zero]; rw [codeSpace_append] at hcs; omega)
      rw [hrun, Nat.sub_zero] at a1
      have start : ∀ len', len ≠ len' → st1.runOf len' = 0 := fun len' hne' => by
        show (if st1.repeatLen ≠ len' then 0 else st1.repeats) = 0
        rw [a3 hne, if_pos hne']
      obtain ⟨st', prev', rounds', b1, b2, b3, b4, b5⟩ := ih st1 _ prev rounds1 a1
        ⟨a2, hr2, hr15, fun ds e => start _ (hprev ds e), fun ds e => start _ (hzero ds e)⟩ hwf' hsy'
        (fun before g' after e => by rw [← eq]; exact hpre (g :: before) g' after (by rw [e]; rfl)) hlen hcs a4
      exact ⟨st', prev', rounds', b1, b2, by rw [List.cons_append, heq, heq, b3, List.append_assoc], b4, a5.trans b5⟩
    cases g with
    | literal l =>
      simp only [groupLengths, List.length_append, List.length_cons] at hlen
      obtain ⟨rounds, rfl⟩ : ∃ n, rounds = n + 1 := ⟨rounds - 1, by omega⟩
      have eq : ∀ gs : List LengthGroup, lens ++ groupLengths prev (.literal l :: gs) =
          (lens ++ [l]) ++ groupLengths (if l = 0 then prev else l) gs := fun gs => by simp [groupLengths]
      rw [eq] at hcs ⊢
      have hl16 : l < 16 := hwf.1
      have hstep := scanLengths_literal (rounds := rounds) hl16 (hsy l (by simp [LengthGroup.symbols]))
        (by omega : st.count < A) (by omega)
      obtain ⟨st', prev', rounds', b1, b2, b3, b4, b5⟩ := ih (st.literal l) (lens ++ [l]) (if l = 0 then prev else l)
        rounds (hg.literal l) ⟨by
          show (if l ≠ 0 then l else st.prevLen) = _
          rw [hr1, ite_not], by split <;> assumption, by split <;> omega, fun _ _ => by
          show (if _ then 0 else 0) = 0; simp, fun _ _ => by
          show (if _ then 0 else 0) = 0; simp⟩ hwf.2 hsy'
        (fun before g' after e => by rw [← eq]; exact hpre (.literal l :: before) g' after (by rw [e]; rfl))
        (by simp only [List.length_append, List.length_singleton]; omega) hcs
        (by show A - (st.count + 1) ≤ rounds; omega)
      exact ⟨st', prev', rounds', b1, b2, by simp [groupLengths, b3], b4, hstep.trans b5⟩
    | repeatPrevious digits =>
      obtain ⟨hne, hd, hadj, hwf'⟩ := hwf
      refine row 16 2 prev digits (Or.inl ⟨rfl, rfl, rfl⟩) hne hd (hsy 16 ?_) (hr3 digits rfl) hwf'
        (fun ds e => absurd e (hadj ds)) (fun _ _ => hr2) fun gs => rfl
      obtain ⟨d, ds, rfl⟩ := List.exists_cons_of_ne_nil hne
      simp [LengthGroup.symbols]
    | repeatZero digits =>
      obtain ⟨hne, hd, hadj, hwf'⟩ := hwf
      refine row 17 3 0 digits (Or.inr ⟨rfl, rfl, rfl⟩) hne hd (hsy 17 ?_) (hr4 digits rfl) hwf'
        (fun _ _ => Ne.symm hr2) (fun ds e => absurd e (hadj ds)) fun gs => rfl
      obtain ⟨d, ds, rfl⟩ := List.exists_cons_of_ne_nil hne
      simp [LengthGroup.symbols]

/-- The scan ends where the lengths or the space are used up. -/
theorem parses_scanLengths_end {st : LengthScan} (h : A ≤ st.count ∨ st.space ≤ 0) (rounds : Nat) :
    Parses (scanLengths A clCode rounds st) [] st := by
  cases rounds with
  | zero => exact parses_pure _
  | succ n =>
    unfold scanLengths
    rw [if_neg (by omega)]
    exact parses_pure _

/-- The scan's start. -/
def LengthScan.start : LengthScan where
  rev := []
  count := 0
  prevLen := 8
  repeats := 0
  repeatLen := 0
  space := 32768

theorem LengthScan.start_holds : LengthScan.start.Holds [] := ⟨rfl, rfl, by simp [LengthScan.start, codeSpace]⟩

theorem LengthScan.start_ready (groups : List LengthGroup) : LengthScan.start.Ready 8 groups :=
  ⟨rfl, by omega, by omega, fun _ _ => rfl, fun _ _ => rfl⟩

theorem groupsWf_right (a b : List LengthGroup) (h : groupsWf (a ++ b)) : groupsWf b := by
  induction a with
  | nil => exact h
  | cons g a ih =>
    cases g with
    | literal _ => exact ih h.2
    | repeatPrevious _ => exact ih h.2.2.2
    | repeatZero _ => exact ih h.2.2.2

theorem groupLengths_le {groups : List LengthGroup} : ∀ {prev : Nat}, prev ≤ 15 → groupsWf groups →
    ∀ l ∈ groupLengths prev groups, l ≤ 15 := by
  induction groups with
  | nil => intro _ _ _ l hl; cases hl
  | cons g groups ih =>
    intro prev hp hwf l hl
    cases g with
    | literal n =>
      have := hwf.1
      rcases List.mem_cons.1 hl with rfl | hl
      · omega
      · exact ih (by split <;> omega) hwf.2 l hl
    | repeatPrevious digits =>
      rcases List.mem_append.1 hl with hl | hl
      · rw [(List.mem_replicate.1 hl).2]; exact hp
      · exact ih hp hwf.2.2.2 l hl
    | repeatZero digits =>
      rcases List.mem_append.1 hl with hl | hl
      · rw [(List.mem_replicate.1 hl).2]; omega
      · exact ih hp hwf.2.2.2 l hl

theorem groupLengths_ne_nil {prev : Nat} {g : LengthGroup} {groups : List LengthGroup} (h : groupsWf (g :: groups)) :
    groupLengths prev (g :: groups) ≠ [] := by
  have pos : ∀ extra len digits, 2 ≤ extra → digits ≠ [] →
      List.replicate (runFrom extra 0 digits) len ++ groupLengths prev groups ≠ [] := by
    intro extra len digits he hne e
    have := runFrom_gt he hne (Or.inl rfl : 0 = 0 ∨ 3 ≤ 0)
    have := (List.append_eq_nil_iff.1 e).1
    rw [List.replicate_eq_nil_iff] at this
    omega
  cases g with
  | literal l => simp [groupLengths]
  | repeatPrevious digits => exact pos 2 prev digits (by omega) h.1
  | repeatZero digits => exact pos 3 0 digits (by omega) h.1

theorem groupLengths_append (prev : Nat) (a b : List LengthGroup) :
    ∃ prev', groupLengths prev (a ++ b) = groupLengths prev a ++ groupLengths prev' b := by
  induction a generalizing prev with
  | nil => exact ⟨prev, rfl⟩
  | cons g a ih =>
    cases g with
    | literal l => obtain ⟨p, h⟩ := ih (if l = 0 then prev else l); exact ⟨p, by simp [groupLengths, h]⟩
    | repeatPrevious _ => obtain ⟨p, h⟩ := ih prev; exact ⟨p, by simp [groupLengths, h]⟩
    | repeatZero _ => obtain ⟨p, h⟩ := ih prev; exact ⟨p, by simp [groupLengths, h]⟩

/-- Lengths within the space that do not end in a 0 leave some of it before their end. -/
theorem codeSpace_left {before rest : List Nat} (hne : rest ≠ []) (h15 : ∀ l ∈ rest, l ≤ 15)
    (h : codeSpace 15 (before ++ rest) ≤ 32768) (hz : (before ++ rest).getLast? ≠ some 0) :
    codeSpace 15 before < 32768 := by
  obtain ⟨pre, z, rfl⟩ : ∃ pre z, rest = pre ++ [z] := ⟨_, _, (List.dropLast_append_getLast hne).symm⟩
  have h0 : z ≠ 0 := by rintro rfl; simp at hz
  have hp : 0 < 2 ^ 15 / 2 ^ z :=
    Nat.div_pos (Nat.pow_le_pow_right (by omega) (h15 z (by simp))) (by positivity)
  rw [codeSpace_append, codeSpace_append, codeSpace_singleton, if_neg h0] at h
  omega

/-- Everything `ReadCodeLengths` does over groups of codes: a complete code, an incomplete one, and a last code that
runs past the alphabet or over-subscribes the code. -/
theorem readCodeLengths_reads {groups : List LengthGroup}
    (hp : ∀ p ∈ groups.flatMap LengthGroup.symbols, Parses (prefixDecode clCode) (code p) p) (hwf : groupsWf groups) :
    let lens := groupLengths 8 groups
    let bits := groups.flatMap (LengthGroup.bits code)
    (lens.length ≤ A → codeSpace 15 lens = 32768 → lens.getLast? ≠ some 0 →
      Parses (readCodeLengths A clCode) bits (lens ++ List.replicate (A - lens.length) 0)) ∧
    (lens.length = A → codeSpace 15 lens < 32768 →
      Rejects (readCodeLengths A clCode) bits (.invalidBitstream .badPrefixCode)) ∧
    ∀ g, ((∃ l, g = .literal l) ∨ ∃ d, g = .repeatPrevious [d] ∨ g = .repeatZero [d]) → groupsWf (groups ++ [g]) →
      (∀ p ∈ g.symbols, Parses (prefixDecode clCode) (code p) p) → lens.length < A → codeSpace 15 lens < 32768 →
      A < (groupLengths 8 (groups ++ [g])).length ∨ 32768 < codeSpace 15 (groupLengths 8 (groups ++ [g])) →
      Rejects (readCodeLengths A clCode) (bits ++ g.bits code) (.invalidBitstream .badPrefixCode) := by
  intro lens bits
  have prefix_lt : codeSpace 15 lens < 32768 → ∀ before g after, groups = before ++ g :: after →
      codeSpace 15 ([] ++ groupLengths 8 before) < 32768 := by
    intro h before g after e
    obtain ⟨prev', he⟩ := groupLengths_append 8 before (g :: after)
    have : lens = groupLengths 8 before ++ groupLengths prev' (g :: after) := by rw [← he, ← e]
    rw [this, codeSpace_append] at h
    show codeSpace 15 (groupLengths 8 before) < 32768
    omega
  -- A scan that ends with `lens`.
  have ends : (∀ before g after, groups = before ++ g :: after → codeSpace 15 ([] ++ groupLengths 8 before) < 32768) →
      lens.length ≤ A → codeSpace 15 lens ≤ 32768 → (lens.length = A ∨ codeSpace 15 lens = 32768) →
      ∃ st, st.Holds lens ∧ Parses (scanLengths A clCode A LengthScan.start) bits st := by
    intro hpre h1 h2 h3
    obtain ⟨st, _, rounds, hg, _, _, _, hl⟩ := scanLengths_groups (A := A) (clCode := clCode) (code := code) [] groups
      LengthScan.start [] 8 A LengthScan.start_holds (LengthScan.start_ready _) (by simpa using hwf) hp hpre h1 h2
      (Nat.sub_le _ _)
    refine ⟨st, hg, ?_⟩
    have := hl.parses (parses_scanLengths_end (by
      have h4 := hg.count; have h5 := hg.space
      rw [List.nil_append] at h4 h5
      show A ≤ st.count ∨ st.space ≤ 0
      have : codeSpace 15 (groupLengths 8 groups) = codeSpace 15 lens := rfl
      have : (groupLengths 8 groups).length = lens.length := rfl
      omega) rounds)
    simpa using this
  refine ⟨fun h1 h2 h3 => ?_, fun h1 h2 => ?_, fun g hone hwf' hpg h1 h2 h3 => ?_⟩
  · obtain ⟨st, hg, hs⟩ := ends (fun before g after e => by
      obtain ⟨prev', he⟩ := groupLengths_append 8 before (g :: after)
      have hlens : lens = groupLengths 8 before ++ groupLengths prev' (g :: after) := by rw [← he, ← e]
      refine codeSpace_left (groupLengths_ne_nil (prev := prev') (groupsWf_right before _ (e ▸ hwf))) (fun l hl => ?_)
        (by rw [List.nil_append, ← hlens]; omega) (by rw [List.nil_append, ← hlens]; exact h3)
      exact groupLengths_le (by omega : 8 ≤ 15) hwf l (by
        show l ∈ lens
        rw [hlens]; exact List.mem_append_right _ hl)) h1 (by omega) (Or.inr h2)
    refine hs.bind_nil (Parses.check (by rw [hg.space, h2]; rfl) ?_)
    rw [hg.rev, hg.count, List.reverse_reverse]
    exact parses_pure _
  · obtain ⟨st, hg, hs⟩ := ends (prefix_lt h2) (by omega) (by omega) (Or.inl h1)
    exact hs.bind_rejects_nil (rejects_check (by rw [hg.space]; omega))
  · obtain ⟨st, prev, rounds, hg, hr, hlen, hrd, hl⟩ := scanLengths_groups (A := A) (clCode := clCode) (code := code) [g]
      groups LengthScan.start [] 8 A LengthScan.start_holds (LengthScan.start_ready _) hwf' hp (prefix_lt h2)
      (Nat.le_of_lt h1) (Nat.le_of_lt h2) (Nat.sub_le _ _)
    rw [hlen] at h3
    rw [List.nil_append] at hg
    have hcount := hg.count
    have hspace := hg.space
    change st.count = lens.length at hcount
    change st.space = 32768 - (codeSpace 15 lens : Nat) at hspace
    change st.Holds lens at hg
    change A < (lens ++ groupLengths prev [g]).length ∨ 32768 < codeSpace 15 (lens ++ groupLengths prev [g]) at h3
    obtain ⟨hr1, hr2, hr15, hr3, hr4⟩ := hr
    obtain ⟨rounds, rfl⟩ : ∃ n, rounds = n + 1 := ⟨rounds - 1, by omega⟩
    have wf := groupsWf_right groups _ hwf'
    -- One code more, and where it leaves the scan.
    have overfull : ∀ st' m bits', st'.Holds (lens ++ groupLengths prev [g]) → 32768 < codeSpace 15 (lens ++ groupLengths prev [g]) →
        Leads (scanLengths A clCode (rounds + 1) st) m bits' → m = scanLengths A clCode rounds st' →
        Rejects (readCodeLengths A clCode) (bits ++ bits') (.invalidBitstream .badPrefixCode) := by
      intro st' m bits' hg' h hl' hm
      subst hm
      have hsp := hg'.space
      have hs := (hl.trans hl').parses (parses_scanLengths_end (A := A) (clCode := clCode) (st := st') (by omega) rounds)
      rw [List.append_nil] at hs
      exact hs.bind_rejects_nil (rejects_check (by omega))
    have row : ∀ p extra len d, RepeatCode p extra len prev → d < 2 ^ extra → st.runOf len = 0 →
        Parses (prefixDecode clCode) (code p) p → groupLengths prev [g] = List.replicate (d + 3) len →
        Rejects (readCodeLengths A clCode) (bits ++ (code p ++ fieldBits extra d)) (.invalidBitstream .badPrefixCode) := by
      intro p extra len d hk hd hrun hp heq
      have hstep := scanLengths_repeat (rounds := rounds) (by rw [hr1]; exact hk) hd hp (by omega : st.count < A) (by omega)
      have hcnt : repeatCount 0 extra d - 0 = d + 3 := by unfold repeatCount; simp
      rw [hrun, hcnt] at hstep
      by_cases hfit : st.count + (d + 3) ≤ A
      · have := overfull _ _ _ (by rw [heq]; exact hg.run len (repeatCount 0 extra d) (d + 3)) (by
          rcases h3 with h3 | h3
          · rw [heq] at h3; simp only [List.length_append, List.length_replicate] at h3; omega
          · exact h3) (hstep.trans (leads_check hfit)) rfl
        simpa using this
      · have := (hl.trans hstep).rejects (rejects_check hfit)
        rw [List.append_nil] at this
        exact this.bind
    rcases hone with ⟨l, rfl⟩ | ⟨d, rfl | rfl⟩
    · have e1 : groupLengths prev [.literal l] = [l] := rfl
      rw [e1] at h3
      refine overfull (st.literal l) _ _ (hg.literal l) (by
        rcases h3 with h3 | h3
        · simp only [List.length_append, List.length_singleton] at h3; omega
        · exact h3) (scanLengths_literal wf.1 (hpg l (by simp [LengthGroup.symbols])) (by omega) (by omega)) rfl
    · have := row 16 2 prev d (Or.inl ⟨rfl, rfl, rfl⟩) (wf.2.1 d (by simp)) (hr3 [d] rfl)
        (hpg 16 (by simp [LengthGroup.symbols])) (by simp [groupLengths, runLength])
      simpa [LengthGroup.bits] using this
    · have := row 17 3 0 d (Or.inr ⟨rfl, rfl, rfl⟩) (wf.2.1 d (by simp)) (hr4 [d] rfl)
        (hpg 17 (by simp [LengthGroup.symbols])) (by simp [groupLengths, runLength])
      simpa [LengthGroup.bits] using this

end Sys2Proof.Machine
end

