-- ==== Sys2Proof/Laws/PerInstr.lean ====
section
/-! SUPPORT. The law of every command's encoding, one lemma for each command: bits 31:8 of its word are zero
(`30_encoding.md` R100) and its low byte is its opcode. -/

namespace Sys2Proof.Laws.HighBitsZero

/-- The word of a command is its opcode, with zero bits above it. -/
def Statement (i : Instr) : Prop := zeroField (encode i) = 0#24 ∧ opField (encode i) = opcode i

theorem nop : Statement .nop := by constructor <;> decide

theorem hybExpand : Statement .hybExpand := by constructor <;> decide

theorem unpackSigned : Statement .unpackSigned := by constructor <;> decide

theorem hybConfigRead : Statement .hybConfigRead := by constructor <;> decide

theorem esInit : Statement .esInit := by constructor <;> decide

theorem esRead : Statement .esRead := by constructor <;> decide

theorem esValidate : Statement .esValidate := by constructor <;> decide

theorem esClone : Statement .esClone := by constructor <;> decide

theorem esFree : Statement .esFree := by constructor <;> decide

theorem treeLoad : Statement .treeLoad := by constructor <;> decide

theorem treeCompact : Statement .treeCompact := by constructor <;> decide

theorem treeWalk : Statement .treeWalk := by constructor <;> decide

theorem chlClear : Statement .chlClear := by constructor <;> decide

theorem chlAppend : Statement .chlAppend := by constructor <;> decide

theorem chDecode : Statement .chDecode := by constructor <;> decide

theorem chRead : Statement .chRead := by constructor <;> decide

theorem chWrite : Statement .chWrite := by constructor <;> decide

theorem chInfo : Statement .chInfo := by constructor <;> decide

theorem xfPushRct : Statement .xfPushRct := by constructor <;> decide

theorem xfPushPalette : Statement .xfPushPalette := by constructor <;> decide

theorem xfPushSqueeze : Statement .xfPushSqueeze := by constructor <;> decide

theorem xfApply : Statement .xfApply := by constructor <;> decide

end Sys2Proof.Laws.HighBitsZero
end

