-- ==== Sys2Proof/Laws/Step.lean ====
section
/-! SUPPORT. Everything a step can do, said once: which of the host and the engine moves, what a host action changes, and
that a command is the run of its body. -/

namespace Sys2Proof.Machine

/-- The computation of each command. -/
def commandBody : Instr → Cmd
  | .nop => pure {}
  | .hybExpand => hybExpandBody
  | .unpackSigned => unpackSignedBody
  | .hybConfigRead => hybConfigReadBody
  | .esInit => esInitBody
  | .esRead => esReadBody
  | .esValidate => esValidateBody
  | .esClone => esCloneBody
  | .esFree => esFreeBody
  | .treeLoad => treeLoadBody
  | .treeCompact => treeCompactBody
  | .treeWalk => treeWalkBody
  | .chlClear => chlClearBody
  | .chlAppend => chlAppendBody
  | .chDecode => chDecodeBody
  | .chRead => chReadBody
  | .chWrite => chWriteBody
  | .chInfo => chInfoBody
  | .xfPushRct => xfPushRctBody
  | .xfPushPalette => xfPushPaletteBody
  | .xfPushSqueeze => xfPushSqueezeBody
  | .xfApply => xfApplyBody

/-- Every command is the run of its body. -/
theorem exec_eq_runCommand (i : Instr) (s : State) : exec i s = runCommand (commandBody i) s := by cases i <;> rfl

/-- Everything a command can answer. -/
theorem exec_cases (i : Instr) (s : State) :
    (∃ r t, commandBody i s = .ok r t ∧ exec i s = .next (t.complete r)) ∨
    (∃ f t, commandBody i s = .error (.raise f) t ∧ exec i s = .next (t.latchFault f)) ∨
    (∃ f t, commandBody i s = .error (.broken f) t ∧ exec i s = .fault f) := by
  rw [exec_eq_runCommand]; exact runCommand_cases _ _

/-- A command refuses nothing. -/
theorem exec_ne_refused (i : Instr) (s : State) (r : Refusal) : exec i s ≠ .refused r := by
  rcases exec_cases i s with ⟨_, _, _, h⟩ | ⟨_, _, _, h⟩ | ⟨_, _, _, h⟩ <;> rw [h] <;> exact fun h => nomatch h

/-- What the engine's turn does. -/
theorem engineTurn_ok {s : State} {i : Instr} (h : decode s.cmd = .ok i) : engineTurn s = exec i s := by
  unfold engineTurn; rw [h]

theorem engineTurn_error {s : State} {e : IllegalWord} (h : decode s.cmd = .error e) :
    engineTurn s = .next (s.latchFault (.illegalCommand (opField s.cmd))) := by
  unfold engineTurn; rw [h]

/-- Everything a step that goes on can do. -/
theorem step_cases {s t : State} (h : step s = .next t) :
    (∃ a more, s.inputs = a :: more ∧ a ≠ .wait ∧ t = ({ s with inputs := more } : State).hostAction a) ∨
    (s.busy = false ∧ s.inputs = [] ∧ t = s) ∨
    (s.busy = false ∧ ∃ more, s.inputs = .wait :: more ∧ t = { s with inputs := more }) ∨
    (s.busy = true ∧ s.inputs = [] ∧ engineTurn s = .next t) ∨
    (s.busy = true ∧ ∃ more, s.inputs = .wait :: more ∧ engineTurn { s with inputs := more } = .next t) := by
  unfold step at h
  cases hi : s.inputs with
  | nil =>
    rw [hi] at h
    cases hb : s.busy with
    | false => rw [hb] at h; cases h; exact .inr (.inl ⟨rfl, rfl, rfl⟩)
    | true => rw [hb] at h; exact .inr (.inr (.inr (.inl ⟨rfl, rfl, h⟩)))
  | cons a more =>
    rw [hi] at h
    cases a with
    | wait =>
      cases hb : s.busy with
      | false =>
        simp only [hb] at h
        cases h
        exact .inr (.inr (.inl ⟨rfl, more, rfl, rfl⟩))
      | true =>
        simp only [hb] at h
        exact .inr (.inr (.inr (.inr ⟨rfl, more, rfl, h⟩)))
    | write index v => cases h; exact .inl ⟨_, more, rfl, fun h => (nomatch h), rfl⟩
    | present bits => cases h; exact .inl ⟨_, more, rfl, fun h => (nomatch h), rfl⟩
    | hardReset bits => cases h; exact .inl ⟨_, more, rfl, fun h => (nomatch h), rfl⟩

/-- Everything a write of `CMD` can do. -/
theorem writeCmd_cases (s : State) (w : Word) :
    (s.fault ≠ none ∧ writeCmd s w = s) ∨
    (s.fault = none ∧ s.busy = true ∧ writeCmd s w = { s with overrun := true }) ∨
    (s.fault = none ∧ s.busy = false ∧ (∃ i, decode w = .ok i) ∧ writeCmd s w = s.issue w) ∨
    (s.fault = none ∧ s.busy = false ∧ (∃ e, decode w = .error e) ∧
      writeCmd s w = s.latchFault (.illegalCommand (opField w))) := by
  unfold writeCmd
  cases hf : s.fault with
  | some f => exact .inl ⟨fun h => (nomatch h), rfl⟩
  | none =>
    cases hb : s.busy with
    | true => exact .inr (.inl ⟨rfl, rfl, rfl⟩)
    | false =>
      cases hd : decode w with
      | ok i => exact .inr (.inr (.inl ⟨rfl, rfl, ⟨i, rfl⟩, by simp⟩))
      | error e => exact .inr (.inr (.inr ⟨rfl, rfl, ⟨e, rfl⟩, by simp⟩))

/-- Everything a write of a register can do. -/
theorem writeReg_cases (s : State) (index : Nat) (v : Word) :
    (index = 0x01 ∧ s.writeReg index v = writeCmd s v) ∨
    (index = 0x02 ∧ s.writeReg index v = if v.getLsbD 1 then { s with done := false } else s) ∨
    (index = 0x03 ∧ v.getLsbD 1 = true ∧ s.writeReg index v = softReset s) ∨
    (index = 0x03 ∧ v.getLsbD 1 = false ∧ s.writeReg index v = { s with irqEn := v.getLsbD 0 }) ∨
    (index ∉ [0x01, 0x02, 0x03] ∧ s.writeReg index v = { s with regs := HostRegs.put s.regs index v }) := by
  by_cases h1 : index = 0x01
  · subst h1; exact .inl ⟨rfl, rfl⟩
  by_cases h2 : index = 0x02
  · subst h2; exact .inr (.inl ⟨rfl, rfl⟩)
  by_cases h3 : index = 0x03
  · subst h3
    cases hv : v.getLsbD 1 with
    | true =>
      refine .inr (.inr (.inl ⟨rfl, rfl, ?_⟩))
      show writeCtrl s v = _
      unfold writeCtrl
      rw [hv]
      rfl
    | false =>
      refine .inr (.inr (.inr (.inl ⟨rfl, rfl, ?_⟩)))
      show writeCtrl s v = _
      unfold writeCtrl
      rw [hv]
      rfl
  · exact .inr (.inr (.inr (.inr ⟨by simp [h1, h2, h3], by simp [State.writeReg, h1, h2, h3]⟩)))

/-- The state a reset leaves (log 24). -/
theorem restart_eq (s : State) (bits : List Bool) :
    s.restart bits =
      { State.reset with source := { rest := bits, pos := 0 }, inputs := s.inputs, draws := s.draws } := rfl

/-- An aborted command has consumed at most what its completion would (R461, log 5). -/
theorem abortDraw_le (s : State) : abortDraw s ≤ bitsOfCompletion s := Nat.le_of_lt_succ (Nat.mod_lt _ (Nat.succ_pos _))

end Sys2Proof.Machine
end

