-- ==== Sys2Proof/Laws/Transform.lean ====
section
/-! SUPPORT. What undoing transforms can do to the block (`45_transforms.md` R363): it changes only the channel list,
`nbMeta` and the transform list, and it stops only with a fault of the block. -/

namespace Sys2Proof.Machine

/-- What undoing a transform changes of the block. -/
def XfKept (s t : State) : Prop :=
  t = { s with channels := t.channels, nbMeta := t.nbMeta, transforms := t.transforms }

theorem kept_xf : Kept XfKept where
  refl _ := rfl
  trans _ _ _ h h' := by unfold XfKept at *; rw [h', h]

theorem update_runs {R : State → State → Prop} {f : State → State} (h : ∀ s, R s (f s)) :
    Runs R (update f) fun _ => True := fun s => ⟨h s, trivial⟩

theorem theState_runs {R : State → State → Prop} (k : Kept R) : Runs R theState fun _ => True :=
  fun s => ⟨k.refl s, trivial⟩

/-- A missing record is a fault of the block (log 14). -/
theorem record_runs {R : State → State → Prop} (k : Kept R) (o : Option Channel) (f : BlockFault) :
    Runs R (orRaise o f) fun _ => True := (Runs.orRaise k).mono fun _ _ => trivial

theorem inverseRct_runs (m rctType : Nat) : Runs XfKept (inverseRct m rctType) fun _ => True := by
  have k := kept_xf
  refine Runs.bind k (theState_runs k) fun s _ => Runs.bind k (record_runs k _ _) fun c0 _ =>
    Runs.bind k (record_runs k _ _) fun c1 _ => Runs.bind k (record_runs k _ _) fun c2 _ =>
      Runs.bind k (Runs.checkBitstream k) fun _ _ => Runs.bind k (Q := fun _ => True) ?_ fun _ _ =>
        update_runs fun _ => rfl
  exact Runs.onPart (rctPixels_runs rctType c0.width c0.area c0.area 0 (by omega)) fun _ _ _ => rfl

theorem invH_runs (A R : Channel) : Runs XfKept (invH A R) fun _ => True := by
  have k := kept_xf
  refine Runs.bind k (Runs.checkBitstream k) fun _ _ => Runs.bind k (Q := fun _ => True) (Runs.ofExcept k (fun _ _ => trivial)
    (unsqueezeLines_raises (fun _ _ => sampleAt_raises _ _ _ _) (fun _ _ => sampleAt_raises _ _ _ _) _ _ _ _))
    fun _ _ => Runs.bind k (Runs.checkBitstream k) fun _ _ => Runs.pure k trivial

theorem invV_runs (A R : Channel) : Runs XfKept (invV A R) fun _ => True := by
  have k := kept_xf
  refine Runs.bind k (Runs.checkBitstream k) fun _ _ => Runs.bind k (Q := fun _ => True) (Runs.ofExcept k (fun _ _ => trivial)
    (unsqueezeLines_raises (fun _ _ => sampleAt_raises _ _ _ _) (fun _ _ => sampleAt_raises _ _ _ _) _ _ _ _))
    fun _ _ => Runs.bind k (Runs.checkBitstream k) fun _ _ => Runs.pure k trivial

theorem inverseSqueezeLoop_runs (horizontal : Bool) : ∀ left c r,
    Runs XfKept (inverseSqueezeLoop horizontal left c r) fun _ => True
  | 0, _, _ => Runs.pure kept_xf trivial
  | left + 1, c, r => by
    have k := kept_xf
    refine Runs.bind k (theState_runs k) fun s _ => Runs.bind k (record_runs k _ _) fun A _ =>
      Runs.bind k (record_runs k _ _) fun R _ => Runs.bind k (Q := fun _ => True) ?_ fun out _ =>
        Runs.bind k (update_runs fun _ => rfl) fun _ _ => inverseSqueezeLoop_runs horizontal left (c + 1) (r + 1)
    split
    · exact invH_runs A R
    · exact invV_runs A R

theorem paletteOutput_runs {R : State → State → Prop} (k : Kept R) (j : PaletteJob) (c : Nat) :
    Runs R (paletteOutput j c) fun _ => True := by
  intro s
  have h := palettePixels_runs j c j.index.area j.index.area 0 (by omega) { samples := [], wp := {} }
  unfold paletteOutput
  cases hp : palettePixels j c j.index.area 0 { samples := [], wp := {} } with
  | ok a t => exact ⟨k.refl s, trivial⟩
  | error e t => rw [hp] at h; exact ⟨k.refl s, h.2⟩

theorem inversePalette_runs (b n nbColours nbDeltas : Nat) (q : Predictor) :
    Runs XfKept (inversePalette b n nbColours nbDeltas q) fun _ => True := by
  have k := kept_xf
  exact Runs.bind k (theState_runs k) fun s _ => Runs.bind k (Runs.checkContract k) fun _ _ =>
    Runs.bind k (record_runs k _ _) fun pal _ => Runs.bind k (record_runs k _ _) fun index _ =>
      Runs.bind k (Runs.checkBitstream k) fun _ _ => Runs.bind k (Runs.require k) fun _ _ =>
        Runs.bind k ((Runs.forAll k (Q' := fun _ => True) fun c _ => paletteOutput_runs k _ c).mono fun _ _ => trivial)
          fun outs _ => update_runs fun _ => rfl

theorem undoTransform_runs (t : Transform) : Runs XfKept (undoTransform t) fun _ => True := by
  cases t with
  | rct m rctType => exact inverseRct_runs m rctType
  | palette b n nbColours nbDeltas q => exact inversePalette_runs b n nbColours nbDeltas q
  | squeeze b n horizontal inPlace rPos =>
    exact Runs.bind kept_xf (inverseSqueezeLoop_runs horizontal n b rPos) fun _ _ => update_runs fun _ => rfl

/-- Undoing a transform list never stops the model, and changes only the three lists and `nbMeta`. -/
theorem undoTransforms_runs : ∀ l, Runs XfKept (undoTransforms l) fun _ => True
  | [] => Runs.pure kept_xf trivial
  | t :: more => Runs.bind kept_xf (update_runs fun _ => rfl) fun _ _ =>
      Runs.bind kept_xf (undoTransform_runs t.transform) fun _ _ =>
        Runs.bind kept_xf (update_runs fun _ => rfl) fun _ _ => undoTransforms_runs more

end Sys2Proof.Machine
end

