-- ==== Sys2Proof/Tests/Slice0.lean ====
section
/-! SUPPORT. Tests of the model on fixed values. Every expected value is copied from the spec: the opcode map of
`30_encoding.md` R102, or the row of `95_test_vectors.md` that the test names. At the end, for every statement with
hypotheses, a witness that meets them. -/

namespace Sys2Proof.Tests

open Sys2Proof Sys2Proof.Machine

/-! ## Small states -/

/-- A block whose engine is about to run a command with operands `a`, over the bits `rest`. -/
def running (a : Args) (rest : List Bool := []) : State :=
  { State.reset with busy := true, latched := { args := a }, source := { rest := rest, pos := 0 } }

/-- Where a command ends, if it ends in a next state. -/
def after (i : Instr) (s : State) : Option State :=
  match exec i s with
  | .next t => some t
  | .fault _ => none
  | .refused _ => none

/-- What a computation answers. -/
def answer {σ α : Type} (m : Eng σ α) (s : σ) : Option α :=
  match m s with
  | .ok a _ => some a
  | .error _ _ => none

/-- `STATUS`, `FAULT_INFO`, `RESULT0` and `BITPOS_LO` after a command. -/
def report (i : Instr) (s : State) : Option (Word × Word × Word × Word) :=
  (after i s).map fun t => (t.readReg 0x02, t.readReg 0x04, t.readReg 0x10, t.readReg 0x05)

/-- A record of known samples, in row-major order. -/
def record (w h : Nat) (vs : List Int) (decoded : Bool := false) : Channel where
  width := w
  height := h
  hshift := 0
  vshift := 0
  originX := 0
  originY := 0
  decoded := decoded
  forceWP := false
  samples := (vs.zipIdx).map fun e => (e.2, Word.ofInt e.1)

/-- The samples of a record, in row-major order, where none is empty. -/
def values (ch : Channel) : List Int := ch.samples.map fun e => e.2.toInt

/-- The bits of program P1 (`95_test_vectors.md` section 3). -/
def bitsP1 : List Bool := fieldBits 74 0x030C5012A14700802486

/-- The bits of program P6 (`95_test_vectors.md` section 3). -/
def bitsP6 : List Bool := fieldBits 89 0x00D8BAC4841C040133800007

/-- The data stream of program P2: one context, ANS, `L = 5`, the distribution of table T1. -/
def streamP2 : StreamConfig where
  clusterMap := [0]
  lz77 := none
  coding := .ans 5 [{
    config := { splitExponent := 4, msbInToken := 0, lsbInToken := 0 }
    freqs := ((List.replicate 32 0).set 3 2048).set 6 2048
    table := buildAlias (((List.replicate 32 0).set 3 2048).set 6 2048) 5 }]

/-- The data stream of program P7: two contexts of one cluster, ANS, `L = 5`, the first 16 symbols of frequency 256. -/
def streamP7 : StreamConfig where
  clusterMap := [0, 0]
  lz77 := none
  coding := .ans 5 [{
    config := { splitExponent := 4, msbInToken := 0, lsbInToken := 0 }
    freqs := List.replicate 16 256 ++ List.replicate 16 0
    table := buildAlias (List.replicate 16 256 ++ List.replicate 16 0) 5 }]

/-- The stream of program P6. -/
def streamP6 : StreamConfig where
  clusterMap := [0, 1]
  lz77 := some { minSymbol := 8, minLength := 3, lengthConfig := { splitExponent := 8, msbInToken := 0, lsbInToken := 0 } }
  coding := .prefixCode [
    { config := { splitExponent := 4, msbInToken := 0, lsbInToken := 0 }, alphabetSize := 9,
      code := .canonical [0, 0, 0, 0, 0, 2, 0, 2, 1] },
    { config := { splitExponent := 4, msbInToken := 0, lsbInToken := 0 }, alphabetSize := 2, code := .zeroBits 1 }]

/-- The tree of program P7. -/
def treeP7 : List Node := [
  .decision 3 0 1 2,
  .leaf { context := 0, predictor := .weighted, offset := 0, multiplier := 1 },
  .leaf { context := 1, predictor := .clampedGradient, offset := 0, multiplier := 1 }]

/-- A block with stream `st` in slot 0. -/
def withStream (s : State) (st : Stream) : State := s.setSlot 0 (some st)

/-! ## Decoding: the words of `30_encoding.md` R102, bits 31:8 zero and the opcode written out -/

theorem test_decode_control : decode 0b00000000#32 = .ok .nop ∧ decode 0b00110011#32 = .ok .chRead ∧
    decode 0b00110100#32 = .ok .chWrite ∧ decode 0b00110101#32 = .ok .chInfo := by decide

theorem test_decode_hybrid : decode 0b00000001#32 = .ok .hybExpand ∧ decode 0b00000010#32 = .ok .unpackSigned ∧
    decode 0b00000011#32 = .ok .hybConfigRead := by decide

theorem test_decode_stream : decode 0b00010000#32 = .ok .esInit ∧ decode 0b00010001#32 = .ok .esRead ∧
    decode 0b00010010#32 = .ok .esValidate ∧ decode 0b00010011#32 = .ok .esClone ∧
    decode 0b00010100#32 = .ok .esFree := by decide

theorem test_decode_tree : decode 0b00100000#32 = .ok .treeLoad ∧ decode 0b00100001#32 = .ok .treeCompact ∧
    decode 0b00100010#32 = .ok .treeWalk := by decide

theorem test_decode_channel : decode 0b00110000#32 = .ok .chlClear ∧ decode 0b00110001#32 = .ok .chlAppend ∧
    decode 0b00110010#32 = .ok .chDecode := by decide

theorem test_decode_transform : decode 0b01000000#32 = .ok .xfPushRct ∧ decode 0b01000001#32 = .ok .xfPushPalette ∧
    decode 0b01000010#32 = .ok .xfPushSqueeze ∧ decode 0b01000011#32 = .ok .xfApply := by decide

/-- Words that are no command (rows F2 to F4). -/
theorem test_decode_illegal : decode 0x000000FF#32 = .error .unassignedOp ∧ decode 0x00000100#32 = .error .highBits ∧
    decode 0x00000015#32 = .error .unassignedOp := by decide

theorem test_decode_table_word : decodeTableWord 32 0x43 = some .xfApply ∧ decodeTableWord 8 0x11 = some .esRead ∧
    decodeTableWord 32 0x143 = none := by decide

/-! ## Operand words that the checks of WellFormed.lean refuse -/

theorem test_wf_hyb_expand : Instr.wf .hybExpand { arg1 := 0x0F5#32 } = false ∧
    Instr.wf .hybExpand { arg1 := 0x1004#32 } = false ∧ Instr.wf .hybExpand { arg1 := 0x114#32 } = true := by decide

theorem test_wf_hyb_config_read : Instr.wf .hybConfigRead { arg0 := 9#32 } = false := by decide

theorem test_wf_es_init : Instr.wf .esInit { arg0 := 8#32, arg1 := 1#32 } = false ∧
    Instr.wf .esInit { arg1 := 0#32 } = false ∧ Instr.wf .esInit { arg1 := 0x100001#32 } = false ∧
    Instr.wf .esInit { arg1 := 1#32, arg2 := 2#32 } = false := by decide

theorem test_wf_slots : Instr.wf .esRead { arg0 := 8#32 } = false ∧ Instr.wf .esValidate { arg0 := 8#32 } = false ∧
    Instr.wf .esClone { arg0 := 8#32 } = false ∧ Instr.wf .esClone { arg1 := 8#32 } = false ∧
    Instr.wf .esFree { arg0 := 8#32 } = false := by decide

theorem test_wf_trees : Instr.wf .treeLoad { arg0 := 2#32 } = false ∧ Instr.wf .treeLoad { arg1 := 8#32 } = false ∧
    Instr.wf .treeCompact { arg0 := 2#32 } = false ∧ Instr.wf .treeCompact { arg3 := 2#32 } = false ∧
    Instr.wf .treeWalk { arg0 := 2#32 } = false := by decide

theorem test_wf_channels : Instr.wf .chlAppend { arg0 := 0x80000000#32 } = false ∧
    Instr.wf .chlAppend { arg1 := 0x80000000#32 } = false ∧ Instr.wf .chDecode { arg1 := 2#32 } = false ∧
    Instr.wf .chDecode { arg2 := 8#32 } = false := by decide

theorem test_wf_transforms : Instr.wf .xfPushRct { arg1 := 42#32 } = false ∧ Instr.wf .xfPushPalette {} = false ∧
    Instr.wf .xfPushPalette { arg1 := 1#32, arg4 := 14#32 } = false ∧ Instr.wf .xfPushSqueeze {} = false ∧
    Instr.wf .xfPushSqueeze { arg1 := 1#32, arg2 := 4#32 } = false := by decide

/-! ## Control and sample access -/

/-- Row F1. -/
theorem test_nop : report .nop (running {}) = some (2#32, 0#32, 0#32, 0#32) := by decide +kernel

/-- Row F2, then row F5. -/
theorem test_illegal_word_latched : ((State.reset.writeReg 0x01 0xFF#32).writeReg 0x01 0#32).readReg 0x02 = 0x0304#32 ∧
    (State.reset.writeReg 0x01 0xFF#32).readReg 0x04 = 0x00FF#32 := by decide +kernel

/-- Program P2, step 7, and row F11. -/
theorem test_ch_read : report .chRead { running { arg1 := 1#32 } with channels := [record 2 1 [3, 1]] } =
      some (2#32, 0#32, 1#32, 0#32) ∧
    report .chRead { running {} with channels := [record 1 1 []] } = some (0x0404#32, 0x0403#32, 0#32, 0#32) := by
  decide +kernel

/-- Program P5, step 6. -/
theorem test_ch_write : (after .chWrite { running { arg0 := 1#32, arg3 := 0xFFFFFFF7#32 } with
    channels := [record 3 1 [15, 28, 5], record 2 1 []] }).map (fun t => t.sample 1 0 0) =
      some (some 0xFFFFFFF7#32) := by decide +kernel

/-- Rows F17 and F18. -/
theorem test_ch_info : report .chInfo { running { arg0 := 1#32 } with channels := [record 2 1 []] } =
      some (0x0404#32, 0x0401#32, 0#32, 0#32) ∧
    (after .chInfo { running {} with
      channels := [{ record 2 1 [] with hshift := -1, vshift := -1 }], nbMeta := 1 }).map
        (fun t => (t.result0, t.result1, t.result2)) = some (2#32, 1#32, 0x00FFFF04#32) := by decide +kernel

/-! ## Hybrid integers -/

/-- Rows H7 and H8. -/
theorem test_hyb_expand_splice :
    report .hybExpand (running { arg0 := 19#32, arg1 := 0x114#32 } [false, true]) = some (2#32, 0#32, 29#32, 2#32) ∧
    report .hybExpand (running { arg0 := 16#32, arg1 := 0x004#32 } [true, false, true, false]) =
      some (2#32, 0#32, 21#32, 4#32) := by decide +kernel

/-- Rows H14, H15 and H17. -/
theorem test_hyb_expand_faults :
    report .hybExpand (running { arg0 := 33#32 } (List.replicate 32 false)) =
      some (0x0104#32, 0x0103#32, 0#32, 32#32) ∧
    report .hybExpand (running { arg0 := 34#32 }) = some (0x0104#32, 0x0102#32, 0#32, 0#32) ∧
    report .hybExpand (running { arg0 := 16#32, arg1 := 0x004#32 } [true, false]) =
      some (0x0204#32, 0x0200#32, 0#32, 0#32) := by decide +kernel

/-- The `UNPACK_SIGNED` table, 7 and `0xFFFFFFFF`. -/
theorem test_unpack_signed : report .unpackSigned (running { arg0 := 7#32 }) = some (2#32, 0#32, 0xFFFFFFFC#32, 0#32) ∧
    report .unpackSigned (running { arg0 := 0xFFFFFFFF#32 }) = some (2#32, 0#32, 0x80000000#32, 0#32) := by
  decide +kernel

/-- Rows C5 and C4. -/
theorem test_hyb_config_read :
    report .hybConfigRead (running { arg0 := 5#32 } [false, false, true, true, false, false, true, false]) =
      some (2#32, 0#32, 0x114#32, 8#32) ∧
    report .hybConfigRead (running { arg0 := 8#32 } [true, false, false, true]) =
      some (0x0104#32, 0x0101#32, 0#32, 4#32) := by decide +kernel

/-! ## Entropy streams -/

/-- Rows E1 and E4. -/
theorem test_es_init : report .esInit (running { arg1 := 1#32 } bitsP6) = some (2#32, 0#32, 2#32, 84#32) ∧
    report .esInit (running { arg0 := 1#32, arg1 := 1#32, arg2 := 1#32 } bitsP6) =
      some (0x0104#32, 0x0106#32, 0#32, 1#32) := by decide +kernel

/-- Row A1. -/
theorem test_es_read_ans : (after .esRead (withStream (running {})
    { config := streamP2, coder := { ansState := 0x004C0980#32, hasState := true } })).map
      (fun t => (t.result0, (t.stream? 0#32).map (fun st => st.coder.ansState))) =
        some (6#32, some 0x00260180#32) := by decide +kernel

/-- Row E2, the third read: the start of a copy. -/
theorem test_es_read_copy : (after .esRead (withStream (running {} [false])
    { config := streamP6, coder := { window := [(0, 5#32), (1, 7#32)], numDecoded := 2 } })).map
      (fun t => (t.result0, t.source.pos, (t.stream? 0#32).map (fun st => st.coder.copyRemaining))) =
        some (5#32, 1, some 2) := by decide +kernel

/-- Rows A6 and A7. -/
theorem test_es_validate :
    report .esValidate (withStream (running {})
      { config := streamP2, coder := { ansState := 0x00260180#32, hasState := true } }) =
        some (0x0104#32, 0x0108#32, 0#32, 0#32) ∧
    report .esValidate (withStream (running {})
      { config := streamP2, coder := { ansState := 0x00130000#32, hasState := true } }) =
        some (2#32, 0#32, 0#32, 0#32) := by decide +kernel

/-- `42_entropy_stream.md` R254: the copy has a fresh coder part. -/
theorem test_es_clone : (after .esClone (withStream (running { arg1 := 1#32 })
    { config := streamP6, coder := { window := [(0, 5#32)], numDecoded := 1, copyRemaining := 2 } })).map
      (fun t => t.stream? 1#32) = some (some { config := streamP6, coder := {} }) := by decide +kernel

/-- `42_entropy_stream.md` R255. -/
theorem test_es_free : (after .esFree (withStream (running {}) { config := streamP6, coder := {} })).map
    (fun t => t.stream? 0#32) = some none := by decide +kernel

/-! ## Trees -/

/-- Program P1, step 3. -/
theorem test_tree_load : (after .treeLoad (running {} bitsP1)).map (fun t => (t.result0, t.result1, t.source.pos,
    t.tree? 0#32)) = some (1#32, 1#32, 74,
      some [.leaf { context := 0, predictor := .zero, offset := 5, multiplier := 1 }]) := by decide +kernel

/-- Row F12. -/
theorem test_tree_load_truncated : (after .treeLoad (running {} (bitsP1.take 73))).map (fun t => (t.readReg 0x02,
    t.source.pos, t.tree? 0#32, t.stream? 0#32)) = some (0x0204#32, 71, none, none) := by decide +kernel

/-- Row K1. -/
theorem test_tree_compact : (after .treeCompact ((running {}).setTree 0 treeP7)).map
    (fun t => (t.result0, t.result1)) = some (3#32, 1#32) := by decide +kernel

/-- Rows K2 and K3. -/
theorem test_tree_walk :
    (after .treeWalk { (running { arg2 := 2#32 }).setTree 0 treeP7 with channels := [record 3 2 []] }).map
      (fun t => (t.result0, t.result1, t.result2)) = some (1#32, 0#32, 6#32) ∧
    (after .treeWalk { (running { arg3 := 1#32 }).setTree 0 treeP7 with channels := [record 3 2 []] }).map
      (fun t => (t.result0, t.result1, t.result2)) = some (2#32, 1#32, 5#32) := by decide +kernel

/-! ## Channels -/

/-- Program P1, step 1. -/
theorem test_chl_clear : (after .chlClear { running {} with channels := [record 1 1 [8]], nbMeta := 1 }).map
    (fun t => (t.readReg 0x19, t.readReg 0x18)) = some (0#32, 0#32) := by decide +kernel

/-- Program P3, step 1: the record (the arena's size is unknown, so the command itself is not run here). -/
theorem test_chl_append_record : appendedChannel { arg0 := 1#32, arg1 := 1#32 } = record 1 1 [] := by decide

/-- `44_channel_decoder.md` R301: a width of `2^31`. -/
theorem test_chl_append_bound : report .chlAppend (running { arg0 := 0x80000000#32, arg1 := 1#32 }) =
    some (0x0404#32, 0x0401#32, 0#32, 0#32) := by decide +kernel

/-- Program P2, step 4: the west predictor. -/
theorem test_ch_decode_west : (after .chDecode (withStream { (running {} (fieldBits 32 0x004C0980)).setTree 0
      [.leaf { context := 0, predictor := .west, offset := 0, multiplier := 1 }] with channels := [record 2 1 []] }
    { config := streamP2, coder := {} })).map (fun t => (t.channels.map values, t.source.pos)) =
      some ([[3, 1]], 32) := by decide +kernel

/-- Program P7, step 4: the weighted predictor and an ANS refill. -/
theorem test_ch_decode_weighted : (after .chDecode (withStream { (running {}
      (fieldBits 48 0x208013112400)).setTree 0 treeP7 with channels := [record 3 2 []] }
    { config := streamP7, coder := {} })).map (fun t => (t.channels.map values, t.source.pos)) =
      some ([[4, 6, 7, 5, 6, 9]], 48) := by decide +kernel

/-! ## Transforms -/

/-- Program P3, step 4, and row F7. -/
theorem test_xf_push_rct :
    (after .xfPushRct { running { arg1 := 1#32 } with channels := List.replicate 3 (record 1 1 []) }).map
      (fun t => t.transforms) = some [{ transform := .rct 0 1, nbMetaBefore := 0 }] ∧
    report .xfPushRct { running {} with channels := [record 1 1 [], record 1 1 [], record 2 1 []] } =
      some (0x0104#32, 0x010F#32, 0#32, 0#32) := by decide +kernel

/-- Program P4, step 2: the list (the arena's size is unknown, so the command itself is not run here). -/
theorem test_palette_list : palettedList [record 4 1 []] 0 1 2 .zero =
    [{ record 2 1 [] with hshift := -1, vshift := -1 }, record 4 1 []] ∧ palettedMeta 0 0 1 = 1 := by decide +kernel

/-- Section 2.12.3: the shapes after a squeeze push. -/
theorem test_squeeze_list : (squeezedList [record 5 1 []] 0 1 true 1).map Channel.shape = [(3, 1, 1, 0), (2, 1, 1, 0)] ∧
    (squeezedList [record 3 2 []] 0 1 true 1).map Channel.shape = [(2, 2, 1, 0), (1, 2, 1, 0)] := by decide +kernel

/-- Program P3, step 8. -/
theorem test_xf_apply_rct : (after .xfApply { running {} with
    channels := [record 1 1 [10], record 1 1 [7], record 1 1 [10]]
    transforms := [{ transform := .rct 0 1, nbMetaBefore := 0 }] }).map (fun t => (t.channels.map values, t.transforms)) =
      some ([[10], [7], [20]], []) := by decide +kernel

/-- Program P5, step 8. -/
theorem test_xf_apply_squeeze : (after .xfApply { running {} with
    channels := [{ record 3 1 [15, 28, 5] with hshift := 1 }, { record 2 1 [-9, 5] with hshift := 1 }]
    transforms := [{ transform := .squeeze 0 1 true true 1, nbMetaBefore := 0 }] }).map
      (fun t => t.channels) = some [record 5 1 [10, 20, 30, 25, 5] true] := by decide +kernel

/-- Section 2.12.4: index 3 at 8 bits, index -2 at 10 bits, index 100 at 1 bit. -/
theorem test_palette_values : paletteValue (record 3 1 []) 3 3 0 8 = .ok 32 ∧
    paletteValue (record 3 1 []) 3 (-2) 1 10 = .ok 16 ∧ paletteValue (record 3 1 []) 3 100 0 1 = .ok 0 := by
  refine ⟨rfl, rfl, rfl⟩

/-- Section 2.12.4: the delta palette. -/
theorem test_palette_delta : (answer (paletteOutput {
      pal := record 1 1 [10], index := record 3 1 [0, 0, -2], nbColours := 1, nbDeltas := 1, dPred := .west, bd := 8
      params := wpParams {} } 0) (running {})).map values = some [10, 20, 24] := by decide +kernel

/-- The table of section 2.12.2. -/
theorem test_smooth_tendency : [(10, 8, 2), (2, 8, 10), (8, 8, 8), (10, 8, 9), (0, 5, 100), (100, 50, 0), (20, 15, 14),
    (-5, -8, -20)].map (fun v : Int × Int × Int => smoothTendency v.1 v.2.1 v.2.2) = [2, -3, 0, 0, -11, 29, 2, 4] := by
  decide

/-! ## Witnesses: the hypotheses of the statements can be met

Each theorem lists, clause by clause, values that meet what the clause of the statement supposes. -/

/-! ### The host's side -/

theorem witness_CmdWriteIssuesCommand : State.reset.fault = none ∧ State.reset.busy = false ∧
    decode 0x00000012#32 = .ok .esValidate := by decide

theorem witness_IllegalCommandWord : State.reset.fault = none ∧ State.reset.busy = false ∧ State.reset.overrun = false ∧
    0x00000100#32 >>> 8 ≠ 0#32 ∧ 0x00000015#32 >>> 8 = 0#32 ∧
    (0x00000015#32).toNat % 256 ∉ [0x00, 0x01, 0x02, 0x03, 0x10, 0x11, 0x12, 0x13, 0x14, 0x20, 0x21, 0x22, 0x30, 0x31,
      0x32, 0x33, 0x34, 0x35, 0x40, 0x41, 0x42, 0x43] := by decide

theorem witness_FaultedBlockIgnoresCommands :
    ({ State.reset with fault := some .truncatedInput } : State).fault = some .truncatedInput ∧
    writableBits 0x08 ≠ 0#32 ∧ writableBits 0x0F ≠ 0#32 ∧ writableBits 0x13 ≠ 0#32 ∧ writableBits 0x17 ≠ 0#32 ∧
    (1#32).getLsbD 1 = false ∧ (2#32).getLsbD 1 = true := by decide

theorem witness_CommandWhileBusy : (running {}).fault = none ∧ (running {}).busy = true ∧ (running {}).done = false ∧
    (∃ t, exec .nop { running {} with overrun := false } = .next t) ∧
    ∃ t, exec .esFree { running { arg0 := 8#32 } with overrun := false } = .next t ∧ t.fault ≠ none :=
  ⟨rfl, rfl, rfl, ⟨_, rfl⟩, _, rfl, by decide⟩

theorem witness_RegisterFileMap : State.reset.source.pos < 2 ^ 64 ∧ 0x1A ≤ 0x1F ∧ 0x12 ∈ [0x00, 0x04, 0x05, 0x06,
    0x10, 0x11, 0x12, 0x18, 0x19] ∧ writableBits 0x08 ≠ 0#32 ∧ writableBits 0x17 ≠ 0#32 := by decide

theorem witness_StatusFieldsAndInterrupt : State.reset.fault = none ∧
    ({ State.reset with fault := some .resourceExhausted } : State).fault = some .resourceExhausted ∧
    (2#32).getLsbD 1 = true ∧ (1#32).getLsbD 1 = false := by decide

theorem witness_OperandsLatchedAtIssue : writableBits 0x16 ≠ 0#32 ∧ ∃ t, exec .chlClear (running {}) = .next t :=
  ⟨by decide, _, rfl⟩

theorem witness_SoftReset : (2#32).getLsbD 1 = true ∧ State.reset.busy = false ∧ (running {}).busy = true ∧
    decode (running {}).cmd = .ok .nop ∧ ∃ t, exec .nop (running {}) = .next t := ⟨rfl, rfl, rfl, rfl, _, rfl⟩

theorem witness_ResetValues : (7 < 8 ∧ 2 < 3 ∧ 1 < 2) ∧
    ({ State.reset with inputs := [.hardReset [true]] } : State).inputs = .hardReset [true] :: [] := by decide

theorem witness_StepRunsDecodedCommand : (running {}).busy = true ∧ decode (running {}).cmd = .ok .nop ∧
    (running {}).inputs = [] ∧ ({ running {} with inputs := [.wait] } : State).inputs = .wait :: [] := by decide

theorem witness_StepTakesHostActions :
    ({ State.reset with inputs := [.write 0x01 0#32] } : State).inputs = .write 0x01 0#32 :: [] ∧
    ({ State.reset with inputs := [.present []] } : State).inputs = .present [] :: [] ∧
    ({ State.reset with inputs := [.wait] } : State).inputs = .wait :: [] ∧ State.reset.busy = false ∧
    State.reset.inputs = [] := by decide

/-! ### Invariants and frames -/

theorem witness_StatusAndReservedBitsStayLegal : StatusInv (running {}) ∧ ReservedInv (running {}) ∧
    ∃ t, step (running {}) = .next t :=
  ⟨⟨fun _ => ⟨rfl, rfl⟩, by decide⟩, by unfold ReservedInv; decide, _, rfl⟩

theorem reset_slots (i : Nat) (st : Stream) : State.reset.slots[i]? ≠ some (some st) := by
  intro h
  by_cases hi : i < 8
  · have : ∀ i, i < 8 → State.reset.slots[i]? = some none := by decide
    rw [this i hi] at h; cases h
  · rw [Vector.getElem?_eq_none (by simpa using Nat.le_of_not_lt hi)] at h; cases h

theorem reset_trees (i : Nat) (t : List Node) : State.reset.trees[i]? ≠ some (some t) := by
  intro h
  by_cases hi : i < 2
  · have : ∀ i, i < 2 → State.reset.trees[i]? = some none := by decide
    rw [this i hi] at h; cases h
  · rw [Vector.getElem?_eq_none (by simpa using Nat.le_of_not_lt hi)] at h; cases h

theorem witness_StoresStayCanonical : MemoryInv (running {}) ∧ ∃ t, step (running {}) = .next t :=
  ⟨⟨fun _ h => (nomatch h), fun i st h => absurd h (reset_slots i st)⟩, _, rfl⟩

theorem witness_ChannelListStaysWithinLimits : StatusInv (running {}) ∧ ListInv (running {}) ∧
    ∃ t, step (running {}) = .next t :=
  ⟨⟨fun _ => ⟨rfl, rfl⟩, by decide⟩, fun _ => ⟨by decide, Nat.zero_le _, by decide, trivial⟩, _, rfl⟩

theorem witness_TreesAndSlotsStayLegal : StoresInv (running {}) ∧ ∃ t, step (running {}) = .next t :=
  ⟨⟨fun i t h => absurd h (reset_trees i t), fun i st h => absurd h (reset_slots i st)⟩, _, rfl⟩

theorem witness_EveryCommandEnds : StoresInv State.reset :=
  ⟨fun i t h => absurd h (reset_trees i t), fun i st h => absurd h (reset_slots i st)⟩

theorem witness_EngineLeavesHostSide : ∃ t, exec .esFree (running {}) = .next t := ⟨_, rfl⟩

/-- A command of each group that a clause shuts out or names, and a store or slot that the operands do not name. -/
theorem witness_UnitsEachCommandChanges : (∃ t, exec .nop (running {}) = .next t) ∧
    (∃ t, exec .esFree (running {}) = .next t) ∧ (∃ t, exec .esClone (running {}) = .next t) ∧
    (∃ t, exec .chWrite (running {}) = .next t) ∧ (∃ t, exec .chDecode (running {}) = .next t) ∧
    7 ≠ (running {}).latched.args.arg0.toNat ∧ 7 ≠ (running {}).latched.args.arg1.toNat ∧
    7 ≠ (running {}).latched.args.arg2.toNat :=
  ⟨⟨_, rfl⟩, ⟨_, rfl⟩, ⟨_, rfl⟩, ⟨_, rfl⟩, ⟨_, rfl⟩, by decide, by decide, by decide⟩

theorem witness_BitsConsumedInOrder : ∃ t, exec .hybConfigRead (running { arg0 := 5#32 } [true, false, true]) = .next t :=
  ⟨_, rfl⟩

/-! ### Faults -/

theorem witness_FaultEntry : (running {}).fault = none ∧ (running {}).done = false ∧ (running {}).overrun = false ∧
    (∃ t, exec .nop (running {}) = .next t) ∧ (∃ t, exec .esRead (running {}) = .next t ∧ t.fault ≠ none) ∧
    ∃ t, ({ State.reset with fault := some .truncatedInput } : State).fault = some .truncatedInput ∧
      step { State.reset with fault := some .truncatedInput } = .next t :=
  ⟨rfl, rfl, rfl, ⟨_, rfl⟩, ⟨_, rfl, by decide⟩, _, rfl, rfl⟩

/-- A block that holds as many records as it can. -/
def full : State := { running {} with channels := List.replicate 4096 (record 0 0 []) }

theorem witness_FaultsThatChangeNothing : (running {}).fault = none ∧ (running {}).overrun = false ∧
    (after .esInit (running { arg0 := 8#32 })).map State.fault = some (some (.contractViolation .badSlot)) ∧
    (after .chlAppend full).map State.fault = some (some .resourceExhausted) ∧
    Instr.wf .esInit (running { arg0 := 8#32 }).latched.args = false ∧
    Instr.wf .hybExpand (running { arg1 := 0x1000#32 }).latched.args = false ∧
    Instr.wf .xfPushRct (running { arg1 := 42#32 }).latched.args = false := by decide +kernel

/-! ### Control, sample access, hybrid integers -/

theorem witness_NopCompletes : (running {}).overrun = false ∧ State.reset.fault = none ∧ State.reset.busy = false := by
  decide

/-- A block with one 2x1 record whose second sample is empty. -/
def sampled (a : Args) : State := { running a with channels := [record 2 1 [3]] }

theorem witness_ChReadReturnsSample : (sampled {}).overrun = false ∧ (sampled {}).sample 0 0 0 = some 3#32 ∧
    (sampled {}).channels.length ≤ (1#32).toNat ∧ (sampled {}).channels[0]? = some (record 2 1 [3]) ∧
    (record 2 1 [3]).width ≤ (2#32).toNat ∧ (record 2 1 [3]).height ≤ (1#32).toNat ∧
    (1#32).toNat < (record 2 1 [3]).width ∧ (0#32).toNat < (record 2 1 [3]).height ∧
    (record 2 1 [3]).sample (1#32).toNat (0#32).toNat = none := by decide

theorem witness_ChWriteStoresSample : (sampled {}).channels.length ≤ (1#32).toNat ∧
    (sampled {}).channels[(0#32).toNat]? = some (record 2 1 [3]) ∧ (record 2 1 [3]).width ≤ (2#32).toNat ∧
    (record 2 1 [3]).height ≤ (1#32).toNat ∧ (sampled {}).overrun = false ∧
    (1#32).toNat < (record 2 1 [3]).width ∧ (0#32).toNat < (record 2 1 [3]).height ∧
    (∃ t, exec .chWrite (sampled { arg1 := 1#32 }) = .next t) ∧ ¬ ((0 : Nat) = 0 ∧ (0 : Nat) = 1 ∧ (0 : Nat) = 0) :=
  ⟨by decide, rfl, by decide, by decide, rfl, by decide, by decide, ⟨_, rfl⟩, by decide⟩

theorem witness_ChInfoReportsRecord : (sampled {}).channels.length ≤ (1#32).toNat ∧ (sampled {}).overrun = false ∧
    (sampled {}).channels[(0#32).toNat]? = some (record 2 1 [3]) := by decide

/-- Rows H20, H21, H3, H15, H17, H14 and H13: the clauses in order, `n` and `r` as the statement writes them. -/
theorem witness_HybExpandExpandsToken :
    (running {}).overrun = false ∧
    (4096 ≤ (0x1004#32).toNat ∧ (0x0F5#32).toNat % 16 < (0x0F5#32).toNat / 16 % 16 + (0x0F5#32).toNat / 256 % 16) ∧
    (0x114#32).toNat < 4096 ∧ 1 + 1 ≤ 4 ∧ 15 < 2 ^ 4 ∧
    (2 ^ 0 ≤ 34 ∧ 32 < 0 - 0 - 0 + (34 - 2 ^ 0) / 2 ^ (0 + 0)) ∧
    (2 ^ 4 ≤ 16 ∧ 4 - 0 - 0 + (16 - 2 ^ 4) / 2 ^ (0 + 0) ≤ 32 ∧
      [true, false].length < 4 - 0 - 0 + (16 - 2 ^ 4) / 2 ^ (0 + 0)) ∧
    (2 ^ 0 ≤ 33 ∧ 0 - 0 - 0 + (33 - 2 ^ 0) / 2 ^ (0 + 0) = 32 ∧
      2 ^ 32 ≤ ((2 ^ 0 + 33 / 2 ^ 0 % 2 ^ 0) * 2 ^ 32 + bitsToNat (List.replicate 32 false)) * 2 ^ 0 + 33 % 2 ^ 0) ∧
    (2 ^ 0 ≤ 32 ∧ 0 - 0 - 0 + (32 - 2 ^ 0) / 2 ^ (0 + 0) = 31 ∧
      ((2 ^ 0 + 32 / 2 ^ 0 % 2 ^ 0) * 2 ^ 31 + bitsToNat (List.replicate 31 true)) * 2 ^ 0 + 32 % 2 ^ 0 < 2 ^ 32) := by
  decide +kernel

theorem witness_HybridExpansionLaws : 1 + 1 ≤ 4 ∧ 15 < 2 ^ 4 ∧ 2 ^ 4 ≤ 16 ∧
    answer (hybridExpand 16 { splitExponent := 4, msbInToken := 1, lsbInToken := 1 })
      { rest := [true, true], pos := 0 } ≠ none := by decide +kernel

theorem witness_UnpackSignedMapsUnsignedToSigned : (running {}).overrun = false := rfl

/-- `L` of 5: each field above its bound, and bits that end before each field. -/
theorem witness_HybConfigReadParsesConfig :
    (9#32).toNat ∉ [5, 6, 7, 8, 15] ∧ (15#32).toNat ∈ [5, 6, 7, 8, 15] ∧ (5#32).toNat ∈ [5, 6, 7, 8, 15] ∧
    (running {}).overrun = false ∧ (⟨4, 0, 0⟩ : HybridConfig).Wf 15 ∧ (⟨15, 0, 0⟩ : HybridConfig).Wf 15 ∧
    configBits 15 ⟨4, 0, 0⟩ = [false, false, true, false, false, false, false, false, false, false] ∧
    configBits 15 ⟨15, 0, 0⟩ = [true, true, true, true] ∧ (8 < 9 ∧ 9 < 2 ^ Nat.clog 2 (8 + 1)) ∧
    ([] : List Bool).length < Nat.clog 2 (5 + 1) ∧
    (4 < 5 ∧ 4 < 2 ^ Nat.clog 2 (5 + 1) ∧ [true, true].length < Nat.clog 2 (4 + 1)) ∧
    (4 < 5 ∧ 5 < 2 ^ Nat.clog 2 (4 + 1)) ∧
    (3 ≤ 4 ∧ 3 < 2 ^ Nat.clog 2 (4 + 1) ∧ ([] : List Bool).length < Nat.clog 2 (4 - 3 + 1)) ∧
    2 ≤ 4 ∧ 4 < 2 + 3 ∧ 3 < 2 ^ Nat.clog 2 (4 - 2 + 1) := by
  refine ⟨by decide, by decide, by decide, rfl, ?_, ?_, ?_, ?_, ?_, ?_, ?_, ?_, ?_, ?_⟩ <;> first
    | (unfold HybridConfig.Wf; decide)
    | decide +kernel

/-! ### Entropy streams and distributions -/

/-- How a computation stops early, if it does. -/
def stop {σ α : Type} (m : Eng σ α) (s : σ) : Option Stop :=
  match m s with
  | .ok _ _ => none
  | .error e _ => some e

theorem ok_of_answer {σ α : Type} {m : Eng σ α} {s : σ} {a : α} (h : answer m s = some a) : ∃ t, m s = .ok a t := by
  unfold answer at h
  split at h
  · cases h; exact ⟨_, ‹_›⟩
  · cases h

theorem next_of_after {α : Type} {i : Instr} {s : State} {f : State → α} {a : α} (h : (after i s).map f = some a) :
    ∃ t, exec i s = .next t ∧ f t = a := by
  unfold after at h
  split at h
  · cases h; exact ⟨_, ‹_›, rfl⟩
  · cases h
  · cases h

/-- Rows E7 and E8, the header of program P6, and row E4. -/
theorem witness_EsInitFillsSlot : 8 ≤ (8#32).toNat ∧ 2 ^ 20 < (0x100001#32).toNat ∧ 2#32 >>> 1 ≠ 0#32 ∧
    (1#32 ≠ 0#32 ∧ (0x100000#32).toNat ≤ 2 ^ 20 ∧ 1#32 >>> 1 = 0#32 ∧ (7#32).toNat < 8) ∧ (running {}).overrun = false ∧
    answer (readEntropyStream 1 false) { rest := bitsP6, pos := 0 } = some streamP6 ∧
    stop (readEntropyStream 1 true) { rest := bitsP6, pos := 0 } = some (.raise (.invalidBitstream .nestedLz77)) := by
  decide +kernel

/-- The first and the last entry of both tables, with the least and the largest extra bits, and two configurations. -/
theorem witness_EsInitFillsSlot_lz77 :
    U32Bits [(224, 0), (512, 0), (4096, 0), (8, 15)] (fieldBits 2 0 ++ fieldBits 0 0) 224 ∧
    U32Bits [(224, 0), (512, 0), (4096, 0), (8, 15)] (fieldBits 2 3 ++ fieldBits 15 32767) 32775 ∧
    U32Bits [(3, 0), (4, 0), (5, 2), (9, 8)] (fieldBits 2 0 ++ fieldBits 0 0) 3 ∧
    U32Bits [(3, 0), (4, 0), (5, 2), (9, 8)] (fieldBits 2 3 ++ fieldBits 8 255) 264 ∧
    (⟨8, 0, 0⟩ : HybridConfig).Written 8 ∧ (⟨7, 3, 4⟩ : HybridConfig).Written 8 :=
  ⟨⟨0, 224, 0, 0, rfl, by decide, rfl, rfl⟩, ⟨3, 8, 15, 32767, rfl, by decide, rfl, rfl⟩,
    ⟨0, 3, 0, 0, rfl, by decide, rfl, rfl⟩, ⟨3, 9, 8, 255, rfl, by decide, rfl, rfl⟩,
    ⟨⟨by decide, by decide⟩, fun _ => ⟨rfl, rfl⟩⟩, ⟨by decide, by decide⟩, fun h => absurd h (by decide)⟩

/-- Rows M1 and M3: a simple map without and with a gap. -/
theorem witness_EsInitFillsSlot_simpleMap : 1 < 4 ∧ 2 ≤ [0, 0, 0, 1, 0, 0].length ∧
    (∀ id ∈ [0, 0, 0, 1, 0, 0], id < 2 ^ 1) ∧ (∀ id ∈ [0, 0, 0, 1, 0, 0], ∀ j < id, j ∈ [0, 0, 0, 1, 0, 0]) ∧
    (∀ id ∈ [0, 2, 0], id < 2 ^ 2) ∧ ¬ ∀ id ∈ [0, 2, 0], ∀ j < id, j ∈ [0, 2, 0] := by decide

/-- The distribution of 257 symbols whose only symbol is `v`. -/
def only (v : Nat) : PrefixDist where
  config := { splitExponent := 15, msbInToken := 0, lsbInToken := 0 }
  alphabetSize := 257
  code := .zeroBits v

/-- The bits of its alphabet size, and of its code. -/
def onlySizeBits : List Bool := true :: fieldBits 4 8 ++ fieldBits 8 0

def onlyCodeBits (v : Nat) : List Bool := fieldBits 2 1 ++ fieldBits 2 0 ++ fieldBits 9 v

theorem only_parses {v : Nat} (h : v < 257) : (only v).config.Written 15 ∧
    Parses readPrefixAlphabetSize onlySizeBits (only v).alphabetSize ∧
    Parses (readPrefixCode (only v).alphabetSize) (onlyCodeBits v) (only v).code := by
  refine ⟨⟨⟨Nat.zero_le 15, Nat.le_refl 15⟩, fun _ => ⟨rfl, rfl⟩⟩,
    (readPrefixAlphabetSize_reads (by decide) (by decide)).1 (by decide), ?_⟩
  have hl : Nat.log 2 (257 - 1) + 1 = 9 := by norm_num
  have hs := parses_symbols (A := 257) (by decide) [v] (by simpa using h)
  rw [hl] at hs
  have := (readPrefixCode_simple (A := 257) (k := 0) (by decide) (by decide)).parses
    (hs.bind_nil (Parses.check (by simp) (parses_pure (PrefixCode.zeroBits v))))
  simpa [onlyCodeBits, only] using this

/-- The bits after the kind bit of the coding whose one distribution is `only v`. -/
def onlyBits (v : Nat) : List Bool :=
  [only v].flatMap (fun d => configBits 15 d.config) ++ [only v].flatMap (fun _ => onlySizeBits) ++
    [only v].flatMap fun _ => onlyCodeBits v

theorem only_coding {v : Nat} (h : v < 257) : Parses (readPrefixCoding 1) (onlyBits v) (.prefixCode [only v]) :=
  parses_readPrefixCoding (ds := [only v]) fun d hd => by
    rw [List.mem_singleton] at hd; subst hd; exact only_parses h

/-- An ANS coding whose one distribution has the one symbol 0. -/
def sure : AnsDist where
  config := { splitExponent := 5, msbInToken := 0, lsbInToken := 0 }
  freqs := (List.replicate 32 0).set 0 4096
  table := buildAlias ((List.replicate 32 0).set 0 4096) 5

def sureBits : List Bool :=
  [sure].flatMap (fun d => configBits 5 d.config) ++ [sure].flatMap fun _ => [true, false, false]

theorem sure_parses : sure.config.Written 5 ∧ Parses (readAnsFreqs 5) [true, false, false] sure.freqs ∧
    sure.table = buildAlias sure.freqs 5 := by
  refine ⟨⟨⟨by decide, by decide⟩, fun _ => ⟨rfl, rfl⟩⟩, fun rest pos => ?_, rfl⟩
  cases rest <;> rfl

theorem sure_coding : Parses (readAnsCoding 5 1) sureBits (.ans 5 [sure]) :=
  parses_readAnsCoding (ds := [sure]) fun d hd => by rw [List.mem_singleton] at hd; subst hd; exact sure_parses

/-- A nested stream of one context with a coding. -/
def nestedOf (coding : Coding) : StreamConfig where
  clusterMap := [0]
  lz77 := none
  coding := coding

theorem nested_parses {coding : Coding} {bits : List Bool} (h : CodingBits 1 bits coding) :
    Parses readNestedStream (false :: bits) (nestedOf coding) :=
  parses_readStreamWith (readMap := fun _ => pure [0]) (map := [0]) (parses_readLz77_off true) (parses_pure _) h

/-- The two symbols of a nested prefix-code stream take no bits: 0, an id that leaves a gap, and one that is too large. -/
theorem only_symbols : ∀ v ∈ [0, 1, 256], ∃ c, ∀ rest pos,
    times ([v, v] : List Nat).length (readSymbol (nestedOf (.prefixCode [only v])) 0 0)
      { coder := {}, source := { rest := [] ++ rest, pos := pos } } =
        .ok [v, v] { coder := c, source := { rest := rest, pos := pos + ([] : List Bool).length } } := by
  intro v hv
  simp only [List.mem_cons, List.not_mem_nil, or_false] at hv
  rcases hv with rfl | rfl | rfl
  · exact ⟨{ numDecoded := 2 }, fun _ _ => rfl⟩
  · exact ⟨{ window := [(0, 1#32), (1, 1#32)], numDecoded := 2 }, fun _ _ => rfl⟩
  · exact ⟨{ window := [(0, 256#32), (1, 256#32)], numDecoded := 2 }, fun _ _ => rfl⟩

/-- The coder of a stream of the sure distribution after `n` symbols from the state `x`. -/
def sureCoder (x n : Nat) : Coder where
  ansState := Word.ofNat x
  hasState := true
  numDecoded := n

/-- A symbol of the sure distribution is 0 and leaves the state as it is. -/
theorem sure_symbol {x : Nat} (hx : x ∈ [0x130000, 0x130001]) (n : Nat) (b : BitSource) :
    readSymbol (nestedOf (.ans 5 [sure])) 0 0 { coder := sureCoder x n, source := b } =
      .ok 0 { coder := sureCoder x (n + 1), source := b } := by
  have ha : aliasLookup 5 sure.table (x % 4096) = some (0, x % 4096) := by clear n b; revert x; decide +kernel
  have hf : sure.freqs[0]? = some 4096 := by decide +kernel
  simp only [List.mem_cons, List.not_mem_nil, or_false] at hx
  have hm : (Word.ofNat x).toNat = x := by rcases hx with rfl | rfl <;> rfl
  have hn : 4096 * (x >>> 12) + x % 4096 = x := by rw [Nat.shiftRight_eq_div_pow]; omega
  have hl : ¬ x < 2 ^ 16 := by omega
  have hd : ansDecode 5 sure { coder := sureCoder x n, source := b } = .ok 0 { coder := sureCoder x n, source := b } := by
    simp only [ansDecode, ansPrime, ansRefill, theCoder, updateCoder, eng_bind, sureCoder, Config.ansTotal, ha, hf, hn,
      hm, hl, orBroken_apply, if_true, if_false, eng_pure]
  have hk : decodeToken (nestedOf (.ans 5 [sure])) 0 { coder := sureCoder x n, source := b } =
      .ok 0 { coder := sureCoder x n, source := b } := hd
  show (decodeToken (nestedOf (.ans 5 [sure])) 0 >>= _) { coder := sureCoder x n, source := b } = _
  rw [eng_bind_ok hk]
  rfl

/-- Two symbols from the state `x`. -/
theorem sure_symbols {x : Nat} (hx : x ∈ [0x130000, 0x130001]) (rest : List Bool) (pos : Nat) :
    times ([0, 0] : List Nat).length (readSymbol (nestedOf (.ans 5 [sure])) 0 0)
      { coder := {}, source := { rest := fieldBits 32 x ++ rest, pos := pos } } =
        .ok [0, 0] { coder := sureCoder x 2, source := { rest := rest, pos := pos + (fieldBits 32 x).length } } := by
  have hx2 : x < 2 ^ 32 := by simp only [List.mem_cons, List.not_mem_nil, or_false] at hx; omega
  have prime : ansPrime { coder := {}, source := { rest := fieldBits 32 x ++ rest, pos := pos } } =
      .ok () { coder := sureCoder x 0, source := { rest := rest, pos := pos + (fieldBits 32 x).length } } := by
    simp [ansPrime, theCoder, updateCoder, eng_bind, parse, onPart_apply, parses_readBits hx2 rest pos, sureCoder]
  have primed : ∀ b, ansPrime { coder := sureCoder x 0, source := b } = .ok () { coder := sureCoder x 0, source := b } :=
    fun _ => rfl
  have token : decodeToken (nestedOf (.ans 5 [sure])) 0
      { coder := {}, source := { rest := fieldBits 32 x ++ rest, pos := pos } } =
        decodeToken (nestedOf (.ans 5 [sure])) 0
          { coder := sureCoder x 0, source := { rest := rest, pos := pos + (fieldBits 32 x).length } } := by
    have tok : ∀ r, decodeToken (nestedOf (.ans 5 [sure])) 0 r = ansDecode 5 sure r := fun _ => rfl
    rw [tok, tok]
    unfold ansDecode
    rw [eng_bind_ok prime, eng_bind_ok (primed _)]
  have first : readSymbol (nestedOf (.ans 5 [sure])) 0 0
      { coder := {}, source := { rest := fieldBits 32 x ++ rest, pos := pos } } =
        .ok 0 { coder := sureCoder x 1, source := { rest := rest, pos := pos + (fieldBits 32 x).length } } := by
    rw [← sure_symbol hx 0]
    show (decodeToken (nestedOf (.ans 5 [sure])) 0 >>= _) _ = (decodeToken (nestedOf (.ans 5 [sure])) 0 >>= _) _
    rw [eng_bind, token, ← eng_bind]
  simp only [List.length_cons, List.length_nil, times, eng_bind_ok first, eng_bind_ok (sure_symbol hx 1 _), eng_pure,
    eng_bind]

/-- The nested form, over streams of two symbols: of prefix codes, a map 0 0 with and without move-to-front, a map 1 0
whose symbols with move-to-front are 1 1, a map 1 1 with a gap, and an id of 256; of ANS, the final state that must be,
and another. -/
theorem witness_EsInitFillsSlot_nestedMap :
    (∀ v ∈ [0, 1, 256], Parses readNestedStream (false :: true :: onlyBits v) (nestedOf (.prefixCode [only v])) ∧
      (∃ c, ∀ rest pos, times ([v, v] : List Nat).length (readSymbol (nestedOf (.prefixCode [only v])) 0 0)
        { coder := {}, source := { rest := [] ++ rest, pos := pos } } =
          .ok [v, v] { coder := c, source := { rest := rest, pos := pos + ([] : List Bool).length } }) ∧
      (nestedOf (.prefixCode [only v])).coding.usePrefixCode = true) ∧
    [0, 0] = moveToFront (List.range 256) [0, 0] ∧ [1, 1] = moveToFront (List.range 256) [1, 0] ∧
    (∀ id ∈ [1, 0], ∀ j < id, j ∈ [1, 0]) ∧ (¬ ∀ id ∈ [1, 1], ∀ j < id, j ∈ [1, 1]) ∧ (∃ id ∈ [256, 256], 256 ≤ id) ∧
    Parses readNestedStream (false :: false :: fieldBits 2 0 ++ sureBits) (nestedOf (.ans 5 [sure])) ∧
    (nestedOf (.ans 5 [sure])).coding.usePrefixCode = false ∧
    (∀ x ∈ [0x130000, 0x130001], ∀ rest pos, times ([0, 0] : List Nat).length (readSymbol (nestedOf (.ans 5 [sure])) 0 0)
      { coder := {}, source := { rest := fieldBits 32 x ++ rest, pos := pos } } =
        .ok [0, 0] { coder := sureCoder x 2, source := { rest := rest, pos := pos + (fieldBits 32 x).length } }) ∧
    (sureCoder 0x130000 2).hasState = true ∧ (sureCoder 0x130000 2).ansState = 0x130000#32 ∧
    (sureCoder 0x130001 2).ansState ≠ 0x130000#32 := by
  refine ⟨fun v hv => ⟨nested_parses (.inl ⟨_, rfl, only_coding ?_⟩), only_symbols v hv, rfl⟩, by decide +kernel,
    by decide +kernel, by decide, by decide, by decide,
    nested_parses (.inr ⟨5, _, by decide, by decide, rfl, sure_coding⟩), rfl, fun x hx => sure_symbols hx, rfl, rfl,
    by decide⟩
  simp only [List.mem_cons, List.not_mem_nil, or_false] at hv
  omega

/-- The parts in order: a coding of each kind, for one cluster, after no LZ77 part and no cluster map. -/
theorem witness_EsInitFillsSlot_order :
    Parses (readPrefixCoding 1) (onlyBits 256) (.prefixCode [only 256]) ∧
    (5 ≤ 5 ∧ 5 ≤ 8 ∧ Parses (readAnsCoding 5 1) sureBits (.ans 5 [sure])) ∧ Parses (readLz77 true) [false] none ∧
    Parses (readClusterMap (1 + if (none : Option Lz77Config).isSome then 1 else 0)) [] [0] ∧ 1 = [0].foldl max 0 + 1 ∧
    (∀ d ∈ [only 0, only 256], d.config.Written 15 ∧ Parses readPrefixAlphabetSize onlySizeBits d.alphabetSize ∧
      ∃ bits, Parses (readPrefixCode d.alphabetSize) bits d.code) ∧
    ∀ d ∈ [sure, sure], d.config.Written 5 ∧ Parses (readAnsFreqs 5) [true, false, false] d.freqs ∧
      d.table = buildAlias d.freqs 5 := by
  refine ⟨only_coding (by decide), ⟨by decide, by decide, sure_coding⟩, parses_readLz77_off true, fun _ _ => rfl, rfl,
    fun d hd => ?_, fun d hd => ?_⟩ <;> simp only [List.mem_cons, List.not_mem_nil, or_false, or_self] at hd
  · rcases hd with rfl | rfl
    · exact (only_parses (v := 0) (by decide)).imp_right (And.imp_right fun h => ⟨_, h⟩)
    · exact (only_parses (v := 256) (by decide)).imp_right (And.imp_right fun h => ⟨_, h⟩)
  · subst hd; exact sure_parses

/-- The largest alphabet and the first that is too large; rows Q1, Q2, Q3, Q5, Q6 and Q7. -/
theorem witness_EsInitFillsSlot_simpleCode :
    (14 < 16 ∧ 2 ^ 14 - 1 < 2 ^ 14 ∧ 1 + 2 ^ 14 + (2 ^ 14 - 1) ≤ 32768) ∧ (15 < 16 ∧ 32768 < 1 + 2 ^ 15 + 0) ∧
    (∀ e ∈ [(11, [10]), (9, [5, 8]), (9, [8, 5, 7]), (4, [3, 0, 1, 2])],
      2 ≤ e.1 ∧ 1 ≤ e.2.length ∧ e.2.length ≤ 4 ∧ (∀ v ∈ e.2, v < e.1) ∧ e.2.Nodup) ∧ ¬ [5, 5].Nodup ∧
    ([] : List Nat).length < 1 ∧ [0, 1, 8].length < 4 ∧ (∀ v ∈ [0, 1, 8], v < 9) ∧ 9 ≤ 9 ∧
    9 < 2 ^ (Nat.log 2 (9 - 1) + 1) := by
  refine ⟨by decide, by decide, by decide, by decide, by decide, by decide, by decide, by decide, ?_⟩
  norm_num

/-- The code-length codes of rows Q9 and Q11, one with a single length, an over-subscribed one, and a row with each
number of lengths left out. -/
theorem witness_EsInitFillsSlot_codeLengthCode :
    (∀ vs ∈ [[1, 2, 2], [2, 2] ++ List.replicate 16 0, 0 :: 3 :: List.replicate 16 0, [1, 2, 3, 1]], ∀ v ∈ vs, v ≤ 5) ∧
    (codeSpace 5 [1, 2, 2] = 32 ∧ [1, 2, 2].getLast? ≠ some 0 ∧ ∀ hskip ∈ [0, 2, 3], hskip + [1, 2, 2].length ≤ 18) ∧
    (codeSpace 5 ([2, 2] ++ List.replicate 16 0) < 32 ∧
      (([2, 2] ++ List.replicate 16 0).filter (· ≠ 0)).length ≠ 1 ∧ 0 + ([2, 2] ++ List.replicate 16 0).length = 18) ∧
    ((0 :: 3 :: List.replicate 16 0)[1]? = some 3 ∧
      (∀ (j u : Nat), (0 :: 3 :: List.replicate 16 0)[j]? = some u → j ≠ 1 → u = 0) ∧
      [1, 2, 3, 4, 0, 5, 17, 6, 16, 7, 8, 9, 10, 11, 12, 13, 14, 15][0 + 1]? = some 2) ∧
    32 < codeSpace 5 [1, 2, 3, 1] ∧ codeSpace 5 [1, 2, 3, 1].dropLast < 32 := by
  refine ⟨by decide, by decide, by decide, ⟨rfl, fun j u h hj => ?_, rfl⟩, by decide, by decide⟩
  match j, h with
  | 0, h => cases h; rfl
  | 1, _ => exact absurd rfl hj
  | j + 2, h => exact List.eq_of_mem_replicate (List.mem_of_getElem? h)

/-- A code-length code of the symbols 1 and 2, of one bit each. -/
def twoLengths : PrefixCode := .canonical ((List.replicate 18 0).set 1 1 |>.set 2 1)

/-- Its bits. -/
def twoLengthsBits (p : Nat) : List Bool := [p == 2]

theorem twoLengths_parses : ∀ p ∈ [1, 2], Parses (prefixDecode twoLengths) (twoLengthsBits p) p := by
  intro p hp rest pos
  simp only [List.mem_cons, List.not_mem_nil, or_false] at hp
  rcases hp with rfl | rfl <;> rfl

/-- A code-length code with the one length of symbol 16, and the lengths that a row of codes 16 stands for under it. -/
theorem witness_EsInitFillsSlot_complexCode : 2 ≤ 256 ∧ 0 ∈ [0, 2, 3] ∧
    Parses (readCodeLengthCode 0) (((List.replicate 18 0).set 8 1).flatMap clCodeBits) (.zeroBits 16) ∧
    Parses (readCodeLengths 256 (.zeroBits 16))
      ([LengthGroup.repeatPrevious [2, 2, 2, 1]].flatMap (LengthGroup.bits fun _ => [])) (List.replicate 256 8) := by
  refine ⟨by decide, by decide,
    (readCodeLengthCode_reads (hskip := 0) (vs := (List.replicate 18 0).set 8 1) (by decide) (by decide)).2.1
      8 1 16 rfl rfl (by decide) (fun j u h hj => ?_) rfl, ?_⟩
  · rw [List.getElem?_set_ne (Ne.symm hj)] at h
    exact List.eq_of_mem_replicate (List.mem_of_getElem? h)
  · have h := (readCodeLengths_reads (A := 256) (clCode := .zeroBits 16) (code := fun _ => [])
      (groups := [.repeatPrevious [2, 2, 2, 1]])
      (by intro p hp; simp only [List.flatMap_cons, List.flatMap_nil, LengthGroup.symbols, List.map_cons, List.map_nil,
            List.append_nil, List.mem_cons, List.not_mem_nil, or_false, or_self] at hp
          subst hp; exact parses_pure 16)
      (by simp [groupsWf])).1 (by decide +kernel) (by decide +kernel) (by decide +kernel)
    have e : groupLengths 8 [.repeatPrevious [2, 2, 2, 1]] = List.replicate 256 8 := by decide +kernel
    rwa [e, List.length_replicate, Nat.sub_self, List.replicate_zero, List.append_nil] at h

/-- Lengths from groups: the complete code 1, 2, 2; three zeros, which are incomplete; a row of zeros past the alphabet;
and a length that over-subscribes the code. -/
theorem witness_EsInitFillsSlot_lengths :
    (∀ p ∈ ([.literal 1, .literal 2, .literal 2] : List LengthGroup).flatMap LengthGroup.symbols,
      Parses (prefixDecode twoLengths) (twoLengthsBits p) p) ∧
    (groupsWf [.literal 1, .literal 2, .literal 2] ∧ (groupLengths 8 [.literal 1, .literal 2, .literal 2]).length ≤ 4 ∧
      codeSpace 15 (groupLengths 8 [.literal 1, .literal 2, .literal 2]) = 32768 ∧
      (groupLengths 8 [.literal 1, .literal 2, .literal 2]).getLast? ≠ some 0) ∧
    Parses (prefixDecode (.zeroBits 17)) [] 17 ∧
    (groupsWf [.repeatZero [0]] ∧ (groupLengths 8 [.repeatZero [0]]).length = 3 ∧
      codeSpace 15 (groupLengths 8 [.repeatZero [0]]) < 32768) ∧
    (groupsWf ([] ++ [LengthGroup.repeatZero [7]]) ∧ (groupLengths 8 []).length < 9 ∧
      9 < (groupLengths 8 ([] ++ [LengthGroup.repeatZero [7]])).length) ∧
    (groupsWf ([LengthGroup.literal 1, .literal 2] ++ [LengthGroup.literal 1]) ∧ (groupLengths 8 [.literal 1, .literal 2]).length < 3 ∧
      codeSpace 15 (groupLengths 8 [.literal 1, .literal 2]) < 32768 ∧
      32768 < codeSpace 15 (groupLengths 8 ([LengthGroup.literal 1, .literal 2] ++ [LengthGroup.literal 1]))) := by
  refine ⟨fun p hp => twoLengths_parses p ?_,
    ⟨by simp [groupsWf], by decide +kernel, by decide +kernel, by decide +kernel⟩, parses_pure 17,
    ⟨by simp [groupsWf], by decide +kernel, by decide +kernel⟩,
    ⟨by simp [groupsWf], by decide +kernel, by decide +kernel⟩,
    by simp [groupsWf], by decide +kernel, by decide +kernel, by decide +kernel⟩
  simpa [LengthGroup.symbols] using hp

/-- Row E5; the distance context; the rest of row E2; a length of `2^32 - 1 + 3`; the rows of the distance table. -/
theorem witness_EsReadReturnsSymbol : (running {}).stream? 0#32 = none ∧
    (withStream (running {}) { config := streamP6, coder := {} }).stream? 0#32 =
      some { config := streamP6, coder := {} } ∧
    streamP6.numContexts - (if streamP6.lz77.isSome then 1 else 0) = 1 ∧ (running {}).overrun = false ∧
    0 < ({ copyRemaining := 2 } : Coder).copyRemaining ∧ ({} : Coder).copyRemaining = 0 ∧
    streamP6.clusterMap[0]? = some 0 ∧ streamP6.clusterMap[streamP6.numContexts - 1]? = some 1 ∧
    answer (decodeToken streamP6 0) { coder := {}, source := { rest := [true, false], pos := 84 } } = some 5 ∧
    5 < 8 ∧ streamP6.coding.hybridConfig? 0 = some ⟨4, 0, 0⟩ ∧
    answer (hybridExpand 5 ⟨4, 0, 0⟩) { rest := [], pos := 86 } = some 5 ∧
    answer (decodeToken streamP6 0) { coder := {}, source := { rest := [false], pos := 88 } } = some 8 ∧
    answer (hybridExpand (8 - 8) ⟨8, 0, 0⟩) { rest := [], pos := 89 } = some 0 ∧
    answer (decodeToken streamP6 1) { coder := {}, source := { rest := [], pos := 89 } } = some 1 ∧
    answer (hybridExpand 1 ⟨4, 0, 0⟩) { rest := [], pos := 89 } = some 1 ∧
    (answer (hybridExpand 32 ⟨0, 0, 0⟩) { rest := List.replicate 31 true, pos := 0 } = some (2 ^ 32 - 1) ∧
      2 ^ 32 ≤ 2 ^ 32 - 1 + 3) ∧
    ((0#32).toNat = 0 ∧ (10#32).toNat ≠ 0 ∧ 119 < 120 ∧ 120 ≤ 120) := by decide +kernel

/-- Rows A1, A3 and A4. -/
theorem witness_AnsSymbolDecode : ({} : Coder).hasState = false ∧ 32 ≤ (List.replicate 32 true).length ∧
    (List.replicate 31 true).length < 32 ∧
    (∃ d, streamP2.coding = .ans 5 [d] ∧ aliasLookup 5 d.table (0x004C0980 % 4096) = some (6, 384) ∧
      aliasLookup 5 d.table (0x00010000 % 4096) = some (3, 128) ∧ d.freqs[6]? = some 2048 ∧ d.freqs[3]? = some 2048 ∧
      2048 ≤ 4096) ∧
    2 ^ 16 ≤ 2048 * (0x004C0980 / 4096) + 384 ∧ 2048 * (0x00010000 / 4096) + 128 < 2 ^ 16 ∧
    16 ≤ (List.replicate 16 true).length ∧ (List.replicate 15 true).length < 16 :=
  ⟨rfl, by decide, by decide, ⟨_, rfl, by decide +kernel, by decide +kernel, by decide +kernel, by decide +kernel,
    by decide⟩, by decide, by decide, by decide, by decide⟩

theorem witness_EsValidateCloneAndFree : (running {}).stream? 0#32 = none ∧ (running {}).overrun = false ∧
    (∀ c, (withStream (running {}) { config := streamP2, coder := c }).stream? 0#32 =
      some { config := streamP2, coder := c }) ∧
    (∃ ds, streamP6.coding = .prefixCode ds) ∧ (∃ L ds, streamP2.coding = .ans L ds) ∧ ({} : Coder).hasState = false ∧
    0x00130000#32 = 0x130000#32 ∧ 0x00260180#32 ≠ 0x130000#32 ∧ 8 ≤ (8#32).toNat ∧ (7#32).toNat < 8 :=
  ⟨rfl, rfl, fun _ => rfl, ⟨_, rfl⟩, ⟨_, _, rfl⟩, rfl, rfl, by decide, by decide, by decide⟩

/-- Row D6. -/
theorem witness_DistributionsSumTo4096 : 5 ≤ 5 ∧ 8 ≤ 8 ∧
    answer (readAnsFreqs 5) { rest := [false, true, true, true, false, false, false], pos := 0 } =
      some ([1366, 1365, 1365] ++ List.replicate 29 0) := by decide +kernel

/-- Table T2's distribution, and a single symbol of 256 (table T5's form). -/
theorem witness_AliasTableIsExact : ([1366, 1365, 1365] ++ List.replicate 29 0).length = 2 ^ 5 ∧
    ([1366, 1365, 1365] ++ List.replicate 29 0).sum = 4096 ∧
    2 < 2 ^ 5 ∧ 1364 < ([1366, 1365, 1365] ++ List.replicate 29 0).getD 2 0 ∧
    ((List.replicate 256 0).set 7 4096).length = 2 ^ 8 ∧ ((List.replicate 256 0).set 7 4096).sum = 4096 := by
  decide +kernel

/-- Row Q9. -/
theorem witness_CanonicalCodeDecodes : (3, 3, 7) ∈ canonicalCodes [1, 2, 3, 3] ∧ 7 < 2 ^ 3 ∧
    (0, 1, 0) ∈ canonicalCodes [1, 2, 3, 3] ∧ 0 < 2 ^ 1 := by decide +kernel

/-! ### Trees -/

/-- Row K6, program P1, and rows F15 and F12. -/
theorem witness_TreeLoadStoresTree : 2 ≤ (2#32).toNat ∧ (1#32).toNat < 2 ∧ 8 ≤ (8#32).toNat ∧ (7#32).toNat < 8 ∧
    (running {}).overrun = false ∧
    answer readTree { rest := bitsP1, pos := 0 } =
      some ([.leaf { context := 0, predictor := .zero, offset := 5, multiplier := 1 }], 1) ∧
    (answer (readEntropyStream 1 false) { rest := bitsP1.drop 48, pos := 48 }).isSome = true ∧
    stop readTree { rest := [], pos := 0 } = some (.raise .truncatedInput) ∧
    stop (readEntropyStream 1 false) { rest := (bitsP1.take 73).drop 48, pos := 48 } = some (.raise .truncatedInput) ∧
    (running {} bitsP1).source.rest = fieldBits 74 0x030C5012A14700802486 ++ [] := by
  decide +kernel

theorem treeP7_wf : TreeWf treeP7 := by
  refine ⟨by decide, by decide, fun i n h => ?_⟩
  match i, h with
  | 0, h => cases h; exact ⟨by decide, by decide, by decide, by decide, by decide⟩
  | 1, h => cases h; exact ⟨by decide, by decide, by decide⟩
  | 2, h => cases h; exact ⟨by decide, by decide, by decide⟩
  | i + 3, h => cases h

/-- Row K4, and the tree of row K1. -/
theorem witness_TreeCompactReportsResidual : (running {}).tree? 1#32 = none ∧ 2 ≤ (2#32).toNat ∧ (1#32).toNat < 2 ∧
    (running {}).overrun = false ∧ ((running {}).setTree 0 treeP7).tree? 0#32 = some treeP7 ∧ TreeWf treeP7 :=
  ⟨rfl, by decide, by decide, rfl, rfl, treeP7_wf⟩

theorem witness_ResidualTreeWalksAlike : TreeWf treeP7 ∧
    (∃ R, compactify treeP7 { channel := 0, stream := 0, row := some 0 } = some R) ∧
    ∀ k v, ({ channel := 0, stream := 0, row := some 0 } : Frozen).value? k = some v →
      (.ok 0 : Except Stop Int) = .ok v := by
  refine ⟨treeP7_wf, ⟨_, rfl⟩, fun k v h => ?_⟩
  match k, h with
  | 0, h => cases h; rfl
  | 1, h => cases h; rfl
  | 2, h => cases h; rfl
  | k + 3, h => cases h

/-- Row K4, row K2, and row K5's fault; every property that the tree of program P7 tests has a value. -/
theorem witness_TreeWalkReportsLeaf : (running {}).tree? 1#32 = none ∧ (running {}).channels.length ≤ (0#32).toNat ∧
    ((running {}).setTree 0 treeP7).tree? 0#32 = some treeP7 ∧ (record 3 2 []).width ≤ (3#32).toNat ∧
    (record 3 2 []).height ≤ (2#32).toNat ∧ (2#32).toNat < (record 3 2 []).width ∧ (running {}).overrun = false ∧
    walk treeP7 (fun _ => .ok 2) treeP7.length 0 =
      .ok (1, { context := 0, predictor := .weighted, offset := 0, multiplier := 1 }) ∧
    walk treeP7 (fun _ => .error (.raise (.contractViolation .wpProperty))) treeP7.length 0 =
      .error (.raise (.contractViolation .wpProperty)) ∧
    TreeWf treeP7 ∧ ∀ (n k : Nat) (v : Int) (lc rc : Nat), treeP7[n]? = some (Node.decision k v lc rc) →
      ∃ x, property { channel := 0, streamId := 0, plane := { w := 3, m := [] }, refs := [] }
        (.error (.raise (.contractViolation .wpProperty))) 2 0 k = .ok x := by
  refine ⟨rfl, by decide, rfl, by decide, by decide, by decide, rfl, rfl, rfl, treeP7_wf, fun n k v lc rc h => ?_⟩
  match n, h with
  | 0, h => cases h; exact ⟨_, rfl⟩
  | 1, h => cases h
  | 2, h => cases h
  | n + 3, h => cases h

/-! ### Channels -/

theorem arena_holds_one : 1 ≤ Config.arenaCapacity := Nat.le_add_left _ _

/-- A full list; a list that fills the arena, whatever its size is; an empty list and one more sample. -/
theorem witness_ChannelListCommands : (running {}).overrun = false ∧ 2 ^ 31 ≤ (0x80000000#32).toNat ∧
    (0x7FFFFFFF#32).toNat < 2 ^ 31 ∧ 4096 ≤ full.channels.length ∧
    Config.arenaCapacity < totalArea [record Config.arenaCapacity 1 []] + (1#32).toNat * (1#32).toNat ∧
    (running {}).channels.length < 4096 ∧
    totalArea (running {}).channels + (1#32).toNat * (1#32).toNat ≤ Config.arenaCapacity := by
  refine ⟨rfl, by decide, by decide, by decide +kernel, ?_, by decide, ?_⟩
  · simp [totalArea, Channel.area, record]
  · have := arena_holds_one
    simpa [totalArea, running, State.reset] using this

/-- The checks in order: no record, no tree, no stream, row F10, an empty record, a leaf's context that the stream does
not have, a cross-channel property with no reference channel. -/
theorem witness_ChDecodeChecksFirst : (running {}).channels.length ≤ (0#32).toNat ∧ (running {}).tree? 0#32 = none ∧
    ((running {}).setTree 0 treeP7).tree? 0#32 = some treeP7 ∧ (running {}).stream? 0#32 = none ∧
    (withStream (running {}) { config := streamP2, coder := {} }).stream? 0#32 =
      some { config := streamP2, coder := {} } ∧
    (record 1 1 [8] true).decoded = true ∧ (record 0 1 []).width = 0 ∧ 0 < (record 1 1 []).width ∧
    (∃ R, compactify treeP7 { channel := 0, stream := 0, row := none } = some R ∧
      R.anyLeaf (fun l => decide (streamP2.readableContexts ≤ l.context)) = true ∧
      R.anyLeaf (fun l => decide (streamP7.readableContexts ≤ l.context)) = false) ∧
    ∃ R, compactify [.decision 16 0 1 2, .leaf { context := 0, predictor := .zero, offset := 0, multiplier := 1 },
        .leaf { context := 1, predictor := .zero, offset := 0, multiplier := 1 }]
        { channel := 0, stream := 0, row := none } = some R ∧
      R.anyLeaf (fun l => decide (streamP7.readableContexts ≤ l.context)) = false ∧
      R.anyDecision (fun k => decide (16 ≤ k ∧
        (refChannels [record 1 1 []] 0 (record 1 1 [])).length ≤ (k - 16) / 4)) = true := by
  refine ⟨by decide, rfl, rfl, rfl, rfl, rfl, rfl, by decide, ⟨_, rfl, ?_, ?_⟩, _, rfl, ?_, ?_⟩ <;> decide +kernel

/-- Program P2 at step 4, with a record of one sample and of two. -/
theorem witness_ChDecodeScenarioLaws : (running {}).overrun = false ∧ (record 1 1 []).decoded = false ∧
    (record 2 1 []).height = 1 ∧ 0 < streamP2.readableContexts ∧
    answer (readSymbol streamP2 0 0) { coder := {}, source := { rest := fieldBits 32 0x004C0980, pos := 80 } } = some 6 ∧
    inI32 (unpackSignedNat 6 * 1 + 0) = true ∧
    answer (readSymbol streamP2 0 0) ⟨{ ansState := 0x00260180#32, hasState := true }, { rest := [], pos := 112 }⟩ =
      some 3 ∧
    inI32 (unpackSignedNat 3 * 1 + 0 + (unpackSignedNat 6 * 1 + 0)) = true := by decide +kernel

/-- Program P2 at step 4. -/
def decoding : State := withStream { (running {} (fieldBits 32 0x004C0980)).setTree 0
    [.leaf { context := 0, predictor := .west, offset := 0, multiplier := 1 }] with channels := [record 2 1 []] }
  { config := streamP2, coder := {} }

theorem witness_ChDecodeSolvesPixelEquations : decoding.fault = none ∧ decoding.channels[0]? = some (record 2 1 []) ∧
    decoding.tree? 0#32 = some [.leaf { context := 0, predictor := .west, offset := 0, multiplier := 1 }] ∧
    TreeWf [.leaf { context := 0, predictor := .west, offset := 0, multiplier := 1 }] ∧
    decoding.stream? 0#32 = some { config := streamP2, coder := {} } ∧
    ∃ t, exec .chDecode decoding = .next t ∧ t.fault = none := by
  refine ⟨rfl, rfl, rfl, ⟨by decide, by decide, fun i n h => ?_⟩, rfl, next_of_after (by decide +kernel)⟩
  match i, h with
  | 0, h => cases h; exact ⟨by decide, by decide, by decide⟩
  | i + 1, h => cases h

/-- A 2x2 record of four samples, and the function it holds. -/
def square (nw n w : Int) : Plane := { w := 2, m := (record 2 2 [nw, n, w]).samples }

def squareValue (nw n w : Int) (x y : Nat) : Int := if y = 0 then (if x = 0 then nw else n) else w

/-- The position (1, 1) of three records whose `W`, `N`, `NW` are rows of the `Select` table: 3, 8, 0 and 8, 3, 0, and
the tie 4, 4, 4. -/
theorem witness_NeighboursAndPredictors : 1 < (square 0 8 3).w ∧ KnownBefore (square 0 8 3) (squareValue 0 8 3) 1 1 ∧
    KnownBefore (square 0 3 8) (squareValue 0 3 8) 1 1 ∧ KnownBefore (square 4 4 4) (squareValue 4 4 4) 1 1 ∧
    |(3 : Int) - 0| < |(8 : Int) - 0| ∧ |(4 : Int) - 4| = |(4 : Int) - 4| := by
  refine ⟨by decide, ?_, ?_, ?_, by decide, rfl⟩ <;>
  · intro x y hx h
    have hx : x < 2 := hx
    interval_cases x
    · have : y = 0 ∨ y = 1 := by omega
      rcases this with rfl | rfl <;> rfl
    · have : y = 0 := by omega
      subst this; rfl

/-- A first position with no neighbours but those above, the last position of a 2x2 record, a property with no reference
channel, a reference channel of four known samples, and the records that `refs(c)` lists. -/
theorem witness_PixelProperties : 0 < (square 0 8 3).w ∧ KnownBefore (square 0 8 3) (squareValue 0 8 3) 0 1 ∧
    KnownBefore (square 0 8 3) (squareValue 0 8 3) 1 1 ∧ 16 ≤ 16 ∧ ([] : List Channel).length ≤ (16 - 16) / 4 ∧
    [record 2 2 [1, 2, 3, 4]][0]? = some (record 2 2 [1, 2, 3, 4]) ∧
    (∀ x' y', x' ≤ 1 → 1 ≤ x' + 1 → y' ≤ 1 → 1 ≤ y' + 1 →
      sampleAt (record 2 2 [1, 2, 3, 4]).width (record 2 2 [1, 2, 3, 4]).samples x' y' = .ok (1 + x' + 2 * y')) ∧
    refChannels [record 1 1 [5], record 2 1 [], record 1 1 [7], record 1 1 []] 3 (record 1 1 []) =
      [record 1 1 [7], record 1 1 [5]] := by
  refine ⟨by decide, ?_, ?_, by decide, by decide, rfl, ?_, by decide⟩
  · intro x y hx h
    have hx : x < 2 := hx
    have : y = 0 := by omega
    subst this
    interval_cases x <;> rfl
  · intro x y hx h
    have hx : x < 2 := hx
    interval_cases x
    · have : y = 0 ∨ y = 1 := by omega
      rcases this with rfl | rfl <;> rfl
    · have : y = 0 := by omega
      subst this; rfl
  · intro x y hx _ hy _
    interval_cases x <;> interval_cases y <;> rfl

/-- The condition under which the weighted prediction is not clamped (`44_channel_decoder.md` R332). -/
def unclamped (teN teW teNW : Int) : Bool :=
  ((0 ≤ teN ∧ 0 ≤ teW ∧ 0 ≤ teNW) ∨ (teN < 0 ∧ teW < 0 ∧ teNW < 0)) ∧ ¬ (teN = teW ∧ teN = teNW)

/-- The least weights; the rows and parameters after reset; the sign test met with a zero and below zero, and not met by
two signs and by equal errors; a row and an entry that an update leaves. -/
theorem witness_WeightedPredictorLaws : 4 ≤ 4 ∧ ({} : WpState).pe = [[], [], [], []] ∧
    (wpParams {}).maxWeights = [13, 12, 12, 12] ∧ unclamped 0 1 0 = true ∧ unclamped (-1) (-1) (-2) = true ∧
    unclamped 0 (-1) 0 = false ∧ unclamped 0 0 0 = false ∧
    ([[], [], [], []] : List ErrorRow)[3]? = some [] ∧ 0 ≠ wpCur 2 1 + 1 ∧ 0 ≠ wpPrev 2 1 + 1 + 1 := by decide

/-! ### Transforms -/

theorem totalArea_fits {l : List Channel} (h : totalArea l ≤ 1) : totalArea l ≤ Config.arenaCapacity :=
  Nat.le_trans h arena_holds_one

/-- Rows F8 and F7, a list that is too short, and program P3. -/
theorem witness_XfPushRctRecordsTransform : 42 ≤ (42#32).toNat ∧ (running {}).channels.length < 0 + 3 ∧
    (41#32).toNat < 42 ∧ ¬ ((record 1 1 []).shape = (record 1 1 []).shape ∧
      (record 1 1 []).shape = (record 2 1 []).shape) ∧
    (running {}).overrun = false ∧ (List.replicate 3 (record 1 1 []))[2]? = some (record 1 1 []) := by decide

/-- Each check, and a 1x1 record with no colour, a palette that fits in every arena. -/
theorem witness_XfPushPaletteInsertsPalette :
    (0#32).toNat = 0 ∧ (running {}).channels.length < 0 + 1 ∧ 13 < (14#32).toNat ∧ Predictor.weightedSum.id = 13 ∧
    ¬ (∀ c ∈ [record 1 1 [], record 2 1 []], ∀ c' ∈ [record 1 1 [], record 2 1 []], c.shape = c'.shape) ∧
    (0 < 1 ∧ 1 < 0 + 2) ∧ (running {}).overrun = false ∧
    ¬ (4097 ≤ 4096) ∧ [{ record 0 1 [] with hshift := -1, vshift := -1 }, record 1 1 []].length ≤ 4096 ∧
    totalArea [{ record 0 1 [] with hshift := -1, vshift := -1 }, record 1 1 []] ≤ Config.arenaCapacity ∧
    ∀ c ∈ [{ record 0 1 [] with hshift := -1, vshift := -1 }, record 1 1 []], c.width < 2 ^ 31 ∧ c.height < 2 ^ 31 := by
  refine ⟨rfl, by decide, by decide, rfl, by decide, by decide, rfl, by decide, by decide, totalArea_fits (by decide),
    by decide⟩

/-- Each check, and a squeeze of a 1x1 record, which fits in every arena. -/
theorem witness_XfPushSqueezeInsertsResiduals : 4 ≤ (4#32).toNat ∧ (3#32).toNat < 4 ∧
    (running {}).channels.length < 0 + 1 ∧ (0 < 1 ∧ 1 < 0 + 2) ∧ 30 < (31 : Int) ∧ (30 : Int) ≤ 30 ∧
    (record 0 1 []).width = 0 ∧ (record 1 1 []).width ≠ 0 ∧ (running {}).overrun = false ∧
    (squeezedList [record 1 1 []] 0 1 true 1).length ≤ 4096 ∧
    totalArea (squeezedList [record 1 1 []] 0 1 true 1) ≤ Config.arenaCapacity ∧
    ∀ c ∈ squeezedList [record 1 1 []] 0 1 true 1, c.width < 2 ^ 31 ∧ c.height < 2 ^ 31 := by
  refine ⟨by decide, by decide, by decide, by decide, by decide, by decide, rfl, by decide, rfl, by decide,
    totalArea_fits (by decide), by decide⟩

/-- RCT type 41, permutation 5 of YCoCg, over three 1x1 arrays of 5s: their forward transform is (5, 0, 0). -/
theorem witness_XfApplyUndoesRct : (running {}).overrun = false ∧ (running {}).transforms = [] ∧ 41 < 42 ∧
    rctOffsets[41 / 7]? = some (2, 1, 0) ∧ (record 1 1 [5]).shape = (record 1 1 [0]).shape ∧ inI32 5 = true ∧
    forwardRct (41 % 7) 5 5 5 = (5, 0, 0) ∧
    ∀ x y, x < (record 1 1 [5]).width → y < (record 1 1 [5]).height →
      (record 1 1 [5]).sample x y = some (BitVec.ofInt 32 5) ∧
      (record 1 1 [0]).sample x y = some (BitVec.ofInt 32 0) := by
  refine ⟨rfl, rfl, by decide, rfl, rfl, rfl, rfl, fun x y hx hy => ?_⟩
  have hx : x < 1 := hx
  have hy : y < 1 := hy
  interval_cases x
  interval_cases y
  exact ⟨rfl, rfl⟩

/-- `SmoothTendency` falling and rising: with no cut, with the cut at the right, and with the cut at the left; a peak and
a valley. -/
theorem witness_SqueezeLineRoundTrip :
    ((0 : Int) ≤ 2 ∧ (2 : Int) ≤ 4 ∧ (4 * 4 - 3 * 0 - 2 + 6) / 12 = (1 : Int) ∧
      (1 : Int) - 1 % 2 ≤ 2 * (4 - 2) ∧ (1 : Int) + 1 % 2 ≤ 2 * (2 - 0)) ∧
    ((0 : Int) ≤ 0 ∧ (0 : Int) ≤ 4 ∧ (4 * 4 - 3 * 0 - 0 + 6) / 12 = (1 : Int) ∧
      (1 : Int) - 1 % 2 ≤ 2 * (4 - 0) ∧ 2 * (0 - 0) < (1 : Int) + 1 % 2) ∧
    ((0 : Int) ≤ 6 ∧ (6 : Int) ≤ 6 ∧ (4 * 6 - 3 * 0 - 6 + 6) / 12 = (2 : Int) ∧ 2 * (6 - 6) < (2 : Int) - 2 % 2) ∧
    ((0 : Int) ≤ 2 ∧ (2 : Int) ≤ 4 ∧ -((3 * 4 + 2 - 4 * 0 + 6) / 12) = (-1 : Int) ∧
      2 * (0 - 2) ≤ (-1 : Int) + -1 % 2 ∧ 2 * (2 - 4) ≤ (-1 : Int) - -1 % 2) ∧
    ((0 : Int) ≤ 4 ∧ (4 : Int) ≤ 4 ∧ -((3 * 4 + 4 - 4 * 0 + 6) / 12) = (-1 : Int) ∧
      2 * (0 - 4) ≤ (-1 : Int) + -1 % 2 ∧ (-1 : Int) - -1 % 2 < 2 * (4 - 4)) ∧
    ((0 : Int) ≤ 0 ∧ (0 : Int) ≤ 6 ∧ -((3 * 6 + 0 - 4 * 0 + 6) / 12) = (-2 : Int) ∧
      (-2 : Int) + -2 % 2 < 2 * (0 - 0)) ∧
    ((0 : Int) < 1 ∧ (0 : Int) < 1) ∧ (0 : Int) < 1 ∧ (0 : Int) < 1 := by decide

/-- Program P5's row. -/
def rowP5 : List Int := [10, 20, 30, 25, 5]

/-- Program P5, and the same as a column. -/
theorem witness_XfApplyUndoesSqueeze : (running {}).overrun = false ∧ 0 < 1 ∧
    (record 3 1 [15, 28, 5]).lineLength true = 3 ∧ (record 2 1 [-9, 5]).lineLength true = 2 ∧ 3 = (3 + 2 + 1) / 2 ∧
    (record 1 3 [15, 28, 5]).lineLength false = 3 ∧ (record 1 2 [-9, 5]).lineLength false = 2 ∧
    (List.range (3 + 2)).map (fun j => rowP5.getD j 0) = rowP5 ∧ (∀ j, inI32 (rowP5.getD j 0) = true) ∧
    (∀ (j : Nat) (v : Int), (forwardAverages rowP5)[j]? = some v →
      (record 3 1 [15, 28, 5]).lineSample true 0 j = some (BitVec.ofInt 32 v) ∧
      (record 1 3 [15, 28, 5]).lineSample false 0 j = some (BitVec.ofInt 32 v)) ∧
    ∀ (j : Nat) (v : Int), (forwardResiduals none rowP5)[j]? = some v →
      inI32 v = true ∧ (record 2 1 [-9, 5]).lineSample true 0 j = some (BitVec.ofInt 32 v) ∧
      (record 1 2 [-9, 5]).lineSample false 0 j = some (BitVec.ofInt 32 v) := by
  refine ⟨rfl, by decide, rfl, rfl, rfl, rfl, rfl, rfl, fun j => ?_, fun j v h => ?_, fun j v h => ?_⟩
  · match j with
    | 0 => rfl
    | 1 => rfl
    | 2 => rfl
    | 3 => rfl
    | 4 => rfl
    | j + 5 => rfl
  · have hl : forwardAverages rowP5 = [15, 28, 5] := rfl
    rw [hl] at h
    match j, h with
    | 0, h => cases h; exact ⟨rfl, rfl⟩
    | 1, h => cases h; exact ⟨rfl, rfl⟩
    | 2, h => cases h; exact ⟨rfl, rfl⟩
    | j + 3, h => cases h
  · have hl : forwardResiduals none rowP5 = [-9, 5] := rfl
    rw [hl] at h
    match j, h with
    | 0, h => cases h; exact ⟨rfl, rfl, rfl⟩
    | 1, h => cases h; exact ⟨rfl, rfl, rfl⟩
    | j + 2, h => cases h

/-- A palette of one colour over a 1x1 index record: `BITDEPTH` 0, then 1 and 32. -/
theorem witness_XfApplyExpandsPalette : ((0#6).toNat = 0 ∧ 32 < (33#6).toNat) ∧ (running {}).overrun = false ∧
    1 ≤ (1#6).toNat ∧ (32#6).toNat ≤ 32 ∧ (record 1 1 [100]).width = 1 ∧ (record 1 1 [100]).height = 1 ∧
    fitsArena (unpalettedList [record 1 1 [100], record 1 1 [0]] 0 (List.replicate 1 (record 1 1 [0]))) = true ∧
    (∀ x y, x < (record 1 1 [0]).width → y < (record 1 1 [0]).height →
      ∃ v, (record 1 1 [0]).sample x y = some v ∧ 0 ≤ v.toInt ∧ v.toInt < (1 : Nat)) ∧
    ∀ i k, i < 1 → k < 1 → ((record 1 1 [100]).sample i k).isSome = true := by
  refine ⟨by decide, rfl, by decide, by decide, rfl, rfl, ?_, fun x y hx hy => ?_, fun i k hi hk => ?_⟩
  · have h : totalArea (unpalettedList [record 1 1 [100], record 1 1 [0]] 0 (List.replicate 1 (record 1 1 [0]))) ≤
        Config.arenaCapacity := totalArea_fits (by decide)
    unfold fitsArena
    rw [decide_eq_true h]
    decide
  · have hx : x < 1 := hx
    have hy : y < 1 := hy
    interval_cases x
    interval_cases y
    exact ⟨0#32, rfl, by decide, by decide⟩
  · interval_cases i
    interval_cases k
    rfl

/-- A palette of one colour, 10, over a 1x1 index record that selects delta entry 4, with west as the predictor. -/
def deltaRun : State := { running {} with
  channels := [record 1 1 [10], record 1 1 [-2]]
  transforms := [{ transform := .palette 0 1 1 1 .west, nbMetaBefore := 0 }] }

/-- The weighted prediction of its one sample. -/
def deltaPrediction : WpPrediction := wpCompute (wpParams {}) {} 1 0 0 0 0 0 0 0

theorem witness_XfApplyExpandsPalette_deltas : deltaRun.overrun = false ∧
    deltaRun.transforms = [{ transform := .palette 0 1 (record 1 1 [10]).width 1 .west, nbMetaBefore := 0 }] ∧
    1 ≤ deltaRun.latched.bitDepth.toNat ∧ deltaRun.latched.bitDepth.toNat ≤ 32 ∧
    deltaRun.channels[0]? = some (record 1 1 [10]) ∧ deltaRun.channels[0 + 1]? = some (record 1 1 [-2]) ∧
    (record 1 1 [10]).height = 1 ∧
    fitsArena (unpalettedList deltaRun.channels 0 (List.replicate 1 (record 1 1 [-2]))) = true ∧
    ∃ W : Nat → WpState, W 0 = {} ∧ ∀ x y, x < (record 1 1 [-2]).width → y < (record 1 1 [-2]).height →
      wpPredict (wpParams deltaRun.latched) (W (y * 1 + x)) { w := 1, m := samplesOf 1 1 fun _ _ => 4 } x y =
        .ok deltaPrediction ∧
      W (y * 1 + x + 1) = wpUpdate (W (y * 1 + x)) deltaPrediction 1 x y 4 ∧
      ∃ idx base pred, (record 1 1 [-2]).sample x y = some idx ∧
        paletteValue (record 1 1 [10]) (record 1 1 [10]).width idx.toInt 0
          (min deltaRun.latched.bitDepth.toNat 24) = .ok base ∧
        predict .west { w := 1, m := samplesOf 1 1 fun _ _ => 4 } x y deltaPrediction.pred = .ok pred ∧
        (4 : Int) = base + (if idx.toInt < (1 : Nat) then pred else 0) ∧ inI32 4 = true := by
  refine ⟨rfl, rfl, by decide, by decide, rfl, rfl, rfl, ?_,
    fun p => if p = 0 then {} else wpUpdate {} deltaPrediction 1 0 0 4, rfl, fun x y hx hy => ?_⟩
  · have h : totalArea (unpalettedList deltaRun.channels 0 (List.replicate 1 (record 1 1 [-2]))) ≤
        Config.arenaCapacity := totalArea_fits (by decide)
    unfold fitsArena
    rw [decide_eq_true h]
    decide
  · have hx : x < 1 := hx
    have hy : y < 1 := hy
    interval_cases x
    interval_cases y
    exact ⟨rfl, rfl, -2#32, 4, 0, rfl, rfl, rfl, rfl, rfl⟩

/-- An implicit index on each side of each boundary, with one explicit colour; a delta entry of each sign, at a bit depth
of 8 and of 9. -/
theorem witness_ImplicitPaletteEntries : 1 ≤ 1 ∧ 24 ≤ 24 ∧ 3 ≤ 3 ∧ (-1 : Int) < 0 ∧ 8 ≤ 8 ∧ ((1 : Nat) : Int) ≤ 64 ∧
    (64 : Int) < ((1 : Nat) : Int) + 64 ∧ ((1 : Nat) : Int) + 64 ≤ 65 ∧ 2 < 3 ∧
    (-(-2 + 1) % 143 = (1 : Int) ∧ -(-3 + 1) % 143 = (2 : Int) ∧ 1 % 2 = 1 ∧ ¬ 2 % 2 = 1) ∧ ¬ 8 < 8 ∧ 8 < 9 := by decide

theorem witness_XfApplyRestoresListShape : State.reset.transforms = [] ∧ Session State.reset [] State.reset ∧
    ∃ u, exec .xfApply { State.reset with latched := {} } = .next u ∧ u.fault = none :=
  ⟨rfl, .start, _, rfl, rfl⟩

end Sys2Proof.Tests
end

/-! ## What each command leaves: one inversion of every command's body -/

namespace Sys2Proof.Machine

/-- What the body of a command leaves of `s`, when it completes (`done = true`) or stops early (`done = false`): one
constructor for each way a command of the block changes its units, with what is known of what it stored there. -/
inductive Leaves (s : State) : Instr → (done : Bool) → State → Prop where
  | unchanged (i : Instr) (done : Bool) : Leaves s i done s
  | bitsRead {i : Instr} (done : Bool) (b : BitSource) (hi : i ∈ [.hybExpand, .hybConfigRead, .esInit, .treeLoad]) :
      Leaves s i done (s.setSource b)
  | slotFilled {cfg : StreamConfig} (b : BitSource) (hcfg : StreamWf cfg) :
      Leaves s .esInit true ((s.setSource b).setSlot s.latched.args.arg0.toNat (some { config := cfg, coder := {} }))
  | slotRead {st : Stream} {r : Reading} (done : Bool) (hst : s.stream? s.latched.args.arg0 = some st)
      (hr : ReadingKept { coder := st.coder, source := s.source } r) :
      Leaves s .esRead done
        ((s.setSource r.source).setSlot s.latched.args.arg0.toNat (some { st with coder := r.coder }))
  | slotCloned {st : Stream} (hst : s.stream? s.latched.args.arg0 = some st) :
      Leaves s .esClone true (s.setSlot s.latched.args.arg1.toNat (some { config := st.config, coder := {} }))
  | slotFreed : Leaves s .esFree true (s.setSlot s.latched.args.arg0.toNat none)
  | treeLoaded {nodes : List Node} {cfg : StreamConfig} (b : BitSource) (hnodes : TreeWf nodes) (hcfg : StreamWf cfg) :
      Leaves s .treeLoad true (((s.setSource b).setTree s.latched.args.arg0.toNat nodes).setSlot
        s.latched.args.arg1.toNat (some { config := cfg, coder := {} }))
  | listCleared : Leaves s .chlClear true (((s.setChannels []).setTransforms []).setNbMeta 0)
  | recordAppended (hlen : s.channels.length < Config.maxChannels)
      (harea : totalArea s.channels + (appendedChannel s.latched.args).area ≤ Config.arenaCapacity) :
      Leaves s .chlAppend true (s.setChannels (s.channels ++ [appendedChannel s.latched.args]))
  | recordMarked : Leaves s .chDecode true (s.markDecoded s.latched.args.arg0.toNat)
  | pixelsStopped {ch : Channel} {st : Stream} {p : PixelState}
      (hch : s.channels[s.latched.args.arg0.toNat]? = some ch) (hst : s.stream? s.latched.args.arg2 = some st)
      (hp : PixelsKept ch.area
        { reading := { coder := st.coder, source := s.source }, samples := ch.samples, wp := {} } p) :
      Leaves s .chDecode false
        (((s.setSource p.reading.source).setSlot s.latched.args.arg2.toNat
          (some { st with coder := p.reading.coder })).setChannel s.latched.args.arg0.toNat
            { ch with samples := p.samples })
  | pixelsDecoded {ch : Channel} {st : Stream} {p : PixelState}
      (hch : s.channels[s.latched.args.arg0.toNat]? = some ch) (hst : s.stream? s.latched.args.arg2 = some st)
      (hp : PixelsKept ch.area
        { reading := { coder := st.coder, source := s.source }, samples := ch.samples, wp := {} } p) :
      Leaves s .chDecode true
        ((((s.setSource p.reading.source).setSlot s.latched.args.arg2.toNat
          (some { st with coder := p.reading.coder })).setChannel s.latched.args.arg0.toNat
            { ch with samples := p.samples }).markDecoded s.latched.args.arg0.toNat)
  | sampleWritten {ch : Channel} (hch : s.channels[s.latched.args.arg0.toNat]? = some ch)
      (hx : s.latched.args.arg1.toNat < ch.width) (hy : s.latched.args.arg2.toNat < ch.height) :
      Leaves s .chWrite true (s.setChannel s.latched.args.arg0.toNat { ch with
        samples := Memory.write ch.samples
          (s.latched.args.arg2.toNat * ch.width + s.latched.args.arg1.toNat) s.latched.args.arg3 })
  | rctPushed : Leaves s .xfPushRct true
      (s.pushTransform s.nbMeta (.rct s.latched.args.arg0.toNat s.latched.args.arg1.toNat))
  | palettePushed {q : Predictor} (hn : s.latched.args.arg1.toNat ≠ 0)
      (hlen : s.latched.args.arg0.toNat + s.latched.args.arg1.toNat ≤ s.channels.length)
      (hmeta : s.latched.args.arg0.toNat < s.nbMeta →
        s.latched.args.arg0.toNat + s.latched.args.arg1.toNat ≤ s.nbMeta)
      (hfits : fitsArena (palettedList s.channels s.latched.args.arg0.toNat s.latched.args.arg1.toNat
        s.latched.args.arg2.toNat q) = true) :
      Leaves s .xfPushPalette true (afterPalettePush s s.latched.args q)
  | squeezePushed (hlen : s.latched.args.arg0.toNat + s.latched.args.arg1.toNat ≤ s.channels.length)
      (hfits : fitsArena (afterSqueezeList s s.latched.args) = true) :
      Leaves s .xfPushSqueeze true (afterSqueezePush s s.latched.args)
  | transformsUndone {u : State} (h : undoTransforms s.transforms.reverse s = .ok () u) : Leaves s .xfApply true u
  | undoingStopped {e : Stop} {u : State} (h : undoTransforms s.transforms.reverse s = .error e u) :
      Leaves s .xfApply false u

/-- However the computation ended, what it leaves of `s` is among `Leaves s i`. -/
def LeavesAt (s : State) (i : Instr) : EStateM.Result Stop State Results → Prop
  | .ok _ u => Leaves s i true u
  | .error _ u => Leaves s i false u

/-- A check that fails leaves the state as it is. -/
theorem LeavesAt.guard {s : State} {i : Instr} {c : Prop} [Decidable c] {x : EStateM.Result Stop State Results}
    {e : Stop} (h : c → LeavesAt s i x) : LeavesAt s i (if c then x else .error e s) := by
  split
  · exact h ‹c›
  · exact .unchanged _ _

theorem hybExpandBody_leaves (s : State) : LeavesAt s .hybExpand (hybExpandBody s) := by
  rw [hybExpandBody_eq]
  refine .guard fun _ => ?_
  cases hybridExpand s.latched.args.arg0.toNat (unpackConfig s.latched.args.arg1) s.source
  all_goals exact .bitsRead _ _ (by decide)

theorem hybConfigReadBody_leaves (s : State) : LeavesAt s .hybConfigRead (hybConfigReadBody s) := by
  rw [hybConfigReadBody_eq]
  refine .guard fun _ => ?_
  cases readHybridConfig s.latched.args.arg0.toNat s.source
  all_goals exact .bitsRead _ _ (by decide)

theorem esInitBody_leaves (s : State) : LeavesAt s .esInit (esInitBody s) := by
  rw [esInitBody_eq]
  refine .guard fun _ => .guard fun hargs => ?_
  have hn : 0 < s.latched.args.arg1.toNat := by
    have := hargs.1
    bv_omega
  cases h : readEntropyStream s.latched.args.arg1.toNat (flagBit s.latched.args.arg2 0) s.source with
  | ok cfg b => exact .slotFilled b ((readEntropyStream_runs hn _).ok h).2.1
  | error e b => exact .bitsRead _ _ (by decide)

theorem esReadBody_leaves (s : State) : LeavesAt s .esRead (esReadBody s) := by
  rw [esReadBody_eq]
  cases hst : s.stream? s.latched.args.arg0 with
  | none => exact .unchanged _ _
  | some st =>
    refine .guard fun _ => ?_
    have hkeeps := readSymbol_keeps st.config s.latched.args.arg1.toNat s.latched.args.arg2.toNat
    cases h : readSymbol st.config s.latched.args.arg1.toNat s.latched.args.arg2.toNat
        { coder := st.coder, source := s.source } with
    | ok v r => exact .slotRead _ hst (hkeeps.ok h)
    | error e r => exact .slotRead _ hst (hkeeps.error h)

theorem esValidateBody_leaves (s : State) : LeavesAt s .esValidate (esValidateBody s) := by
  rw [esValidateBody_eq]
  cases s.stream? s.latched.args.arg0 with
  | none => exact .unchanged _ _
  | some st => exact .guard fun _ => .unchanged _ _

theorem esCloneBody_leaves (s : State) : LeavesAt s .esClone (esCloneBody s) := by
  rw [esCloneBody_eq]
  refine .guard fun _ => ?_
  cases hst : s.stream? s.latched.args.arg0 with
  | none => exact .unchanged _ _
  | some st => exact .slotCloned hst

theorem esFreeBody_leaves (s : State) : LeavesAt s .esFree (esFreeBody s) := by
  rw [esFreeBody_eq]
  exact .guard fun _ => .slotFreed

theorem treeLoadBody_leaves (s : State) : LeavesAt s .treeLoad (treeLoadBody s) := by
  rw [treeLoadBody_eq]
  refine .guard fun _ => .guard fun _ => ?_
  cases ht : readTree s.source with
  | error e b => exact .bitsRead _ _ (by decide)
  | ok t b =>
    obtain ⟨-, hnodes, hcount, -⟩ := readTree_runs.ok ht
    have hleaves : 0 < t.2 := by
      have := List.length_pos_iff.2 hnodes.1
      omega
    dsimp only
    cases hd : readEntropyStream t.2 false b with
    | error e b' => exact .bitsRead _ _ (by decide)
    | ok cfg b' => exact .treeLoaded b' hnodes ((readEntropyStream_runs hleaves false).ok hd).2.1

theorem treeCompactBody_leaves (s : State) : LeavesAt s .treeCompact (treeCompactBody s) := by
  rw [treeCompactBody_eq]
  cases s.tree? s.latched.args.arg0 with
  | none => exact .unchanged _ _
  | some nodes =>
    refine .guard fun _ => ?_
    cases compactify nodes (compactFix s.latched.args) <;> exact .unchanged _ _

theorem treeWalkBody_leaves (s : State) : LeavesAt s .treeWalk (treeWalkBody s) := by
  rw [treeWalkBody_eq]
  cases s.tree? s.latched.args.arg0 with
  | none => exact .unchanged _ _
  | some nodes =>
  cases s.channels[s.latched.args.arg1.toNat]? with
  | none => exact .unchanged _ _
  | some ch =>
    refine .guard fun _ => ?_
    cases walk nodes (walkProperty s ch) nodes.length 0 <;> exact .unchanged _ _

theorem chlAppendBody_leaves (s : State) : LeavesAt s .chlAppend (chlAppendBody s) := by
  rw [chlAppendBody_eq]
  exact .guard fun _ => .guard fun hlen => .guard fun harea => .recordAppended hlen harea

theorem chReadBody_leaves (s : State) : LeavesAt s .chRead (chReadBody s) := by
  rw [chReadBody_eq]
  cases s.channels[s.latched.args.arg0.toNat]? with
  | none => exact .unchanged _ _
  | some ch =>
    refine .guard fun _ => ?_
    cases ch.sample s.latched.args.arg1.toNat s.latched.args.arg2.toNat <;> exact .unchanged _ _

theorem chWriteBody_leaves (s : State) : LeavesAt s .chWrite (chWriteBody s) := by
  rw [chWriteBody_eq]
  cases hch : s.channels[s.latched.args.arg0.toNat]? with
  | none => exact .unchanged _ _
  | some ch => exact .guard fun hin => .sampleWritten hch hin.1 hin.2

theorem chInfoBody_leaves (s : State) : LeavesAt s .chInfo (chInfoBody s) := by
  rw [chInfoBody_eq]
  cases s.channels[s.latched.args.arg0.toNat]? <;> exact .unchanged _ _

theorem chDecodeBody_leaves (s : State) : LeavesAt s .chDecode (chDecodeBody s) := by
  rw [chDecodeBody_eq]
  cases hch : s.channels[s.latched.args.arg0.toNat]? with
  | none => exact .unchanged _ _
  | some ch =>
  cases s.tree? s.latched.args.arg1 with
  | none => exact .unchanged _ _
  | some nodes =>
  cases hst : s.stream? s.latched.args.arg2 with
  | none => exact .unchanged _ _
  | some st =>
  refine .guard fun _ => ?_
  by_cases harea : ch.area = 0
  · rw [if_pos harea]
    exact .recordMarked
  rw [if_neg harea, decodeChannel_eq]
  cases compactify nodes
      { channel := s.latched.args.arg0.toNat, stream := s.latched.streamId.toNat, row := none } with
  | none => exact .unchanged _ _
  | some t =>
  by_cases hctx : contextsFit t st.config = true
  · by_cases hprop : propertiesFit t (refChannels s.channels s.latched.args.arg0.toNat ch).length = true
    · simp only [hctx, hprop, if_true]
      have hkeeps := decodePixels_keeps (decodeJob s s.latched.args.arg0.toNat ch t st) ch.area ch.area 0 (by omega)
      cases h : decodePixels (decodeJob s s.latched.args.arg0.toNat ch t st) ch.area 0
          { reading := { coder := st.coder, source := s.source }, samples := ch.samples, wp := {} } with
      | ok _ p => exact .pixelsDecoded hch hst (hkeeps.ok h)
      | error e p => exact .pixelsStopped hch hst (hkeeps.error h)
    · simp only [hctx, hprop, if_true]
      exact .unchanged _ _
  · simp only [hctx]
    exact .unchanged _ _

theorem xfPushRctBody_leaves (s : State) : LeavesAt s .xfPushRct (xfPushRctBody s) := by
  rw [xfPushRctBody_eq]
  exact .guard fun _ => .guard fun _ => .guard fun _ => .rctPushed

theorem xfPushPaletteBody_leaves (s : State) : LeavesAt s .xfPushPalette (xfPushPaletteBody s) := by
  rw [xfPushPaletteBody_eq]
  refine .guard fun hrange => ?_
  cases predictorOfId? s.latched.args.arg4.toNat with
  | none => exact .unchanged _ _
  | some q =>
    exact .guard fun _ => .guard fun hmeta => .guard fun hfits => .palettePushed hrange.1 hrange.2 hmeta hfits

theorem xfPushSqueezeBody_leaves (s : State) : LeavesAt s .xfPushSqueeze (xfPushSqueezeBody s) := by
  rw [xfPushSqueezeBody_eq]
  exact .guard fun _ => .guard fun hrange => .guard fun _ => .guard fun _ => .guard fun hfits =>
    .squeezePushed hrange.2 hfits

theorem xfApplyBody_leaves (s : State) : LeavesAt s .xfApply (xfApplyBody s) := by
  rw [xfApplyBody_eq]
  cases h : undoTransforms s.transforms.reverse s with
  | ok _ u => exact .transformsUndone h
  | error e u =>
    by_cases he : e = .raise .resourceExhausted
    · subst he; exact .unchanged _ _
    · split
      · exact absurd ‹_› (by simp)
      · rename_i heq; cases heq; exact absurd rfl he
      · rename_i heq; cases heq; exact .undoingStopped h

/-- Every body leaves one of `Leaves`. -/
theorem commandBody_leaves (i : Instr) (s : State) : LeavesAt s i (commandBody i s) := by
  cases i with
  | nop => exact .unchanged _ _
  | hybExpand => exact hybExpandBody_leaves s
  | unpackSigned => exact .unchanged _ _
  | hybConfigRead => exact hybConfigReadBody_leaves s
  | esInit => exact esInitBody_leaves s
  | esRead => exact esReadBody_leaves s
  | esValidate => exact esValidateBody_leaves s
  | esClone => exact esCloneBody_leaves s
  | esFree => exact esFreeBody_leaves s
  | treeLoad => exact treeLoadBody_leaves s
  | treeCompact => exact treeCompactBody_leaves s
  | treeWalk => exact treeWalkBody_leaves s
  | chlClear => exact .listCleared
  | chlAppend => exact chlAppendBody_leaves s
  | chDecode => exact chDecodeBody_leaves s
  | chRead => exact chReadBody_leaves s
  | chWrite => exact chWriteBody_leaves s
  | chInfo => exact chInfoBody_leaves s
  | xfPushRct => exact xfPushRctBody_leaves s
  | xfPushPalette => exact xfPushPaletteBody_leaves s
  | xfPushSqueeze => exact xfPushSqueezeBody_leaves s
  | xfApply => exact xfApplyBody_leaves s

/-- A command that answers a state has run its body, which left one of `Leaves`, and closed it: completed with the
body's results, or latched its fault. -/
theorem exec_leaves {i : Instr} {s t : State} (h : exec i s = .next t) :
    (∃ r u, commandBody i s = .ok r u ∧ Leaves s i true u ∧ t = u.complete r) ∨
    (∃ f u, Leaves s i false u ∧ t = u.latchFault f) := by
  have hl := commandBody_leaves i s
  rcases exec_cases i s with ⟨r, u, hb, he⟩ | ⟨f, u, hb, he⟩ | ⟨f, u, hb, he⟩
  · rw [he] at h; rw [hb] at hl; cases h
    exact .inl ⟨r, u, hb, hl, rfl⟩
  · rw [he] at h; rw [hb] at hl; cases h
    exact .inr ⟨f, u, hl, rfl⟩
  · rw [he] at h; cases h

end Sys2Proof.Machine

/-! ## The frame of every command (`10_state.md` R34, R37, `60_exceptions.md` R422) -/

namespace Sys2Proof.Machine

variable {s t u : State} {i : Instr} {done : Bool}

/-- What a body leaves differs from where it started only in the units: the Bit Source, slots, tree stores, channel
list, `nbMeta` and transform list. -/
theorem Leaves.hostSide (h : Leaves s i done u) :
    u = { s with source := u.source, slots := u.slots, trees := u.trees, channels := u.channels, nbMeta := u.nbMeta,
                 transforms := u.transforms } := by
  cases h with
  | transformsUndone h => rw [((undoTransforms_runs _).ok h).1]
  | undoingStopped h => rw [((undoTransforms_runs _).error h).1]
  | _ => rfl

/-- Settles O21: every body leaves the host's side alone, and both ways of closing a command lower `BUSY` and the
CMD-while-BUSY mark. -/
theorem engineLeavesHostSide : Obligations.EngineLeavesHostSide := by
  intro i s t h
  rcases exec_leaves h with ⟨r, u, -, hu, rfl⟩ | ⟨f, u, hu, rfl⟩
  all_goals
    rw [hu.hostSide]
    simp

/-! ## The units each command changes (`10_state.md` R37, R49, `70_reset_and_hazards.md` R471 to R473) -/

/-- The slot a command may fill, empty or read from. -/
def slotNamed (i : Instr) (a : Args) : Option Nat :=
  match i with
  | .esInit | .esRead | .esFree => some a.arg0.toNat
  | .esClone | .treeLoad => some a.arg1.toNat
  | .chDecode => some a.arg2.toNat
  | _ => none

theorem vector_eq_of_getElem? {α : Type} {n : Nat} {v w : Vector α n} (h : ∀ j : Nat, v[j]? = w[j]?) : v = w := by
  refine Vector.ext fun j hj => ?_
  have := h j
  simpa [hj] using this

theorem State.setSlot_slots_other {k j : Nat} (h : k ≠ j) (v : Option Stream) :
    (s.setSlot k v).slots[j]? = s.slots[j]? := Vector.getElem?_setIfInBounds_ne h

theorem Leaves.slots_other (h : Leaves s i done u) {j : Nat} (hj : slotNamed i s.latched.args ≠ some j) :
    u.slots[j]? = s.slots[j]? := by
  have hne : ∀ {k}, slotNamed i s.latched.args = some k → k ≠ j := fun hk he => hj (by rw [hk, he])
  cases h with
  | transformsUndone h => rw [((undoTransforms_runs _).ok h).1]
  | undoingStopped h => rw [((undoTransforms_runs _).error h).1]
  | slotFilled | slotRead | slotCloned | slotFreed | treeLoaded | pixelsStopped | pixelsDecoded =>
    exact State.setSlot_slots_other (hne rfl) _
  | _ => rfl

theorem Leaves.trees_other (h : Leaves s i done u) {j : Nat} (hj : i = .treeLoad → j ≠ s.latched.args.arg0.toNat) :
    u.trees[j]? = s.trees[j]? := by
  cases h with
  | transformsUndone h => rw [((undoTransforms_runs _).ok h).1]
  | undoingStopped h => rw [((undoTransforms_runs _).error h).1]
  | treeLoaded => exact Vector.getElem?_setIfInBounds_ne (hj rfl).symm
  | _ => rfl

theorem Leaves.channels_eq (h : Leaves s i done u)
    (hi : i ∉ [.chlClear, .chlAppend, .chDecode, .chWrite, .xfPushPalette, .xfPushSqueeze, .xfApply]) :
    u.channels = s.channels := by
  cases h with
  | listCleared | recordAppended | recordMarked | pixelsStopped | pixelsDecoded | sampleWritten | palettePushed
  | squeezePushed | transformsUndone | undoingStopped => exact absurd hi (by decide)
  | _ => rfl

theorem Leaves.channels_other (h : Leaves s i done u) (hi : i ∈ [.chDecode, .chWrite]) {j : Nat}
    (hj : j ≠ s.latched.args.arg0.toNat) : u.channels[j]? = s.channels[j]? := by
  cases h with
  | recordMarked => exact List.getElem?_modify_ne _ _ hj.symm
  | pixelsStopped | sampleWritten => exact List.getElem?_set_ne hj.symm
  | pixelsDecoded => exact (List.getElem?_modify_ne _ (s.channels.set _ _) hj.symm).trans (List.getElem?_set_ne hj.symm)
  | listCleared | recordAppended | palettePushed | squeezePushed | transformsUndone | undoingStopped =>
    exact absurd hi (by decide)
  | _ => rfl

theorem Leaves.nbMeta_eq (h : Leaves s i done u) (hi : i ∉ [.chlClear, .xfPushPalette, .xfPushSqueeze, .xfApply]) :
    u.nbMeta = s.nbMeta := by
  cases h with
  | listCleared | palettePushed | squeezePushed | transformsUndone | undoingStopped => exact absurd hi (by decide)
  | _ => rfl

theorem Leaves.transforms_eq (h : Leaves s i done u)
    (hi : i ∉ [.chlClear, .xfPushRct, .xfPushPalette, .xfPushSqueeze, .xfApply]) : u.transforms = s.transforms := by
  cases h with
  | listCleared | rctPushed | palettePushed | squeezePushed | transformsUndone | undoingStopped =>
    exact absurd hi (by decide)
  | _ => rfl

theorem Leaves.source_eq (h : Leaves s i done u)
    (hi : i ∉ [.hybExpand, .hybConfigRead, .esInit, .esRead, .treeLoad, .chDecode]) : u.source = s.source := by
  cases h with
  | bitsRead _ b hread =>
    simp only [List.mem_cons, List.not_mem_nil, or_false] at hread
    rcases hread with rfl | rfl | rfl | rfl <;> exact absurd hi (by decide)
  | slotFilled | slotRead | treeLoaded | pixelsStopped | pixelsDecoded => exact absurd hi (by decide)
  | transformsUndone h => rw [((undoTransforms_runs _).ok h).1]
  | undoingStopped h => rw [((undoTransforms_runs _).error h).1]
  | _ => rfl

/-! ## The result registers each command writes (`10_state.md` R37, R38) -/

/-- Whatever the state, the value a computation completes with satisfies `Q`. -/
def Answers {σ α : Type} (m : Eng σ α) (Q : α → Prop) : Prop := ∀ s a t, m s = .ok a t → Q a

theorem Answers.pure {σ α : Type} {Q : α → Prop} {a : α} (h : Q a) : Answers (pure a : Eng σ α) Q := by
  intro s b t hb
  cases hb
  exact h

theorem Answers.bind {σ α β : Type} {Q : β → Prop} {m : Eng σ α} {f : α → Eng σ β} (h : ∀ a, Answers (f a) Q) :
    Answers (m >>= f) Q := by
  intro s b u hb
  rw [eng_bind] at hb
  cases hm : m s with
  | ok a t => rw [hm] at hb; exact h a t b u hb
  | error e t => rw [hm] at hb; cases hb

/-- The result registers that a command's results leave alone. -/
def ResultsKept (i : Instr) (r : Results) : Prop :=
  (i ∉ [.hybExpand, .unpackSigned, .hybConfigRead, .esInit, .esRead, .treeLoad, .treeCompact, .treeWalk, .chlAppend,
      .chRead, .chInfo] → r.r0 = none) ∧
  (i ∉ [.treeLoad, .treeCompact, .treeWalk, .chInfo] → r.r1 = none) ∧ (i ∉ [.treeWalk, .chInfo] → r.r2 = none)

theorem commandBody_results (i : Instr) : Answers (commandBody i) (ResultsKept i) := by
  cases i
  all_goals
    repeat' refine Answers.bind fun _ => ?_
    exact Answers.pure (by simp [ResultsKept])

theorem exec_results (h : exec i s = .next t) :
    (i ∉ [.hybExpand, .unpackSigned, .hybConfigRead, .esInit, .esRead, .treeLoad, .treeCompact, .treeWalk, .chlAppend,
      .chRead, .chInfo] → t.result0 = s.result0) ∧
    (i ∉ [.treeLoad, .treeCompact, .treeWalk, .chInfo] → t.result1 = s.result1) ∧
    (i ∉ [.treeWalk, .chInfo] → t.result2 = s.result2) := by
  rcases exec_leaves h with ⟨r, u, hb, hu, rfl⟩ | ⟨f, u, hu, rfl⟩
  · obtain ⟨h0, h1, h2⟩ := commandBody_results i _ _ _ hb
    rw [hu.hostSide]
    exact ⟨fun hi => by simp [h0 hi], fun hi => by simp [h1 hi], fun hi => by simp [h2 hi]⟩
  · rw [hu.hostSide]
    simp

/-- Closing a command changes none of its units. -/
theorem exec_units (h : exec i s = .next t) : ∃ u done, Leaves s i done u ∧
    t.trees = u.trees ∧ t.slots = u.slots ∧ t.channels = u.channels ∧ t.nbMeta = u.nbMeta ∧
      t.transforms = u.transforms ∧ t.source = u.source := by
  rcases exec_leaves h with ⟨r, u, -, hu, rfl⟩ | ⟨f, u, hu, rfl⟩
  · exact ⟨u, true, hu, by simp⟩
  · exact ⟨u, false, hu, by simp⟩

/-- Settles O22, unit by unit from the ways a command can leave the block. -/
theorem unitsEachCommandChanges : Obligations.UnitsEachCommandChanges := by
  intro i s t h
  obtain ⟨u, done, hu, htrees, hslots, hchannels, hmeta, htransforms, hsource⟩ := exec_units h
  obtain ⟨h0, h1, h2⟩ := exec_results h
  rw [htrees, hslots, hchannels, hmeta, htransforms, hsource]
  refine ⟨fun hi => ?_, fun j hj => hu.trees_other fun _ => hj, fun hi => ?_, fun j hi hj => hu.slots_other ?_,
    fun j hi hj => hu.slots_other ?_, fun j hi hj => hu.slots_other ?_, hu.channels_eq,
    fun j hi hj => hu.channels_other hi hj, hu.nbMeta_eq, hu.transforms_eq, hu.source_eq, h0, h1, h2⟩
  · exact vector_eq_of_getElem? fun j => hu.trees_other fun he => absurd he hi
  · refine vector_eq_of_getElem? fun j => hu.slots_other ?_
    cases i <;> simp [slotNamed] at hi ⊢
  · simp only [List.mem_cons, List.not_mem_nil, or_false] at hi
    rcases hi with rfl | rfl | rfl <;> simpa [slotNamed] using hj.symm
  · simp only [List.mem_cons, List.not_mem_nil, or_false] at hi
    rcases hi with rfl | rfl <;> simpa [slotNamed] using hj.symm
  · subst hi
    simpa [slotNamed] using hj.symm

end Sys2Proof.Machine

/-! ## What a step can do to an invariant of the units -/

namespace Sys2Proof.Machine

variable {s t u : State} {i : Instr} {done : Bool}

/-- `t` has the stores and lists of `s`, and forgets no fault of `s`. -/
structure SameUnits (s t : State) : Prop where
  slots : t.slots = s.slots
  trees : t.trees = s.trees
  channels : t.channels = s.channels
  nbMeta : t.nbMeta = s.nbMeta
  transforms : t.transforms = s.transforms
  fault : t.fault = none → s.fault = none

theorem sameUnits_latchFault (s : State) (f : BlockFault) : SameUnits s (s.latchFault f) :=
  ⟨rfl, rfl, rfl, rfl, rfl, by simp [State.latchFault_fault]⟩

theorem sameUnits_complete (s : State) (r : Results) : SameUnits s (s.complete r) := by
  refine ⟨by simp, by simp, by simp, by simp, by simp, fun h => ?_⟩
  rw [State.complete_fault] at h
  split at h
  · simp at h
  · exact h

theorem writeCmd_sameUnits (s : State) (w : Word) : SameUnits s (writeCmd s w) := by
  rcases writeCmd_cases s w with ⟨-, h⟩ | ⟨-, -, h⟩ | ⟨-, -, -, h⟩ | ⟨-, -, -, h⟩ <;> rw [h]
  · exact ⟨rfl, rfl, rfl, rfl, rfl, id⟩
  · exact ⟨rfl, rfl, rfl, rfl, rfl, id⟩
  · exact ⟨rfl, rfl, rfl, rfl, rfl, id⟩
  · exact sameUnits_latchFault s _

/-- The host changes no unit but by a reset. -/
theorem hostAction_units (s : State) (a : Input) :
    SameUnits s (s.hostAction a) ∨ SameUnits State.reset (s.hostAction a) := by
  cases a with
  | wait => exact .inl ⟨rfl, rfl, rfl, rfl, rfl, id⟩
  | present bits => exact .inl ⟨rfl, rfl, rfl, rfl, rfl, id⟩
  | hardReset bits => exact .inr ⟨rfl, rfl, rfl, rfl, rfl, id⟩
  | write index v =>
    show SameUnits s (s.writeReg index v) ∨ SameUnits State.reset (s.writeReg index v)
    rcases writeReg_cases s index v with ⟨-, h⟩ | ⟨-, h⟩ | ⟨-, -, h⟩ | ⟨-, -, h⟩ | ⟨-, h⟩ <;> rw [h]
    · exact .inl (writeCmd_sameUnits s v)
    · split <;> exact .inl ⟨rfl, rfl, rfl, rfl, rfl, id⟩
    · exact .inr ⟨rfl, rfl, rfl, rfl, rfl, id⟩
    · exact .inl ⟨rfl, rfl, rfl, rfl, rfl, id⟩
    · exact .inl ⟨rfl, rfl, rfl, rfl, rfl, id⟩

/-- The engine's turn runs a command, or latches a fault that changes no unit. -/
theorem engineTurn_cases (h : engineTurn s = .next t) :
    (∃ i, exec i s = .next t) ∨ t = s.latchFault (.illegalCommand (opField s.cmd)) := by
  cases hd : decode s.cmd with
  | ok i => exact .inl ⟨i, by rw [← h, engineTurn_ok hd]⟩
  | error e => rw [engineTurn_error hd] at h; cases h; exact .inr rfl

/-- A step changes the units only by a reset or by a command. -/
theorem step_units (h : step s = .next t) :
    SameUnits s t ∨ SameUnits State.reset t ∨
      ∃ i more, s.busy = true ∧ exec i { s with inputs := more } = .next t := by
  rcases step_cases h with ⟨a, more, -, -, rfl⟩ | ⟨-, -, rfl⟩ | ⟨-, more, -, rfl⟩ | ⟨hb, -, he⟩ | ⟨hb, more, -, he⟩
  · rcases hostAction_units { s with inputs := more } a with h | h
    · exact .inl ⟨h.slots, h.trees, h.channels, h.nbMeta, h.transforms, h.fault⟩
    · exact .inr (.inl h)
  · exact .inl ⟨rfl, rfl, rfl, rfl, rfl, id⟩
  · exact .inl ⟨rfl, rfl, rfl, rfl, rfl, id⟩
  · rcases engineTurn_cases he with ⟨i, hi⟩ | rfl
    · exact .inr (.inr ⟨i, s.inputs, hb, hi⟩)
    · exact .inl (sameUnits_latchFault s _)
  · rcases engineTurn_cases he with ⟨i, hi⟩ | rfl
    · exact .inr (.inr ⟨i, more, hb, hi⟩)
    · exact .inl ⟨rfl, rfl, rfl, rfl, rfl, by simp [State.latchFault_fault]⟩

/-- An invariant of the units holds after every step when it holds at reset and every body keeps it, however it ends. -/
theorem step_keeps {P : State → Prop} (hsame : ∀ {s t}, SameUnits s t → P s → P t) (hreset : P State.reset)
    (hbody : ∀ {s i done u}, Leaves s i done u → P s → P u) (hs : P s) (h : step s = .next t) : P t := by
  rcases step_units h with h | h | ⟨i, more, -, h⟩
  · exact hsame h hs
  · exact hsame h hreset
  · have hs' : P { s with inputs := more } := hsame (s := s) ⟨rfl, rfl, rfl, rfl, rfl, id⟩ hs
    rcases exec_leaves h with ⟨r, u, -, hu, rfl⟩ | ⟨f, u, hu, rfl⟩
    · exact hsame (sameUnits_complete u r) (hbody hu hs')
    · exact hsame (sameUnits_latchFault u f) (hbody hu hs')

/-! ## The status bits and the reserved bits (`10_state.md` R34, R43, R72) -/

/-- An idle block with no mark of a CMD write is in agreement. -/
theorem statusInv_of_idle (hb : s.busy = false) (ho : s.overrun = false) : StatusInv s := by
  simp [StatusInv, hb, ho]

theorem StatusInv.writeCmd (h : StatusInv s) (w : Word) : StatusInv (writeCmd s w) := by
  rcases writeCmd_cases s w with ⟨-, he⟩ | ⟨hf, hb, he⟩ | ⟨hf, hb, -, he⟩ | ⟨hf, hb, -, he⟩ <;> rw [he]
  · exact h
  · exact ⟨h.1, fun _ => hb⟩
  · exact ⟨fun _ => ⟨hf, rfl⟩, fun _ => rfl⟩
  · exact statusInv_of_idle rfl rfl

theorem StatusInv.hostAction (h : StatusInv s) (a : Input) : StatusInv (s.hostAction a) := by
  cases a with
  | wait => exact h
  | present bits => exact h
  | hardReset bits => exact statusInv_of_idle rfl rfl
  | write index v =>
    show StatusInv (s.writeReg index v)
    rcases writeReg_cases s index v with ⟨-, he⟩ | ⟨-, he⟩ | ⟨-, -, he⟩ | ⟨-, -, he⟩ | ⟨-, he⟩ <;> rw [he]
    · exact h.writeCmd v
    · split
      · exact ⟨fun hb => ⟨(h.1 hb).1, rfl⟩, h.2⟩
      · exact h
    · exact statusInv_of_idle rfl rfl
    · exact h
    · exact h

/-- The reserved bits of one set of registers (`10_state.md` R43). -/
def ReservedZero (r : HostRegs) : Prop := r.wp0 &&& wp0Mask = r.wp0 ∧ r.wp1 &&& wp1Mask = r.wp1

theorem reservedInv_iff (s : State) : ReservedInv s ↔ ReservedZero s.regs ∧ ReservedZero s.latched := by
  unfold ReservedInv ReservedZero
  tauto

theorem ReservedZero.put {r : HostRegs} (h : ReservedZero r) (index : Nat) (v : Word) :
    ReservedZero (r.put index v) := by
  unfold HostRegs.put
  split_ifs
  any_goals exact h
  · exact ⟨by simp [BitVec.and_assoc], h.2⟩
  · exact ⟨h.1, by simp [BitVec.and_assoc]⟩

theorem reservedZero_default : ReservedZero {} := by unfold ReservedZero; decide

theorem ReservedInv.hostAction (h : ReservedInv s) (a : Input) : ReservedInv (s.hostAction a) := by
  rw [reservedInv_iff] at *
  cases a with
  | wait => exact h
  | present bits => exact h
  | hardReset bits => exact ⟨reservedZero_default, reservedZero_default⟩
  | write index v =>
    show ReservedZero (s.writeReg index v).regs ∧ ReservedZero (s.writeReg index v).latched
    rcases writeReg_cases s index v with ⟨-, he⟩ | ⟨-, he⟩ | ⟨-, -, he⟩ | ⟨-, -, he⟩ | ⟨-, he⟩ <;> rw [he]
    · rcases writeCmd_cases s v with ⟨-, he⟩ | ⟨-, -, he⟩ | ⟨-, -, -, he⟩ | ⟨-, -, -, he⟩ <;> rw [he]
      · exact h
      · exact h
      · exact ⟨h.1, h.1⟩
      · exact h
    · split <;> exact h
    · exact ⟨reservedZero_default, reservedZero_default⟩
    · exact h
    · exact ⟨h.1.put index v, h.2⟩

/-- The engine's turn leaves the registers and the latched copies alone, and `BUSY` and the CMD-while-BUSY mark at 0. -/
theorem engineTurn_hostSide (h : engineTurn s = .next t) :
    t.regs = s.regs ∧ t.latched = s.latched ∧ t.busy = false ∧ t.overrun = false := by
  rcases engineTurn_cases h with ⟨i, hi⟩ | rfl
  · obtain ⟨hregs, hlatched, -, -, -, -, -, hbusy, hoverrun⟩ := engineLeavesHostSide i s t hi
    exact ⟨hregs, hlatched, hbusy, hoverrun⟩
  · exact ⟨rfl, rfl, rfl, rfl⟩

/-- Settles O15, by the host's actions one by one and the frame of the engine's turn. -/
theorem statusAndReservedBitsStayLegal : Obligations.StatusAndReservedBitsStayLegal := by
  intro s t h
  rcases step_cases h with ⟨a, more, -, -, rfl⟩ | ⟨-, -, rfl⟩ | ⟨-, more, -, rfl⟩ | ⟨-, -, he⟩ | ⟨-, more, -, he⟩
  · exact ⟨fun hs => StatusInv.hostAction (s := { s with inputs := more }) hs a,
      fun hs => ReservedInv.hostAction (s := { s with inputs := more }) hs a⟩
  · exact ⟨id, id⟩
  · exact ⟨id, id⟩
  all_goals
    obtain ⟨hregs, hlatched, hbusy, hoverrun⟩ := engineTurn_hostSide he
    refine ⟨fun _ => statusInv_of_idle hbusy hoverrun, fun hs => ?_⟩
    rw [reservedInv_iff] at hs ⊢
    rw [hregs, hlatched]
    exact hs

end Sys2Proof.Machine

/-! ## Tree stores and slots stay legal (`10_state.md` R45, R47, R48) -/

namespace Sys2Proof.Machine

variable {s t u : State} {i : Instr} {done : Bool}

theorem stream?_slot {a : Word} {st : Stream} (h : s.stream? a = some st) : s.slots[a.toNat]? = some (some st) :=
  Option.join_eq_some_iff.1 h

/-- A stream that stands in a slot after an update of one slot is the one put there, or stood there before. -/
theorem setSlot_cases {k j : Nat} {v : Option Stream} {st : Stream}
    (h : (s.setSlot k v).slots[j]? = some (some st)) : v = some st ∨ s.slots[j]? = some (some st) := by
  rw [State.setSlot_slots, Vector.getElem?_setIfInBounds] at h
  split_ifs at h
  · exact .inl (Option.some.inj h)
  · exact .inr h

theorem setTree_cases {k j : Nat} {v nodes : List Node} (h : (s.setTree k v).trees[j]? = some (some nodes)) :
    v = nodes ∨ s.trees[j]? = some (some nodes) := by
  rw [State.setTree_trees, Vector.getElem?_setIfInBounds] at h
  split_ifs at h
  · exact .inl (Option.some.inj (Option.some.inj h))
  · exact .inr h

theorem StoresInv.same (h : SameUnits s t) (hs : StoresInv s) : StoresInv t := by
  unfold StoresInv
  rw [h.trees, h.slots]
  exact hs

theorem StoresInv.setSlot (h : StoresInv s) (k : Nat) {v : Option Stream}
    (hv : ∀ st, v = some st → StreamWf st.config) : StoresInv (s.setSlot k v) := by
  refine ⟨h.1, fun j st hst => ?_⟩
  rcases setSlot_cases hst with hst | hst
  · exact hv st hst
  · exact h.2 j st hst

/-- Filling a slot with a legal configuration. -/
theorem StoresInv.fillSlot (h : StoresInv s) (k : Nat) {cfg : StreamConfig} (c : Coder) (hcfg : StreamWf cfg) :
    StoresInv (s.setSlot k (some { config := cfg, coder := c })) := h.setSlot k (by rintro _ ⟨⟩; exact hcfg)

theorem StoresInv.setTree (h : StoresInv s) (k : Nat) {v : List Node} (hv : TreeWf v) : StoresInv (s.setTree k v) := by
  refine ⟨fun j nodes hn => ?_, h.2⟩
  rcases setTree_cases hn with rfl | hn
  · exact hv
  · exact h.1 j nodes hn

theorem StoresInv.stream (h : StoresInv s) {a : Word} {st : Stream} (hst : s.stream? a = some st) :
    StreamWf st.config := h.2 _ _ (stream?_slot hst)

theorem Leaves.storesInv (h : Leaves s i done u) (hs : StoresInv s) : StoresInv u := by
  cases h with
  | slotFilled b hcfg => exact StoresInv.fillSlot (s := s.setSource b) hs _ _ hcfg
  | slotRead _ hst => exact StoresInv.fillSlot (s := s.setSource _) hs _ _ (hs.stream hst)
  | slotCloned hst => exact hs.fillSlot _ _ (hs.stream hst)
  | slotFreed => exact hs.setSlot _ (fun st h => nomatch h)
  | treeLoaded b hnodes hcfg => exact (StoresInv.setTree (s := s.setSource b) hs _ hnodes).fillSlot _ _ hcfg
  | pixelsStopped hch hst hp => exact StoresInv.fillSlot (s := s.setSource _) hs _ _ (hs.stream hst)
  | pixelsDecoded hch hst hp => exact StoresInv.fillSlot (s := s.setSource _) hs _ _ (hs.stream hst)
  | transformsUndone h => rw [((undoTransforms_runs _).ok h).1]; exact hs
  | undoingStopped h => rw [((undoTransforms_runs _).error h).1]; exact hs
  | _ => exact hs

theorem storesInv_reset : StoresInv State.reset := by
  constructor
  all_goals
    intro j v h
    simp [State.reset, Vector.getElem?_replicate] at h

/-- Settles O18: only parses fill a store, and what they answer is legal (Laws/Stream.lean, Laws/Tree.lean). -/
theorem treesAndSlotsStayLegal : Obligations.TreesAndSlotsStayLegal := fun _ _ hs h =>
  step_keeps StoresInv.same storesInv_reset Leaves.storesInv hs h

end Sys2Proof.Machine

/-! ## Sample stores and windows stay canonical (log 26) -/

namespace Sys2Proof.Machine

variable {s t u : State} {i : Instr} {done : Bool}

/-! ### Undoing transforms -/

/-- Every record's samples are canonical. -/
def ChannelsWf (s : State) : Prop := ∀ ch ∈ s.channels, ch.samplesWf

theorem ChannelsWf.get (h : ChannelsWf s) {k : Nat} {ch : Channel} (hk : s.channels[k]? = some ch) : ch.samplesWf :=
  h ch (List.mem_of_getElem? hk)

theorem ChannelsWf.setChannel (h : ChannelsWf s) (k : Nat) {ch : Channel} (hch : ch.samplesWf) :
    ChannelsWf (s.setChannel k ch) := by
  intro r hr
  rcases List.mem_or_eq_of_mem_set hr with hr | rfl
  · exact h r hr
  · exact hch

/-- Writing samples back to a record of the same shape. -/
theorem ChannelsWf.setSamples (h : ChannelsWf s) (k : Nat) {ch : Channel} {m : Memory} (hm : SamplesIn ch.area m) :
    ChannelsWf (s.setChannel k { ch with samples := m }) := h.setChannel k hm

theorem ChannelsWf.markDecoded (h : ChannelsWf s) (k : Nat) : ChannelsWf (s.markDecoded k) := by
  intro r hr
  obtain ⟨j, hj⟩ := List.mem_iff_getElem?.1 hr
  rw [State.markDecoded_channels, List.getElem?_modify] at hj
  obtain ⟨ch, hch, rfl⟩ := Option.map_eq_some_iff.1 hj
  have hwf := h.get hch
  split <;> exact hwf

/-- `P` holds at the end when it holds at the start. -/
def Preserves {σ : Type} (P : σ → Prop) (s t : σ) : Prop := P s → P t

theorem kept_preserves {σ : Type} (P : σ → Prop) : Kept (Preserves P) := ⟨fun _ => id, fun _ _ _ h h' => h' ∘ h⟩

/-- A computation that goes on with what a first one answers. -/
theorem Runs.bindKeeps {σ α β : Type} {R : σ → σ → Prop} (k : Kept R) {m : Eng σ α} {f : α → Eng σ β} {Q : α → Prop}
    (h : Runs R m Q) (hf : ∀ a, Q a → Keeps R (f a)) : Keeps R (m >>= f) := by
  intro s
  rw [eng_bind]
  have h1 := h s
  cases hm : m s with
  | ok a t =>
    rw [hm] at h1
    have h2 := hf a h1.2 t
    dsimp only
    cases hfa : f a t <;> rw [hfa] at h2 <;> exact k.trans _ _ _ h1.1 h2
  | error e t => rw [hm] at h1; exact h1.1

/-- What a computation reads of the state may be taken to satisfy the invariant. -/
theorem keeps_theState_bind {α : Type} {P : State → Prop} {f : State → Eng State α}
    (h : ∀ s, P s → Keeps (Preserves P) (f s)) : Keeps (Preserves P) (theState >>= f) := by
  intro s
  rw [theState_bind]
  have hs := fun hP => h s hP s
  cases hf : f s s <;> rw [hf] at hs <;> exact fun hP => hs hP hP

theorem keeps_update {P : State → Prop} {f : State → State} (h : ∀ s, P s → P (f s)) :
    Keeps (Preserves P) (update f) := h

theorem sameShape_area {a b : Channel} (h : a.sameShape b = true) : b.area = a.area := by
  simp only [Channel.sameShape, Bool.and_eq_true, beq_iff_eq] at h
  obtain ⟨⟨⟨hw, hh⟩, -⟩, -⟩ := h
  simp [Channel.area, hw, hh]

theorem inverseRct_keeps (m rctType : Nat) : Keeps (Preserves ChannelsWf) (inverseRct m rctType) := by
  have k := kept_preserves ChannelsWf
  refine keeps_theState_bind fun s hs => ?_
  refine (Runs.orRaise k).bindKeeps k fun c0 h0 => (Runs.orRaise k).bindKeeps k fun c1 h1 =>
    (Runs.orRaise k).bindKeeps k fun c2 h2 => (Runs.checkBitstream k).bindKeeps k fun _ hshape => ?_
  have hshape' : c0.sameShape c1 = true ∧ c0.sameShape c2 = true := by simpa [allSameShape] using hshape
  have ha1 := sameShape_area hshape'.1
  have ha2 := sameShape_area hshape'.2
  refine Keeps.bind k ?_ fun _ => keeps_update fun s hs => ((hs.markDecoded _).markDecoded _).markDecoded _
  refine Keeps.onPart (rctPixels_runs rctType c0.width c0.area c0.area 0 (by omega)).keeps fun s t ht hs' => ?_
  have h1' : SamplesIn c1.area t.m1 := ha1 ▸ ht.2.1 (ha1 ▸ hs.get h1)
  have h2' : SamplesIn c2.area t.m2 := ha2 ▸ ht.2.2 (ha2 ▸ hs.get h2)
  exact ((hs'.setSamples m (ht.1 (hs.get h0))).setSamples (m + 1) h1').setSamples (m + 2) h2'

/-- What an inverse squeeze step makes of an average and a residual record. -/
def Unsqueezed (A R out : Channel) : Prop := SamplesIn out.area out.samples ∧ out.area = A.area + R.area

/-- Reading the lines of an average and a residual record stops, if it does, with a fault of the block. -/
theorem unsqueezedLines_runs {K : State → State → Prop} (k : Kept K) (pos : Nat → Nat → Nat × Nat) (A R : Channel)
    (na nr lines : Nat) :
    Runs K (ofExcept (unsqueezeLines (fun i j => sampleAt A.width A.samples (pos i j).1 (pos i j).2)
      (fun i j => sampleAt R.width R.samples (pos i j).1 (pos i j).2) na nr lines 0)) fun _ => True :=
  Runs.ofExcept k (fun _ _ => trivial) (unsqueezeLines_raises (fun _ _ => sampleAt_raises _ _ _ _)
    (fun _ _ => sampleAt_raises _ _ _ _) na nr lines 0)

theorem invH_unsqueezed {K : State → State → Prop} (k : Kept K) (A R : Channel) :
    Runs K (invH A R) (Unsqueezed A R) := by
  refine Runs.bind k (Runs.checkBitstream k) fun _ hshape => ?_
  refine Runs.bind k (unsqueezedLines_runs k (fun y x => (x, y)) A R _ _ _) fun lines _ => ?_
  refine Runs.bind k (Runs.checkBitstream k) fun _ _ => Runs.pure k ⟨?_, ?_⟩
  · exact samplesOf_in (A.width + R.width) A.height fun x y => lineAt lines y x
  · show (A.width + R.width) * A.height = A.width * A.height + R.width * R.height
    rw [← hshape.1, Nat.add_mul]

theorem invV_unsqueezed {K : State → State → Prop} (k : Kept K) (A R : Channel) :
    Runs K (invV A R) (Unsqueezed A R) := by
  refine Runs.bind k (Runs.checkBitstream k) fun _ hshape => ?_
  refine Runs.bind k (unsqueezedLines_runs k (fun x y => (x, y)) A R _ _ _) fun lines _ => ?_
  refine Runs.bind k (Runs.checkBitstream k) fun _ _ => Runs.pure k ⟨?_, ?_⟩
  · exact samplesOf_in A.width (A.height + R.height) fun x y => lineAt lines x y
  · show A.width * (A.height + R.height) = A.width * A.height + R.width * R.height
    rw [← hshape.1, Nat.mul_add]

theorem unsqueeze_runs {K : State → State → Prop} (k : Kept K) (horizontal : Bool) (A R : Channel) :
    Runs K (if horizontal then invH A R else invV A R) (Unsqueezed A R) := by
  split
  · exact invH_unsqueezed k A R
  · exact invV_unsqueezed k A R

theorem inverseSqueezeLoop_keeps (horizontal : Bool) : ∀ left c r,
    Keeps (Preserves ChannelsWf) (inverseSqueezeLoop horizontal left c r)
  | 0, _, _ => Keeps.pure (kept_preserves _) _
  | left + 1, c, r => by
    have k := kept_preserves ChannelsWf
    refine keeps_theState_bind fun s hs => (Runs.orRaise k).bindKeeps k fun A hA => (Runs.orRaise k).bindKeeps k
      fun R hR => (unsqueeze_runs k horizontal A R).bindKeeps k fun out hout => ?_
    exact Keeps.bind k (keeps_update fun s hs => hs.setChannel c hout.1) fun _ =>
      inverseSqueezeLoop_keeps horizontal left (c + 1) (r + 1)

theorem mem_of_mem_removeAt {l : List Channel} {k n : Nat} {ch : Channel} (h : ch ∈ removeAt l k n) : ch ∈ l := by
  rcases List.mem_append.1 h with h | h
  · exact List.mem_of_mem_take h
  · exact List.mem_of_mem_drop h

theorem inverseSqueeze_keeps (b n : Nat) (horizontal : Bool) (rPos : Nat) :
    Keeps (Preserves ChannelsWf) (inverseSqueeze b n horizontal rPos) :=
  Keeps.bind (kept_preserves _) (inverseSqueezeLoop_keeps horizontal n b rPos) fun _ =>
    keeps_update fun _ hs _ hch => hs _ (mem_of_mem_removeAt hch)

/-- What the inversion of a palette makes: a record of the shape of the index record. -/
def Unpaletted (j : PaletteJob) (out : Channel) : Prop := out.samplesWf ∧ out.area = j.index.area

theorem paletteOutput_unpaletted {K : State → State → Prop} (k : Kept K) (j : PaletteJob) (c : Nat) :
    Runs K (paletteOutput j c) (Unpaletted j) := by
  intro s
  have h := palettePixels_runs j c j.index.area j.index.area 0 (by omega) { samples := [], wp := {} }
  unfold paletteOutput
  cases hp : palettePixels j c j.index.area 0 { samples := [], wp := {} } with
  | ok a t => rw [hp] at h; exact ⟨k.refl s, h.1 ⟨Memory.wf_nil, by simp⟩, rfl⟩
  | error e t => rw [hp] at h; exact ⟨k.refl s, h.2⟩

theorem mem_unpalettedList {l outs : List Channel} {b : Nat} {ch : Channel} (h : ch ∈ unpalettedList l b outs) :
    ch ∈ l ∨ ch ∈ outs := by
  rcases List.mem_append.1 (List.mem_of_mem_drop h) with h | h
  · rcases List.mem_append.1 h with h | h
    · exact .inl (List.mem_of_mem_take h)
    · exact .inr h
  · exact .inl (List.mem_of_mem_drop h)

theorem inversePalette_keeps (b n nbColours nbDeltas : Nat) (q : Predictor) :
    Keeps (Preserves ChannelsWf) (inversePalette b n nbColours nbDeltas q) := by
  have k := kept_preserves ChannelsWf
  refine keeps_theState_bind fun s hs => Keeps.bind k (Keeps.checkContract k) fun _ =>
    (Runs.orRaise k).bindKeeps k fun pal _ => (Runs.orRaise k).bindKeeps k fun index _ =>
      Keeps.bind k (Keeps.checkBitstream k) fun _ => Keeps.bind k (Keeps.require k) fun _ =>
        (Runs.forAll k fun c _ => paletteOutput_unpaletted k _ c).bindKeeps k fun outs houts =>
          keeps_update fun t ht ch hch => ?_
  rcases mem_unpalettedList hch with hch | hch
  · exact ht ch hch
  · exact (houts.2 ch hch).1

theorem undoTransform_keeps (t : Transform) : Keeps (Preserves ChannelsWf) (undoTransform t) := by
  cases t with
  | rct m rctType => exact inverseRct_keeps m rctType
  | palette b n nbColours nbDeltas q => exact inversePalette_keeps b n nbColours nbDeltas q
  | squeeze b n horizontal inPlace rPos => exact inverseSqueeze_keeps b n horizontal rPos

theorem undoTransforms_keeps : ∀ l, Keeps (Preserves ChannelsWf) (undoTransforms l)
  | [] => Keeps.pure (kept_preserves _) _
  | t :: more => Keeps.bind (kept_preserves _) (keeps_update fun _ hs => hs) fun _ =>
      Keeps.bind (kept_preserves _) (undoTransform_keeps t.transform) fun _ =>
        Keeps.bind (kept_preserves _) (keeps_update fun _ hs => hs) fun _ => undoTransforms_keeps more

/-! ### Every command -/

/-- Every slot's window is canonical. -/
def WindowsWf (s : State) : Prop :=
  ∀ (j : Nat) (st : Stream), s.slots[j]? = some (some st) → windowWf st.coder.window

theorem WindowsWf.setSlot (h : WindowsWf s) (k : Nat) {v : Option Stream}
    (hv : ∀ st, v = some st → windowWf st.coder.window) : WindowsWf (s.setSlot k v) := by
  intro j st hst
  rcases setSlot_cases hst with hst | hst
  · exact hv st hst
  · exact h j st hst

/-- Filling a slot with a stream whose window is canonical. -/
theorem WindowsWf.fillSlot (h : WindowsWf s) (k : Nat) {st : Stream} (hst : windowWf st.coder.window) :
    WindowsWf (s.setSlot k (some st)) := h.setSlot k (by rintro _ ⟨⟩; exact hst)

theorem WindowsWf.stream (h : WindowsWf s) {a : Word} {st : Stream} (hst : s.stream? a = some st) :
    windowWf st.coder.window := h _ _ (stream?_slot hst)

theorem Leaves.windowsWf (h : Leaves s i done u) (hs : WindowsWf s) : WindowsWf u := by
  cases h with
  | slotFilled b hcfg => exact WindowsWf.fillSlot (s := s.setSource b) hs _ windowWf_nil
  | slotRead _ hst hr => exact WindowsWf.fillSlot (s := s.setSource _) hs _ (hr.2 (hs.stream hst))
  | slotCloned hst => exact hs.fillSlot _ windowWf_nil
  | slotFreed => exact hs.setSlot _ (fun st h => nomatch h)
  | treeLoaded b hnodes hcfg => exact WindowsWf.fillSlot (s := (s.setSource b).setTree _ _) hs _ windowWf_nil
  | pixelsStopped hch hst hp => exact WindowsWf.fillSlot (s := s.setSource _) hs _ (hp.1.2 (hs.stream hst))
  | pixelsDecoded hch hst hp => exact WindowsWf.fillSlot (s := s.setSource _) hs _ (hp.1.2 (hs.stream hst))
  | transformsUndone h => rw [((undoTransforms_runs _).ok h).1]; exact hs
  | undoingStopped h => rw [((undoTransforms_runs _).error h).1]; exact hs
  | _ => exact hs

/-- A record without samples is canonical. -/
theorem samplesWf_of_empty {ch : Channel} (h : ch.samples = []) : ch.samplesWf := by
  simp [Channel.samplesWf, h, Memory.wf]

theorem mem_palettedList {l : List Channel} {b n c : Nat} {q : Predictor} {ch : Channel}
    (h : ch ∈ palettedList l b n c q) :
    ch = paletteChannel c n ∨ ∃ r ∈ l, ch.samples = r.samples ∧ ch.width = r.width ∧ ch.height = r.height := by
  rcases List.mem_cons.1 h with h | h
  · exact .inl h
  · right
    have h := mem_of_mem_removeAt h
    split at h
    · obtain ⟨j, hj⟩ := List.mem_iff_getElem?.1 h
      rw [List.getElem?_modify] at hj
      obtain ⟨r, hr, rfl⟩ := Option.map_eq_some_iff.1 hj
      refine ⟨r, List.mem_of_getElem? hr, ?_⟩
      split <;> exact ⟨rfl, rfl, rfl⟩
    · exact ⟨ch, h, rfl, rfl, rfl⟩

theorem mem_squeezedList {l : List Channel} {b n rPos : Nat} {horizontal : Bool} {ch : Channel}
    (h : ch ∈ squeezedList l b n horizontal rPos) : ch ∈ l ∨ ch.samples = [] := by
  have hmap : ∀ {r}, r ∈ mapRange l b n (squeezedChannel horizontal) → r ∈ l ∨ r.samples = [] := by
    intro r hr
    simp only [mapRange, List.mem_append, List.mem_map] at hr
    rcases hr with (hr | ⟨r', -, rfl⟩) | hr
    · exact .inl (List.mem_of_mem_take hr)
    · exact .inr (by unfold squeezedChannel; split <;> rfl)
    · exact .inl (List.mem_of_mem_drop hr)
  simp only [squeezedList, insertAt, List.mem_append, List.mem_map] at h
  rcases h with (h | ⟨r, -, rfl⟩) | h
  · exact hmap (List.mem_of_mem_take h)
  · exact .inr rfl
  · exact hmap (List.mem_of_mem_drop h)

theorem Leaves.channelsWf (h : Leaves s i done u) (hs : ChannelsWf s) : ChannelsWf u := by
  cases h with
  | listCleared => exact fun ch hch => nomatch hch
  | recordAppended =>
    intro ch hch
    rcases List.mem_append.1 hch with hch | hch
    · exact hs ch hch
    · rw [List.mem_singleton.1 hch]
      exact samplesWf_of_empty rfl
  | recordMarked => exact hs.markDecoded _
  | pixelsStopped hch hst hp =>
    exact ChannelsWf.setSamples (by exact hs) _ (hp.2 (hs.get hch))
  | pixelsDecoded hch hst hp =>
    exact ChannelsWf.markDecoded (ChannelsWf.setSamples (by exact hs) _ (hp.2 (hs.get hch))) _
  | sampleWritten hch hx hy => exact hs.setChannel _ (Channel.samplesWf_write (hs.get hch) hx hy _)
  | palettePushed =>
    intro ch hch
    rcases mem_palettedList hch with rfl | ⟨r, hr, hsamples, hw, hh⟩
    · exact samplesWf_of_empty rfl
    · unfold Channel.samplesWf
      rw [hsamples, hw, hh]
      exact hs r hr
  | squeezePushed =>
    intro ch hch
    rcases mem_squeezedList hch with hch | hch
    · exact hs ch hch
    · exact samplesWf_of_empty hch
  | transformsUndone h => exact (undoTransforms_keeps _).ok h hs
  | undoingStopped h => exact (undoTransforms_keeps _).error h hs
  | _ => exact hs

theorem MemoryInv.same (h : SameUnits s t) (hs : MemoryInv s) : MemoryInv t := by
  unfold MemoryInv
  rw [h.channels, h.slots]
  exact hs

theorem memoryInv_reset : MemoryInv State.reset := by
  constructor
  · exact fun ch hch => nomatch hch
  · intro j st h
    simp [State.reset, Vector.getElem?_replicate] at h

/-- Settles O16: every command keeps the samples of all records and the windows of all slots canonical. -/
theorem storesStayCanonical : Obligations.StoresStayCanonical := fun _ _ hs h =>
  step_keeps (P := MemoryInv) MemoryInv.same memoryInv_reset
    (fun hu hs => ⟨hu.channelsWf hs.1, hu.windowsWf hs.2⟩) hs h

end Sys2Proof.Machine

/-! ## The channel list stays within its limits (`10_state.md` R60 to R62) -/

namespace Sys2Proof.Machine

variable {s t u : State} {i : Instr} {done : Bool}

/-! ### Areas of a channel list -/

theorem totalArea_append (l l' : List Channel) : totalArea (l ++ l') = totalArea l + totalArea l' := by
  simp [totalArea]

theorem totalArea_cons (ch : Channel) (l : List Channel) : totalArea (ch :: l) = ch.area + totalArea l := by
  simp [totalArea]

theorem totalArea_set {l : List Channel} {k : Nat} {ch : Channel} (h : l[k]? = some ch) (new : Channel) :
    totalArea (l.set k new) + ch.area = totalArea l + new.area := by
  induction l generalizing k with
  | nil => simp at h
  | cons a l ih =>
    cases k with
    | zero =>
      cases h
      rw [List.set_cons_zero, totalArea_cons, totalArea_cons]
      omega
    | succ k =>
      have := ih (k := k) (by simpa using h)
      rw [List.set_cons_succ, totalArea_cons, totalArea_cons]
      omega

theorem totalArea_removeAt (l : List Channel) (k n : Nat) :
    totalArea (removeAt l k n) + totalArea ((l.drop k).take n) = totalArea l := by
  have h : totalArea l = totalArea (l.take k) + (totalArea ((l.drop k).take n) + totalArea ((l.drop k).drop n)) := by
    rw [← totalArea_append, ← totalArea_append, List.take_append_drop, List.take_append_drop]
  rw [removeAt, totalArea_append, h, List.drop_drop]
  omega

/-- Replacing a record by one of its area keeps the areas. -/
theorem areas_set {l : List Channel} {k : Nat} {ch : Channel} (h : l[k]? = some ch) :
    (l.map Channel.area).set k ch.area = l.map Channel.area := by
  refine List.ext_getElem? fun j => ?_
  rw [List.getElem?_set]
  split
  · subst k
    rw [List.getElem?_map, h]
    have := (List.getElem?_eq_some_iff.1 h).1
    simp [this]
  · rfl

theorem areas_set_same {l : List Channel} {k : Nat} {ch new : Channel} (h : l[k]? = some ch)
    (hnew : new.area = ch.area) :
    (l.set k new).map Channel.area = l.map Channel.area := by
  rw [List.map_set, hnew, areas_set h]

theorem areas_markDecoded (l : List Channel) (k : Nat) :
    (l.modify k fun ch => { ch with decoded := true }).map Channel.area = l.map Channel.area := by
  refine List.ext_getElem? fun j => ?_
  rw [List.getElem?_map, List.getElem?_map, List.getElem?_modify]
  cases l[j]? with
  | none => rfl
  | some ch => show some (Channel.area (if k = j then _ else ch)) = _; split <;> rfl

theorem areas_unpalettedList {outs outs' : List Channel} (h : outs.map Channel.area = outs'.map Channel.area)
    (l : List Channel) (b : Nat) :
    (unpalettedList l b outs).map Channel.area = (unpalettedList l b outs').map Channel.area := by
  simp only [unpalettedList, List.map_drop, List.map_append, h]

theorem totalArea_of_areas {l l' : List Channel} (h : l.map Channel.area = l'.map Channel.area) :
    totalArea l = totalArea l' := congrArg List.sum h

theorem length_of_areas {l l' : List Channel} (h : l.map Channel.area = l'.map Channel.area) :
    l.length = l'.length := by simpa using congrArg List.length h

/-! ### A list within its limits -/

/-- What `ListInv` says of a state with no fault latched. -/
structure ListFits (s : State) : Prop where
  length : s.channels.length ≤ Config.maxChannels
  area : totalArea s.channels ≤ Config.arenaCapacity
  nbMeta : s.nbMeta ≤ s.channels.length
  undo : UndoChain s.transforms.reverse s.channels.length

theorem listInv_iff (s : State) : ListInv s ↔ (s.fault = none → ListFits s) := by
  refine forall_congr' fun _ => ⟨fun ⟨hlen, harea, hmeta, hundo⟩ => ⟨hlen, harea, hmeta, hundo⟩,
    fun ⟨hlen, harea, hmeta, hundo⟩ => ⟨hlen, harea, hmeta, hundo⟩⟩

theorem ListInv.same (h : SameUnits s t) (hs : ListInv s) : ListInv t := by
  unfold ListInv
  rw [h.channels, h.nbMeta, h.transforms]
  exact fun hf => hs (h.fault hf)

theorem ListFits.of_areas (hs : ListFits s) (hareas : u.channels.map Channel.area = s.channels.map Channel.area)
    (hmeta : u.nbMeta = s.nbMeta) (htransforms : u.transforms = s.transforms) : ListFits u := by
  have hlen := length_of_areas hareas
  refine ⟨?_, ?_, ?_, ?_⟩
  · rw [hlen]; exact hs.length
  · rw [totalArea_of_areas hareas]; exact hs.area
  · rw [hmeta, hlen]; exact hs.nbMeta
  · rw [htransforms, hlen]; exact hs.undo

theorem fitsArena_limits {l : List Channel} (h : fitsArena l = true) :
    l.length ≤ Config.maxChannels ∧ totalArea l ≤ Config.arenaCapacity := by
  simp only [fitsArena, Bool.and_eq_true, decide_eq_true_eq] at h
  exact h.1

theorem undoneLength_mono (t : Transform) {m n : Nat} (h : m ≤ n) : undoneLength t m ≤ undoneLength t n := by
  cases t <;> simp only [undoneLength] <;> omega

/-- A longer list undoes to longer lists. -/
theorem UndoChain.mono : ∀ {l : List TransformRecord} {m n : Nat}, m ≤ n → UndoChain l m → UndoChain l n
  | [], _, _, _, _ => trivial
  | t :: _, _, _, h, ⟨hres, hmeta, hmore⟩ =>
    have hle := undoneLength_mono t.transform h
    ⟨hres, hmeta.trans hle, hmore.mono hle⟩

/-- A push whose undoing leads back to the length of the list before. -/
theorem ListFits.push (hs : ListFits s) {l : List Channel} {n : Nat} {x : Transform} (hl : fitsArena l = true)
    (hn : n ≤ l.length) (hres : residualsAfter x) (hundo : undoneLength x l.length = s.channels.length) :
    ListFits (((s.setChannels l).setNbMeta n).pushTransform s.nbMeta x) := by
  obtain ⟨hlen, harea⟩ := fitsArena_limits hl
  refine ⟨hlen, harea, hn, ?_⟩
  show UndoChain (s.transforms ++ [_]).reverse l.length
  rw [List.reverse_append]
  exact ⟨hres, hundo ▸ hs.nbMeta, hundo ▸ hs.undo⟩

theorem length_palettedList {l : List Channel} {b n : Nat} (hn : n ≠ 0) (hlen : b + n ≤ l.length) (c : Nat)
    (q : Predictor) : (palettedList l b n c q).length = l.length + 2 - n := by
  have h : ∀ l' : List Channel, l'.length = l.length → (removeAt l' (b + 1) (n - 1)).length = l.length + 1 - n := by
    intro l' hl'
    simp only [removeAt, List.length_append, List.length_take, List.length_drop, hl']
    omega
  rw [palettedList, List.length_cons, h]
  · omega
  · split <;> simp

theorem length_squeezedList {l : List Channel} {b n : Nat} (hlen : b + n ≤ l.length) (horizontal : Bool) (rPos : Nat) :
    (squeezedList l b n horizontal rPos).length = l.length + n := by
  simp only [squeezedList, insertAt, mapRange, List.length_append, List.length_take, List.length_drop, List.length_map]
  omega

/-! ### Undoing a transform list -/

theorem bind_ok {σ α β : Type} {m : Eng σ α} {f : α → Eng σ β} {s u : σ} {b : β} (h : (m >>= f) s = .ok b u) :
    ∃ a t, m s = .ok a t ∧ f a t = .ok b u := by
  rw [eng_bind] at h
  cases hm : m s with
  | ok a t => rw [hm] at h; exact ⟨a, t, rfl, h⟩
  | error e t => rw [hm] at h; cases h

theorem onPart_ok {σ τ α : Type} {get : σ → τ} {put : τ → σ → σ} {m : Eng τ α} {s u : σ} {a : α}
    (h : onPart get put m s = .ok a u) : ∃ t, u = put t s := by
  rw [onPart_apply] at h
  cases hm : m (get s) with
  | ok b t => rw [hm] at h; cases h; exact ⟨t, rfl⟩
  | error e t => rw [hm] at h; cases h

theorem onTriple_ok {m : Nat} {c0 c1 c2 : Channel} {f : Eng Triple Unit} (h : onTriple m c0 c1 c2 f s = .ok () u) :
    ∃ t : Triple, u = ((s.setChannel m { c0 with samples := t.m0 }).setChannel (m + 1)
      { c1 with samples := t.m1 }).setChannel (m + 2) { c2 with samples := t.m2 } := onPart_ok h

/-- A computation that changes nothing. -/
theorem kept_eq {σ : Type} : Kept (Eq : σ → σ → Prop) := ⟨fun _ => rfl, fun _ _ _ => Eq.trans⟩

theorem inverseRct_areas {m rctType : Nat} (h : inverseRct m rctType s = .ok () u) :
    u.channels.map Channel.area = s.channels.map Channel.area ∧ u.transforms = s.transforms := by
  unfold inverseRct at h
  rw [theState_bind] at h
  obtain ⟨c0, _, hget, h⟩ := bind_ok h
  obtain ⟨rfl, h0⟩ := (Runs.orRaise kept_eq).ok hget
  obtain ⟨c1, _, hget, h⟩ := bind_ok h
  obtain ⟨rfl, h1⟩ := (Runs.orRaise kept_eq).ok hget
  obtain ⟨c2, _, hget, h⟩ := bind_ok h
  obtain ⟨rfl, h2⟩ := (Runs.orRaise kept_eq).ok hget
  obtain ⟨_, _, hshape, h⟩ := bind_ok h
  obtain ⟨rfl, -⟩ := (Runs.checkBitstream kept_eq).ok hshape
  obtain ⟨_, v, hv, h⟩ := bind_ok h
  obtain ⟨t, rfl⟩ := onTriple_ok hv
  rw [update_apply] at h
  cases h
  refine ⟨?_, by simp⟩
  simp only [State.markDecoded_channels, State.setChannel_channels, areas_markDecoded, List.map_set]
  show (((s.channels.map Channel.area).set m c0.area).set (m + 1) c1.area).set (m + 2) c2.area = _
  rw [areas_set h0, areas_set h1, areas_set h2]

/-- The loop adds the residuals' areas to their averages, which stand before them. -/
theorem inverseSqueezeLoop_areas (horizontal : Bool) : ∀ (left c r : Nat) {s u : State}, c + left ≤ r →
    inverseSqueezeLoop horizontal left c r s = .ok () u →
      u.channels.length = s.channels.length ∧ u.transforms = s.transforms ∧ (left = 0 ∨ r + left ≤ s.channels.length) ∧
      (∀ k, c + left ≤ k → u.channels.drop k = s.channels.drop k) ∧
      totalArea u.channels = totalArea s.channels + totalArea ((s.channels.drop r).take left)
  | 0, c, r, s, u, _, h => by
    cases h
    simp [totalArea]
  | left + 1, c, r, s, u, hcr, h => by
    unfold inverseSqueezeLoop at h
    rw [theState_bind] at h
    obtain ⟨A, _, hget, h⟩ := bind_ok h
    obtain ⟨rfl, hA⟩ := (Runs.orRaise kept_eq).ok hget
    obtain ⟨R, _, hget, h⟩ := bind_ok h
    obtain ⟨rfl, hR⟩ := (Runs.orRaise kept_eq).ok hget
    obtain ⟨out, _, hout, h⟩ := bind_ok h
    obtain ⟨rfl, -, harea⟩ := (unsqueeze_runs kept_eq horizontal A R).ok hout
    rw [update_bind] at h
    obtain ⟨hlen, htransforms, hroom, hdrop, htotal⟩ :=
      inverseSqueezeLoop_areas horizontal left (c + 1) (r + 1) (by omega) h
    have hdrop_set : ∀ k, c < k → (s.channels.set c out).drop k = s.channels.drop k :=
      fun k hk => List.drop_set_of_lt hk
    have hset := totalArea_set hA out
    obtain ⟨hrlen, hRget⟩ := List.getElem?_eq_some_iff.1 hR
    simp only [State.setChannel_channels, List.length_set] at hlen hroom hdrop htotal
    refine ⟨hlen, htransforms, by omega, fun k hk => ?_, ?_⟩
    · rw [hdrop k (by omega), hdrop_set k (by omega)]
    · rw [htotal, hdrop_set _ (by omega), List.drop_eq_getElem_cons hrlen, List.take_succ_cons, totalArea_cons, hRget]
      omega

theorem inverseSqueeze_areas {b n rPos : Nat} {horizontal : Bool} (hres : b + n ≤ rPos)
    (h : inverseSqueeze b n horizontal rPos s = .ok () u) :
    u.channels.length = s.channels.length - n ∧ totalArea u.channels = totalArea s.channels ∧
      u.transforms = s.transforms := by
  obtain ⟨_, v, hv, h⟩ := bind_ok h
  obtain ⟨hlen, htransforms, hroom, hdrop, htotal⟩ := inverseSqueezeLoop_areas horizontal n b rPos hres hv
  cases h
  refine ⟨?_, ?_, htransforms⟩
  · show (removeAt v.channels rPos n).length = _
    simp only [removeAt, List.length_append, List.length_take, List.length_drop, hlen]
    omega
  · show totalArea (removeAt v.channels rPos n) = _
    have := totalArea_removeAt v.channels rPos n
    rw [hdrop _ hres] at this
    omega

theorem inversePalette_areas {b n nbColours nbDeltas : Nat} {q : Predictor}
    (h : inversePalette b n nbColours nbDeltas q s = .ok () u) :
    u.channels.length = s.channels.length + n - 2 ∧ u.channels.length ≤ Config.maxChannels ∧
      totalArea u.channels ≤ Config.arenaCapacity ∧ u.transforms = s.transforms := by
  unfold inversePalette at h
  rw [theState_bind] at h
  obtain ⟨_, _, hbits, h⟩ := bind_ok h
  obtain ⟨rfl, -⟩ := (Runs.checkContract kept_eq).ok hbits
  obtain ⟨pal, _, hpal, h⟩ := bind_ok h
  obtain ⟨rfl, -⟩ := (Runs.orRaise kept_eq).ok hpal
  obtain ⟨index, _, hget, h⟩ := bind_ok h
  obtain ⟨rfl, hindex⟩ := (Runs.orRaise kept_eq).ok hget
  obtain ⟨_, _, hshape, h⟩ := bind_ok h
  obtain ⟨rfl, -⟩ := (Runs.checkBitstream kept_eq).ok hshape
  obtain ⟨_, _, hroom, h⟩ := bind_ok h
  obtain ⟨rfl, hfits⟩ := (Runs.require kept_eq).ok hroom
  obtain ⟨outs, _, houts, h⟩ := bind_ok h
  obtain ⟨rfl, hcount, houts⟩ := (Runs.forAll kept_eq fun c _ => paletteOutput_unpaletted kept_eq _ c).ok houts
  cases h
  have hareas : outs.map Channel.area = (List.replicate n index).map Channel.area := by
    rw [List.map_replicate, List.eq_replicate_iff]
    refine ⟨by simpa using hcount, fun a ha => ?_⟩
    obtain ⟨out, hout, rfl⟩ := List.mem_map.1 ha
    exact (houts out hout).2
  have hlist := areas_unpalettedList hareas s.channels b
  obtain ⟨hlen, harea⟩ := fitsArena_limits hfits
  have hb := (List.getElem?_eq_some_iff.1 hindex).1
  refine ⟨?_, ?_, ?_, rfl⟩
  · show (unpalettedList s.channels b outs).length = _
    rw [length_of_areas hlist]
    simp only [unpalettedList, List.length_append, List.length_take, List.length_drop, List.length_replicate]
    omega
  · exact (length_of_areas hlist).trans_le hlen
  · exact (totalArea_of_areas hlist).trans_le harea

theorem undoTransform_limits {x : Transform} (hlen : s.channels.length ≤ Config.maxChannels)
    (harea : totalArea s.channels ≤ Config.arenaCapacity) (hres : residualsAfter x)
    (h : undoTransform x s = .ok () u) :
    u.channels.length = undoneLength x s.channels.length ∧ u.channels.length ≤ Config.maxChannels ∧
      totalArea u.channels ≤ Config.arenaCapacity ∧ u.transforms = s.transforms := by
  cases x with
  | rct m rctType =>
    obtain ⟨hareas, htransforms⟩ := inverseRct_areas h
    have hl := length_of_areas hareas
    exact ⟨hl, hl.trans_le hlen, (totalArea_of_areas hareas).trans_le harea, htransforms⟩
  | palette b n nbColours nbDeltas q => exact inversePalette_areas h
  | squeeze b n horizontal inPlace rPos =>
    obtain ⟨hl, ha, htransforms⟩ := inverseSqueeze_areas hres h
    exact ⟨hl, by omega, by omega, htransforms⟩

/-- Undoing the whole transform list leads from a list within its limits to one. -/
theorem undoTransforms_listFits : ∀ (l : List TransformRecord) {s u : State}, s.transforms.reverse = l → ListFits s →
    undoTransforms l s = .ok () u → ListFits u
  | [], s, u, _, hs, h => by cases h; exact hs
  | t :: more, s, u, hl, hs, h => by
    obtain ⟨hres, hmeta, hmore⟩ : UndoChain (t :: more) s.channels.length := hl ▸ hs.undo
    unfold undoTransforms at h
    rw [update_bind] at h
    obtain ⟨_, v, hv, h⟩ := bind_ok h
    rw [update_bind] at h
    obtain ⟨hlen, hmax, harea, htransforms⟩ :=
      undoTransform_limits (s := s.setTransforms more.reverse) hs.length hs.area hres hv
    have hreverse : v.transforms.reverse = more := by rw [htransforms]; exact List.reverse_reverse more
    refine undoTransforms_listFits more (s := v.setNbMeta t.nbMetaBefore) hreverse ⟨hmax, harea, ?_, ?_⟩ h
    · exact hmeta.trans_eq hlen.symm
    · show UndoChain v.transforms.reverse v.channels.length
      rw [hreverse, hlen]
      exact hmore

/-! ### Every command -/

/-- A command that completes keeps a list within its limits within them. -/
theorem Leaves.listFits (h : Leaves s i true u) (hs : ListFits s) : ListFits u := by
  cases h with
  | listCleared => exact ⟨by simp, by simp [totalArea], by simp, trivial⟩
  | recordAppended hlen harea =>
    refine ⟨?_, ?_, ?_, ?_⟩
    · show (s.channels ++ [_]).length ≤ _
      rw [List.length_append]
      exact hlen
    · show totalArea (s.channels ++ [_]) ≤ _
      rw [totalArea_append, totalArea_cons]
      exact harea
    · show s.nbMeta ≤ (s.channels ++ [_]).length
      rw [List.length_append]
      exact hs.nbMeta.trans (Nat.le_add_right _ _)
    · exact hs.undo.mono (by simp)
  | recordMarked => exact hs.of_areas (areas_markDecoded _ _) rfl rfl
  | pixelsDecoded hch => exact hs.of_areas ((areas_markDecoded _ _).trans (areas_set_same hch rfl)) rfl rfl
  | sampleWritten hch => exact hs.of_areas (areas_set_same hch rfl) rfl rfl
  | rctPushed =>
    refine ⟨hs.length, hs.area, hs.nbMeta, ?_⟩
    show UndoChain (s.transforms ++ [_]).reverse s.channels.length
    rw [List.reverse_append]
    exact ⟨trivial, hs.nbMeta, hs.undo⟩
  | palettePushed hn hlen hmeta hfits =>
    refine hs.push hfits ?_ trivial ?_ <;> rw [length_palettedList hn hlen]
    · have := hs.nbMeta
      unfold palettedMeta
      split <;> omega
    · simp only [undoneLength]
      omega
  | squeezePushed hlen hfits =>
    refine hs.push hfits ?_ ?_ ?_
    · rw [afterSqueezeList, length_squeezedList hlen]
      have := hs.nbMeta
      split <;> omega
    · simp only [residualsAfter, squeezePos]
      split <;> omega
    · rw [afterSqueezeList, length_squeezedList hlen]
      simp only [undoneLength]
      omega
  | transformsUndone h => exact undoTransforms_listFits _ rfl hs h
  | _ => exact ⟨hs.1, hs.2, hs.3, hs.4⟩

theorem listInv_reset : ListInv State.reset := fun _ =>
  ⟨by decide, by simp [State.reset, totalArea], by decide, trivial⟩

/-- Settles O17: a command that faults leaves a fault latched, and one that completes keeps the list within its
limits. -/
theorem channelListStaysWithinLimits : Obligations.ChannelListStaysWithinLimits := by
  intro s t hstatus hs h
  rcases step_units h with h | h | ⟨i, more, hb, h⟩
  · exact ListInv.same h hs
  · exact ListInv.same h listInv_reset
  · have hfits : ListFits s := (listInv_iff s).1 hs (hstatus.1 hb).1
    rcases exec_leaves h with ⟨r, u, -, hu, rfl⟩ | ⟨f, u, -, rfl⟩
    · have hu' := hu.listFits ⟨hfits.1, hfits.2, hfits.3, hfits.4⟩
      exact ListInv.same (sameUnits_complete u r) ((listInv_iff u).2 fun _ => hu')
    · intro hf
      simp [State.latchFault_fault] at hf

end Sys2Proof.Machine

/-! ## The issue of a command, and its turn (`10_state.md` R33, `30_encoding.md` R104) -/

namespace Sys2Proof.Machine

variable {s t u : State} {i : Instr}

theorem decode_encode (i : Instr) : decode (encode i) = .ok i := by cases i <;> decide

theorem writeCmd_issue {w : Word} (hf : s.fault = none) (hb : s.busy = false) (hw : decode w = .ok i) :
    writeCmd s w = s.issue w := by
  rcases writeCmd_cases s w with ⟨h, -⟩ | ⟨-, h, -⟩ | ⟨-, -, -, h⟩ | ⟨-, -, ⟨e, h⟩, -⟩
  · exact absurd hf h
  · rw [hb] at h; cases h
  · exact h
  · rw [hw] at h; cases h

/-- Settles O3: the write takes the issuing branch of `writeCmd`. -/
theorem cmdWriteIssuesCommand : Obligations.CmdWriteIssuesCommand := by
  intro s w i hf hb hw
  have h : s.writeReg 0x01 w = s.issue w := writeCmd_issue hf hb hw
  rw [h]
  exact ⟨rfl, rfl, rfl, rfl⟩

theorem withFetchWord_encode (s : State) (i : Instr) :
    s.withFetchWord 32 (encode i).toNat = { s.issue (encode i) with inputs := .wait :: s.inputs } := by
  have hw : Word.ofNat ((encode i).toNat % 2 ^ 32) = encode i := by
    rw [Nat.mod_eq_of_lt (encode i).isLt]
    exact (BitVec.ofNat_toNat 32 (encode i)).trans (BitVec.setWidth_eq _)
  unfold State.withFetchWord
  rw [hw]

theorem step_busy_wait {more : List Input} (hb : s.busy = true) (hi : s.inputs = .wait :: more) :
    step s = engineTurn { s with inputs := more } := by
  unfold step
  simp only [hi, hb, if_true]

theorem step_busy_idleHost (hb : s.busy = true) (hi : s.inputs = []) : step s = engineTurn s := by
  unfold step
  simp only [hi, hb, if_true]

/-- Settles O13: a busy block moves by the engine's turn, which decodes the issued word. -/
theorem stepRunsDecodedCommand : Obligations.StepRunsDecodedCommand := by
  refine ⟨fun s i hb hd => ⟨fun hi => ?_, fun more hi => ?_⟩, fun s i => ?_⟩
  · rw [step_busy_idleHost hb hi, engineTurn_ok hd]
  · rw [step_busy_wait hb hi]
    exact engineTurn_ok hd
  · rw [withFetchWord_encode, step_busy_wait rfl rfl]
    exact engineTurn_ok (decode_encode i)

end Sys2Proof.Machine

/-! ## The register file (`10_state.md` R30, R31, R37, R40 to R43) -/

namespace Sys2Proof.Machine

variable {s t u : State} {i : Instr}

/-- The registers that store. -/
theorem writable_cases {index : Nat} (h : writableBits index ≠ 0#32) :
    (∃ k, k < 8 ∧ index = 8 + k) ∨ index = 0x13 ∨ index = 0x14 ∨ index = 0x15 ∨ index = 0x16 ∨ index = 0x17 := by
  by_contra hn
  have hk : ¬ (8 ≤ index ∧ index ≤ 15) := fun hi => hn (.inl ⟨index - 8, by omega, by omega⟩)
  refine h ?_
  unfold writableBits
  rw [if_neg (by omega), if_neg (by omega), if_neg (by omega), if_neg (by omega)]

theorem writeReg_of_writable {index : Nat} (h : writableBits index ≠ 0#32) (s : State) (v : Word) :
    s.writeReg index v = { s with regs := s.regs.put index v } := by
  have hc := writable_cases h
  rcases writeReg_cases s index v with ⟨h, -⟩ | ⟨h, -⟩ | ⟨h, -⟩ | ⟨h, -⟩ | ⟨-, h⟩
  · omega
  · omega
  · omega
  · omega
  · exact h

/-- A read-only or reserved index ignores writes. -/
theorem writeReg_of_not_stored {index : Nat}
    (h : index = 0x00 ∨ (0x04 ≤ index ∧ index ≤ 0x07) ∨ (0x10 ≤ index ∧ index ≤ 0x12) ∨ 0x18 ≤ index) (s : State)
    (v : Word) : s.writeReg index v = s := by
  have hput : s.regs.put index v = s.regs := by
    unfold HostRegs.put
    rw [if_neg (by omega), if_neg (by omega), if_neg (by omega), if_neg (by omega), if_neg (by omega),
      if_neg (by omega)]
  unfold State.writeReg
  rw [if_neg (by omega), if_neg (by omega), if_neg (by omega), hput]

theorem readReg_reserved {index : Nat} (h : index = 0x07 ∨ 0x1A ≤ index) (s : State) : s.readReg index = 0#32 := by
  have hn : ¬ (0x08 ≤ index ∧ index ≤ 0x0F) := by omega
  simp only [State.readReg, hn, if_false]
  split
  case h_17 => rfl
  all_goals omega

theorem readReg_arg {k : Nat} (hk : k < 8) (s : State) : s.readReg (8 + k) = Args.read s.regs.args k := by
  interval_cases k <;> rfl

/-! ### What a write of a register that stores leaves in each register -/

variable {index : Nat} (r : HostRegs) (v : Word)

theorem HostRegs.put_distMult (h : index ≠ 0x13) : (r.put index v).distMult = r.distMult := by
  unfold HostRegs.put
  split_ifs <;> rfl

theorem HostRegs.put_streamId (h : index ≠ 0x14) : (r.put index v).streamId = r.streamId := by
  unfold HostRegs.put
  split_ifs <;> rfl

theorem HostRegs.put_bitDepth (h : index ≠ 0x15) : (r.put index v).bitDepth = r.bitDepth := by
  unfold HostRegs.put
  split_ifs <;> rfl

theorem HostRegs.put_wp0 (h : index ≠ 0x16) : (r.put index v).wp0 = r.wp0 := by
  unfold HostRegs.put
  split_ifs <;> rfl

theorem HostRegs.put_wp1 (h : index ≠ 0x17) : (r.put index v).wp1 = r.wp1 := by
  unfold HostRegs.put
  split_ifs <;> rfl

theorem Args.read_put_same (a : Args) {k : Nat} (hk : k < 8) : Args.read (Args.put a k v) k = v := by
  interval_cases k <;> rfl

theorem Args.read_put_other (a : Args) {k j : Nat} (h : j ≠ k) : Args.read (Args.put a k v) j = Args.read a j := by
  unfold Args.put
  split
  all_goals
    unfold Args.read
    split <;> first | rfl | contradiction

theorem HostRegs.put_arg {k : Nat} (hk : k < 8) :
    r.put (8 + k) v = { r with args := Args.put r.args k v } := by
  unfold HostRegs.put
  rw [if_pos (by omega), Nat.add_sub_cancel_left]

theorem HostRegs.read_put_args {j : Nat} (h : index ≠ 8 + j) :
    Args.read (r.put index v).args j = Args.read r.args j := by
  unfold HostRegs.put
  split_ifs
  · exact Args.read_put_other v r.args (by omega)
  all_goals rfl

/-- The registers the host does not write read the same whatever the others hold. -/
theorem readReg_of_readOnly {j : Nat} (hj : j ≤ 6 ∨ (0x10 ≤ j ∧ j ≤ 0x12) ∨ j = 0x18 ∨ j = 0x19) (s : State) :
    ({ s with regs := r } : State).readReg j = s.readReg j := by
  have hj' : j < 0x1A := by omega
  interval_cases j <;> first | rfl | omega

theorem readReg_writeReg_other (hw : writableBits index ≠ 0#32) {j : Nat} (hj : j ≠ index) (s : State) :
    (s.writeReg index v).readReg j = s.readReg j := by
  rw [writeReg_of_writable hw]
  by_cases hr : j = 0x07 ∨ 0x1A ≤ j
  · rw [readReg_reserved hr, readReg_reserved hr]
  by_cases ha : 8 ≤ j ∧ j ≤ 15
  · obtain ⟨k, rfl⟩ : ∃ k, j = 8 + k := ⟨j - 8, by omega⟩
    rw [readReg_arg (by omega), readReg_arg (by omega)]
    exact HostRegs.read_put_args s.regs v hj.symm
  obtain rfl | rfl | rfl | rfl | rfl | hro : j = 0x13 ∨ j = 0x14 ∨ j = 0x15 ∨ j = 0x16 ∨ j = 0x17 ∨
    (j ≤ 6 ∨ (0x10 ≤ j ∧ j ≤ 0x12) ∨ j = 0x18 ∨ j = 0x19) := by omega
  · exact HostRegs.put_distMult s.regs v hj.symm
  · exact HostRegs.put_streamId s.regs v hj.symm
  · exact congrArg (0#26 ++ ·) (HostRegs.put_bitDepth s.regs v hj.symm)
  · exact HostRegs.put_wp0 s.regs v hj.symm
  · exact HostRegs.put_wp1 s.regs v hj.symm
  · exact readReg_of_readOnly _ hro s

/-- A six-bit field under 26 zero bits is the word masked. -/
theorem low_six_bits : (0#26 ++ v.extractLsb' 0 6 : BitVec 32) = v &&& 0x0000003F#32 := by
  apply BitVec.eq_of_toNat_eq
  rw [BitVec.toNat_append, BitVec.toNat_and, BitVec.extractLsb'_toNat]
  exact ((Nat.and_two_pow_sub_one_eq_mod v.toNat 6).trans (by simp)).symm

theorem readReg_writeReg_same (hw : writableBits index ≠ 0#32) (s : State) :
    (s.writeReg index v).readReg index = v &&& writableBits index := by
  rw [writeReg_of_writable hw]
  rcases writable_cases hw with ⟨k, hk, rfl⟩ | rfl | rfl | rfl | rfl | rfl
  · have hbits : writableBits (8 + k) = BitVec.allOnes 32 := by
      unfold writableBits
      rw [if_pos (by omega)]
      rfl
    rw [readReg_arg hk, hbits, BitVec.and_allOnes]
    show Args.read (s.regs.put (8 + k) v).args k = v
    rw [HostRegs.put_arg _ _ hk]
    exact Args.read_put_same v s.regs.args hk
  · exact (BitVec.and_allOnes (x := v)).symm
  · exact (BitVec.and_allOnes (x := v)).symm
  · exact low_six_bits v
  · rfl
  · rfl

/-- The two halves of the bit count (log 11). -/
theorem bitpos_halves (s : State) (h : s.source.pos < 2 ^ 64) :
    (s.readReg 0x05).toNat + 2 ^ 32 * (s.readReg 0x06).toNat = s.source.pos := by
  show (s.bitpos.extractLsb' 0 32).toNat + 2 ^ 32 * (s.bitpos.extractLsb' 32 32).toNat = s.source.pos
  simp only [BitVec.extractLsb'_toNat, State.bitpos, BitVec.toNat_ofNat, Nat.mod_eq_of_lt h, Nat.shiftRight_eq_div_pow]
  omega

/-- Settles O7: index by index for reads, and by what a write stores in each register for the rest. -/
theorem registerFileMap : Obligations.RegisterFileMap := by
  intro s
  refine ⟨⟨rfl, rfl, bitpos_halves s, rfl, rfl, rfl, rfl, rfl, rfl, rfl, rfl, rfl, rfl, rfl, rfl, rfl, ?_, rfl, rfl,
    rfl, rfl⟩, fun index v h => ⟨readReg_reserved h s, ?_⟩, fun index v h => ?_, fun index v h =>
      ⟨readReg_writeReg_same v h s, fun j hj => readReg_writeReg_other v h hj s⟩⟩
  · exact (BitVec.setWidth_eq_append (by decide)).symm
  · exact writeReg_of_not_stored (by omega) s v
  · simp only [List.mem_cons, List.not_mem_nil, or_false] at h
    exact writeReg_of_not_stored (by omega) s v

end Sys2Proof.Machine

/-! ## The words of flags (`10_state.md` R34, R35, `60_exceptions.md` R420, R421, R430) -/

namespace Sys2Proof.Machine

variable (s : State)

theorem getLsbD_bit (b : Bool) : (bit b).getLsbD 0 = b := by cases b <;> rfl

theorem status_flags : s.statusWord.getLsbD 0 = s.busy ∧ s.statusWord.getLsbD 1 = s.done ∧
    s.statusWord.getLsbD 2 = s.fault.isSome := by
  simp only [State.statusWord, BitVec.getLsbD_append]
  exact ⟨getLsbD_bit _, getLsbD_bit _, getLsbD_bit _⟩

theorem status_cause : s.statusWord.extractLsb' 8 8 = s.causeField := by
  unfold State.statusWord
  rw [BitVec.extractLsb'_append_eq_of_le (by decide), BitVec.extractLsb'_append_eq_of_le (by decide),
    BitVec.extractLsb'_append_eq_of_le (by decide), BitVec.extractLsb'_append_eq_of_le (by decide),
    BitVec.extractLsb'_append_eq_of_add_le (by decide)]
  exact BitVec.extractLsb'_eq_self

theorem status_zeros : s.statusWord.extractLsb' 3 5 = 0#5 ∧ s.statusWord.extractLsb' 16 16 = 0#16 := by
  unfold State.statusWord
  constructor
  · rw [BitVec.extractLsb'_append_eq_of_le (by decide), BitVec.extractLsb'_append_eq_of_le (by decide),
      BitVec.extractLsb'_append_eq_of_le (by decide), BitVec.extractLsb'_append_eq_of_add_le (by decide)]
    rfl
  · rw [BitVec.extractLsb'_append_eq_of_le (by decide), BitVec.extractLsb'_append_eq_of_le (by decide),
      BitVec.extractLsb'_append_eq_of_le (by decide), BitVec.extractLsb'_append_eq_of_le (by decide),
      BitVec.extractLsb'_append_eq_of_le (by decide)]
    rfl

theorem causeField_of_none (h : s.fault = none) : s.causeField = 0#8 := by simp [State.causeField, h]

theorem causeField_of_some {f : BlockFault} (h : s.fault = some f) : s.causeField = f.cause := by
  simp [State.causeField, h]

theorem faultInfo_of_none (h : s.fault = none) : s.faultInfoWord = 0#32 := by simp [State.faultInfoWord, h]

theorem faultInfo_of_some {f : BlockFault} (h : s.fault = some f) : s.faultInfoWord = f.info.setWidth 32 := by
  simp only [State.faultInfoWord, h]
  exact (BitVec.setWidth_eq_append (by decide)).symm

theorem ctrlWord_eq : s.ctrlWord = if s.irqEn then 1#32 else 0#32 := by
  unfold State.ctrlWord
  cases s.irqEn <;> rfl

theorem writeStatus_low (v : Word) (hv : v.getLsbD 1 = false) : s.writeReg 0x02 v = s := by
  show writeStatus s v = s
  rw [writeStatus, hv]
  rfl

theorem writeCtrl_low (v : Word) (hv : v.getLsbD 1 = false) :
    s.writeReg 0x03 v = { s with irqEn := v.getLsbD 0 } := by
  show writeCtrl s v = _
  rw [writeCtrl, hv]
  rfl

/-- Settles O8, field by field of the words of flags. -/
theorem statusFieldsAndInterrupt : Obligations.StatusFieldsAndInterrupt := by
  intro s
  obtain ⟨hbusy, hdone, hfault⟩ := status_flags s
  obtain ⟨hlow, hhigh⟩ := status_zeros s
  refine ⟨hbusy, hdone, hfault, hlow, fun h => ⟨(status_cause s).trans (causeField_of_none s h), faultInfo_of_none s h⟩,
    fun f h => ⟨(status_cause s).trans (causeField_of_some s h), faultInfo_of_some s h⟩, hhigh, fun v hv => if_pos hv,
    writeStatus_low s, ctrlWord_eq s, writeCtrl_low s, ?_⟩
  show s.irq = ((s.ctrlWord).getLsbD 0 && (s.statusWord.getLsbD 1 || s.statusWord.getLsbD 2))
  rw [hdone, hfault, ctrlWord_eq]
  unfold State.irq
  cases s.irqEn <;> rfl

end Sys2Proof.Machine

/-! ## A command does not see the host registers (`10_state.md` R39, `70_reset_and_hazards.md` R470) -/

namespace Sys2Proof.Machine

/-- `s` with other host registers. -/
def State.withRegs (s : State) (r : HostRegs) : State := { s with regs := r }

/-- `m` runs the same whatever the host registers hold, and leaves them as they are. -/
def IgnoresRegs {α : Type} (m : Eng State α) : Prop :=
  ∀ s r, m (s.withRegs r) = match m s with
    | .ok a t => .ok a (t.withRegs r)
    | .error e t => .error e (t.withRegs r)

variable {α β : Type}

namespace IgnoresRegs

theorem pure (a : α) : IgnoresRegs (Pure.pure a : Eng State α) := fun _ _ => rfl

theorem bind {m : Eng State α} {f : α → Eng State β} (h : IgnoresRegs m) (hf : ∀ a, IgnoresRegs (f a)) :
    IgnoresRegs (m >>= f) := by
  intro s r
  rw [eng_bind, eng_bind, h]
  cases m s with
  | ok a t => exact hf a t r
  | error e t => rfl

theorem ite {c : Prop} [Decidable c] {m m' : Eng State α} (h : IgnoresRegs m) (h' : IgnoresRegs m') :
    IgnoresRegs (if c then m else m') := by
  split
  · exact h
  · exact h'

/-- What is computed from the state read must not depend on its host registers. -/
theorem theState_bind {f : State → Eng State α} (hregs : ∀ s r, f (s.withRegs r) = f s) (h : ∀ s, IgnoresRegs (f s)) :
    IgnoresRegs (theState >>= f) := by
  intro s r
  rw [Machine.theState_bind, Machine.theState_bind, hregs]
  exact h s s r

theorem latchedArgs : IgnoresRegs Machine.latchedArgs := fun _ _ => rfl

theorem require {c : Prop} [Decidable c] (f : BlockFault) : IgnoresRegs (Machine.require c f) := by
  intro s r
  simp only [require_apply]
  split <;> rfl

theorem checkBitstream {c : Prop} [Decidable c] (e : BitstreamError) : IgnoresRegs (Machine.checkBitstream c e) :=
  require _

theorem checkContract {c : Prop} [Decidable c] (e : ContractError) : IgnoresRegs (Machine.checkContract c e) :=
  require _

theorem orRaise (o : Option α) (f : BlockFault) : IgnoresRegs (Machine.orRaise o f) := by
  cases o <;> exact fun _ _ => rfl

theorem orBroken (o : Option α) (f : Fault) : IgnoresRegs (Machine.orBroken o f) := by
  cases o <;> exact fun _ _ => rfl

theorem ofExcept (x : Except Stop α) : IgnoresRegs (Machine.ofExcept x) := by
  cases x <;> exact fun _ _ => rfl

theorem update {f : State → State} (h : ∀ s r, f (s.withRegs r) = (f s).withRegs r) : IgnoresRegs (Machine.update f) :=
  fun s r => congrArg (EStateM.Result.ok ()) (h s r)

theorem onPart {τ : Type} {get : State → τ} {put : τ → State → State} {m : Eng τ α}
    (hget : ∀ s r, get (s.withRegs r) = get s) (hput : ∀ t s r, put t (s.withRegs r) = (put t s).withRegs r) :
    IgnoresRegs (Machine.onPart get put m) := by
  intro s r
  rw [onPart_apply, onPart_apply, hget]
  cases m (get s) with
  | ok a t => exact congrArg (EStateM.Result.ok a) (hput t s r)
  | error e t => exact congrArg (EStateM.Result.error e) (hput t s r)

theorem onSource (m : Parse α) : IgnoresRegs (Machine.onSource m) := onPart (fun _ _ => rfl) fun _ _ _ => rfl

theorem forAll {f : α → Eng State β} (h : ∀ a, IgnoresRegs (f a)) : ∀ l, IgnoresRegs (Machine.forAll f l)
  | [] => pure _
  | a :: l => bind (h a) fun _ => bind (forAll h l) fun _ => pure _

theorem slotOperand (a : Word) : IgnoresRegs (Machine.slotOperand a) :=
  theState_bind (fun _ _ => rfl) fun _ => orRaise _ _

theorem treeOperand (a : Word) : IgnoresRegs (Machine.treeOperand a) :=
  theState_bind (fun _ _ => rfl) fun _ => orRaise _ _

theorem channelOperand (a : Word) : IgnoresRegs (Machine.channelOperand a) :=
  theState_bind (fun _ _ => rfl) fun _ => orRaise _ _

/-! ### The bodies of the commands -/

theorem validateFinal (cfg : StreamConfig) (c : Coder) : IgnoresRegs (Machine.validateFinal cfg c) :=
  ite (pure _) (ite (checkBitstream _) (checkBitstream _))

theorem decodeChannel (a : Args) (ch : Channel) (nodes : List Node) (st : Stream) :
    IgnoresRegs (Machine.decodeChannel a ch nodes st) :=
  theState_bind (fun _ _ => rfl) fun _ => bind (orBroken _ _) fun _ => bind (checkContract _) fun _ =>
    bind (checkBitstream _) fun _ => bind (onPart (fun _ _ => rfl) fun _ _ _ => rfl) fun _ => update fun _ _ => rfl

theorem inverseRct (m rctType : Nat) : IgnoresRegs (Machine.inverseRct m rctType) :=
  theState_bind (fun _ _ => rfl) fun _ => bind (orRaise _ _) fun _ => bind (orRaise _ _) fun _ =>
    bind (orRaise _ _) fun _ => bind (checkBitstream _) fun _ =>
      bind (onPart (fun _ _ => rfl) fun _ _ _ => rfl) fun _ => update fun _ _ => rfl

theorem invH (A R : Channel) : IgnoresRegs (Machine.invH A R) :=
  bind (checkBitstream _) fun _ => bind (ofExcept _) fun _ => bind (checkBitstream _) fun _ => pure _

theorem invV (A R : Channel) : IgnoresRegs (Machine.invV A R) :=
  bind (checkBitstream _) fun _ => bind (ofExcept _) fun _ => bind (checkBitstream _) fun _ => pure _

theorem inverseSqueezeLoop (horizontal : Bool) :
    ∀ left c r, IgnoresRegs (Machine.inverseSqueezeLoop horizontal left c r)
  | 0, _, _ => pure _
  | left + 1, c, r =>
    theState_bind (fun _ _ => rfl) fun _ => bind (orRaise _ _) fun _ => bind (orRaise _ _) fun _ =>
      bind (ite (invH _ _) (invV _ _)) fun _ => bind (update fun _ _ => rfl) fun _ =>
        inverseSqueezeLoop horizontal left (c + 1) (r + 1)

theorem paletteOutput (j : PaletteJob) (k : Nat) : IgnoresRegs (Machine.paletteOutput j k) := by
  intro s r
  unfold Machine.paletteOutput
  cases palettePixels j k j.index.area 0 { samples := [], wp := {} } <;> rfl

theorem inversePalette (b n nbColours nbDeltas : Nat) (q : Predictor) :
    IgnoresRegs (Machine.inversePalette b n nbColours nbDeltas q) :=
  theState_bind (fun _ _ => rfl) fun _ => bind (checkContract _) fun _ => bind (orRaise _ _) fun _ =>
    bind (orRaise _ _) fun _ => bind (checkBitstream _) fun _ => bind (require _) fun _ =>
      bind (forAll (paletteOutput _) _) fun _ => update fun _ _ => rfl

theorem undoTransform (t : Transform) : IgnoresRegs (Machine.undoTransform t) := by
  cases t with
  | rct m rctType => exact inverseRct m rctType
  | palette b n nbColours nbDeltas q => exact inversePalette b n nbColours nbDeltas q
  | squeeze b n horizontal inPlace rPos =>
    exact bind (inverseSqueezeLoop horizontal n b rPos) fun _ => update fun _ _ => rfl

theorem undoTransforms : ∀ l, IgnoresRegs (Machine.undoTransforms l)
  | [] => pure _
  | t :: more => bind (update fun _ _ => rfl) fun _ => bind (undoTransform t.transform) fun _ =>
      bind (update fun _ _ => rfl) fun _ => undoTransforms more

theorem allOrExhausted {m : Eng State Unit} (h : IgnoresRegs m) : IgnoresRegs (Machine.allOrExhausted m) := by
  intro s r
  rw [allOrExhausted_apply, allOrExhausted_apply, h]
  cases m s with
  | ok a t => rfl
  | error e t =>
    cases e with
    | broken f => rfl
    | raise f => cases f <;> rfl

theorem commandBody (i : Instr) : IgnoresRegs (Machine.commandBody i) := by
  cases i with
  | nop => exact pure _
  | hybExpand => exact bind latchedArgs fun _ => bind (checkContract _) fun _ => bind (onSource _) fun _ => pure _
  | unpackSigned => exact bind latchedArgs fun _ => pure _
  | hybConfigRead => exact bind latchedArgs fun _ => bind (checkContract _) fun _ => bind (onSource _) fun _ => pure _
  | esInit =>
    exact bind latchedArgs fun _ => bind (checkContract _) fun _ => bind (checkContract _) fun _ =>
      bind (onSource _) fun _ => bind (update fun _ _ => rfl) fun _ => pure _
  | esRead =>
    exact bind latchedArgs fun _ => bind (slotOperand _) fun _ => bind (checkContract _) fun _ =>
      bind (onPart (fun _ _ => rfl) fun _ _ _ => rfl) fun _ => pure _
  | esValidate => exact bind latchedArgs fun _ => bind (slotOperand _) fun _ => bind (validateFinal _ _) fun _ => pure _
  | esClone =>
    exact bind latchedArgs fun _ => bind (checkContract _) fun _ => bind (slotOperand _) fun _ =>
      bind (update fun _ _ => rfl) fun _ => pure _
  | esFree =>
    exact bind latchedArgs fun _ => bind (checkContract _) fun _ => bind (update fun _ _ => rfl) fun _ => pure _
  | treeLoad =>
    exact bind latchedArgs fun _ => bind (checkContract _) fun _ => bind (checkContract _) fun _ =>
      bind (onSource _) fun _ => bind (onSource _) fun _ => bind (update fun _ _ => rfl) fun _ => pure _
  | treeCompact =>
    exact bind latchedArgs fun _ => bind (treeOperand _) fun _ => bind (checkContract _) fun _ =>
      bind (orBroken _ _) fun _ => pure _
  | treeWalk =>
    exact bind latchedArgs fun _ => bind (treeOperand _) fun _ => bind (channelOperand _) fun _ =>
      bind (checkContract _) fun _ => theState_bind (fun _ _ => rfl) fun _ => bind (ofExcept _) fun _ => pure _
  | chlClear => exact bind (update fun _ _ => rfl) fun _ => pure _
  | chlAppend =>
    exact bind latchedArgs fun _ => bind (checkContract _) fun _ => theState_bind (fun _ _ => rfl) fun _ =>
      bind (require _) fun _ => bind (require _) fun _ => bind (update fun _ _ => rfl) fun _ => pure _
  | chDecode =>
    exact bind latchedArgs fun _ => bind (channelOperand _) fun _ => bind (treeOperand _) fun _ =>
      bind (slotOperand _) fun _ => bind (checkContract _) fun _ =>
        bind (ite (update fun _ _ => rfl) (decodeChannel _ _ _ _)) fun _ => pure _
  | chRead =>
    exact bind latchedArgs fun _ => bind (channelOperand _) fun _ => bind (checkContract _) fun _ =>
      bind (orRaise _ _) fun _ => pure _
  | chWrite =>
    exact bind latchedArgs fun _ => bind (channelOperand _) fun _ => bind (checkContract _) fun _ =>
      bind (update fun _ _ => rfl) fun _ => pure _
  | chInfo =>
    exact bind latchedArgs fun _ => bind (channelOperand _) fun _ => theState_bind (fun _ _ => rfl) fun _ => pure _
  | xfPushRct =>
    exact bind latchedArgs fun _ => theState_bind (fun _ _ => rfl) fun _ => bind (checkBitstream _) fun _ =>
      bind (checkBitstream _) fun _ => bind (checkBitstream _) fun _ => bind (update fun _ _ => rfl) fun _ => pure _
  | xfPushPalette =>
    exact bind latchedArgs fun _ => theState_bind (fun _ _ => rfl) fun _ => bind (checkBitstream _) fun _ =>
      bind (orRaise _ _) fun _ => bind (checkBitstream _) fun _ => bind (checkBitstream _) fun _ =>
        bind (require _) fun _ => bind (update fun _ _ => rfl) fun _ => pure _
  | xfPushSqueeze =>
    exact bind latchedArgs fun _ => theState_bind (fun _ _ => rfl) fun _ => bind (checkContract _) fun _ =>
      bind (checkBitstream _) fun _ => bind (checkBitstream _) fun _ => bind (checkBitstream _) fun _ =>
        bind (require _) fun _ => bind (update fun _ _ => rfl) fun _ => pure _
  | xfApply =>
    exact theState_bind (fun _ _ => rfl) fun _ => bind (allOrExhausted (undoTransforms _)) fun _ => pure _

end IgnoresRegs

theorem complete_withRegs (s : State) (r : Results) (regs : HostRegs) :
    (s.withRegs regs).complete r = (s.complete r).withRegs regs := by
  have hregs : (s.withRegs regs).overrun = s.overrun := rfl
  unfold State.complete
  rw [hregs]
  split <;> rfl

theorem exec_withRegs {i : Instr} {s t : State} (r : HostRegs) (h : exec i s = .next t) :
    exec i (s.withRegs r) = .next (t.withRegs r) := by
  have hbody := IgnoresRegs.commandBody i s r
  rw [exec_eq_runCommand] at h ⊢
  rcases runCommand_cases (commandBody i) s with ⟨x, u, hb, he⟩ | ⟨f, u, hb, he⟩ | ⟨f, u, hb, he⟩
  · rw [he] at h; cases h
    rw [hb] at hbody
    rw [runCommand_ok hbody, complete_withRegs]
  · rw [he] at h; cases h
    rw [hb] at hbody
    rw [runCommand_raise hbody]
    rfl
  · rw [he] at h; cases h

/-- Settles O10: a write of a storing register changes only it, and no body reads a host register. -/
theorem operandsLatchedAtIssue : Obligations.OperandsLatchedAtIssue :=
  ⟨fun _ _ => rfl, fun s _ v hw => ⟨_, writeReg_of_writable hw s v⟩, fun _ _ _ r h => exec_withRegs r h⟩

end Sys2Proof.Machine

/-! ## The bits a command consumes (`20_memory.md` R83, R88) -/

namespace Sys2Proof.Machine

/-- `t`'s Bit Source is `s`'s with its next bits, some number of them, consumed. -/
def SourceAdvances (s t : State) : Prop := Advances s.source t.source

theorem kept_sourceAdvances : Kept SourceAdvances :=
  ⟨fun _ => Advances.refl _, fun _ _ _ => Advances.trans⟩

theorem onSource_advances {α : Type} {m : Parse α} {Q : α → Prop} (h : Runs Advances m Q) :
    Runs SourceAdvances (onSource m) Q := Runs.onPart h fun _ _ => id

/-- An update that leaves the Bit Source alone. -/
theorem update_advances {f : State → State} (h : ∀ s, (f s).source = s.source) :
    Runs SourceAdvances (update f) fun _ => True :=
  update_runs fun s => by rw [SourceAdvances, h]; exact Advances.refl _

theorem latchedArgs_advances : Runs SourceAdvances latchedArgs fun _ => True :=
  fun _ => ⟨Advances.refl _, trivial⟩

/-! ### The four commands that hand the Bit Source to a parse -/

theorem hybExpandBody_advances : Keeps SourceAdvances hybExpandBody := by
  have k := kept_sourceAdvances
  exact Keeps.bind k latchedArgs_advances.keeps fun _ => Keeps.bind k (Keeps.checkContract k) fun _ =>
    Keeps.bind k (Keeps.onPart (hybridExpand_keeps _ _) fun _ _ => id) fun _ => Keeps.pure k _

theorem hybConfigReadBody_advances : Keeps SourceAdvances hybConfigReadBody := by
  have k := kept_sourceAdvances
  exact Keeps.bind k latchedArgs_advances.keeps fun _ => Keeps.bind k (Keeps.checkContract k) fun _ =>
    Keeps.bind k (onSource_advances (readHybridConfig_runs _)).keeps fun _ => Keeps.pure k _

/-- `ES_INIT` checks that it has a context before it reads the header. -/
theorem esInitBody_advances : Keeps SourceAdvances esInitBody := by
  have k := kept_sourceAdvances
  refine (Runs.bind k latchedArgs_advances fun a _ => Runs.bind k (Runs.checkContract k) fun _ _ =>
    Runs.bind k (Runs.checkContract k) fun _ hargs => ?_ : Runs _ _ fun _ => True).keeps
  have hn : 0 < a.arg1.toNat := by
    have := hargs.1
    bv_omega
  exact Runs.bind k (onSource_advances (readEntropyStream_runs hn _)) fun _ _ =>
    Runs.bind k (update_advances fun _ => rfl) fun _ _ => Runs.pure k trivial

/-- `TREE_LOAD` reads a stream with a context for each leaf of the tree it has read, and a tree has a leaf. -/
theorem treeLoadBody_advances : Keeps SourceAdvances treeLoadBody := by
  have k := kept_sourceAdvances
  refine (Runs.bind k latchedArgs_advances fun a _ => Runs.bind k (Runs.checkContract k) fun _ _ =>
    Runs.bind k (Runs.checkContract k) fun _ _ => Runs.bind k (onSource_advances readTree_runs) fun t ht => ?_ :
      Runs _ _ fun _ => True).keeps
  obtain ⟨hnodes, hcount, -⟩ := ht
  have hleaves : 0 < t.2 := by
    have := List.length_pos_iff.2 hnodes.1
    omega
  exact Runs.bind k (onSource_advances (readEntropyStream_runs hleaves _)) fun _ _ =>
    Runs.bind k (update_advances fun _ => rfl) fun _ _ => Runs.pure k trivial

/-! ### Every command -/

/-- The other commands consume bits only by reading symbols, if at all. -/
theorem Leaves.advances {s u : State} {i : Instr} {done : Bool} (h : Leaves s i done u)
    (hi : i ∉ [.hybExpand, .hybConfigRead, .esInit, .treeLoad]) : SourceAdvances s u := by
  cases h with
  | bitsRead _ b hread => exact absurd hread hi
  | slotFilled | treeLoaded => exact absurd hi (by decide)
  | slotRead _ _ hr => exact hr.1
  | pixelsStopped _ _ hp | pixelsDecoded _ _ hp => exact hp.1.1
  | transformsUndone h => rw [((undoTransforms_runs _).ok h).1]; exact Advances.refl _
  | undoingStopped h => rw [((undoTransforms_runs _).error h).1]; exact Advances.refl _
  | _ => exact Advances.refl _

theorem commandBody_advances (i : Instr) : Keeps SourceAdvances (commandBody i) := by
  by_cases hi : i ∈ [.hybExpand, .hybConfigRead, .esInit, .treeLoad]
  · simp only [List.mem_cons, List.not_mem_nil, or_false] at hi
    rcases hi with rfl | rfl | rfl | rfl
    · exact hybExpandBody_advances
    · exact hybConfigReadBody_advances
    · exact esInitBody_advances
    · exact treeLoadBody_advances
  · intro s
    have hl := commandBody_leaves i s
    cases hb : commandBody i s <;> rw [hb] at hl <;> exact hl.advances hi

/-- Closing a command consumes no bits. -/
theorem exec_advances {i : Instr} {s t : State} (h : exec i s = .next t) : SourceAdvances s t := by
  have hbody := commandBody_advances i
  rcases exec_cases i s with ⟨r, u, hb, he⟩ | ⟨f, u, hb, he⟩ | ⟨f, u, hb, he⟩
  · rw [he] at h; cases h
    rw [SourceAdvances, State.complete_source]
    exact hbody.ok hb
  · rw [he] at h; cases h
    rw [SourceAdvances, State.latchFault_source]
    exact hbody.error hb
  · rw [he] at h; cases h

/-- Settles O23: every parse, and so every command's body, consumes a stretch of bits from the front, and neither way of
closing a command touches the Bit Source. -/
theorem bitsConsumedInOrder : Obligations.BitsConsumedInOrder := by
  intro i s t h
  obtain ⟨k, hk, hrest, hpos⟩ := exec_advances h
  exact ⟨k, hk, by rw [← hrest, ← hpos]⟩

end Sys2Proof.Machine

/-! ## The decoder and the encoder (`30_encoding.md` R100 to R102) -/

namespace Sys2Proof.Machine

variable {w : Word} {i : Instr} {op : BitVec 8}

/-- The two fields of R100 make up the word. -/
theorem zeroField_append_opField (w : Word) : zeroField w ++ opField w = w :=
  (BitVec.extractLsb'_append_extractLsb'_eq_extractLsb' rfl).trans BitVec.extractLsb'_eq_self

/-- Each row of the opcode map gives its command at one opcode only. -/
theorem eq_opcode_of_instrOfOp (h : instrOfOp op = some i) : op = opcode i := by
  unfold instrOfOp at h
  split at h <;> cases h
  all_goals exact BitVec.eq_of_toNat_eq ‹_›

theorem fields_of_decode_ok (h : decode w = .ok i) : zeroField w = 0#24 ∧ instrOfOp (opField w) = some i := by
  unfold decode at h
  split at h
  · next hz =>
    split at h
    · next hop => cases h; exact ⟨hz, hop⟩
    · cases h
  · cases h

theorem eq_encode_of_decode_ok (h : decode w = .ok i) : w = encode i := by
  obtain ⟨hz, hop⟩ := fields_of_decode_ok h
  calc w = zeroField w ++ opField w := (zeroField_append_opField w).symm
    _ = 0#24 ++ opcode i := by rw [hz, eq_opcode_of_instrOfOp hop]

/-- Settles O2: a word is its two fields, and a word that decodes has the fields of its command's word. -/
theorem decodeInvertsEncode : Obligations.DecodeInvertsEncode :=
  fun _ i => ⟨eq_encode_of_decode_ok, fun h => h ▸ decode_encode i⟩

/-- Settles O1: the 22 words written out are what the commands encode to. -/
theorem commandWordsDecode : Obligations.CommandWordsDecode :=
  ⟨decode_encode .nop, decode_encode .hybExpand, decode_encode .unpackSigned, decode_encode .hybConfigRead,
    decode_encode .esInit, decode_encode .esRead, decode_encode .esValidate, decode_encode .esClone,
    decode_encode .esFree, decode_encode .treeLoad, decode_encode .treeCompact, decode_encode .treeWalk,
    decode_encode .chlClear, decode_encode .chlAppend, decode_encode .chDecode, decode_encode .chRead,
    decode_encode .chWrite, decode_encode .chInfo, decode_encode .xfPushRct, decode_encode .xfPushPalette,
    decode_encode .xfPushSqueeze, decode_encode .xfApply⟩

end Sys2Proof.Machine

/-! ## The arithmetic of the hybrid expansion (`40_hybrid_integer.md` R152, R154) -/

namespace Sys2Proof.Machine

variable {c : HybridConfig} {token raw q q' mid mid' low low' : Nat}

/-! ### Two digits: `a * k + x` with `x < k` -/

theorem twoDigits_lt_iff {a b k x y : Nat} (hx : x < k) (hy : y < k) :
    a * k + x < b * k + y ↔ a < b ∨ a = b ∧ x < y := by
  rcases Nat.lt_trichotomy a b with h | rfl | h
  · have : (a + 1) * k ≤ b * k := Nat.mul_le_mul_right k h
    rw [Nat.add_mul] at this
    omega
  · omega
  · have : (b + 1) * k ≤ a * k := Nat.mul_le_mul_right k h
    rw [Nat.add_mul] at this
    omega

theorem twoDigits_inj {a b k x y : Nat} (hx : x < k) (hy : y < k) (h : a * k + x = b * k + y) : a = b ∧ x = y := by
  have := twoDigits_lt_iff (a := a) (b := b) hx hy
  have := twoDigits_lt_iff (a := b) (b := a) hy hx
  omega

theorem twoDigits_div {a k x : Nat} (hx : x < k) : (a * k + x) / k = a := by
  rw [Nat.mul_comm, Nat.mul_add_div (by omega), Nat.div_eq_of_lt hx, Nat.add_zero]

theorem twoDigits_mod {a k x : Nat} (hx : x < k) : (a * k + x) % k = x := by
  rw [Nat.mul_add_mod', Nat.mod_eq_of_lt hx]

/-- A number has `a + k + 1` binary digits exactly when it has `a + 1` from digit `k` up. -/
theorem binaryLength_div {a k v : Nat} :
    2 ^ (a + k) ≤ v ∧ v < 2 ^ (a + k + 1) ↔ 2 ^ a ≤ v / 2 ^ k ∧ v / 2 ^ k < 2 ^ (a + 1) := by
  rw [Nat.le_div_iff_mul_le (by positivity), Nat.div_lt_iff_lt_mul (by positivity), ← Nat.pow_add, ← Nat.pow_add,
    Nat.add_right_comm a 1 k]

/-! ### The model's shifts and ors as arithmetic -/

theorem hybridRawBits_eq (token : Nat) (c : HybridConfig) :
    hybridRawBits token c = c.splitExponent - c.msbInToken - c.lsbInToken +
      (token - 2 ^ c.splitExponent) / 2 ^ (c.msbInToken + c.lsbInToken) := by
  rw [hybridRawBits, Nat.one_shiftLeft, Nat.shiftRight_eq_div_pow]

/-- The splice of R152 puts the leading one, the token's middle bits, the raw bits and the token's low bits one after
the other. -/
theorem hybridSplice_eq (h : raw < 2 ^ hybridRawBits token c) :
    hybridSplice token c raw =
      ((2 ^ c.msbInToken + token / 2 ^ c.lsbInToken % 2 ^ c.msbInToken) * 2 ^ hybridRawBits token c + raw)
        * 2 ^ c.lsbInToken + token % 2 ^ c.lsbInToken := by
  have hmid : token / 2 ^ c.lsbInToken % 2 ^ c.msbInToken < 2 ^ c.msbInToken := Nat.mod_lt _ (by positivity)
  have hlow : token % 2 ^ c.lsbInToken < 2 ^ c.lsbInToken := Nat.mod_lt _ (by positivity)
  have hlead := Nat.two_pow_add_eq_or_of_lt hmid 1
  rw [Nat.mul_one, Nat.or_comm] at hlead
  simp only [hybridSplice, Nat.one_shiftLeft, Nat.shiftRight_eq_div_pow]
  rw [← hlead, ← Nat.shiftLeft_add_eq_or_of_lt h, ← Nat.shiftLeft_add_eq_or_of_lt hlow, Nat.shiftLeft_eq,
    Nat.shiftLeft_eq]

/-! ### `HybridExpand`, branch by branch -/

variable {b : BitSource}

theorem hybridExpand_below (h : token < 2 ^ c.splitExponent) : hybridExpand token c b = .ok token b := by
  rw [hybridExpand, Nat.one_shiftLeft, if_pos h]; rfl

theorem hybridExpand_above (h : 2 ^ c.splitExponent ≤ token) :
    hybridExpand token c b =
      if hybridRawBits token c ≤ 32 then
        (readBits (hybridRawBits token c) >>= fun raw =>
          checkBitstream (hybridSplice token c raw < 2 ^ 32) .valueOverflow >>= fun _ =>
            pure (hybridSplice token c raw)) b
      else .error (.raise (.invalidBitstream .hybridTooLong)) b := by
  rw [hybridExpand, Nat.one_shiftLeft, if_neg (by omega), checkBitstream_bind]

theorem hybridExpand_tooLong (h : 2 ^ c.splitExponent ≤ token) (hn : 32 < hybridRawBits token c) :
    hybridExpand token c b = .error (.raise (.invalidBitstream .hybridTooLong)) b := by
  rw [hybridExpand_above h, if_neg (by omega)]

theorem hybridExpand_truncated (h : 2 ^ c.splitExponent ≤ token) (hn : hybridRawBits token c ≤ 32)
    (hlen : b.rest.length < hybridRawBits token c) :
    hybridExpand token c b = .error (.raise .truncatedInput) b := by
  rw [hybridExpand_above h, if_pos hn, eng_bind_error (readBits_truncated hlen)]

theorem hybridExpand_splices (h : 2 ^ c.splitExponent ≤ token) (hn : hybridRawBits token c ≤ 32)
    (hlen : hybridRawBits token c ≤ b.rest.length) :
    hybridExpand token c b =
      if hybridSplice token c (bitsToNat (b.rest.take (hybridRawBits token c))) < 2 ^ 32 then
        .ok (hybridSplice token c (bitsToNat (b.rest.take (hybridRawBits token c))))
          { rest := b.rest.drop (hybridRawBits token c), pos := b.pos + hybridRawBits token c }
      else .error (.raise (.invalidBitstream .valueOverflow))
        { rest := b.rest.drop (hybridRawBits token c), pos := b.pos + hybridRawBits token c } := by
  rw [hybridExpand_above h, if_pos hn, eng_bind_ok (readBits_ok hlen), checkBitstream_bind]
  rfl

theorem bitsToNat_take_lt {l : List Bool} {n : Nat} (h : n ≤ l.length) : bitsToNat (l.take n) < 2 ^ n := by
  simpa [Nat.min_eq_left h] using bitsToNat_lt (l.take n)

/-- At or above the split, what `HybridExpand` answers is a splice with a raw value of the branch's width. -/
theorem hybridExpand_ok_above {v : Nat} {b' : BitSource} (h : 2 ^ c.splitExponent ≤ token)
    (hv : hybridExpand token c b = .ok v b') :
    ∃ raw, raw < 2 ^ hybridRawBits token c ∧ v = hybridSplice token c raw := by
  rcases Nat.lt_or_ge 32 (hybridRawBits token c) with hn | hn
  · rw [hybridExpand_tooLong h hn] at hv; cases hv
  rcases Nat.lt_or_ge b.rest.length (hybridRawBits token c) with hlen | hlen
  · rw [hybridExpand_truncated h hn hlen] at hv; cases hv
  rw [hybridExpand_splices h hn hlen] at hv
  split at hv
  · cases hv; exact ⟨_, bitsToNat_take_lt hlen, rfl⟩
  · cases hv

/-! ### Tokens and results by their parts

A token at or above the split is `q`, the number of raw bits it takes beyond those of the first such token, then
`msbInToken` middle bits and `lsbInToken` low bits. Its results are a leading one, the middle bits, the raw bits and
the low bits: they have `splitExponent + q + 1` binary digits. -/

/-- The number of raw bits of the tokens with `q`. -/
def HybridConfig.rawWidth (c : HybridConfig) (q : Nat) : Nat := c.splitExponent - c.msbInToken - c.lsbInToken + q

/-- The token at or above the split with the parts `q`, `mid` and `low`. -/
def HybridConfig.tokenOf (c : HybridConfig) (q mid low : Nat) : Nat :=
  2 ^ c.splitExponent + ((q * 2 ^ c.msbInToken + mid) * 2 ^ c.lsbInToken + low)

/-- The result with the parts `q`, `mid`, `raw` and `low`. -/
def HybridConfig.resultOf (c : HybridConfig) (q mid raw low : Nat) : Nat :=
  ((2 ^ c.msbInToken + mid) * 2 ^ c.rawWidth q + raw) * 2 ^ c.lsbInToken + low

/-- The digits of a result under its leading one: the middle bits, the raw bits and the low bits. -/
theorem HybridConfig.splitExponent_add (hc : c.msbInToken + c.lsbInToken ≤ c.splitExponent) :
    c.splitExponent + q = c.msbInToken + c.rawWidth q + c.lsbInToken := by
  unfold HybridConfig.rawWidth
  omega

theorem HybridConfig.le_tokenOf : 2 ^ c.splitExponent ≤ c.tokenOf q mid low := Nat.le_add_right _ _

theorem exists_tokenOf (h : 2 ^ c.splitExponent ≤ token) :
    ∃ q mid low, mid < 2 ^ c.msbInToken ∧ low < 2 ^ c.lsbInToken ∧ token = c.tokenOf q mid low := by
  refine ⟨(token - 2 ^ c.splitExponent) / 2 ^ c.lsbInToken / 2 ^ c.msbInToken, _, _,
    Nat.mod_lt ((token - 2 ^ c.splitExponent) / 2 ^ c.lsbInToken) (by positivity),
    Nat.mod_lt (token - 2 ^ c.splitExponent) (by positivity), ?_⟩
  rw [HybridConfig.tokenOf, Nat.div_add_mod', Nat.div_add_mod', Nat.add_sub_cancel' h]

section
variable (hmid : mid < 2 ^ c.msbInToken) (hlow : low < 2 ^ c.lsbInToken)
include hmid hlow

theorem hybridRawBits_tokenOf : hybridRawBits (c.tokenOf q mid low) c = c.rawWidth q := by
  rw [hybridRawBits_eq, HybridConfig.tokenOf, Nat.add_sub_cancel_left, Nat.add_comm c.msbInToken, Nat.pow_add,
    ← Nat.div_div_eq_div_mul, twoDigits_div hlow, twoDigits_div hmid]
  rfl

/-- With a legal configuration the split is a multiple of the weight of `q`, so it touches no middle and no low bit. -/
theorem hybridSplice_tokenOf (hc : c.msbInToken + c.lsbInToken ≤ c.splitExponent) (hraw : raw < 2 ^ c.rawWidth q) :
    hybridSplice (c.tokenOf q mid low) c raw = c.resultOf q mid raw low := by
  have hsplit : 2 ^ c.splitExponent =
      2 ^ (c.splitExponent - c.msbInToken - c.lsbInToken) * 2 ^ c.msbInToken * 2 ^ c.lsbInToken := by
    rw [← Nat.pow_add, ← Nat.pow_add]
    congr 1
    omega
  have htoken : c.tokenOf q mid low =
      ((2 ^ (c.splitExponent - c.msbInToken - c.lsbInToken) + q) * 2 ^ c.msbInToken + mid) * 2 ^ c.lsbInToken
        + low := by
    rw [HybridConfig.tokenOf, hsplit]
    ring
  have hbits := hybridRawBits_tokenOf (q := q) hmid hlow
  rw [hybridSplice_eq (by rw [hbits]; exact hraw), hbits, htoken, twoDigits_div hlow, twoDigits_mod hmid,
    twoDigits_mod hlow]
  rfl

theorem HybridConfig.resultOf_binaryLength (hc : c.msbInToken + c.lsbInToken ≤ c.splitExponent)
    (hraw : raw < 2 ^ c.rawWidth q) :
    2 ^ (c.splitExponent + q) ≤ c.resultOf q mid raw low ∧
      c.resultOf q mid raw low < 2 ^ (c.splitExponent + q + 1) := by
  rw [HybridConfig.splitExponent_add hc, binaryLength_div, HybridConfig.resultOf, twoDigits_div hlow, binaryLength_div,
    twoDigits_div hraw, Nat.pow_succ]
  omega

end

/-- Every number at or above the split has the parts of a result. -/
theorem exists_resultOf (hc : c.msbInToken + c.lsbInToken ≤ c.splitExponent) {r : Nat} (h : 2 ^ c.splitExponent ≤ r) :
    ∃ q mid raw low, mid < 2 ^ c.msbInToken ∧ raw < 2 ^ c.rawWidth q ∧ low < 2 ^ c.lsbInToken ∧
      r = c.resultOf q mid raw low := by
  obtain ⟨q, hq⟩ : ∃ q, Nat.log 2 r = c.splitExponent + q :=
    Nat.exists_eq_add_of_le (Nat.le_log_of_pow_le (by omega) h)
  have hpos := Nat.two_pow_pos c.splitExponent
  have hr : 2 ^ (c.splitExponent + q) ≤ r ∧ r < 2 ^ (c.splitExponent + q + 1) :=
    hq ▸ ⟨Nat.pow_log_le_self 2 (by omega), Nat.lt_pow_succ_log_self (by omega) r⟩
  rw [HybridConfig.splitExponent_add hc, binaryLength_div, binaryLength_div, Nat.pow_succ] at hr
  refine ⟨q, r / 2 ^ c.lsbInToken / 2 ^ c.rawWidth q - 2 ^ c.msbInToken, _, _, by omega,
    Nat.mod_lt (r / 2 ^ c.lsbInToken) (by positivity), Nat.mod_lt r (by positivity), ?_⟩
  rw [HybridConfig.resultOf, Nat.add_sub_cancel' hr.1, Nat.div_add_mod', Nat.div_add_mod']

/-- A result has its parts only once: its length gives `q`, and the parts under it are digits. -/
theorem HybridConfig.resultOf_inj (hc : c.msbInToken + c.lsbInToken ≤ c.splitExponent) {raw' : Nat}
    (hmid : mid < 2 ^ c.msbInToken) (hraw : raw < 2 ^ c.rawWidth q) (hlow : low < 2 ^ c.lsbInToken)
    (hmid' : mid' < 2 ^ c.msbInToken) (hraw' : raw' < 2 ^ c.rawWidth q') (hlow' : low' < 2 ^ c.lsbInToken)
    (h : c.resultOf q mid raw low = c.resultOf q' mid' raw' low') : q = q' ∧ mid = mid' ∧ raw = raw' ∧ low = low' := by
  have hlen := resultOf_binaryLength hmid hlow hc hraw
  have hlen' := resultOf_binaryLength hmid' hlow' hc hraw'
  obtain rfl : q = q' := by
    have hlog := Nat.log_eq_of_pow_le_of_lt_pow hlen.1 hlen.2
    have hlog' := Nat.log_eq_of_pow_le_of_lt_pow hlen'.1 hlen'.2
    rw [h] at hlog
    omega
  obtain ⟨hhigh, rfl⟩ := twoDigits_inj hlow hlow' h
  obtain ⟨htop, rfl⟩ := twoDigits_inj hraw hraw' hhigh
  exact ⟨rfl, Nat.add_left_cancel htop, rfl, rfl⟩

/-- For raw zero the results are in the order of their tokens: of their lengths, then of their middle bits, then of
their low bits. -/
theorem HybridConfig.resultOf_lt (hc : c.msbInToken + c.lsbInToken ≤ c.splitExponent)
    (hmid : mid < 2 ^ c.msbInToken) (hlow : low < 2 ^ c.lsbInToken)
    (hmid' : mid' < 2 ^ c.msbInToken) (hlow' : low' < 2 ^ c.lsbInToken)
    (h : c.tokenOf q mid low < c.tokenOf q' mid' low') : c.resultOf q mid 0 low < c.resultOf q' mid' 0 low' := by
  have hzero : ∀ k, 0 < 2 ^ c.rawWidth k := fun k => Nat.two_pow_pos _
  have hdigits := Nat.lt_of_add_lt_add_left h
  rw [twoDigits_lt_iff hlow hlow', twoDigits_lt_iff hmid hmid'] at hdigits
  rcases hdigits with (hq | ⟨rfl, hlt⟩) | ⟨heq, hlt⟩
  · calc c.resultOf q mid 0 low < 2 ^ (c.splitExponent + q + 1) := (resultOf_binaryLength hmid hlow hc (hzero q)).2
      _ ≤ 2 ^ (c.splitExponent + q') := Nat.pow_le_pow_right (by omega) (by omega)
      _ ≤ c.resultOf q' mid' 0 low' := (resultOf_binaryLength hmid' hlow' hc (hzero q')).1
  · unfold HybridConfig.resultOf
    rw [twoDigits_lt_iff hlow hlow', twoDigits_lt_iff (hzero q) (hzero q)]
    omega
  · obtain ⟨rfl, rfl⟩ := twoDigits_inj hmid hmid' heq
    exact Nat.add_lt_add_left hlt _

/-- For raw zero, the result is strictly increasing in the token across both branches. -/
theorem expandZero_lt (hc : c.msbInToken + c.lsbInToken ≤ c.splitExponent) {t t' : Nat} (h : t < t') :
    (if t < 2 ^ c.splitExponent then t else hybridSplice t c 0) <
      (if t' < 2 ^ c.splitExponent then t' else hybridSplice t' c 0) := by
  by_cases ht' : t' < 2 ^ c.splitExponent
  · rwa [if_pos (by omega), if_pos ht']
  rw [if_neg ht']
  obtain ⟨q', mid', low', hmid', hlow', rfl⟩ := exists_tokenOf (Nat.le_of_not_lt ht')
  rw [hybridSplice_tokenOf hmid' hlow' hc (by positivity)]
  split
  · next ht =>
    calc t < 2 ^ c.splitExponent := ht
      _ ≤ 2 ^ (c.splitExponent + q') := Nat.pow_le_pow_right (by omega) (by omega)
      _ ≤ c.resultOf q' mid' 0 low' := (HybridConfig.resultOf_binaryLength hmid' hlow' hc (by positivity)).1
  · next ht =>
    obtain ⟨q, mid, low, hmid, hlow, rfl⟩ := exists_tokenOf (Nat.le_of_not_lt ht)
    rw [hybridSplice_tokenOf hmid hlow hc (by positivity)]
    exact HybridConfig.resultOf_lt hc hmid hlow hmid' hlow' h

/-- Every number at or above the split is the splice of exactly one token and raw value. -/
theorem existsUnique_hybridSplice (hc : c.msbInToken + c.lsbInToken ≤ c.splitExponent) {r : Nat}
    (h : 2 ^ c.splitExponent ≤ r) :
    ∃! p : Nat × Nat, 2 ^ c.splitExponent ≤ p.1 ∧ p.2 < 2 ^ hybridRawBits p.1 c ∧ hybridSplice p.1 c p.2 = r := by
  obtain ⟨q, mid, raw, low, hmid, hraw, hlow, rfl⟩ := exists_resultOf hc h
  refine ⟨(c.tokenOf q mid low, raw), ⟨HybridConfig.le_tokenOf, ?_, hybridSplice_tokenOf hmid hlow hc hraw⟩, ?_⟩
  · rwa [hybridRawBits_tokenOf hmid hlow]
  rintro ⟨token, raw'⟩ ⟨htoken, hraw', hr⟩
  obtain ⟨q', mid', low', hmid', hlow', rfl⟩ := exists_tokenOf htoken
  rw [hybridRawBits_tokenOf hmid' hlow'] at hraw'
  rw [hybridSplice_tokenOf hmid' hlow' hc hraw'] at hr
  obtain ⟨rfl, rfl, rfl, rfl⟩ := HybridConfig.resultOf_inj hc hmid' hraw' hlow' hmid hraw hlow hr
  rfl

/-- Settles O31: tokens and results are compared by their parts, and the length of a result gives the number of raw
bits of its token. -/
theorem hybridExpansionLaws : Obligations.HybridExpansionLaws := fun _ hc =>
  ⟨fun _ _ => hybridExpand_below, fun _ _ _ _ => hybridExpand_ok_above, fun _ _ => expandZero_lt hc,
    fun _ => existsUnique_hybridSplice hc⟩

end Sys2Proof.Machine

/-! ## The hybrid integer commands (`40_hybrid_integer.md` R155, R160, R162) -/

namespace Sys2Proof.Machine

variable {s t : State} {i : Instr} {b : BitSource}

/-! ### Closing a command -/

/-- A command that answers one result, with no command write meanwhile. -/
theorem exec_of_ok {v : Word} (ho : t.overrun = false) (h : commandBody i s = .ok { r0 := some v } t) :
    exec i s = .next { t with result0 := v, busy := false, done := true } := by
  rw [exec_eq_runCommand, runCommand_ok h, State.complete_of_not_overrun t _ ho]
  rfl

theorem exec_of_raise {f : BlockFault} (h : commandBody i s = .error (.raise f) t) :
    exec i s = .next (t.latchFault f) := by
  rw [exec_eq_runCommand, runCommand_raise h]

/-! ### `UNPACK_SIGNED` -/

theorem unpackSigned_toInt (u : Word) : (Word.ofInt (unpackSignedNat u.toNat)).toInt = unpackSignedNat u.toNat := by
  have h := inI32_unpackSigned u.isLt
  simp only [inI32, Bool.and_eq_true, decide_eq_true_eq] at h
  rw [BitVec.toInt_ofInt]
  exact Int.bmod_eq_of_le (by omega) (by omega)

/-- Settles O32: the value is in `i32`, so the result word keeps it. -/
theorem unpackSignedMapsUnsignedToSigned : Obligations.UnpackSignedMapsUnsignedToSigned := by
  intro s ho
  refine ⟨_, exec_of_ok (i := .unpackSigned) ho (unpackSignedBody_eq s), ?_⟩
  rw [unpackSigned_toInt]
  rfl

/-! ### `HYB_EXPAND` -/

theorem unpackConfig_eq (w : Word) : unpackConfig w =
    { splitExponent := w.toNat % 16, msbInToken := w.toNat / 16 % 16, lsbInToken := w.toNat / 256 % 16 } := by
  simp [unpackConfig, BitVec.extractLsb'_toNat, Nat.shiftRight_eq_div_pow]

theorem zeroFrom_iff (w : Word) (n : Nat) : zeroFrom w n = true ↔ w.toNat < 2 ^ n := by
  rw [zeroFrom, beq_iff_eq, ← BitVec.toNat_inj, BitVec.toNat_ushiftRight, Nat.shiftRight_eq_div_pow]
  exact Nat.div_eq_zero_iff_lt (by positivity)

theorem configFits_iff (w : Word) : configFits w = true ↔
    w.toNat < 4096 ∧ w.toNat / 16 % 16 + w.toNat / 256 % 16 ≤ w.toNat % 16 := by
  rw [configFits, Bool.and_eq_true, zeroFrom_iff, decide_eq_true_eq, unpackConfig_eq]
  rfl

theorem exec_hybExpand_badArg (h : configFits s.latched.args.arg1 ≠ true) :
    exec .hybExpand s = .next (s.latchFault (.contractViolation .badArg)) :=
  exec_of_raise ((hybExpandBody_eq s).trans (if_neg h))

section
variable {c : HybridConfig} (h : configFits s.latched.args.arg1 = true) (hc : unpackConfig s.latched.args.arg1 = c)
include h hc

theorem exec_hybExpand_error {f : BlockFault}
    (hx : hybridExpand s.latched.args.arg0.toNat c s.source = .error (.raise f) b) :
    exec .hybExpand s = .next ((s.setSource b).latchFault f) :=
  exec_of_raise (i := .hybExpand) ((hybExpandBody_eq s).trans (by rw [if_pos h, hc, hx]))

theorem exec_hybExpand_ok {v : Nat} (ho : s.overrun = false)
    (hx : hybridExpand s.latched.args.arg0.toNat c s.source = .ok v b) :
    exec .hybExpand s = .next { s.setSource b with result0 := Word.ofNat v, busy := false, done := true } :=
  exec_of_ok (i := .hybExpand) (t := s.setSource b) ho ((hybExpandBody_eq s).trans (by rw [if_pos h, hc, hx]))

end

/-- Settles O30: each branch of `HybridExpand`, over the unpacked configuration and in arithmetic. -/
theorem hybExpandExpandsToken : Obligations.HybExpandExpandsToken := by
  intro s token config e m l n raw r read
  have hcfg : unpackConfig s.latched.args.arg1 = ⟨e, m, l⟩ := unpackConfig_eq _
  have hn : hybridRawBits token ⟨e, m, l⟩ = n := hybridRawBits_eq _ _
  have hr : n ≤ s.source.rest.length → hybridSplice token ⟨e, m, l⟩ raw = r := fun hlen => by
    rw [hybridSplice_eq (by rw [hn]; exact bitsToNat_take_lt hlen), hn]
  have hfits : configFits s.latched.args.arg1 = true ↔ config < 4096 ∧ m + l ≤ e := configFits_iff _
  refine ⟨fun h => exec_hybExpand_badArg fun hf => ?_, fun hconfig hml => ?_⟩
  · have := hfits.1 hf
    omega
  replace hfits := hfits.2 ⟨hconfig, hml⟩
  refine ⟨fun h ho => ?_, fun h hlong => ?_, fun h hshort hlen => ?_, fun h hshort hlen hbig => ?_,
    fun h hshort hlen hsmall ho => ?_⟩
  · rw [exec_hybExpand_ok hfits hcfg ho (hybridExpand_below h), Word.ofNat, BitVec.ofNat_toNat, BitVec.setWidth_eq]
    rfl
  · exact exec_hybExpand_error hfits hcfg (hybridExpand_tooLong h (hn ▸ hlong))
  · exact exec_hybExpand_error hfits hcfg (hybridExpand_truncated h (hn ▸ hshort) (hn ▸ hlen))
  · refine exec_hybExpand_error hfits hcfg ((hybridExpand_splices h (hn ▸ hshort) (hn ▸ hlen)).trans ?_)
    rw [hn, hr hlen, if_neg (by omega)]
  · refine exec_hybExpand_ok hfits hcfg ho ((hybridExpand_splices h (hn ▸ hshort) (hn ▸ hlen)).trans ?_)
    rw [hn, hr hlen, if_pos hsmall]

/-! ### `HYB_CONFIG_READ` -/

theorem isLogAlphabetSize_iff (w : Word) : isLogAlphabetSize w = true ↔ w.toNat ∈ [5, 6, 7, 8, 15] := by
  rw [isLogAlphabetSize, decide_eq_true_eq]

theorem exec_hybConfigRead_badArg (h : s.latched.args.arg0.toNat ∉ [5, 6, 7, 8, 15]) :
    exec .hybConfigRead s = .next (s.latchFault (.contractViolation .badArg)) :=
  exec_of_raise (i := .hybConfigRead)
    ((hybConfigReadBody_eq s).trans (if_neg (by rwa [isLogAlphabetSize_iff])))

section
variable (h : s.latched.args.arg0.toNat ∈ [5, 6, 7, 8, 15])
include h

theorem exec_hybConfigRead_error {f : BlockFault}
    (hx : readHybridConfig s.latched.args.arg0.toNat s.source = .error (.raise f) b) :
    exec .hybConfigRead s = .next ((s.setSource b).latchFault f) :=
  exec_of_raise (i := .hybConfigRead)
    ((hybConfigReadBody_eq s).trans (by rw [if_pos ((isLogAlphabetSize_iff _).2 h), hx]))

theorem exec_hybConfigRead_ok {c : HybridConfig} (ho : s.overrun = false)
    (hx : readHybridConfig s.latched.args.arg0.toNat s.source = .ok c b) :
    exec .hybConfigRead s = .next { s.setSource b with result0 := packConfig c, busy := false, done := true } :=
  exec_of_ok (i := .hybConfigRead) (t := s.setSource b) ho
    ((hybConfigReadBody_eq s).trans (by rw [if_pos ((isLogAlphabetSize_iff _).2 h), hx]))

end

/-- The fields of a legal configuration fit the four bits each has in the packed word. -/
theorem packConfig_eq {L : Nat} {c : HybridConfig} (h : c.Wf L) (hL : L ≤ 15) :
    packConfig c = BitVec.ofNat 32 (c.splitExponent + 16 * c.msbInToken + 256 * c.lsbInToken) := by
  obtain ⟨hml, he⟩ := h
  have hl : c.lsbInToken < 16 := by omega
  have hm : c.msbInToken < 16 := by omega
  have hs : c.splitExponent < 16 := by omega
  refine BitVec.eq_of_toNat_eq ?_
  simp only [packConfig, BitVec.toNat_append, BitVec.toNat_ofNat]
  rw [Nat.mod_eq_of_lt hl, Nat.mod_eq_of_lt hm, Nat.mod_eq_of_lt hs, ← Nat.shiftLeft_add_eq_or_of_lt hs,
    ← Nat.shiftLeft_add_eq_or_of_lt hm, ← Nat.shiftLeft_add_eq_or_of_lt hl]
  simp only [Nat.shiftLeft_eq]
  omega

/-! The fields in turn, each checked as soon as it is read. -/

theorem Parses.over {α : Type} {p : Parse α} {bits rest : List Bool} {a : α} (h : Parses p bits a)
    (hb : b.rest = bits ++ rest) : p b = .ok a ⟨rest, b.pos + bits.length⟩ := by
  rw [← h rest b.pos, ← hb]

/-- Read a field of `n` bits, check it, and go on with it. -/
def checkedField (n : Nat) (P : Nat → Prop) [DecidablePred P] (k : Nat → Parse HybridConfig) : Parse HybridConfig := do
  let v ← readBits n
  checkBitstream (P v) .badHybridConfig
  k v

section
variable {n v : Nat} {P : Nat → Prop} [DecidablePred P] {k : Nat → Parse HybridConfig} {rest : List Bool}

theorem checkedField_truncated (h : b.rest.length < n) : checkedField n P k b = .error (.raise .truncatedInput) b :=
  eng_bind_error (readBits_truncated h)

theorem checkedField_eq (hv : v < 2 ^ n) (hb : b.rest = fieldBits n v ++ rest) :
    checkedField n P k b =
      if P v then k v ⟨rest, b.pos + n⟩
      else .error (.raise (.invalidBitstream .badHybridConfig)) ⟨rest, b.pos + n⟩ := by
  have hread := (parses_readBits hv).over hb
  rw [fieldBits_length] at hread
  rw [checkedField, eng_bind_ok hread, checkBitstream_bind]

end

/-- What `readHybridConfig` reads after a splitExponent `e` and an msbInToken `m`. -/
def readLsbField (e m : Nat) : Parse HybridConfig :=
  checkedField (Nat.clog 2 (e - m + 1)) (fun l => m + l ≤ e) fun l =>
    pure { splitExponent := e, msbInToken := m, lsbInToken := l }

/-- What `readHybridConfig` reads after a splitExponent `e` below the bound. -/
def readMsbField (e : Nat) : Parse HybridConfig :=
  checkedField (Nat.clog 2 (e + 1)) (fun m => m ≤ e) (readLsbField e)

theorem readHybridConfig_eq (L : Nat) :
    readHybridConfig L = checkedField (Nat.clog 2 (L + 1)) (fun e => e ≤ L) fun e =>
      if e = L then pure { splitExponent := e, msbInToken := 0, lsbInToken := 0 } else readMsbField e := by
  simp only [readHybridConfig, ceilLog2_eq]
  rfl

section
variable {L e m : Nat} {rest : List Bool}

theorem readHybridConfig_below (h : e < L) (he : e < 2 ^ Nat.clog 2 (L + 1))
    (hb : b.rest = fieldBits (Nat.clog 2 (L + 1)) e ++ rest) :
    readHybridConfig L b = readMsbField e ⟨rest, b.pos + Nat.clog 2 (L + 1)⟩ := by
  rw [readHybridConfig_eq, checkedField_eq he hb, if_pos (by omega), if_neg (by omega)]

theorem readMsbField_within (h : m ≤ e) (hm : m < 2 ^ Nat.clog 2 (e + 1))
    (hb : b.rest = fieldBits (Nat.clog 2 (e + 1)) m ++ rest) :
    readMsbField e b = readLsbField e m ⟨rest, b.pos + Nat.clog 2 (e + 1)⟩ := by
  rw [readMsbField, checkedField_eq hm hb, if_pos h]

end

/-- Settles O33: the encoding of a legal configuration parses, and each field in turn stops the parse when its bits run
out or its check fails. -/
theorem hybConfigReadParsesConfig : Obligations.HybConfigReadParsesConfig := by
  intro s L
  refine ⟨exec_hybConfigRead_badArg, fun hL => ⟨fun c rest ho hc hw hb => ?_, fun hlen => ?_, fun e rest he hb => ?_⟩⟩
  · have hL15 : L ≤ 15 := by
      simp only [List.mem_cons, List.not_mem_nil, or_false] at hL
      omega
    rw [exec_hybConfigRead_ok hL ho ((parses_readHybridConfig ⟨hc, hw⟩).over hb), packConfig_eq hc hL15]
    rfl
  · refine exec_hybConfigRead_error (b := s.source) hL ?_
    rw [readHybridConfig_eq, checkedField_truncated hlen]
  intro s1
  refine ⟨fun hbad => ?_, fun hlt hlen => ?_, fun m rest' hlt hm hb' => ?_⟩
  · refine exec_hybConfigRead_error (b := s1.source) hL ?_
    rw [readHybridConfig_eq, checkedField_eq he hb, if_neg (by omega)]
  · refine exec_hybConfigRead_error (b := s1.source) hL ?_
    rw [readHybridConfig_below hlt he hb, readMsbField, checkedField_truncated hlen]
  intro s2
  have hsplit : readHybridConfig L s.source = readMsbField e s1.source := readHybridConfig_below hlt he hb
  refine ⟨fun hbad => ?_, fun hle hlen => ?_, fun l rest'' hle hbad hl hb'' => ?_⟩
  · refine exec_hybConfigRead_error (b := s2.source) hL ?_
    rw [hsplit, readMsbField, checkedField_eq hm hb', if_neg (by omega)]
  · refine exec_hybConfigRead_error (b := s2.source) hL ?_
    rw [hsplit, readMsbField_within hle hm hb', readLsbField, checkedField_truncated hlen]
  · refine exec_hybConfigRead_error (b := ⟨rest'', s2.source.pos + Nat.clog 2 (e - m + 1)⟩) hL ?_
    rw [hsplit, readMsbField_within hle hm hb', readLsbField, checkedField_eq hl hb'', if_neg (by omega)]

end Sys2Proof.Machine

/-! ## Lists of frequencies: entries and sums -/

namespace Sys2Proof.Machine

theorem getD_set_self {l : List Nat} {i : Nat} (h : i < l.length) (v : Nat) : (l.set i v).getD i 0 = v := by
  simp [h]

theorem getD_set_ne {l : List Nat} {i j : Nat} (h : i ≠ j) (v : Nat) : (l.set i v).getD j 0 = l.getD j 0 := by
  simp [h]

theorem getD_set_self_le (l : List Nat) (i v : Nat) : (l.set i v).getD i 0 ≤ v := by
  rcases Nat.lt_or_ge i l.length with h | h
  · exact (getD_set_self h v).le
  · rw [List.getD_eq_default _ _ (by simpa using h)]
    exact Nat.zero_le v

theorem getD_zeros (n i : Nat) : (List.replicate n 0).getD i 0 = 0 := by
  rw [List.getD_eq_getElem?_getD, List.getElem?_getD_replicate_default_eq]

theorem map_getD_range (D : List Nat) : (List.range D.length).map (D.getD · 0) = D := by
  apply List.ext_getElem <;> simp +contextual

/-- Writing an entry replaces its share of the sum. -/
theorem sum_set_add {l : List Nat} {i : Nat} (h : i < l.length) (v : Nat) :
    (l.set i v).sum + l.getD i 0 = l.sum + v := by
  induction l generalizing i with
  | nil => simp at h
  | cons a l ih =>
    cases i with
    | zero => simp; omega
    | succ i =>
      have := ih (i := i) (by simpa using h)
      simp only [List.set_cons_succ, List.sum_cons, List.getD_cons_succ]
      omega

theorem sum_set_of_zero {l : List Nat} {i : Nat} (h : i < l.length) (hz : l.getD i 0 = 0) (v : Nat) :
    (l.set i v).sum = l.sum + v := by
  rw [← sum_set_add h v, hz, Nat.add_zero]

theorem sum_zeros_set {n i : Nat} (h : i < n) (v : Nat) : ((List.replicate n 0).set i v).sum = v := by
  rw [sum_set_of_zero (by simpa using h) (getD_zeros n i), List.sum_replicate_nat, Nat.mul_zero, Nat.zero_add]

/-- An entry that has the whole sum leaves nothing to the others. -/
theorem getD_eq_zero_of_getD_eq_sum {D : List Nat} {s s' : Nat} (h : D.getD s 0 = D.sum) (hs : s < D.length)
    (hne : s ≠ s') : D.getD s' 0 = 0 := by
  rcases Nat.lt_or_ge s' D.length with hs' | hs'
  · have hset := sum_set_add hs 0
    have hset' := sum_set_add (l := D.set s 0) (i := s') (by simpa using hs') 0
    rw [getD_set_ne hne] at hset'
    omega
  · exact List.getD_eq_default _ _ hs'

end Sys2Proof.Machine

/-! ## The sum of a parsed ANS distribution (`41_symbol_distribution.md` R173 to R177) -/

namespace Sys2Proof.Machine

theorem Runs.and {σ α : Type} {R : σ → σ → Prop} {m : Eng σ α} {Q Q' : α → Prop} (h : Runs R m Q) (h' : Runs R m Q') :
    Runs R m fun a => Q a ∧ Q' a := by
  intro s
  have hs := h s
  have hs' := h' s
  cases hm : m s <;> rw [hm] at hs hs'
  · exact ⟨hs.1, hs.2, hs'.2⟩
  · exact hs

/-- The flat form's `a` positions share `q` each, and the first `r` one more. -/
theorem sum_flat {a r : Nat} (q : Nat) (hr : r ≤ a) (n : Nat) :
    (tabulate n fun i => if i < a then q + (if i < r then 1 else 0) else 0).sum = min n a * q + min n r := by
  induction n with
  | zero => simp [tabulate]
  | succ n ih =>
    rw [tabulate] at ih ⊢
    rw [List.range_succ, List.map_append, List.sum_append, ih, List.map_singleton, List.sum_singleton]
    rcases Nat.lt_or_ge n a with ha | ha
    · have hmul : min (n + 1) a * q = min n a * q + q := by
        rw [Nat.min_eq_left ha, Nat.min_eq_left ha.le, Nat.succ_mul]
      rw [if_pos ha, hmul]
      split <;> omega
    · rw [if_neg ha.not_gt, Nat.min_eq_right ha, Nat.min_eq_right (ha.trans (Nat.le_succ n))]
      omega

/-! ### The simple and the flat form -/

theorem readSimpleAns_sum (L : Nat) : Runs Advances (readSimpleAns L) fun D => D.sum = 4096 := by
  refine Runs.bind kept_advances readBool_runs fun two _ => ?_
  refine Runs.bind kept_advances readU8_runs fun s0 _ => ?_
  refine Runs.bind kept_advances (Q := fun _ => True) ?_ fun s1 _ => ?_
  · split
    · exact readU8_runs
    · exact Runs.pure kept_advances trivial
  refine Runs.bind kept_advances (Runs.checkBitstream kept_advances) fun _ hlt => ?_
  obtain ⟨hs0, hs1⟩ := hlt
  split
  next htwo =>
    refine Runs.bind kept_advances (Runs.checkBitstream kept_advances) fun _ hne => ?_
    refine Runs.bind kept_advances (readBits_runs 12) fun f hf => Runs.pure kept_advances ?_
    rw [sum_set_of_zero (by simpa using hs1 htwo) (by rw [getD_set_ne hne, getD_zeros]), sum_zeros_set hs0]
    exact Nat.add_sub_of_le hf.le
  next => exact Runs.pure kept_advances (sum_zeros_set hs0 _)

theorem readFlatAns_sum (L : Nat) : Runs Advances (readFlatAns L) fun D => D.sum = 4096 := by
  refine Runs.bind kept_advances readU8_runs fun v _ => ?_
  refine Runs.bind kept_advances (Runs.checkBitstream kept_advances) fun _ ha => Runs.pure kept_advances ?_
  have hr : Config.ansTotal % (v + 1) ≤ v + 1 := (Nat.mod_lt _ (Nat.succ_pos v)).le
  rw [sum_flat _ hr, Nat.min_eq_right ha, Nat.min_eq_right (hr.trans ha)]
  exact Nat.div_add_mod _ _

/-! ### The general form: the omitted position is in no run, so its frequency is 0 until the last step -/

/-- Position `p` is in none of the runs of copies that `same` holds: each starts after it or has ended there. -/
def OutsideRuns (same : List Nat) (p : Nat) : Prop :=
  ∀ j, same.getD j 0 ≠ 0 → p < j ∨ j + (same.getD j 0 - 1) ≤ p

/-- With the log counts before position `i` read: the runs so far end before `i`, and the omitted position, which is one
of those read, is outside them. -/
structure LogScan.Reached (st : LogScan) (a i : Nat) : Prop where
  runs_end : ∀ j, st.same.getD j 0 ≠ 0 → j + (st.same.getD j 0 - 1) ≤ i
  omitted : ∀ om, st.omitted = some om → om.2 < a ∧ om.2 < i ∧ OutsideRuns st.same om.2

theorem LogScan.Reached.run {st : LogScan} {a i : Nat} (h : st.Reached a i) (r c : Nat) :
    ({ st with logc := st.logc.set i c, same := st.same.set i (r + 5) } : LogScan).Reached a (i + r + 4) where
  runs_end j hj := by
    show j + ((st.same.set i (r + 5)).getD j 0 - 1) ≤ i + r + 4
    by_cases hji : i = j
    · subst hji
      have := getD_set_self_le st.same i (r + 5)
      omega
    · rw [getD_set_ne hji] at hj ⊢
      have := h.runs_end j hj
      omega
  omitted om hom := by
    obtain ⟨ha, hi, hout⟩ := h.omitted om hom
    refine ⟨ha, by omega, fun j hj => ?_⟩
    by_cases hji : i = j
    · exact .inl (hji ▸ hi)
    · rw [getD_set_ne hji] at hj ⊢
      exact hout j hj

theorem LogScan.Reached.literal {st : LogScan} {a i : Nat} (h : st.Reached a i) (ha : i < a) (c : Nat) :
    ({ st with
        logc := st.logc.set i c
        omitted := if beatsOmitted c st.omitted then some (c, i) else st.omitted } : LogScan).Reached a (i + 1) where
  runs_end j hj := (h.runs_end j hj).trans (Nat.le_succ i)
  omitted om hom := by
    simp only at hom
    split at hom
    · cases hom
      exact ⟨ha, Nat.lt_succ_self i, fun j hj => .inr (h.runs_end j hj)⟩
    · obtain ⟨hom, hi, hout⟩ := h.omitted om hom
      exact ⟨hom, hi.trans (Nat.lt_succ_self i), hout⟩

theorem scanLogCounts_reached (a : Nat) : ∀ (rounds i : Nat) (st : LogScan), st.Reached a i →
    Runs Advances (scanLogCounts rounds a i st) fun st' => ∃ i', st'.Reached a i'
  | 0, i, _, h => Runs.pure kept_advances ⟨i, h⟩
  | rounds + 1, i, st, h => by
    unfold scanLogCounts
    split
    next => exact Runs.pure kept_advances ⟨i, h⟩
    next ha =>
      refine Runs.bind kept_advances readLogCount_runs fun c _ => ?_
      split
      · exact Runs.bind kept_advances readU8_runs fun r _ => scanLogCounts_reached a rounds _ _ (h.run r c)
      · exact scanLogCounts_reached a rounds _ _ (h.literal (Nat.not_le.1 ha) c)

/-- With the positions before `i` filled: position `p` is 0 if it is one of them, else the run under way ends at it or
before. -/
structure FreqFill.Reached (st : FreqFill) (p i : Nat) : Prop where
  length : st.rev.length = i
  zero : st.rev.reverse.getD p 0 = 0
  run_ends : p < i ∨ i + st.numSame ≤ p

/-- The run that starts at position `i`, if one does. -/
def FreqFill.startRun (st : FreqFill) (same : List Nat) (i : Nat) : FreqFill :=
  if same.getD i 0 ≠ 0 then { st with numSame := same.getD i 0 - 1, prev := st.rev.headD 0 } else st

theorem FreqFill.Reached.startRun {st : FreqFill} {same : List Nat} {p i : Nat} (h : st.Reached p i)
    (hp : OutsideRuns same p) : (st.startRun same i).Reached p i := by
  unfold FreqFill.startRun
  split
  next hrun => exact ⟨h.length, h.zero, hp i hrun⟩
  next => exact h

/-- One more frequency `f`, which is 0 at position `p`, with `n` positions of the run left. -/
theorem FreqFill.Reached.push {st : FreqFill} {p i f n : Nat} (h : st.Reached p i) (hf : p = i → f = 0)
    (hn : p < i + 1 ∨ i + 1 + n ≤ p) : ({ st with rev := f :: st.rev, numSame := n } : FreqFill).Reached p (i + 1) where
  length := congrArg (· + 1) h.length
  zero := by
    have hlen : st.rev.reverse.length = i := List.length_reverse.trans h.length
    show (f :: st.rev).reverse.getD p 0 = 0
    rw [List.reverse_cons]
    rcases Nat.lt_trichotomy p i with hlt | heq | hgt
    · rw [List.getD_append _ _ _ _ (by omega)]
      exact h.zero
    · rw [List.getD_append_right _ _ _ _ (by omega), hlen, heq, Nat.sub_self]
      exact hf heq
    · exact List.getD_eq_default _ _ (by rw [List.length_append, hlen]; exact hgt)
  run_ends := hn

theorem readFreq_omitted (shift c : Nat) (o : Bool) : Runs Advances (readFreq shift c o) fun f => o = true → f = 0 := by
  cases o with
  | true => exact Runs.pure kept_advances fun _ => rfl
  | false => exact (readFreq_runs shift c false).mono fun _ _ h => nomatch h

theorem fillFreqs_succ (shift : Nat) (scan : LogScan) (p rounds i : Nat) (st : FreqFill) :
    fillFreqs shift scan p (rounds + 1) i st =
      if 0 < (st.startRun scan.same i).numSame then
        fillFreqs shift scan p rounds (i + 1)
          { st.startRun scan.same i with
            rev := (st.startRun scan.same i).prev :: (st.startRun scan.same i).rev
            numSame := (st.startRun scan.same i).numSame - 1 }
      else readFreq shift (scan.logc.getD i 0) (i == p) >>= fun f =>
        fillFreqs shift scan p rounds (i + 1)
          { st.startRun scan.same i with rev := f :: (st.startRun scan.same i).rev } := rfl

theorem fillFreqs_omitted (shift : Nat) {scan : LogScan} {p : Nat} (hp : OutsideRuns scan.same p) :
    ∀ (rounds i : Nat) (st : FreqFill), st.Reached p i →
      Runs Advances (fillFreqs shift scan p rounds i st) fun fs => fs.getD p 0 = 0
  | 0, _, _, h => Runs.pure kept_advances h.zero
  | rounds + 1, i, st, h => by
    have hst := h.startRun hp
    have hends := hst.run_ends
    rw [fillFreqs_succ]
    split
    next => exact fillFreqs_omitted shift hp rounds _ _ (hst.push (by omega) (by omega))
    next =>
      refine Runs.bind kept_advances (readFreq_omitted _ _ _) fun f hf => ?_
      exact fillFreqs_omitted shift hp rounds _ _ (hst.push (fun e => hf (by simp [e])) (by omega))

theorem readGeneralAns_sum (L : Nat) : Runs Advances (readGeneralAns L) fun D => D.sum = 4096 := by
  refine Runs.bind kept_advances (readUnary_runs 3) fun n _ => ?_
  refine Runs.bind kept_advances (readBits_runs _) fun v _ => ?_
  refine Runs.bind kept_advances (Runs.checkBitstream kept_advances) fun _ _ => ?_
  refine Runs.bind kept_advances readU8_runs fun u _ => ?_
  refine Runs.bind kept_advances (Runs.checkBitstream kept_advances) fun _ _ => ?_
  refine Runs.bind kept_advances (scanLogCounts_reached (u + 3) (u + 3) 0 _ ?_) fun scan hscan => ?_
  · exact ⟨fun j hj => absurd (getD_zeros _ j) hj, fun _ h => nomatch h⟩
  refine Runs.bind kept_advances (Runs.orRaise kept_advances) fun om hom => ?_
  obtain ⟨i, hreached⟩ := hscan
  obtain ⟨hlt, -, hout⟩ := hreached.omitted om hom
  refine Runs.bind kept_advances (Runs.checkBitstream kept_advances) fun _ _ => ?_
  refine Runs.bind kept_advances ((fillFreqs_runs _ scan om.2 (u + 3) 0 _).and
    (fillFreqs_omitted _ hout (u + 3) 0 _ ⟨rfl, rfl, .inr (Nat.zero_le _)⟩)) fun fs hfs => ?_
  obtain ⟨hlen, hzero⟩ := hfs
  refine Runs.bind kept_advances (Runs.checkBitstream kept_advances) fun _ hsum => Runs.pure kept_advances ?_
  rw [List.sum_append, List.sum_replicate_nat, sum_set_of_zero (by simpa [hlen] using hlt) hzero]
  exact Nat.add_sub_of_le hsum.le

/-! ### Every form -/

theorem readAnsFreqs_sum (L : Nat) : Runs Advances (readAnsFreqs L) fun D => D.sum = 4096 := by
  refine Runs.bind kept_advances readBool_runs fun simple _ => ?_
  split
  · exact readSimpleAns_sum L
  · refine Runs.bind kept_advances readBool_runs fun flat _ => ?_
    split
    · exact readFlatAns_sum L
    · exact readGeneralAns_sum L

/-- Settles O38, form by form; in the general form the omitted frequency is 0 until it takes what the others leave. -/
theorem distributionsSumTo4096 : Obligations.DistributionsSumTo4096 := fun L _ _ _ _ _ h =>
  ⟨((readAnsFreqs_runs L).ok h).2, ((readAnsFreqs_sum L).ok h).2⟩

end Sys2Proof.Machine

/-! ## Alias tables are exact (`41_symbol_distribution.md` R180 to R182) -/

namespace Sys2Proof.Machine

/-! ### Counting -/

/-- A function that takes each of `n` values on the first `n` numbers takes no other there, and each only once. -/
theorem existsUnique_of_card_eq {β : Type} [DecidableEq β] {f : Nat → β} {P : Finset β} {n : Nat} (hcard : P.card = n)
    (hsurj : ∀ p ∈ P, ∃ x < n, f x = p) : (∀ x < n, f x ∈ P) ∧ ∀ p ∈ P, ∃! x, x < n ∧ f x = p := by
  have hsub : P ⊆ (Finset.range n).image f := fun p hp => by simpa using hsurj p hp
  have himage : P = (Finset.range n).image f :=
    Finset.eq_of_subset_of_card_le hsub (by simpa [hcard] using Finset.card_image_le (s := Finset.range n) (f := f))
  have hinj : Set.InjOn f (Finset.range n) := Finset.card_image_iff.1 (by rw [← himage, hcard, Finset.card_range])
  refine ⟨fun x hx => himage ▸ Finset.mem_image_of_mem f (Finset.mem_range.2 hx), fun p hp => ?_⟩
  obtain ⟨x, hx, rfl⟩ := hsurj p hp
  exact ⟨x, ⟨hx, rfl⟩, fun y hy => hinj (by simpa using hy.1) (by simpa using hx) hy.2⟩

/-! ### A lookup, slot by slot -/

/-- What slot `i` answers at position `pos` of its bucket (R182). -/
def AliasSlot.answer (e : AliasSlot) (i pos : Nat) : Nat × Nat :=
  if e.cutoff ≤ pos then (e.symbol, e.offset + pos) else (i, pos)

theorem aliasLookup_tabulate {L i pos : Nat} (g : Nat → AliasSlot) (hi : i < 2 ^ L) (hpos : pos < 2 ^ (12 - L)) :
    aliasLookup L (tabulate (2 ^ L) g) (i * 2 ^ (12 - L) + pos) = some ((g i).answer i pos) := by
  simp only [aliasLookup, Nat.shiftRight_eq_div_pow, twoDigits_div hpos, twoDigits_mod hpos]
  simp [tabulate, hi, AliasSlot.answer]

/-- A slot and a position of its bucket make a 12-bit index. -/
theorem aliasIndex_lt {L i pos : Nat} (hL : L ≤ 12) (hi : i < 2 ^ L) (hpos : pos < 2 ^ (12 - L)) :
    i * 2 ^ (12 - L) + pos < 4096 := by
  have hmul : (i + 1) * 2 ^ (12 - L) ≤ 2 ^ L * 2 ^ (12 - L) := Nat.mul_le_mul_right _ hi
  rw [← Nat.pow_add, show L + (12 - L) = 12 by omega, Nat.add_mul] at hmul
  omega

/-- What a slot answers at a position of its bucket is looked up by a 12-bit index. -/
theorem exists_lookup_of_answer {L i pos : Nat} {g : Nat → AliasSlot} {p : Nat × Nat} (hL : L ≤ 12) (hi : i < 2 ^ L)
    (hpos : pos < 2 ^ (12 - L)) (h : (g i).answer i pos = p) :
    ∃ x < 4096, aliasLookup L (tabulate (2 ^ L) g) x = some p :=
  ⟨_, aliasIndex_lt hL hi hpos, by rw [aliasLookup_tabulate g hi hpos, h]⟩

/-! ### The loop that fills the table -/

/-- `cutoffs[i]`. -/
def AliasWork.cutoff (w : AliasWork) (i : Nat) : Nat := w.cutoffs.getD i 0

/-- What the overfull entry `o` keeps when the underfull entry `u` is filled up from it. -/
def AliasWork.left (w : AliasWork) (B o u : Nat) : Nat := w.cutoff o - (B - w.cutoff u)

/-- One round of the loop: the overfull entry `o` fills up the underfull entry `u`; `os` and `us` are the rest of the
two stacks. -/
def AliasWork.donate (w : AliasWork) (B o : Nat) (os : List Nat) (u : Nat) (us : List Nat) : AliasWork where
  cutoffs := w.cutoffs.set o (w.left B o u)
  symbols := w.symbols.set u o
  offsets := w.offsets.set u (w.left B o u)
  overfull := if B < w.left B o u then o :: os else os
  underfull := if w.left B o u < B then o :: us else us

section
variable {w : AliasWork} {D os us : List Nat} {T B o u i rounds L : Nat}

theorem aliasFill_donate (ho : w.overfull = o :: os) (hu : w.underfull = u :: us) :
    aliasFill B (rounds + 1) w = aliasFill B rounds (w.donate B o os u us) := by
  rw [aliasFill, ho, hu]
  rfl

theorem aliasFill_of_overfull_nil (ho : w.overfull = []) : aliasFill B rounds w = w := by
  cases rounds with
  | zero => rfl
  | succ n => rw [aliasFill, ho]

/-- The two stacks list the entries above and below the bucket size, and what the ones have too much is what the others
lack. -/
structure AliasWork.Balanced (w : AliasWork) (T B : Nat) : Prop where
  cutoffs_length : w.cutoffs.length = T
  symbols_length : w.symbols.length = T
  offsets_length : w.offsets.length = T
  nodup : (w.overfull ++ w.underfull).Nodup
  stacked_lt : ∀ i ∈ w.overfull ++ w.underfull, i < T
  over_gt : ∀ i ∈ w.overfull, B < w.cutoff i
  under_lt : ∀ i ∈ w.underfull, w.cutoff i < B
  rest_le : ∀ i, i ∉ w.overfull → w.cutoff i ≤ B
  balance : (w.overfull.map fun i => w.cutoff i - B).sum = (w.underfull.map fun i => B - w.cutoff i).sum

/-- The two stacks hold their entries once, and not the same ones. -/
theorem AliasWork.Balanced.apart (h : w.Balanced T B) (ho : w.overfull = o :: os) (hu : w.underfull = u :: us) :
    (os ++ us).Nodup ∧ o ∉ os ++ us ∧ u ∉ os ++ us ∧ o ≠ u := by
  have hn := h.nodup
  rw [ho, hu, List.cons_append, List.nodup_cons, List.nodup_middle, List.nodup_cons] at hn
  obtain ⟨hno, hnu, hn⟩ := hn
  simp only [List.mem_append, List.mem_cons, not_or] at hno hnu ⊢
  tauto

theorem AliasWork.Balanced.over_top (h : w.Balanced T B) (ho : w.overfull = o :: os) : B < w.cutoff o :=
  h.over_gt o (by simp [ho])

theorem AliasWork.Balanced.under_top (h : w.Balanced T B) (hu : w.underfull = u :: us) : w.cutoff u < B :=
  h.under_lt u (by simp [hu])

theorem AliasWork.Balanced.over_top_lt (h : w.Balanced T B) (ho : w.overfull = o :: os) : o < T :=
  h.stacked_lt o (by simp [ho])

theorem AliasWork.Balanced.under_top_lt (h : w.Balanced T B) (hu : w.underfull = u :: us) : u < T :=
  h.stacked_lt u (by simp [hu])

theorem AliasWork.Balanced.donate_cutoff_self (h : w.Balanced T B) (ho : w.overfull = o :: os) :
    (w.donate B o os u us).cutoff o = w.left B o u :=
  getD_set_self (by rw [h.cutoffs_length]; exact h.over_top_lt ho) _

theorem AliasWork.donate_cutoff_ne (h : i ≠ o) : (w.donate B o os u us).cutoff i = w.cutoff i := getD_set_ne h.symm _

theorem AliasWork.Balanced.donate_cutoff_rest (h : w.Balanced T B) (ho : w.overfull = o :: os)
    (hu : w.underfull = u :: us) (hi : i ∈ os ++ us) : (w.donate B o os u us).cutoff i = w.cutoff i := by
  obtain ⟨-, hno, -, -⟩ := h.apart ho hu
  exact donate_cutoff_ne fun e => hno (e ▸ hi)

theorem AliasWork.Balanced.underfull_ne_nil (h : w.Balanced T B) (ho : w.overfull = o :: os) : w.underfull ≠ [] := by
  intro hu
  have hb := h.balance
  have := h.over_top ho
  simp only [ho, hu, List.map_cons, List.sum_cons, List.map_nil, List.sum_nil] at hb
  omega

/-- The overfull entry goes to the stack its rest belongs to. -/
theorem AliasWork.donate_stacks (w : AliasWork) (B o : Nat) (os : List Nat) (u : Nat) (us : List Nat) :
    (w.left B o u < B ∧ (w.donate B o os u us).overfull = os ∧ (w.donate B o os u us).underfull = o :: us) ∨
    (w.left B o u = B ∧ (w.donate B o os u us).overfull = os ∧ (w.donate B o os u us).underfull = us) ∨
    (B < w.left B o u ∧ (w.donate B o os u us).overfull = o :: os ∧ (w.donate B o os u us).underfull = us) := by
  rcases Nat.lt_trichotomy (w.left B o u) B with h | h | h
  · exact .inl ⟨h, if_neg h.not_gt, if_pos h⟩
  · exact .inr (.inl ⟨h, if_neg h.not_gt, if_neg h.not_lt⟩)
  · exact .inr (.inr ⟨h, if_pos h, if_neg h.not_gt⟩)

theorem AliasWork.mem_donate_overfull :
    i ∈ (w.donate B o os u us).overfull ↔ (i = o ∧ B < w.left B o u) ∨ i ∈ os := by
  obtain ⟨h, e, -⟩ | ⟨h, e, -⟩ | ⟨h, e, -⟩ := w.donate_stacks B o os u us
  · simp [e, h.not_gt]
  · simp [e, h]
  · simp [e, h]

theorem AliasWork.mem_donate_underfull :
    i ∈ (w.donate B o os u us).underfull ↔ (i = o ∧ w.left B o u < B) ∨ i ∈ us := by
  obtain ⟨h, -, e⟩ | ⟨h, -, e⟩ | ⟨h, -, e⟩ := w.donate_stacks B o os u us
  · simp [e, h]
  · simp [e, h]
  · simp [e, h.not_gt]

theorem AliasWork.mem_of_mem_donate
    (hi : i ∈ (w.donate B o os u us).overfull ++ (w.donate B o os u us).underfull) : i = o ∨ i ∈ os ++ us := by
  rw [List.mem_append, mem_donate_overfull, mem_donate_underfull] at hi
  rw [List.mem_append]
  tauto

theorem AliasWork.donate_nodup (hn : (os ++ us).Nodup) (ho : o ∉ os ++ us) :
    ((w.donate B o os u us).overfull ++ (w.donate B o os u us).underfull).Nodup := by
  obtain ⟨-, e, e'⟩ | ⟨-, e, e'⟩ | ⟨-, e, e'⟩ := w.donate_stacks B o os u us <;> rw [e, e']
  · exact List.nodup_middle.2 (List.nodup_cons.2 ⟨ho, hn⟩)
  · exact hn
  · exact List.nodup_cons.2 ⟨ho, hn⟩

/-- What is too much and what is lacking fall alike: by what `u` gets, and where `o` becomes underfull by what it had
too much. -/
theorem AliasWork.Balanced.donate_balance (h : w.Balanced T B) (ho : w.overfull = o :: os)
    (hu : w.underfull = u :: us) :
    ((w.donate B o os u us).overfull.map fun i => (w.donate B o os u us).cutoff i - B).sum =
      ((w.donate B o os u us).underfull.map fun i => B - (w.donate B o os u us).cutoff i).sum := by
  have hover := h.over_top ho
  have hunder := h.under_top hu
  have hleft : w.left B o u = w.cutoff o - (B - w.cutoff u) := rfl
  have hos : os.map (fun i => (w.donate B o os u us).cutoff i - B) = os.map fun i => w.cutoff i - B :=
    List.map_congr_left fun i hi => by rw [h.donate_cutoff_rest ho hu (by simp [hi])]
  have hus : us.map (fun i => B - (w.donate B o os u us).cutoff i) = us.map fun i => B - w.cutoff i :=
    List.map_congr_left fun i hi => by rw [h.donate_cutoff_rest ho hu (by simp [hi])]
  have hb := h.balance
  simp only [ho, hu, List.map_cons, List.sum_cons] at hb
  obtain ⟨hlt, e, e'⟩ | ⟨heq, e, e'⟩ | ⟨hgt, e, e'⟩ := w.donate_stacks B o os u us <;> rw [e, e']
  · rw [List.map_cons, List.sum_cons, hos, hus, h.donate_cutoff_self ho]
    omega
  · rw [hos, hus]
    omega
  · rw [List.map_cons, List.sum_cons, hos, hus, h.donate_cutoff_self ho]
    omega

/-- A round keeps the stacks and their balance. -/
theorem AliasWork.Balanced.donate (h : w.Balanced T B) (ho : w.overfull = o :: os) (hu : w.underfull = u :: us) :
    (w.donate B o os u us).Balanced T B where
  cutoffs_length := (List.length_set ..).trans h.cutoffs_length
  symbols_length := (List.length_set ..).trans h.symbols_length
  offsets_length := (List.length_set ..).trans h.offsets_length
  nodup := by
    obtain ⟨hn, hno, -, -⟩ := h.apart ho hu
    exact donate_nodup hn hno
  stacked_lt i hi := by
    rcases mem_of_mem_donate hi with rfl | hi
    · exact h.over_top_lt ho
    · refine h.stacked_lt i ?_
      rw [ho, hu]
      exact ((List.sublist_cons_self o os).append (List.sublist_cons_self u us)).subset hi
  over_gt i hi := by
    rcases mem_donate_overfull.1 hi with ⟨rfl, hgt⟩ | hi
    · rwa [h.donate_cutoff_self ho]
    · rw [h.donate_cutoff_rest ho hu (by simp [hi])]
      exact h.over_gt i (by simp [ho, hi])
  under_lt i hi := by
    rcases mem_donate_underfull.1 hi with ⟨rfl, hlt⟩ | hi
    · rwa [h.donate_cutoff_self ho]
    · rw [h.donate_cutoff_rest ho hu (by simp [hi])]
      exact h.under_lt i (by simp [hu, hi])
  rest_le i hi := by
    rw [mem_donate_overfull, not_or, not_and, Nat.not_lt] at hi
    obtain ⟨htop, hos⟩ := hi
    by_cases hio : i = o
    · rw [hio, h.donate_cutoff_self ho]
      exact htop hio
    · rw [donate_cutoff_ne hio]
      exact h.rest_le i (by simp [ho, hio, hos])
  balance := h.donate_balance ho hu

/-- Every offset of a symbol that its entry has given away is answered by a slot that is on neither stack. -/
def AliasWork.Donated (w : AliasWork) (D : List Nat) (T B : Nat) : Prop :=
  ∀ s off, w.cutoff s ≤ off → off < D.getD s 0 → ∃ i pos, i < T ∧ pos < B ∧ i ∉ w.overfull ++ w.underfull ∧
    (aliasSlotOf B w i).answer i pos = (s, off)

/-- A slot other than the two of a round is as before. -/
theorem aliasSlotOf_donate_ne (ho : i ≠ o) (hu : i ≠ u) :
    aliasSlotOf B (w.donate B o os u us) i = aliasSlotOf B w i := by
  simp only [aliasSlotOf, AliasWork.donate, getD_set_ne ho.symm, getD_set_ne hu.symm]

theorem aliasSlotOf_of_cutoff_lt (h : w.cutoff i < B) :
    aliasSlotOf B w i = ⟨w.cutoff i, w.symbols.getD i 0, w.offsets.getD i 0 - w.cutoff i⟩ := if_neg h.ne

theorem aliasSlotOf_of_cutoff_eq (h : w.cutoff i = B) : aliasSlotOf B w i = ⟨0, i, 0⟩ := if_pos h

/-- Below its cutoff a slot answers its own symbol, whether or not another one filled it up. -/
theorem aliasSlotOf_answer_own {pos : Nat} (hle : w.cutoff i ≤ B) (hpos : pos < w.cutoff i) :
    (aliasSlotOf B w i).answer i pos = (i, pos) := by
  rcases hle.lt_or_eq with hlt | heq
  · rw [aliasSlotOf_of_cutoff_lt hlt, AliasSlot.answer, if_neg hpos.not_ge]
  · rw [aliasSlotOf_of_cutoff_eq heq, AliasSlot.answer, if_pos (Nat.zero_le _), Nat.zero_add]

/-- After a round the entry `u` that was filled up answers the offsets of `o` that `o` gave away. -/
theorem AliasWork.Balanced.donate_answer (h : w.Balanced T B) (ho : w.overfull = o :: os) (hu : w.underfull = u :: us)
    {off : Nat} (hlo : w.left B o u ≤ off) :
    (aliasSlotOf B (w.donate B o os u us) u).answer u (off - w.left B o u + w.cutoff u) = (o, off) := by
  obtain ⟨-, -, -, hou⟩ := h.apart ho hu
  have hover := h.over_top ho
  have hunder := h.under_top hu
  have hlt := h.under_top_lt hu
  have hleft : w.left B o u = w.cutoff o - (B - w.cutoff u) := rfl
  have hcut : (w.donate B o os u us).cutoff u = w.cutoff u := donate_cutoff_ne hou.symm
  have hsym : (w.donate B o os u us).symbols.getD u 0 = o := getD_set_self (by rw [h.symbols_length]; exact hlt) _
  have hoff : (w.donate B o os u us).offsets.getD u 0 = w.left B o u :=
    getD_set_self (by rw [h.offsets_length]; exact hlt) _
  rw [aliasSlotOf_of_cutoff_lt (by rwa [hcut]), hcut, hsym, hoff, AliasSlot.answer, if_pos (Nat.le_add_left _ _)]
  refine Prod.ext rfl ?_
  show w.left B o u - w.cutoff u + (off - w.left B o u + w.cutoff u) = off
  omega

/-- A round keeps what is given away: what was before is still answered, and the rest by the entry filled up. -/
theorem AliasWork.Donated.donate (hd : w.Donated D T B) (h : w.Balanced T B) (ho : w.overfull = o :: os)
    (hu : w.underfull = u :: us) : (w.donate B o os u us).Donated D T B := by
  obtain ⟨-, -, hnu, hou⟩ := h.apart ho hu
  have hunder := h.under_top hu
  intro s off hcut hoff
  by_cases hs : w.cutoff s ≤ off
  · obtain ⟨i, pos, hi, hpos, hstack, hans⟩ := hd s off hs hoff
    simp only [ho, hu, List.mem_append, List.mem_cons, not_or] at hstack
    obtain ⟨⟨hio, hios⟩, hiu, hius⟩ := hstack
    refine ⟨i, pos, hi, hpos, fun hmem => ?_, by rw [aliasSlotOf_donate_ne hio hiu, hans]⟩
    rcases mem_of_mem_donate hmem with rfl | hmem
    · exact hio rfl
    · exact (List.mem_append.1 hmem).elim hios hius
  · have hso : s = o := by
      by_contra hne
      rw [donate_cutoff_ne hne] at hcut
      exact hs hcut
    subst hso
    rw [h.donate_cutoff_self ho] at hcut
    refine ⟨u, off - w.left B s u + w.cutoff u, h.under_top_lt hu, ?_, fun hmem => ?_, h.donate_answer ho hu hcut⟩
    · have hleft : w.left B s u = w.cutoff s - (B - w.cutoff u) := rfl
      omega
    · rcases mem_of_mem_donate hmem with rfl | hmem
      · exact hou rfl
      · exact hnu hmem

/-- Each round takes an entry off the stacks, so as many rounds as they list entries leave no overfull entry. -/
theorem aliasFill_settles (hb : w.Balanced T B) (hd : w.Donated D T B)
    (hr : w.overfull.length + w.underfull.length ≤ rounds) :
    (aliasFill B rounds w).Donated D T B ∧ ∀ i, (aliasFill B rounds w).cutoff i ≤ B := by
  induction rounds generalizing w with
  | zero =>
    have ho : w.overfull = [] := List.length_eq_zero_iff.1 (by omega)
    exact ⟨hd, fun i => hb.rest_le i (by simp [ho])⟩
  | succ rounds ih =>
    cases ho : w.overfull with
    | nil =>
      rw [aliasFill_of_overfull_nil ho]
      exact ⟨hd, fun i => hb.rest_le i (by simp [ho])⟩
    | cons o os =>
      obtain ⟨u, us, hu⟩ := List.exists_cons_of_ne_nil (hb.underfull_ne_nil ho)
      rw [aliasFill_donate ho hu]
      refine ih (hb.donate ho hu) (hd.donate hb ho hu) ?_
      rw [ho, hu, List.length_cons, List.length_cons] at hr
      obtain ⟨-, e, e'⟩ | ⟨-, e, e'⟩ | ⟨-, e, e'⟩ := w.donate_stacks B o os u us <;> rw [e, e']
      · rw [List.length_cons]; omega
      · omega
      · rw [List.length_cons]; omega

/-! ### The start of the loop -/

/-- Over the positions `l`, the sum of `f` and what is lacking make up a bucket each and what is too much. -/
theorem sum_add_deficit (B : Nat) (f : Nat → Nat) (l : List Nat) :
    (l.map f).sum + ((l.filter fun i => f i < B).map fun i => B - f i).sum =
      l.length * B + ((l.filter fun i => B < f i).map fun i => f i - B).sum := by
  induction l with
  | nil => simp
  | cons i l ih =>
    rw [List.length_cons, Nat.add_mul, List.map_cons, List.sum_cons, List.filter_cons, List.filter_cons]
    rcases Nat.lt_trichotomy (f i) B with h | h | h
    · simp [h, h.not_gt]; omega
    · simp [h]; omega
    · simp [h, h.not_gt]; omega

theorem mem_aliasStart_overfull :
    i ∈ (aliasStart D L).overfull ↔ i < 2 ^ L ∧ 2 ^ (12 - L) < D.getD i 0 := by
  simp only [aliasStart, List.mem_reverse, List.mem_filter, List.mem_range, decide_eq_true_eq]

theorem mem_aliasStart_underfull :
    i ∈ (aliasStart D L).underfull ↔ i < 2 ^ L ∧ D.getD i 0 < 2 ^ (12 - L) := by
  simp only [aliasStart, List.mem_reverse, List.mem_filter, List.mem_range, decide_eq_true_eq]

theorem aliasStart_nodup : ((aliasStart D L).overfull ++ (aliasStart D L).underfull).Nodup := by
  refine List.nodup_append'.2 ⟨List.nodup_reverse.2 (List.nodup_range.filter _),
    List.nodup_reverse.2 (List.nodup_range.filter _), fun i ho hu => ?_⟩
  exact (mem_aliasStart_overfull.1 ho).2.not_gt (mem_aliasStart_underfull.1 hu).2

theorem aliasStart_balanced (hlen : D.length = 2 ^ L) (hsum : D.sum = 2 ^ L * 2 ^ (12 - L)) :
    (aliasStart D L).Balanced (2 ^ L) (2 ^ (12 - L)) where
  cutoffs_length := hlen
  symbols_length := List.length_replicate
  offsets_length := List.length_replicate
  nodup := aliasStart_nodup
  stacked_lt i hi := by
    rw [List.mem_append, mem_aliasStart_overfull, mem_aliasStart_underfull] at hi
    exact hi.elim And.left And.left
  over_gt i hi := (mem_aliasStart_overfull.1 hi).2
  under_lt i hi := (mem_aliasStart_underfull.1 hi).2
  rest_le i hi := by
    rw [mem_aliasStart_overfull, not_and, Nat.not_lt] at hi
    by_cases hlt : i < 2 ^ L
    · exact hi hlt
    · exact (List.getD_eq_default _ _ (by rw [← hlen] at hlt; exact Nat.not_lt.1 hlt)).trans_le (Nat.zero_le _)
  balance := by
    have h := sum_add_deficit (2 ^ (12 - L)) (D.getD · 0) (List.range (2 ^ L))
    rw [List.length_range, ← hlen, map_getD_range, hlen, hsum] at h
    simp only [aliasStart, AliasWork.cutoff, List.map_reverse, List.sum_reverse]
    omega

theorem aliasStart_donated : (aliasStart D L).Donated D T B := fun _ _ hlo hhi => absurd hhi hlo.not_gt

theorem aliasStart_stacks_length : (aliasStart D L).overfull.length + (aliasStart D L).underfull.length ≤ 2 ^ L := by
  have hsub : (aliasStart D L).overfull ++ (aliasStart D L).underfull ⊆ List.range (2 ^ L) := fun i hi => by
    rw [List.mem_append, mem_aliasStart_overfull, mem_aliasStart_underfull] at hi
    exact List.mem_range.2 (hi.elim And.left And.left)
  simpa using (aliasStart_nodup.subperm hsub).length_le

/-! ### The table -/

/-- Every offset below a symbol's frequency is looked up by some index. -/
theorem exists_aliasLookup (hL : L ≤ 12) (hlen : D.length = 2 ^ L) (hsum : D.sum = 4096) {s off : Nat} (hs : s < 2 ^ L)
    (hoff : off < D.getD s 0) : ∃ x < 4096, aliasLookup L (buildAlias D L) x = some (s, off) := by
  have htotal : 2 ^ L * 2 ^ (12 - L) = 4096 := by rw [← Nat.pow_add, show L + (12 - L) = 12 by omega]
  unfold buildAlias
  split
  next single hsingle =>
    obtain ⟨hlt, hval, -⟩ := List.findIdx?_eq_some_iff_getElem.1 hsingle
    have hwhole : D.getD single 0 = D.sum := by
      rw [List.getD_eq_getElem _ _ hlt, hsum]
      simpa [Config.ansTotal] using hval
    have heq : single = s := by
      by_contra hne
      rw [getD_eq_zero_of_getD_eq_sum hwhole hlt hne] at hoff
      exact Nat.not_lt_zero _ hoff
    subst heq
    refine exists_lookup_of_answer (i := off / 2 ^ (12 - L)) (pos := off % 2 ^ (12 - L)) hL
      (Nat.div_lt_of_lt_mul ?_) (Nat.mod_lt _ (Nat.two_pow_pos _)) ?_
    · rw [Nat.mul_comm, htotal, ← hsum, ← hwhole]
      exact hoff
    · rw [AliasSlot.answer, if_pos (Nat.zero_le _)]
      exact Prod.ext rfl (Nat.div_add_mod' _ _)
  next _ =>
    obtain ⟨hdonated, hle⟩ := aliasFill_settles (aliasStart_balanced hlen (hsum.trans htotal.symm))
      (aliasStart_donated (D := D)) aliasStart_stacks_length
    rcases Nat.lt_or_ge off ((aliasFill (2 ^ (12 - L)) (2 ^ L) (aliasStart D L)).cutoff s) with hown | hgiven
    · exact exists_lookup_of_answer hL hs (hown.trans_le (hle s)) (aliasSlotOf_answer_own (hle s) hown)
    · obtain ⟨i, pos, hi, hpos, -, hans⟩ := hdonated s off hgiven hoff
      exact exists_lookup_of_answer hL hi hpos hans

/-- The pairs of a symbol and an offset below its frequency, as lookups answer them. -/
def aliasPairs (D : List Nat) : Finset (Option (Nat × Nat)) :=
  ((Finset.range D.length).sigma fun s => Finset.range (D.getD s 0)).image fun p => some (p.1, p.2)

theorem mem_aliasPairs {p : Option (Nat × Nat)} :
    p ∈ aliasPairs D ↔ ∃ s off, s < D.length ∧ off < D.getD s 0 ∧ some (s, off) = p := by
  simp [aliasPairs, and_assoc]

theorem card_aliasPairs (D : List Nat) : (aliasPairs D).card = D.sum := by
  have hinj : Function.Injective fun p : (_ : Nat) × Nat => some (p.1, p.2) := by
    rintro ⟨s, off⟩ ⟨s', off'⟩ h
    simp_all
  rw [aliasPairs, Finset.card_image_of_injective _ hinj, Finset.card_sigma]
  simp only [Finset.card_range]
  conv_rhs => rw [← map_getD_range D]
  rfl

end

/-- Settles O39: the loop of `BuildAlias` keeps every offset a symbol gave away answered by one settled slot, so every
pair is looked up; there are as many pairs as indices, so each is looked up once and nothing else is. -/
theorem aliasTableIsExact : Obligations.AliasTableIsExact := by
  intro L D _ hL hlen hsum
  obtain ⟨hvalid, honce⟩ := existsUnique_of_card_eq (f := aliasLookup L (buildAlias D L))
    ((card_aliasPairs D).trans hsum) fun p hp => by
      obtain ⟨s, off, hs, hoff, rfl⟩ := mem_aliasPairs.1 hp
      exact exists_aliasLookup (by omega) hlen hsum (hlen ▸ hs) hoff
  refine ⟨fun x hx => ?_, fun s off hs hoff => honce _ (mem_aliasPairs.2 ⟨s, off, hlen ▸ hs, hoff, rfl⟩)⟩
  obtain ⟨s, off, -, hoff, heq⟩ := mem_aliasPairs.1 (hvalid x hx)
  exact ⟨s, off, heq.symm, hoff⟩

end Sys2Proof.Machine

/-! ## Canonical prefix codes (`41_symbol_distribution.md` R196, R197) -/

namespace Sys2Proof.Machine

/-! ### Codes in order -/

/-- Code `e` comes before code `e'`: it is not longer, and `e'` is above every extension of `e` to its own length. -/
def CodeBefore (e e' : Nat × Nat × Nat) : Prop :=
  e.2.1 ≤ e'.2.1 ∧ (e.2.2 + 1) * 2 ^ (e'.2.1 - e.2.1) ≤ e'.2.2

theorem CodeBefore.trans {e e' e'' : Nat × Nat × Nat} (h : CodeBefore e e') (h' : CodeBefore e' e'') :
    CodeBefore e e'' := by
  obtain ⟨hl, hc⟩ := h
  obtain ⟨hl', hc'⟩ := h'
  refine ⟨hl.trans hl', ?_⟩
  calc (e.2.2 + 1) * 2 ^ (e''.2.1 - e.2.1)
      = (e.2.2 + 1) * 2 ^ (e'.2.1 - e.2.1) * 2 ^ (e''.2.1 - e'.2.1) := by
        rw [Nat.mul_assoc, ← Nat.pow_add]; congr 2; omega
    _ ≤ (e'.2.2 + 1) * 2 ^ (e''.2.1 - e'.2.1) := Nat.mul_le_mul_right _ (hc.trans (Nat.le_succ _))
    _ ≤ e''.2.2 := hc'

/-- Neither of two codes in order is a beginning of the other. -/
theorem CodeBefore.ne_prefix {e e' : Nat × Nat × Nat} (h : CodeBefore e e') :
    e.2.2 ≠ e'.2.2 / 2 ^ (e'.2.1 - e.2.1) := by
  have := (Nat.le_div_iff_mul_le (Nat.two_pow_pos _)).2 h.2
  omega

theorem assignCodes_sorted (syms : List (Nat × Nat)) : ∀ (s c l : Nat), (∀ e ∈ syms, l ≤ e.2) →
    syms.Pairwise (fun e e' => e.2 ≤ e'.2) → ((s, l, c) :: assignCodes c l syms).Pairwise CodeBefore := by
  induction syms with
  | nil => intro s c l _ _; exact List.pairwise_singleton _ _
  | cons e syms ih =>
    obtain ⟨s', l'⟩ := e
    intro s c l hle hsorted
    obtain ⟨hmin, hsorted⟩ := List.pairwise_cons.1 hsorted
    have hrest := ih s' ((c + 1) <<< (l' - l)) l' hmin hsorted
    have hfirst : CodeBefore (s, l, c) (s', l', (c + 1) <<< (l' - l)) :=
      ⟨hle (s', l') (by simp), (Nat.shiftLeft_eq _ _).ge⟩
    refine List.pairwise_cons.2 ⟨fun e he => ?_, hrest⟩
    rcases List.mem_cons.1 he with rfl | he
    · exact hfirst
    · exact hfirst.trans ((List.pairwise_cons.1 hrest).1 e he)

theorem sortedSymbols_sorted (lens : List Nat) : (sortedSymbols lens).Pairwise (fun e e' => e.2 ≤ e'.2) := by
  rw [sortedSymbols, List.pairwise_flatMap]
  constructor
  · intro l _
    exact List.pairwise_map.2 (List.pairwise_of_forall fun _ _ => le_rfl)
  · refine List.pairwise_map.2 ((List.pairwise_lt_range (n := 15)).imp fun hlt e he e' he' => ?_)
    simp only [List.mem_map] at he he'
    obtain ⟨_, _, rfl⟩ := he
    obtain ⟨_, _, rfl⟩ := he'
    omega

/-- The codes of R196 are in order. -/
theorem canonicalCodes_sorted (lens : List Nat) : (canonicalCodes lens).Pairwise CodeBefore := by
  have hsorted := sortedSymbols_sorted lens
  unfold canonicalCodes
  split
  next => exact List.Pairwise.nil
  next s l more heq =>
    rw [heq] at hsorted
    obtain ⟨hmin, hsorted⟩ := List.pairwise_cons.1 hsorted
    exact assignCodes_sorted more s 0 l hmin hsorted

/-- No code of R196 is a beginning of another one. -/
theorem canonicalCodes_prefixFree {lens : List Nat} {e e' : Nat × Nat × Nat} (h : e ∈ canonicalCodes lens)
    (h' : e' ∈ canonicalCodes lens) (hl : e'.2.1 ≤ e.2.1) (hc : e'.2.2 = e.2.2 / 2 ^ (e.2.1 - e'.2.1)) : e' = e := by
  by_contra hne
  obtain ⟨i, hi, rfl⟩ := List.getElem_of_mem h
  obtain ⟨j, hj, rfl⟩ := List.getElem_of_mem h'
  have hsorted := List.pairwise_iff_getElem.1 (canonicalCodes_sorted lens)
  rcases Nat.lt_trichotomy i j with hij | rfl | hji
  · obtain ⟨hle, hlt⟩ := hsorted i j hi hj hij
    rw [Nat.le_antisymm hle hl, Nat.sub_self] at hc hlt
    omega
  · exact hne rfl
  · exact (hsorted j i hj hi hji).ne_prefix hc

/-! ### Reading a code -/

section
variable {lens : List Nat} {s l c : Nat}

theorem mem_of_symbolOfCode {codes : List (Nat × Nat × Nat)} (h : symbolOfCode codes c l = some s) :
    (s, l, c) ∈ codes := by
  obtain ⟨⟨s', l', c'⟩, hfind, rfl⟩ := Option.map_eq_some_iff.1 h
  obtain ⟨rfl, rfl⟩ : l' = l ∧ c' = c := by simpa using List.find?_some hfind
  exact List.mem_of_find?_eq_some hfind

theorem symbolOfCode_ne_none {codes : List (Nat × Nat × Nat)} (h : (s, l, c) ∈ codes) :
    symbolOfCode codes c l ≠ none := by
  rw [symbolOfCode, Ne, Option.map_eq_none_iff, List.find?_eq_none]
  exact fun hnone => hnone _ h (by simp)

/-- Fewer bits than a symbol's code, of its first ones, are no symbol's code. -/
theorem symbolOfCode_prefix {k : Nat} (h : (s, l, c) ∈ canonicalCodes lens) (hk : k < l) :
    symbolOfCode (canonicalCodes lens) (c / 2 ^ (l - k)) k = none := by
  by_contra hsome
  obtain ⟨s', hs'⟩ := Option.ne_none_iff_exists'.1 hsome
  have := canonicalCodes_prefixFree h (mem_of_symbolOfCode hs') hk.le rfl
  simp only [Prod.mk.injEq] at this
  omega

theorem symbolOfCode_self (h : (s, l, c) ∈ canonicalCodes lens) :
    symbolOfCode (canonicalCodes lens) c l = some s := by
  obtain ⟨s', hs'⟩ := Option.ne_none_iff_exists'.1 (symbolOfCode_ne_none h)
  have := canonicalCodes_prefixFree h (mem_of_symbolOfCode hs') le_rfl (by simp)
  simp only [Prod.mk.injEq] at this
  rw [hs', this.1]

/-- The first bit of a code's last `j + 1` is its bit `j`. -/
theorem codeBits_succ (j c : Nat) : codeBits (j + 1) c = c.testBit j :: codeBits j c := by
  simp [codeBits, fieldBits, tabulate, List.range_succ]

/-- Appending bit `j` to the bits above it. -/
theorem two_mul_div_add_testBit (c j : Nat) : 2 * (c / 2 ^ (j + 1)) + (c.testBit j).toNat = c / 2 ^ j := by
  rw [Nat.toNat_testBit, Nat.pow_succ, ← Nat.div_div_eq_div_mul]
  omega

/-- With all but the last `j + 1` bits of a symbol's code read, the scan reads those and answers the symbol. -/
theorem prefixScan_codeBits (h : (s, l, c) ∈ canonicalCodes lens) (rest : List Bool) : ∀ j pos : Nat, j + 1 ≤ l →
    prefixScan (canonicalCodes lens) (c / 2 ^ (j + 1)) (l - (j + 1)) (codeBits (j + 1) c ++ rest) pos =
      .ok s { rest := rest, pos := pos + (j + 1) } := by
  intro j
  induction j with
  | zero =>
    intro pos hj
    rw [codeBits_succ, List.cons_append, prefixScan, two_mul_div_add_testBit, Nat.pow_zero, Nat.div_one,
      Nat.zero_add, Nat.sub_add_cancel hj, symbolOfCode_self h]
    rfl
  | succ j ih =>
    intro pos hj
    have hnone : symbolOfCode (canonicalCodes lens) (c / 2 ^ (j + 1)) (l - (j + 1)) = none := by
      have := symbolOfCode_prefix h (k := l - (j + 1)) (by omega)
      rwa [show l - (l - (j + 1)) = j + 1 by omega] at this
    rw [codeBits_succ, List.cons_append, prefixScan, two_mul_div_add_testBit,
      show l - (j + 1 + 1) + 1 = l - (j + 1) by omega, hnone, ih _ (by omega), Nat.add_assoc, Nat.add_comm 1]

theorem assignCodes_symbols (syms : List (Nat × Nat)) : ∀ c l : Nat,
    (assignCodes c l syms).map (fun e => (e.1, e.2.1)) = syms := by
  induction syms with
  | nil => exact fun _ _ => rfl
  | cons e syms ih => exact fun c l => congrArg (e :: ·) (ih _ _)

theorem canonicalCodes_symbols (lens : List Nat) :
    (canonicalCodes lens).map (fun e => (e.1, e.2.1)) = sortedSymbols lens := by
  unfold canonicalCodes
  split
  next heq => exact heq.symm
  next s l more heq => rw [heq, List.map_cons, assignCodes_symbols]

/-- Every code of R196 has a bit. -/
theorem canonicalCodes_length_pos (h : (s, l, c) ∈ canonicalCodes lens) : 1 ≤ l := by
  have hmem : (s, l) ∈ sortedSymbols lens := canonicalCodes_symbols lens ▸ List.mem_map.2 ⟨_, h, rfl⟩
  simp only [sortedSymbols, tabulate, List.mem_flatMap, List.mem_map, Prod.mk.injEq] at hmem
  obtain ⟨_, ⟨n, -, rfl⟩, _, -, -, rfl⟩ := hmem
  exact Nat.le_add_left 1 n

end

/-- Settles O40: no code is a beginning of another, so the scan goes on until the last bit of the symbol's own code. -/
theorem canonicalCodeDecodes : Obligations.CanonicalCodeDecodes := by
  intro lens s l c rest pos h hc
  obtain ⟨j, rfl⟩ := Nat.exists_eq_add_of_le' (canonicalCodes_length_pos h)
  have hscan := prefixScan_codeBits h rest j pos le_rfl
  rwa [Nat.div_eq_of_lt hc, Nat.sub_self] at hscan

end Sys2Proof.Machine

/-! ## Decoding an ANS symbol (`41_symbol_distribution.md` R183) -/

namespace Sys2Proof.Machine

/-! ### A computation over a stream, read from its head -/

section
variable {α β : Type} {m : Parse α} {c : Coder} {b b' : BitSource}

theorem theCoder_bind (k : Coder → Reader β) (r : Reading) : (theCoder >>= k) r = k r.coder r := by
  rw [eng_bind]; rfl

theorem updateCoder_bind (f : Coder → Coder) (k : Unit → Reader β) :
    (updateCoder f >>= k) ⟨c, b⟩ = k () ⟨f c, b⟩ := by
  rw [eng_bind]; rfl

theorem parse_ok {a : α} (h : m b = .ok a b') : parse m ⟨c, b⟩ = .ok a ⟨c, b'⟩ := by
  rw [parse, onPart_apply, h]

theorem parse_error {e : Stop} (h : m b = .error e b') : parse m ⟨c, b⟩ = .error e ⟨c, b'⟩ := by
  rw [parse, onPart_apply, h]

end

/-! ### Priming and refill -/

section
variable {L sym off f : Nat} {d : AnsDist} {c : Coder} {b : BitSource}

theorem ansPrime_primed (h : c.hasState = true) : ansPrime ⟨c, b⟩ = .ok () ⟨c, b⟩ := by
  rw [ansPrime, theCoder_bind, if_pos h]; rfl

theorem ansPrime_reads (h : c.hasState = false) (hlen : 32 ≤ b.rest.length) :
    ansPrime ⟨c, b⟩ = .ok ()
      ⟨{ c with ansState := Word.ofNat (bitsToNat (b.rest.take 32)), hasState := true },
        b.rest.drop 32, b.pos + 32⟩ := by
  rw [ansPrime, theCoder_bind, if_neg (by simp [h]), eng_bind_ok (parse_ok (readBits_ok hlen))]; rfl

theorem ansPrime_truncated (h : c.hasState = false) (hlen : b.rest.length < 32) :
    ansPrime ⟨c, b⟩ = .error (.raise .truncatedInput) ⟨c, b⟩ := by
  rw [ansPrime, theCoder_bind, if_neg (by simp [h]), eng_bind_error (parse_error (readBits_truncated hlen))]

theorem ansRefill_full (h : 2 ^ 16 ≤ c.ansState.toNat) : ansRefill ⟨c, b⟩ = .ok () ⟨c, b⟩ := by
  rw [ansRefill, theCoder_bind, if_neg h.not_gt]; rfl

theorem ansRefill_reads (h : c.ansState.toNat < 2 ^ 16) (hlen : 16 ≤ b.rest.length) :
    ansRefill ⟨c, b⟩ = .ok ()
      ⟨{ c with ansState := Word.ofNat (c.ansState.toNat * 2 ^ 16 + bitsToNat (b.rest.take 16)) },
        b.rest.drop 16, b.pos + 16⟩ := by
  rw [ansRefill, theCoder_bind, if_pos h, eng_bind_ok (parse_ok (readBits_ok hlen)), ← Nat.shiftLeft_eq,
    Nat.shiftLeft_add_eq_or_of_lt (bitsToNat_take_lt hlen)]
  rfl

theorem ansRefill_truncated (h : c.ansState.toNat < 2 ^ 16) (hlen : b.rest.length < 16) :
    ansRefill ⟨c, b⟩ = .error (.raise .truncatedInput) ⟨c, b⟩ := by
  rw [ansRefill, theCoder_bind, if_pos h, eng_bind_error (parse_error (readBits_truncated hlen))]

/-! ### The whole symbol -/

/-- Once a coder is primed, decoding goes on as from the primed coder. -/
theorem ansDecode_of_prime {r r' : Reading} (h : ansPrime r = .ok () r') (hr' : r'.coder.hasState = true) :
    ansDecode L d r = ansDecode L d r' := by
  rw [ansDecode, eng_bind_ok h, eng_bind_ok (ansPrime_primed hr')]

/-- What is left of decoding a symbol of a primed coder, once it is looked up: the new state, and the refill. -/
theorem ansDecode_primed (h : c.hasState = true)
    (hlookup : aliasLookup L d.table (c.ansState.toNat % 4096) = some (sym, off)) (hf : d.freqs[sym]? = some f) :
    ansDecode L d ⟨c, b⟩ = (ansRefill >>= fun _ => pure sym)
      ⟨{ c with ansState := Word.ofNat (f * (c.ansState.toNat / 4096) + off) }, b⟩ := by
  rw [ansDecode, eng_bind_ok (ansPrime_primed h), theCoder_bind]
  simp only [Config.ansTotal, hlookup, orBroken_bind, hf, updateCoder_bind, Nat.shiftRight_eq_div_pow]

/-- The new state stays a word. -/
theorem ansState_lt {x : Nat} (hx : x < 2 ^ 32) (hf : f ≤ 4096) (hoff : off < 4096) :
    f * (x / 4096) + off < 2 ^ 32 := by
  have hmul : f * (x / 4096) ≤ 4096 * (2 ^ 20 - 1) := Nat.mul_le_mul hf (by omega)
  omega

end

/-- Settles O36, by the cases of the priming and of the refill. -/
theorem ansSymbolDecode : Obligations.AnsSymbolDecode := by
  refine fun L d c b => ⟨fun h hlen => ?_, fun h hlen => ?_, fun sym off f h hlookup hfreq hf hoff => ?_⟩
  · exact ansDecode_of_prime (ansPrime_reads h hlen) rfl
  · rw [ansDecode, eng_bind_error (ansPrime_truncated h hlen)]
  intro x
  have hx : x < 2 ^ 32 := ansState_lt c.ansState.isLt hf hoff
  have hword : (Word.ofNat x).toNat = x := Nat.mod_eq_of_lt hx
  refine ⟨hx, fun hfull => ?_, fun hlow hlen => ?_, fun hlow hlen => ?_⟩
  · rw [ansDecode_primed h hlookup hfreq, eng_bind_ok (ansRefill_full (by rwa [hword]))]
    rfl
  · rw [ansDecode_primed h hlookup hfreq, eng_bind_ok (ansRefill_reads (by rwa [hword]) hlen), hword]
    rfl
  · rw [ansDecode_primed h hlookup hfreq, eng_bind_error (ansRefill_truncated (by rwa [hword]) hlen)]

end Sys2Proof.Machine

/-! ## The slot commands (`42_entropy_stream.md` R252, R254, R255) -/

namespace Sys2Proof.Machine

variable {s t : State} {i : Instr} {st : Stream}

/-- A command that answers nothing, with no command write meanwhile. -/
theorem exec_of_ok_no_result (ho : t.overrun = false) (h : commandBody i s = .ok {} t) :
    exec i s = .next { t with busy := false, done := true } := by
  rw [exec_eq_runCommand, runCommand_ok h, State.complete_of_not_overrun t _ ho]
  rfl

theorem isSlot_iff (a : Word) : isSlot a = true ↔ a.toNat < 8 := decide_eq_true_iff

theorem stream?_of_no_slot {a : Word} (h : 8 ≤ a.toNat) : s.stream? a = none := by
  rw [State.stream?, Vector.getElem?_eq_none h, Option.join_none]

/-! ### `ES_VALIDATE` -/

/-- What `ES_VALIDATE` requires of a stream (R252). -/
def FinalStateOk (st : Stream) : Prop :=
  st.config.coding.usePrefixCode = true ∨
    if st.coder.hasState = true then st.coder.ansState = Config.ansTerminal else Config.unprimedFinalOk = true

theorem exec_esValidate_badSlot (h : s.stream? s.latched.args.arg0 = none) :
    exec .esValidate s = .next (s.latchFault (.contractViolation .badSlot)) :=
  exec_of_raise (i := .esValidate) ((esValidateBody_eq s).trans (by rw [h]))

section
variable (hst : s.stream? s.latched.args.arg0 = some st)
include hst

theorem exec_esValidate_passes (ho : s.overrun = false) (h : FinalStateOk st) :
    exec .esValidate s = .next { s with busy := false, done := true } :=
  exec_of_ok_no_result (i := .esValidate) ho ((esValidateBody_eq s).trans (by rw [hst]; exact if_pos h))

theorem exec_esValidate_refuses (h : ¬ FinalStateOk st) :
    exec .esValidate s = .next (s.latchFault (.invalidBitstream .ansFinalState)) :=
  exec_of_raise (i := .esValidate) ((esValidateBody_eq s).trans (by rw [hst]; exact if_neg h))

end

section
variable {L : Nat} {ds : List AnsDist} (hc : st.config.coding = .ans L ds)
include hc

theorem finalStateOk_primed (h : st.coder.hasState = true) : FinalStateOk st ↔ st.coder.ansState = 0x130000#32 := by
  simp [FinalStateOk, hc, h, Coding.usePrefixCode, Config.ansTerminal]

theorem finalStateOk_unprimed (h : st.coder.hasState = false) : FinalStateOk st ↔ Config.unprimedFinalOk = true := by
  simp [FinalStateOk, hc, h, Coding.usePrefixCode]

end

/-! ### `ES_CLONE` and `ES_FREE` -/

theorem exec_esClone_badSlot (h : 8 ≤ s.latched.args.arg1.toNat ∨ s.stream? s.latched.args.arg0 = none) :
    exec .esClone s = .next (s.latchFault (.contractViolation .badSlot)) := by
  refine exec_of_raise (i := .esClone) ((esCloneBody_eq s).trans ?_)
  simp only [isSlot_iff]
  by_cases hd : s.latched.args.arg1.toNat < 8
  · rw [if_pos hd, h.resolve_left hd.not_ge]
  · rw [if_neg hd]

theorem exec_esClone_ok (ho : s.overrun = false) (hd : s.latched.args.arg1.toNat < 8)
    (hst : s.stream? s.latched.args.arg0 = some st) :
    exec .esClone s = .next { s.setSlot s.latched.args.arg1.toNat (some { config := st.config, coder := {} }) with
      busy := false, done := true } :=
  exec_of_ok_no_result (i := .esClone) (t := s.setSlot _ _) ho
    ((esCloneBody_eq s).trans (by rw [if_pos ((isSlot_iff _).2 hd), hst]))

theorem exec_esFree_badSlot (h : 8 ≤ s.latched.args.arg0.toNat) :
    exec .esFree s = .next (s.latchFault (.contractViolation .badSlot)) :=
  exec_of_raise (i := .esFree) ((esFreeBody_eq s).trans (if_neg (by rw [isSlot_iff]; omega)))

theorem exec_esFree_ok (ho : s.overrun = false) (h : s.latched.args.arg0.toNat < 8) :
    exec .esFree s = .next { s.setSlot s.latched.args.arg0.toNat none with busy := false, done := true } :=
  exec_of_ok_no_result (i := .esFree) (t := s.setSlot _ _) ho
    ((esFreeBody_eq s).trans (if_pos ((isSlot_iff _).2 h)))

/-- Settles O37: each command from its closed form, the final state by the kind of coding and by whether the coder is
primed. -/
theorem esValidateCloneAndFree : Obligations.EsValidateCloneAndFree := by
  refine fun s => ⟨exec_esValidate_badSlot, fun st ho hst => ?_, fun h => ?_, fun st => exec_esClone_ok,
    exec_esFree_badSlot, exec_esFree_ok⟩
  · have passes := exec_esValidate_passes hst ho
    have refuses := exec_esValidate_refuses hst
    refine ⟨fun ds hc => passes (.inl (by rw [hc]; rfl)), fun L ds hc => ⟨fun h => ?_, fun h hx => ?_, fun h hx => ?_⟩⟩
    · split
      · next hok => exact passes ((finalStateOk_unprimed hc h).2 hok)
      · next hok => exact refuses (mt (finalStateOk_unprimed hc h).1 hok)
    · exact passes ((finalStateOk_primed hc h).2 hx)
    · exact refuses (mt (finalStateOk_primed hc h).1 hx)
  · refine exec_esClone_badSlot ?_
    rcases h with h | h | h
    · exact .inr (stream?_of_no_slot h)
    · exact .inl h
    · exact .inr h

end Sys2Proof.Machine

/-! ## Reading a symbol of a stream (`42_entropy_stream.md` R240, R242, R248) -/

namespace Sys2Proof.Machine

/-! ### The distance map (R248, R249) -/

section
variable {raw dm : Nat}

theorem distanceMap_zero : distanceMap raw 0 = raw + 1 := if_pos rfl

theorem distanceMap_far (hdm : dm ≠ 0) (h : 120 ≤ raw) : distanceMap raw dm = raw - 119 := by
  rw [distanceMap, if_neg hdm, if_neg h.not_gt]

theorem distanceMap_near (hdm : dm ≠ 0) (h : raw < 120) :
    ∃ dx dy : Int, special[raw]? = some (dx, dy) ∧ (distanceMap raw dm : Int) = max 1 (dx + dm * dy) := by
  have hlen : raw < special.length := h
  refine ⟨_, _, List.getElem?_eq_getElem hlen, ?_⟩
  rw [distanceMap, if_neg hdm, if_pos h, List.getD_eq_getElem _ _ hlen]
  exact Int.toNat_of_nonneg (by omega)

theorem one_le_distanceMap (raw dm : Nat) : 1 ≤ distanceMap raw dm := by
  by_cases hdm : dm = 0
  · rw [hdm, distanceMap_zero]
    omega
  rcases Nat.lt_or_ge raw 120 with h | h
  · obtain ⟨dx, dy, -, hd⟩ := distanceMap_near hdm h
    omega
  · rw [distanceMap_far hdm h]
    omega

end

/-! ### The steps of `ReadSymbol` (R240, R242) -/

section
variable {cfg : StreamConfig} {ctx dm k token v : Nat} {c : Coder} {b b' : BitSource} {r r' : Reading}

theorem orBroken_ok {σ α : Type} {o : Option α} {a : α} {f : Fault} {t : σ} (h : o = some a) :
    orBroken o f t = .ok a t := by
  rw [h]; rfl

/-- The coder once the next value of its pending copy is emitted. -/
def Coder.afterCopied (c : Coder) : Coder :=
  { c with copyPos := c.copyPos + 1, copyRemaining := c.copyRemaining - 1 }.emit (windowRead c.window c.copyPos)

theorem emitCopied_apply (r : Reading) :
    emitCopied r = .ok (windowRead r.coder.window r.coder.copyPos).toNat { r with coder := r.coder.afterCopied } := rfl

theorem readSymbol_copying (h : 0 < c.copyRemaining) : readSymbol cfg ctx dm ⟨c, b⟩ = emitCopied ⟨c, b⟩ := by
  rw [readSymbol, theCoder_bind, if_pos h]

theorem readSymbol_fresh (h : c.copyRemaining = 0) : readSymbol cfg ctx dm ⟨c, b⟩ = readFresh cfg ctx dm ⟨c, b⟩ := by
  rw [readSymbol, theCoder_bind, if_neg (Nat.not_lt.2 h.le)]

section
variable (hk : cfg.clusterMap[ctx]? = some k) (ht : decodeToken cfg k r = .ok token r')
include hk ht

/-- A token below `lz77MinSymbol`, or with LZ77 off: its expansion is emitted. -/
theorem readFresh_literal {hc : HybridConfig} (hlit : ∀ z, cfg.lz77 = some z → token < z.minSymbol)
    (hcfg : cfg.coding.hybridConfig? k = some hc) (hv : hybridExpand token hc r'.source = .ok v b) :
    readFresh cfg ctx dm r = .ok v ⟨r'.coder.emit (Word.ofNat v), b⟩ := by
  have hnone : cfg.lz77.filter (fun z => z.minSymbol ≤ token) = none :=
    Option.filter_eq_none_iff.2 fun z hz => by simpa using hlit z hz
  rw [readFresh, eng_bind_ok (orBroken_ok hk), eng_bind_ok ht, hnone]
  exact (eng_bind_ok (orBroken_ok hcfg)).trans (eng_bind_ok (parse_ok hv))

/-- A token from `lz77MinSymbol` up: a copy is set up, and its first value is emitted. -/
theorem readFresh_copy {z : Lz77Config} (hz : cfg.lz77 = some z) (hle : z.minSymbol ≤ token) :
    readFresh cfg ctx dm r = (startCopy cfg z token dm >>= fun _ => emitCopied) r' := by
  have hsome : cfg.lz77.filter (fun z => z.minSymbol ≤ token) = some z :=
    Option.filter_eq_some_iff.2 ⟨hz, decide_eq_true hle⟩
  rw [readFresh, eng_bind_ok (orBroken_ok hk), eng_bind_ok ht, hsome]

end

section
variable {z : Lz77Config} {extra : Nat}
  (hx : hybridExpand (token - z.minSymbol) z.lengthConfig r.source = .ok extra b)
include hx

theorem startCopy_overflow (h : 2 ^ 32 ≤ extra + z.minLength) :
    startCopy cfg z token dm r = .error (.raise (.invalidBitstream .lz77Overflow)) ⟨r.coder, b⟩ := by
  rw [startCopy, eng_bind_ok (parse_ok hx), checkBitstream_bind, if_neg h.not_gt]

theorem startCopy_ok {kd dtoken raw : Nat} {dc : HybridConfig} (h : extra + z.minLength < 2 ^ 32)
    (hkd : cfg.clusterMap[cfg.numContexts - 1]? = some kd) (hd : decodeToken cfg kd ⟨r.coder, b⟩ = .ok dtoken r')
    (hdc : cfg.coding.hybridConfig? kd = some dc) (hraw : hybridExpand dtoken dc r'.source = .ok raw b') :
    startCopy cfg z token dm r = .ok ()
      ⟨{ r'.coder with
          copyPos := r'.coder.numDecoded - min (distanceMap raw dm) (min r'.coder.numDecoded (2 ^ 20))
          copyRemaining := extra + z.minLength }, b'⟩ := by
  rw [startCopy, eng_bind_ok (parse_ok hx), checkBitstream_bind, if_pos h, eng_bind_ok (orBroken_ok hkd),
    eng_bind_ok hd, eng_bind_ok (orBroken_ok hdc), eng_bind_ok (parse_ok hraw)]
  rfl

end

end

/-! ### `ES_READ` -/

section
variable {s : State} {st : Stream} {r : Reading}

theorem exec_esRead_badSlot (h : s.stream? s.latched.args.arg0 = none) :
    exec .esRead s = .next (s.latchFault (.contractViolation .badSlot)) :=
  exec_of_raise (i := .esRead) ((esReadBody_eq s).trans (by rw [h]))

variable (hst : s.stream? s.latched.args.arg0 = some st)
include hst

theorem exec_esRead_badArg (h : st.config.readableContexts ≤ s.latched.args.arg1.toNat) :
    exec .esRead s = .next (s.latchFault (.contractViolation .badArg)) :=
  exec_of_raise (i := .esRead) ((esReadBody_eq s).trans (by rw [hst]; exact if_neg h.not_gt))

variable (hctx : s.latched.args.arg1.toNat < st.config.readableContexts)
include hctx

theorem exec_esRead_ok {v : Nat} (ho : s.overrun = false)
    (h : readSymbol st.config s.latched.args.arg1.toNat s.latched.args.arg2.toNat ⟨st.coder, s.source⟩ = .ok v r) :
    exec .esRead s = .next
      { (s.setSource r.source).setSlot s.latched.args.arg0.toNat (some { st with coder := r.coder }) with
        result0 := Word.ofNat v, busy := false, done := true } :=
  exec_of_ok (i := .esRead) (t := (s.setSource r.source).setSlot _ _) ho
    ((esReadBody_eq s).trans (by rw [hst]; exact (if_pos hctx).trans (by rw [h])))

theorem exec_esRead_error {f : BlockFault}
    (h : readSymbol st.config s.latched.args.arg1.toNat s.latched.args.arg2.toNat ⟨st.coder, s.source⟩ =
      .error (.raise f) r) :
    exec .esRead s = .next
      (((s.setSource r.source).setSlot s.latched.args.arg0.toNat (some { st with coder := r.coder })).latchFault f) :=
  exec_of_raise (i := .esRead) ((esReadBody_eq s).trans (by rw [hst]; exact (if_pos hctx).trans (by rw [h])))

/-- A symbol that is emitted from a copy is the word in the window. -/
theorem exec_esRead_copied (ho : s.overrun = false)
    (h : readSymbol st.config s.latched.args.arg1.toNat s.latched.args.arg2.toNat ⟨st.coder, s.source⟩ =
      emitCopied r) :
    exec .esRead s = .next
      { (s.setSource r.source).setSlot s.latched.args.arg0.toNat (some { st with coder := r.coder.afterCopied }) with
        result0 := windowRead r.coder.window r.coder.copyPos, busy := false, done := true } := by
  rw [exec_esRead_ok hst hctx ho (h.trans (emitCopied_apply r)), Word.ofNat, BitVec.ofNat_toNat, BitVec.setWidth_eq]

end

/-- Settles O35, by the steps of `ReadSymbol`: a pending copy, a literal, and a copy that starts. -/
theorem esReadReturnsSymbol : Obligations.EsReadReturnsSymbol := by
  refine fun s => ⟨exec_esRead_badSlot, fun st hst => ⟨exec_esRead_badArg hst, fun hctx ho => ⟨fun hcopy => ?_,
    fun k token r hcopy hk ht => ⟨fun hc v b hlit hcfg hv => ?_,
      fun z extra b kd dtoken r' dc raw b' hz _ hle hx => ⟨fun hlong => ?_, fun hshort hkd hd hdc hraw => ?_,
        one_le_distanceMap _ _, fun hdm => ?_, distanceMap_far, distanceMap_near⟩⟩⟩⟩⟩
  · exact exec_esRead_copied hst hctx ho (readSymbol_copying hcopy)
  · exact exec_esRead_ok hst hctx ho ((readSymbol_fresh hcopy).trans (readFresh_literal hk ht hlit hcfg hv))
  · exact exec_esRead_error hst hctx ((readSymbol_fresh hcopy).trans ((readFresh_copy hk ht hz hle).trans
      (eng_bind_error (startCopy_overflow hx hlong))))
  · exact exec_esRead_copied hst hctx ho ((readSymbol_fresh hcopy).trans ((readFresh_copy hk ht hz hle).trans
      (eng_bind_ok (startCopy_ok hx hshort hkd hd hdc hraw))))
  · rw [hdm, distanceMap_zero]

end Sys2Proof.Machine

/-! ## The header of a stream, and `ES_INIT` (`42_entropy_stream.md` R230 to R235) -/

namespace Sys2Proof.Machine

/-! ### The cluster map (R233 to R235) -/

theorem parses_readClusterMap_one : Parses (readClusterMap 1) [] [0] := parses_pure _

theorem readClusterMap_simple {nbits : Nat} {map : List Nat} (hn : nbits < 4) (hlen : 2 ≤ map.length)
    (hid : ∀ id ∈ map, id < 2 ^ nbits) :
    ((∀ id ∈ map, ∀ j < id, j ∈ map) →
      Parses (readClusterMap map.length) (true :: (fieldBits 2 nbits ++ map.flatMap (fieldBits nbits))) map) ∧
    (¬ (∀ id ∈ map, ∀ j < id, j ∈ map) →
      Rejects (readClusterMap map.length) (true :: (fieldBits 2 nbits ++ map.flatMap (fieldBits nbits)))
        (.invalidBitstream .badClusterMap)) := by
  have hpow : 2 ^ nbits ≤ 2 ^ 8 := Nat.pow_le_pow_right (by omega) (by omega)
  exact readClusterMap_form (simple := true) (by omega) (List.ne_nil_of_length_pos (by omega))
    (parses_readSimpleMap hn hid) fun id h => (hid id h).trans_le hpow

section
variable {useMtf : Bool} {headerBits symbolBits : List Bool} {cfg : StreamConfig} {n : Nat} {symbols map : List Nat}
  (hh : Parses readNestedStream headerBits cfg)
include hh

theorem readNestedMap_finalState (hs : Rejects (nestedSymbols cfg n) symbolBits (.invalidBitstream .ansFinalState)) :
    Rejects (readNestedMap n) ([useMtf] ++ (headerBits ++ symbolBits)) (.invalidBitstream .ansFinalState) :=
  (parses_readBool useMtf).bind_rejects (hh.bind_rejects hs.bind)

variable (hs : Parses (nestedSymbols cfg n) symbolBits symbols)
include hs

theorem readNestedMap_tooLarge (hid : ∃ id ∈ symbols, 256 ≤ id) :
    Rejects (readNestedMap n) ([useMtf] ++ (headerBits ++ symbolBits)) (.invalidBitstream .badClusterMap) := by
  obtain ⟨id, hmem, hid⟩ := hid
  exact (parses_readBool useMtf).bind_rejects (hh.bind_rejects (hs.bind_rejects_nil
    (rejects_check fun h => (h id hmem).not_ge hid)))

/-- The symbols of a map are its ids, or their places under move-to-front, which is undone. -/
theorem parses_readNestedMap (hid : ∀ id ∈ map, id < 256)
    (hsym : symbols = if useMtf then moveToFront (List.range 256) map else map) :
    Parses (readNestedMap n) ([useMtf] ++ (headerBits ++ symbolBits)) map := by
  have hrange : ∀ id ∈ map, id ∈ List.range 256 := fun id h => List.mem_range.2 (hid id h)
  have hlt : ∀ id ∈ symbols, id < 256 := by
    rw [hsym]
    split
    · simpa using moveToFront_lt map _ hrange
    · exact hid
  have hmap : (if useMtf then inverseMtf (List.range 256) symbols else symbols) = map := by
    rw [hsym]
    split
    · exact inverseMtf_moveToFront map _ hrange
    · rfl
  refine (parses_readBool useMtf).bind (hh.bind (hs.bind_nil (Parses.check hlt ?_)))
  rw [hmap]
  exact parses_pure _

end

theorem rejects_readClusterMap_nested {n : Nat} {bits : List Bool} {e : BlockFault} (hn : n ≠ 1)
    (h : Rejects (readNestedMap n) bits e) : Rejects (readClusterMap n) ([false] ++ bits) e := by
  rw [readClusterMap_eq hn]
  exact (parses_readBool false).bind_rejects h.bind

/-! ### The parts in order (R231) -/

section
variable {codingBits : List Bool} {coding : Coding}

theorem parses_readNestedStream (hc : CodingBits 1 codingBits coding) :
    Parses readNestedStream (false :: codingBits) { clusterMap := [0], lz77 := none, coding := coding } :=
  parses_readStreamWith (readMap := fun _ => pure [0]) (map := [0]) (parses_readLz77_off true) (parses_pure _) hc

theorem parses_readEntropyStream {n k : Nat} {d : Bool} {lz77Bits mapBits : List Bool} {lz77 : Option Lz77Config}
    {map : List Nat} (hc : CodingBits k codingBits coding) (hz : Parses (readLz77 d) lz77Bits lz77)
    (hm : Parses (readClusterMap (n + if lz77.isSome then 1 else 0)) mapBits map) (hk : k = map.foldl max 0 + 1) :
    Parses (readEntropyStream n d) (lz77Bits ++ mapBits ++ codingBits)
      { clusterMap := map, lz77 := lz77, coding := coding } := by
  rw [List.append_assoc]
  refine parses_readStreamWith hz ?_ (by rwa [Nat.add_comm, ← hk])
  cases lz77 <;> exact hm

end

/-! ### Prefix codes (`41_symbol_distribution.md` R190 to R192) -/

theorem parses_readPrefixAlphabetSize_one : Parses readPrefixAlphabetSize [false] 1 :=
  (parses_readBool false).bind_nil (parses_pure _)

/-- What is left of a simple code once its symbols are read: the lengths, which for four symbols take a bit more. -/
def simpleCodeForm (A : Nat) (symbols : List Nat) : Parse PrefixCode :=
  if symbols.length = 1 then pure (.zeroBits (symbols.headD 0))
  else if symbols.length = 2 then pure (.canonical (lengthsOf A symbols [1, 1]))
  else if symbols.length = 3 then pure (.canonical (lengthsOf A symbols [1, 2, 2]))
  else do
    let deep ← readBool
    pure (.canonical (lengthsOf A symbols (if deep then [1, 2, 3, 3] else [2, 2, 2, 2])))

section
variable {A : Nat} {symbols : List Nat}

/-- The bits of a simple code up to the last of its symbols. -/
def simpleCodeBits (A : Nat) (symbols : List Nat) : List Bool :=
  fieldBits 2 1 ++ fieldBits 2 (symbols.length - 1) ++ symbols.flatMap (fieldBits (Nat.log 2 (A - 1) + 1))

section
variable (hA : 2 ≤ A) (h1 : 1 ≤ symbols.length) (h4 : symbols.length ≤ 4) (hlt : ∀ v ∈ symbols, v < A)
include hA h1 h4 hlt

/-- The symbols of a simple code are read, checked, and given their lengths. -/
theorem readPrefixCode_symbols : Leads (readPrefixCode A)
    (checkBitstream symbols.Nodup .badPrefixCode >>= fun _ => simpleCodeForm A symbols) (simpleCodeBits A symbols) := by
  obtain ⟨k, hk⟩ := Nat.exists_eq_add_of_le' h1
  have hsyms := parses_symbols hA symbols hlt
  rw [simpleCodeBits, simpleCodeForm, hk, Nat.add_sub_cancel]
  rw [hk] at hsyms
  exact (readPrefixCode_simple hA (by omega)).trans hsyms.leads

theorem readPrefixCode_duplicate (hn : ¬ symbols.Nodup) :
    Rejects (readPrefixCode A) (simpleCodeBits A symbols) (.invalidBitstream .badPrefixCode) := by
  simpa using (readPrefixCode_symbols hA h1 h4 hlt).rejects (rejects_check hn)

variable (hn : symbols.Nodup)
include hn

theorem readPrefixCode_form {bits : List Bool} {code : PrefixCode} (h : Parses (simpleCodeForm A symbols) bits code) :
    Parses (readPrefixCode A) (simpleCodeBits A symbols ++ bits) code :=
  (readPrefixCode_symbols hA h1 h4 hlt).parses (Parses.check hn h)

theorem readPrefixCode_single {v : Nat} (hv : symbols = [v]) :
    Parses (readPrefixCode A) (simpleCodeBits A symbols) (.zeroBits v) := by
  have hform : Parses (simpleCodeForm A symbols) [] (.zeroBits v) := by
    subst hv
    exact parses_pure _
  simpa using readPrefixCode_form hA h1 h4 hlt hn hform

end

/-- The lengths of a simple code of 2 to 4 symbols, by its number of symbols and the bit of its form. -/
theorem parses_simpleCodeForm {form : List Bool} {lengths : List Nat}
    (h : (form, lengths) ∈ [([], [1, 1]), ([], [1, 2, 2]), ([false], [2, 2, 2, 2]), ([true], [1, 2, 3, 3])])
    (hlen : symbols.length = lengths.length) :
    Parses (simpleCodeForm A symbols) form (.canonical (lengthsOf A symbols lengths)) := by
  unfold simpleCodeForm
  rw [hlen]
  simp only [List.mem_cons, List.not_mem_nil, or_false, Prod.mk.injEq] at h
  rcases h with ⟨rfl, rfl⟩ | ⟨rfl, rfl⟩ | ⟨rfl, rfl⟩ | ⟨rfl, rfl⟩
  · exact parses_pure _
  · exact parses_pure _
  · exact (parses_readBool false).bind_nil (parses_pure _)
  · exact (parses_readBool true).bind_nil (parses_pure _)

theorem readPrefixCode_badSymbol {count v : Nat} (hA : 2 ≤ A) (hcount : symbols.length < count) (h4 : count ≤ 4)
    (hlt : ∀ v ∈ symbols, v < A) (hv : A ≤ v) (hv' : v < 2 ^ (Nat.log 2 (A - 1) + 1)) :
    Rejects (readPrefixCode A)
      (fieldBits 2 1 ++ fieldBits 2 (count - 1) ++ symbols.flatMap (fieldBits (Nat.log 2 (A - 1) + 1)) ++
        fieldBits (Nat.log 2 (A - 1) + 1) v) (.invalidBitstream .badPrefixCode) := by
  obtain ⟨k, rfl⟩ := Nat.exists_eq_add_of_le' (Nat.one_le_of_lt hcount)
  rw [List.append_assoc, Nat.add_sub_cancel]
  exact (readPrefixCode_simple hA (by omega)).rejects (rejects_symbols hA hv' hv symbols _ hcount hlt).bind

theorem readPrefixCode_complex {hskip : Nat} {clBits lengthBits : List Bool} {clCode : PrefixCode} {lens : List Nat}
    (hA : 2 ≤ A) (hskip_mem : hskip ∈ [0, 2, 3]) (hcl : Parses (readCodeLengthCode hskip) clBits clCode)
    (hlens : Parses (readCodeLengths A clCode) lengthBits lens) :
    Parses (readPrefixCode A) (fieldBits 2 hskip ++ clBits ++ lengthBits) (.canonical lens) := by
  have hbound : hskip < 2 ^ 2 ∧ hskip ≠ 1 := by
    simp only [List.mem_cons, List.not_mem_nil, or_false] at hskip_mem
    omega
  rw [readPrefixCode_eq hA, List.append_assoc]
  refine (parses_readBits hbound.1).bind ?_
  rw [if_neg hbound.2]
  exact hcl.bind (hlens.bind_nil (parses_pure _))

end

/-! ### The command (R230) -/

section
variable {s : State} {b : BitSource}

theorem exec_esInit_badSlot (h : 8 ≤ s.latched.args.arg0.toNat) :
    exec .esInit s = .next (s.latchFault (.contractViolation .badSlot)) :=
  exec_of_raise (i := .esInit) ((esInitBody_eq s).trans (if_neg (by rw [isSlot_iff]; omega)))

variable (hslot : s.latched.args.arg0.toNat < 8)

include hslot in
theorem exec_esInit_badArg (h : s.latched.args.arg1 = 0#32 ∨ 2 ^ 20 < s.latched.args.arg1.toNat ∨
    s.latched.args.arg2 >>> 1 ≠ 0#32) : exec .esInit s = .next (s.latchFault (.contractViolation .badArg)) := by
  refine exec_of_raise (i := .esInit) ((esInitBody_eq s).trans ((if_pos ((isSlot_iff _).2 hslot)).trans (if_neg ?_)))
  rintro ⟨hne, hle, hflags⟩
  rcases h with h | h | h
  · exact hne h
  · exact hle.not_gt h
  · exact h (beq_iff_eq.1 hflags)

variable (hne : s.latched.args.arg1 ≠ 0#32) (hle : s.latched.args.arg1.toNat ≤ 2 ^ 20)
  (hflags : s.latched.args.arg2 >>> 1 = 0#32)
include hne hle hflags

theorem esInit_args_legal : s.latched.args.arg1 ≠ 0#32 ∧ s.latched.args.arg1.toNat ≤ Config.maxContexts ∧
    zeroFrom s.latched.args.arg2 1 = true := ⟨hne, hle, beq_iff_eq.2 hflags⟩

include hslot

theorem exec_esInit_ok {cfg : StreamConfig} (ho : s.overrun = false)
    (h : readEntropyStream s.latched.args.arg1.toNat (s.latched.args.arg2.getLsbD 0) s.source = .ok cfg b) :
    exec .esInit s = .next
      { (s.setSource b).setSlot s.latched.args.arg0.toNat (some { config := cfg, coder := {} }) with
        result0 := Word.ofNat cfg.coding.numClusters, busy := false, done := true } :=
  exec_of_ok (i := .esInit) (t := (s.setSource b).setSlot _ _) ho ((esInitBody_eq s).trans (by
    rw [if_pos ((isSlot_iff _).2 hslot), if_pos (esInit_args_legal hne hle hflags), flagBit, h]))

theorem exec_esInit_error {f : BlockFault}
    (h : readEntropyStream s.latched.args.arg1.toNat (s.latched.args.arg2.getLsbD 0) s.source = .error (.raise f) b) :
    exec .esInit s = .next ((s.setSource b).latchFault f) :=
  exec_of_raise (i := .esInit) ((esInitBody_eq s).trans (by
    rw [if_pos ((isSlot_iff _).2 hslot), if_pos (esInit_args_legal hne hle hflags), flagBit, h]))

end

/-- The distribution of the example of R230: one symbol, coded with no bits. -/
def exampleDist : PrefixDist where
  config := { splitExponent := 0, msbInToken := 0, lsbInToken := 0 }
  alphabetSize := 1
  code := .zeroBits 0

theorem exampleDist_parses : exampleDist.config.Written 15 ∧
    Parses readPrefixAlphabetSize [false] exampleDist.alphabetSize ∧
    Parses (readPrefixCode exampleDist.alphabetSize) [] exampleDist.code :=
  ⟨⟨⟨Nat.le_refl 0, Nat.zero_le 15⟩, fun h => absurd h (by decide)⟩, parses_readPrefixAlphabetSize_one, parses_pure _⟩

theorem configBits_exampleDist : configBits 15 exampleDist.config = [false, false, false, false] := by
  rw [configBits, ← ceilLog2_eq, ← ceilLog2_eq, ← ceilLog2_eq]
  decide

theorem parses_exampleStream : Parses (readEntropyStream 1 false) [false, true, false, false, false, false, false]
    { clusterMap := [0], lz77 := none, coding := .prefixCode [exampleDist] } := by
  have hcoding : Parses (readPrefixCoding 1) [false, false, false, false, false] (.prefixCode [exampleDist]) := by
    have h := parses_readPrefixCoding (ds := [exampleDist]) (sizeBits := fun _ => [false]) (codeBits := fun _ => [])
      fun d hd => List.mem_singleton.1 hd ▸ exampleDist_parses
    rwa [List.flatMap_singleton, configBits_exampleDist] at h
  -- How the bits split among the parts is known once the parts are.
  have hstream := parses_readEntropyStream (n := 1) (lz77 := none) (.inl ⟨_, rfl, hcoding⟩) (parses_readLz77_off false)
    parses_readClusterMap_one rfl
  exact hstream

/-- Settles O34: the command from its closed form, then each part of the header from the encoder's side. -/
theorem esInitFillsSlot : Obligations.EsInitFillsSlot := by
  refine ⟨fun s => ⟨exec_esInit_badSlot, exec_esInit_badArg,
      fun hslot hne hle hflags => ⟨fun _ _ => exec_esInit_ok hslot hne hle hflags,
        fun _ _ => exec_esInit_error hslot hne hle hflags⟩,
      fun rest ho hslot hctx hflags hbits => ?_⟩,
    parses_readLz77_off, rejects_readLz77_nested, fun _ _ _ _ _ => parses_readLz77_on,
    parses_readClusterMap_one, fun _ _ => readClusterMap_simple,
    fun useMtf headerBits cfg symbolBits symbols c hlen hh hs => ?_,
    fun k codingBits coding hc => ⟨fun hk => parses_readNestedStream (hk ▸ hc),
      fun _ _ _ _ _ _ hz hm hk => parses_readEntropyStream hc hz hm hk⟩,
    fun _ _ _ => parses_readPrefixCoding, fun _ _ _ => parses_readAnsCoding,
    parses_readPrefixAlphabetSize_one, fun _ _ => readPrefixAlphabetSize_reads,
    parses_pure _,
    fun A symbols hA h1 h4 hlt => ⟨readPrefixCode_duplicate hA h1 h4 hlt,
      fun hn => ⟨fun _ => readPrefixCode_single hA h1 h4 hlt hn,
        fun form lengths hform hlength =>
          ⟨_, readPrefixCode_form hA h1 h4 hlt hn (parses_simpleCodeForm hform hlength),
            lengthsOf_spec hlength hn hlt⟩⟩⟩,
    fun _ _ _ _ => readPrefixCode_badSymbol, fun _ _ _ _ _ _ => readPrefixCode_complex,
    fun _ _ => readCodeLengthCode_reads, fun _ _ _ _ => readCodeLengths_reads⟩
  · have hparse := parses_exampleStream.over hbits
    exact exec_esInit_ok hslot (by rw [hctx]; decide) (by rw [hctx]; decide) (by rw [hflags]; decide) ho
      (by rw [hctx, hflags]; exact hparse)
  · obtain ⟨hparse, hreject⟩ := nestedSymbols_reads hs
    have hn : symbols.length ≠ 1 := by omega
    have hbits : [false, useMtf] ++ headerBits ++ symbolBits = [false] ++ ([useMtf] ++ (headerBits ++ symbolBits)) := by
      simp
    rw [hbits]
    refine ⟨fun hp hp' ha => rejects_readClusterMap_nested hn (readNestedMap_finalState hh (hreject hp hp' ha)),
      fun hfinal => ⟨fun hid => rejects_readClusterMap_nested hn (readNestedMap_tooLarge hh (hparse hfinal) hid),
        fun map hid hsym => ?_⟩⟩
    have hmap : map ≠ [] := by
      rintro rfl
      simp [hsym, moveToFront] at hlen
    exact readClusterMap_form (simple := false) hn hmap (parses_readNestedMap hh (hparse hfinal) hid hsym) hid

end Sys2Proof.Machine

/-! ## Walking a residual tree (`43_ma_tree.md` R282, R285) -/

namespace Sys2Proof.Machine

section
variable {nodes : List Node} {fix : Frozen} {P : Nat → Except Stop Int} {depth n k lc rc : Nat} {v : Int} {l : Leaf}

theorem walk_leaf (h : nodes[n]? = some (.leaf l)) : walk nodes P (depth + 1) n = .ok (n, l) := by rw [walk, h]

theorem walk_decision (h : nodes[n]? = some (.decision k v lc rc)) :
    walk nodes P (depth + 1) n = P k >>= fun x => walk nodes P depth (if v < x then lc else rc) := by rw [walk, h]

theorem walk_decision_ok {x : Int} (h : nodes[n]? = some (.decision k v lc rc)) (hx : P k = .ok x) :
    walk nodes P (depth + 1) n = walk nodes P depth (if v < x then lc else rc) := by
  rw [walk_decision h, hx]
  rfl

/-- Where a residual tree comes from: a leaf, a decision that is resolved, or a decision that stays. -/
theorem residual_cases {R : RTree} (h : residual nodes fix (depth + 1) n = some R) :
    (∃ l, nodes[n]? = some (.leaf l) ∧ R = .leaf n l) ∨
    (∃ k v lc rc x, nodes[n]? = some (.decision k v lc rc) ∧ fix.value? k = some x ∧
      residual nodes fix depth (if v < x then lc else rc) = some R) ∨
    ∃ k v lc rc left right, nodes[n]? = some (.decision k v lc rc) ∧ fix.value? k = none ∧
      residual nodes fix depth lc = some left ∧ residual nodes fix depth rc = some right ∧
      R = .decision k v left right := by
  rw [residual] at h
  cases hn : nodes[n]? with
  | none => simp [hn] at h
  | some node =>
    cases node with
    | leaf l => exact .inl ⟨l, rfl, by simpa [hn] using h.symm⟩
    | decision k v lc rc =>
      cases hx : fix.value? k with
      | some x => exact .inr (.inl ⟨k, v, lc, rc, x, rfl, hx, by simpa [hn, hx] using h⟩)
      | none =>
        simp only [hn, hx, Option.bind_eq_bind, Option.bind_eq_some_iff] at h
        obtain ⟨left, hleft, right, hright, hR⟩ := h
        exact .inr (.inr ⟨k, v, lc, rc, left, right, rfl, hx, hleft, hright, (Option.some.inj hR).symm⟩)

theorem residual_walk (hP : ∀ k v, fix.value? k = some v → P k = .ok v) :
    ∀ (depth n : Nat) (R : RTree), residual nodes fix depth n = some R → R.walk P = walk nodes P depth n
  | 0, _, _, h => nomatch h
  | depth + 1, n, R, h => by
    rcases residual_cases h with ⟨l, hn, rfl⟩ | ⟨k, v, lc, rc, x, hn, hx, hR⟩ |
      ⟨k, v, lc, rc, left, right, hn, -, hleft, hright, rfl⟩
    · rw [walk_leaf hn, RTree.walk]
    · rw [walk_decision_ok hn (hP k x hx)]
      exact residual_walk hP depth _ R hR
    · rw [walk_decision hn, RTree.walk, residual_walk hP depth lc left hleft, residual_walk hP depth rc right hright]
      simp only [apply_ite (walk nodes P depth)]

end

/-- Settles O43, by induction on the depth of the residual tree: a resolved decision goes where the walk goes, since
the properties agree with the fixed ones. -/
theorem residualTreeWalksAlike : Obligations.ResidualTreeWalksAlike :=
  fun _ _ R _ _ hR hP => residual_walk hP _ 0 R hR

end Sys2Proof.Machine

/-! ## `TREE_COMPACT` and `TREE_WALK` (`43_ma_tree.md` R280, R285, R286) -/

namespace Sys2Proof.Machine

/-! ### The decisions of a residual tree (R282) -/

section
variable {nodes : List Node} {fix : Frozen}

/-- No decision of a residual tree tests a property that was fixed. -/
theorem residual_anyDecision {q : Nat → Bool} (hq : ∀ k, fix.value? k = none → q k = false) :
    ∀ (depth n : Nat) (R : RTree), residual nodes fix depth n = some R → R.anyDecision q = false
  | 0, _, _, h => nomatch h
  | depth + 1, n, R, h => by
    rcases residual_cases h with ⟨l, -, rfl⟩ | ⟨k, v, lc, rc, x, -, -, hR⟩ |
      ⟨k, v, lc, rc, left, right, -, hk, hleft, hright, rfl⟩
    · rfl
    · exact residual_anyDecision hq depth _ R hR
    · rw [RTree.anyDecision, hq k hk, residual_anyDecision hq depth lc left hleft,
        residual_anyDecision hq depth rc right hright]
      rfl

/-- The properties with no fixed value: all but the channel, the stream and, when it is frozen, the row. -/
theorem Frozen.value?_eq_none {k : Nat} (h : fix.value? k = none) : 2 ≤ k ∧ (k = 2 → fix.row = none) := by
  match k, h with
  | 2, h =>
    refine ⟨Nat.le_refl 2, fun _ => ?_⟩
    cases hr : fix.row with
    | none => rfl
    | some r => simp [Frozen.value?, hr] at h
  | k + 3, _ => exact ⟨by omega, by omega⟩

end

/-! ### Closing a command that answers several results -/

section
variable {s t : State}

section
variable {i : Instr} {v0 v1 v2 : Word} (ho : t.overrun = false)
include ho

theorem exec_of_ok_two (h : commandBody i s = .ok { r0 := some v0, r1 := some v1 } t) :
    exec i s = .next { t with result0 := v0, result1 := v1, busy := false, done := true } := by
  rw [exec_eq_runCommand, runCommand_ok h, State.complete_of_not_overrun t _ ho]
  rfl

theorem exec_of_ok_three (h : commandBody i s = .ok { r0 := some v0, r1 := some v1, r2 := some v2 } t) :
    exec i s = .next { t with result0 := v0, result1 := v1, result2 := v2, busy := false, done := true } := by
  rw [exec_eq_runCommand, runCommand_ok h, State.complete_of_not_overrun t _ ho]
  rfl

end

/-! ### `TREE_COMPACT` -/

theorem usesWpFlags_eq (leafUsesWP decisionUsesWP : Bool) : usesWpFlags leafUsesWP decisionUsesWP =
    (if leafUsesWP then 1#32 else 0#32) ||| (if decisionUsesWP then 2#32 else 0#32) := by
  cases leafUsesWP <;> cases decisionUsesWP <;> rfl

theorem zeroFrom_one_iff (w : Word) : zeroFrom w 1 = true ↔ w.toNat < 2 := zeroFrom_iff w 1

theorem flagBit_zero_iff {w : Word} (h : w.toNat < 2) : flagBit w 0 = true ↔ w = 1#32 := by
  rw [flagBit, BitVec.getLsbD, Nat.testBit_zero, decide_eq_true_eq, ← BitVec.toNat_inj, Nat.mod_eq_of_lt h]
  rfl

theorem compactFix_eq {a : Args} (h : a.arg3.toNat < 2) : compactFix a =
    { channel := a.arg1.toNat
      stream := a.arg2.toNat
      row := if a.arg3 = 1#32 then some a.arg4.toNat else none } := by
  simp only [compactFix, flagBit_zero_iff h]

theorem compactFix_unfixed {a : Args} (h : a.arg3.toNat < 2) {k : Nat} (hk : (compactFix a).value? k = none) :
    (k ≤ 1 || (k == 2 && a.arg3 == 1#32)) = false := by
  obtain ⟨hle, hrow⟩ := Frozen.value?_eq_none hk
  rw [compactFix_eq h] at hrow
  simp only [Bool.or_eq_false_iff, Bool.and_eq_false_imp, decide_eq_false_iff_not, beq_iff_eq, beq_eq_false_iff_ne]
  refine ⟨by omega, fun h2 h1 => ?_⟩
  have := hrow h2
  rw [if_pos h1] at this
  cases this

theorem exec_treeCompact_badArg (h : s.tree? s.latched.args.arg0 = none ∨ 2 ≤ s.latched.args.arg3.toNat) :
    exec .treeCompact s = .next (s.latchFault (.contractViolation .badArg)) := by
  refine exec_of_raise (i := .treeCompact) ((treeCompactBody_eq s).trans ?_)
  cases ht : s.tree? s.latched.args.arg0 with
  | none => rfl
  | some nodes =>
    have hflags : 2 ≤ s.latched.args.arg3.toNat := h.resolve_left (by simp [ht])
    exact if_neg (by rw [zeroFrom_one_iff]; omega)

theorem exec_treeCompact_ok {nodes : List Node} {R : RTree} (ho : s.overrun = false)
    (ht : s.tree? s.latched.args.arg0 = some nodes) (hflags : s.latched.args.arg3.toNat < 2)
    (hR : compactify nodes (compactFix s.latched.args) = some R) :
    exec .treeCompact s = .next
      { s with
        result0 := Word.ofNat R.size
        result1 := usesWpFlags (R.anyLeaf fun l => l.predictor == .weighted) (R.anyDecision fun k => k == 15)
        busy := false
        done := true } :=
  exec_of_ok_two (i := .treeCompact) ho
    ((treeCompactBody_eq s).trans (by rw [ht]; simp only [if_pos ((zeroFrom_one_iff _).2 hflags), hR]))

end

/-- Settles O42: a legal tree compactifies, and a decision that stays tests a property with no fixed value. -/
theorem treeCompactReportsResidual : Obligations.TreeCompactReportsResidual := by
  refine fun s => ⟨exec_treeCompact_badArg, fun nodes ho ht hflags hwf => ?_⟩
  obtain ⟨R, hR⟩ := compactify_exists hwf (compactFix s.latched.args)
  refine ⟨R, compactFix_eq hflags ▸ hR,
    residual_anyDecision (fun _ => compactFix_unfixed hflags) _ 0 R hR, ?_⟩
  rw [exec_treeCompact_ok ho ht hflags hR, usesWpFlags_eq]

/-! ### Where a walk ends (R285) -/

section
variable {nodes : List Node} {P : Nat → Except Stop Int}

theorem walk_ok_leaf : ∀ {depth n m : Nat} {l : Leaf}, walk nodes P depth n = .ok (m, l) → nodes[m]? = some (.leaf l)
  | 0, _, _, _, h => nomatch h
  | depth + 1, n, m, l, h => by
    cases hn : nodes[n]? with
    | none => rw [walk, hn] at h; cases h
    | some node =>
      cases node with
      | leaf l' => rw [walk_leaf hn] at h; cases h; exact hn
      | decision k v lc rc =>
        rw [walk_decision hn] at h
        cases hx : P k with
        | error e => rw [hx] at h; cases h
        | ok x => rw [hx] at h; exact walk_ok_leaf h

/-- In a legal tree every child comes after its node, so a walk that no property stops ends at a leaf. -/
theorem walk_ends (hwf : TreeWf nodes)
    (hP : ∀ (n k : Nat) (v : Int) (lc rc : Nat), nodes[n]? = some (.decision k v lc rc) → ∃ x, P k = .ok x) :
    ∀ depth n, n < nodes.length → nodes.length ≤ n + depth → ∃ m l, walk nodes P depth n = .ok (m, l)
  | 0, n, hlt, hdepth => by omega
  | depth + 1, n, hlt, hdepth => by
    have hn := List.getElem?_eq_getElem hlt
    cases hnode : nodes[n] with
    | leaf l => exact ⟨n, l, walk_leaf (hn.trans (congrArg some hnode))⟩
    | decision k v lc rc =>
      rw [hnode] at hn
      obtain ⟨x, hx⟩ := hP n k v lc rc hn
      obtain ⟨hlc, hrc, hlc', hrc'⟩ := hwf.child_lt hn
      rw [walk_decision_ok hn hx]
      split
      · exact walk_ends hwf hP depth lc hlc' (by omega)
      · exact walk_ends hwf hP depth rc hrc' (by omega)

end

/-! ### `TREE_WALK` -/

section
variable {s : State}

theorem exec_treeWalk_absent (h : s.tree? s.latched.args.arg0 = none ∨
    s.channels.length ≤ s.latched.args.arg1.toNat) :
    exec .treeWalk s = .next (s.latchFault (.contractViolation .badArg)) := by
  refine exec_of_raise (i := .treeWalk) ((treeWalkBody_eq s).trans ?_)
  cases ht : s.tree? s.latched.args.arg0 with
  | none => rfl
  | some nodes =>
    have hlen : s.channels.length ≤ s.latched.args.arg1.toNat := h.resolve_left (by simp [ht])
    rw [List.getElem?_eq_none hlen]

variable {nodes : List Node} {ch : Channel} (ht : s.tree? s.latched.args.arg0 = some nodes)
  (hch : s.channels[s.latched.args.arg1.toNat]? = some ch)
include ht hch

theorem exec_treeWalk_outside (h : ch.width ≤ s.latched.args.arg2.toNat ∨ ch.height ≤ s.latched.args.arg3.toNat) :
    exec .treeWalk s = .next (s.latchFault (.contractViolation .badArg)) :=
  exec_of_raise (i := .treeWalk) ((treeWalkBody_eq s).trans (by rw [ht, hch]; exact if_neg (by omega)))

variable (hx : s.latched.args.arg2.toNat < ch.width) (hy : s.latched.args.arg3.toNat < ch.height)
include hx hy

theorem exec_treeWalk_ok {n : Nat} {l : Leaf} (ho : s.overrun = false)
    (h : walk nodes (walkProperty s ch) nodes.length 0 = .ok (n, l)) :
    exec .treeWalk s = .next
      { s with
        result0 := Word.ofNat n
        result1 := Word.ofNat l.context
        result2 := Word.ofNat l.predictor.id
        busy := false
        done := true } :=
  exec_of_ok_three (i := .treeWalk) ho
    ((treeWalkBody_eq s).trans (by rw [ht, hch]; exact (if_pos ⟨hx, hy⟩).trans (by rw [h])))

theorem exec_treeWalk_error {f : BlockFault} (h : walk nodes (walkProperty s ch) nodes.length 0 = .error (.raise f)) :
    exec .treeWalk s = .next (s.latchFault f) :=
  exec_of_raise (i := .treeWalk)
    ((treeWalkBody_eq s).trans (by rw [ht, hch]; exact (if_pos ⟨hx, hy⟩).trans (by rw [h])))

end

/-- Settles O44, by how the walk ends; in a legal tree it gets to a leaf when no property stops it. -/
theorem treeWalkReportsLeaf : Obligations.TreeWalkReportsLeaf := fun _ =>
  ⟨exec_treeWalk_absent, fun _ _ ht hch => ⟨exec_treeWalk_outside ht hch, fun hx hy =>
    ⟨fun _ _ ho hw => ⟨walk_ok_leaf hw, exec_treeWalk_ok ht hch hx hy ho hw⟩,
      fun _ => exec_treeWalk_error ht hch hx hy,
      fun hwf hP => walk_ends hwf hP _ 0 (List.length_pos_iff.2 hwf.1) (by omega)⟩⟩⟩

end Sys2Proof.Machine

/-! ## `TREE_LOAD` (`43_ma_tree.md` R270 to R274) -/

namespace Sys2Proof.Machine

/-! ### The command (R270) -/

section
variable {s : State} {b b' : BitSource} {t : List Node × Nat}

theorem isTree_iff (a : Word) : isTree a = true ↔ a.toNat < 2 := decide_eq_true_iff

theorem exec_treeLoad_badArg (h : 2 ≤ s.latched.args.arg0.toNat) :
    exec .treeLoad s = .next (s.latchFault (.contractViolation .badArg)) :=
  exec_of_raise (i := .treeLoad) ((treeLoadBody_eq s).trans (if_neg (by rw [isTree_iff]; omega)))

variable (htree : s.latched.args.arg0.toNat < 2)
include htree

theorem exec_treeLoad_badSlot (h : 8 ≤ s.latched.args.arg1.toNat) :
    exec .treeLoad s = .next (s.latchFault (.contractViolation .badSlot)) :=
  exec_of_raise (i := .treeLoad) ((treeLoadBody_eq s).trans
    ((if_pos ((isTree_iff _).2 htree)).trans (if_neg (by rw [isSlot_iff]; omega))))

variable (hslot : s.latched.args.arg1.toNat < 8)
include hslot

theorem exec_treeLoad_tree_error {f : BlockFault} (h : readTree s.source = .error (.raise f) b) :
    exec .treeLoad s = .next ((s.setSource b).latchFault f) :=
  exec_of_raise (i := .treeLoad) ((treeLoadBody_eq s).trans (by
    rw [if_pos ((isTree_iff _).2 htree), if_pos ((isSlot_iff _).2 hslot), h]))

section
variable (ht : readTree s.source = .ok t b)
include ht

theorem exec_treeLoad_data_error {f : BlockFault} (h : readEntropyStream t.2 false b = .error (.raise f) b') :
    exec .treeLoad s = .next ((s.setSource b').latchFault f) :=
  exec_of_raise (i := .treeLoad) ((treeLoadBody_eq s).trans (by
    rw [if_pos ((isTree_iff _).2 htree), if_pos ((isSlot_iff _).2 hslot), ht]
    simp only [h]))

theorem exec_treeLoad_ok {data : StreamConfig} (ho : s.overrun = false)
    (h : readEntropyStream t.2 false b = .ok data b') :
    exec .treeLoad s = .next
      { ((s.setSource b').setTree s.latched.args.arg0.toNat t.1).setSlot s.latched.args.arg1.toNat
          (some { config := data, coder := {} }) with
        result0 := Word.ofNat t.1.length
        result1 := Word.ofNat t.2
        busy := false
        done := true } :=
  exec_of_ok_two (i := .treeLoad) (t := ((s.setSource b').setTree _ _).setSlot _ _) ho
    ((treeLoadBody_eq s).trans (by
      rw [if_pos ((isTree_iff _).2 htree), if_pos ((isSlot_iff _).2 hslot), ht]
      simp only [h]))

end

end

/-! ### Clusters with one symbol (`41_symbol_distribution.md` R190, R191) -/

/-- The bits of the alphabet size `A`. -/
def alphabetSizeBits (A : Nat) : List Bool :=
  if A = 1 then [false]
  else true :: fieldBits 4 (Nat.log 2 (A - 1)) ++ fieldBits (Nat.log 2 (A - 1)) (A - 1 - 2 ^ Nat.log 2 (A - 1))

/-- The bits of the code whose only symbol is `v`. -/
def loneCodeBits (A v : Nat) : List Bool := if A = 1 then [] else simpleCodeBits A [v]

section
variable {A v : Nat}

theorem parses_readPrefixAlphabetSize (h1 : 1 ≤ A) (hA : A ≤ 32768) :
    Parses readPrefixAlphabetSize (alphabetSizeBits A) A := by
  rw [alphabetSizeBits]
  split
  · next h => exact h ▸ parses_readPrefixAlphabetSize_one
  · have hlow : 2 ^ Nat.log 2 (A - 1) ≤ A - 1 := Nat.pow_log_le_self 2 (by omega)
    have hhigh : A - 1 < 2 ^ Nat.log 2 (A - 1) * 2 := Nat.lt_pow_succ_log_self Nat.one_lt_two _
    have hlog : Nat.log 2 (A - 1) < 16 := Nat.log_lt_of_lt_pow (by omega) (by omega)
    have hsize : 1 + 2 ^ Nat.log 2 (A - 1) + (A - 1 - 2 ^ Nat.log 2 (A - 1)) = A := by omega
    have hread := (readPrefixAlphabetSize_reads hlog (v := A - 1 - 2 ^ Nat.log 2 (A - 1)) (by omega)).1
    rw [hsize] at hread
    exact hread hA

theorem parses_readPrefixCode_lone (hv : v < A) : Parses (readPrefixCode A) (loneCodeBits A v) (.zeroBits v) := by
  rw [loneCodeBits]
  split
  · next h =>
    obtain rfl : v = 0 := by omega
    exact h ▸ parses_pure _
  · exact readPrefixCode_single (symbols := [v]) (by omega) (Nat.le_refl 1) (Nat.le_add_left 1 3) (by simpa using hv)
      (List.nodup_singleton v) rfl

end

/-! ### Program P1 (`95_test_vectors.md` section 3) -/

/-- The configuration of every cluster of program P1. -/
def configP1 : HybridConfig where
  splitExponent := 4
  msbInToken := 0
  lsbInToken := 0

/-- A cluster of program P1: the only symbol of its alphabet of `A` is `v`. -/
def distP1 (A v : Nat) : PrefixDist where
  config := configP1
  alphabetSize := A
  code := .zeroBits v

theorem configP1_written : configP1.Written 15 := ⟨⟨by decide, by decide⟩, fun h => absurd h (by decide)⟩

/-- The symbol of a cluster whose code takes no bits. -/
def loneSymbol (d : PrefixDist) : Nat :=
  match d.code with
  | .zeroBits v => v
  | .canonical _ => 0

theorem configBits_configP1 : configBits 15 configP1 = fieldBits 10 4 := by
  rw [configBits, ← ceilLog2_eq, ← ceilLog2_eq, ← ceilLog2_eq]
  decide

/-- The bits after the kind bit of a coding of such clusters. -/
def codingBitsP1 (ds : List PrefixDist) : List Bool :=
  ds.flatMap (fun _ => fieldBits 10 4) ++ ds.flatMap (fun d => alphabetSizeBits d.alphabetSize) ++
    ds.flatMap fun d => loneCodeBits d.alphabetSize (loneSymbol d)

theorem parses_codingP1 {ds : List PrefixDist} (h : ∀ d ∈ ds, ∃ A v, d = distP1 A v ∧ v < A ∧ A ≤ 32768) :
    Parses (readPrefixCoding ds.length) (codingBitsP1 ds) (.prefixCode ds) := by
  have hconfigs : ds.flatMap (fun _ => fieldBits 10 4) = ds.flatMap fun d => configBits 15 d.config := by
    refine List.flatMap_congr fun d hd => ?_
    obtain ⟨A, v, rfl, -, -⟩ := h d hd
    exact configBits_configP1.symm
  rw [codingBitsP1, hconfigs]
  refine parses_readPrefixCoding fun d hd => ?_
  obtain ⟨A, v, rfl, hv, hA⟩ := h d hd
  exact ⟨configP1_written, parses_readPrefixAlphabetSize (Nat.one_le_of_lt hv) hA, parses_readPrefixCode_lone hv⟩

/-- The tree stream of program P1: the context of the offset has the symbol 10, every other context the symbol 0. -/
def treeStreamP1 : StreamConfig where
  clusterMap := [0, 0, 0, 1, 0, 0]
  lz77 := none
  coding := .prefixCode [distP1 1 0, distP1 11 10]

/-- The data stream of program P1: one context, with the symbol 6. -/
def dataStreamP1 : StreamConfig where
  clusterMap := [0]
  lz77 := none
  coding := .prefixCode [distP1 7 6]

/-- The bits of the tree stream: no LZ77, a simple cluster map with ids of one bit, and the coding. -/
def treeBitsP1 : List Bool :=
  [false] ++ (true :: (fieldBits 2 1 ++ [0, 0, 0, 1, 0, 0].flatMap (fieldBits 1))) ++
    true :: codingBitsP1 [distP1 1 0, distP1 11 10]

/-- The bits of the data stream: no LZ77 and the coding; one context needs no cluster map. -/
def dataBitsP1 : List Bool := [false] ++ [] ++ true :: codingBitsP1 [distP1 7 6]

theorem bitsP1_eq : fieldBits 74 0x030C5012A14700802486 = treeBitsP1 ++ dataBitsP1 := by decide

theorem parses_treeStreamP1 : Parses (readEntropyStream 6 false) treeBitsP1 treeStreamP1 := by
  have hcoding := parses_codingP1 (ds := [distP1 1 0, distP1 11 10]) (by
    simpa using ⟨⟨1, 0, rfl, by decide⟩, ⟨11, 10, rfl, by decide⟩⟩)
  have hmap := (readClusterMap_simple (nbits := 1) (map := [0, 0, 0, 1, 0, 0]) (by decide) (by decide) (by decide)).1
    (by decide)
  exact parses_readEntropyStream (.inl ⟨_, rfl, hcoding⟩) (parses_readLz77_off false) hmap rfl

theorem parses_dataStreamP1 : Parses (readEntropyStream 1 false) dataBitsP1 dataStreamP1 := by
  have hcoding := parses_codingP1 (ds := [distP1 7 6]) (by simpa using ⟨7, 6, rfl, by decide⟩)
  exact parses_readEntropyStream (.inl ⟨_, rfl, hcoding⟩) (parses_readLz77_off false) parses_readClusterMap_one rfl

/-- The nodes and the final check of a tree stream, as `ReadTree` reads them (R271). -/
def treeNodes (cfg : StreamConfig) : Parse TreeBuild := onFreshStream do
  let b ← readNodes cfg Config.maxNodes 1 { rev := [], count := 0, leafCount := 0 }
  let c ← theCoder
  validateFinal cfg c
  pure b

theorem readTree_eq : readTree = (do
    let cfg ← readEntropyStream 6 false
    let b ← treeNodes cfg
    pure (b.rev.reverse, b.leafCount)) := rfl

/-- The leaf of program P1. -/
def leafP1 : Leaf where
  context := 0
  predictor := .zero
  offset := 5
  multiplier := 1

/-- Every symbol of the tree stream takes no bits, so the nodes are computed whatever the Bit Source holds. -/
theorem treeNodes_treeStreamP1 :
    Parses (treeNodes treeStreamP1) [] { rev := [.leaf leafP1], count := 1, leafCount := 1 } := fun _ _ => rfl

theorem parses_treeP1 : Parses readTree treeBitsP1 ([.leaf leafP1], 1) := by
  rw [readTree_eq]
  exact parses_treeStreamP1.bind_nil (treeNodes_treeStreamP1.bind_nil (parses_pure _))

theorem bitsP1_length : treeBitsP1.length + dataBitsP1.length = 74 := by
  rw [← List.length_append, ← bitsP1_eq, fieldBits_length]

/-- Over the bits of program P1 both parses complete, and 74 bits are consumed. -/
theorem readP1 {b : BitSource} {rest : List Bool} (h : b.rest = fieldBits 74 0x030C5012A14700802486 ++ rest) :
    ∃ b', readTree b = .ok ([.leaf leafP1], 1) b' ∧
      readEntropyStream 1 false b' = .ok dataStreamP1 { rest := rest, pos := b.pos + 74 } := by
  rw [bitsP1_eq, List.append_assoc] at h
  refine ⟨_, parses_treeP1.over h, ?_⟩
  rw [parses_dataStreamP1 rest, Nat.add_assoc, bitsP1_length]

/-- Settles O41: the command from its closed form, what a parsed tree is from `readTree_runs`, and program P1 from the
parses of its two streams. -/
theorem treeLoadStoresTree : Obligations.TreeLoadStoresTree := by
  refine fun s => ⟨exec_treeLoad_badArg, exec_treeLoad_badSlot, fun htree hslot =>
    ⟨fun nodes leafCount b data b' ho ht hdata => ⟨exec_treeLoad_ok htree hslot ht ho hdata, (readTree_runs.ok ht).2⟩,
      fun _ _ => exec_treeLoad_tree_error htree hslot,
      fun _ _ _ _ _ ht => exec_treeLoad_data_error htree hslot ht, fun rest ho hbits => ?_⟩⟩
  obtain ⟨b, ht, hdata⟩ := readP1 hbits
  exact exec_treeLoad_ok htree hslot ht ho hdata

end Sys2Proof.Machine

/-! ## The neighbours of a pixel and the predictors (`44_channel_decoder.md` R310, R320 to R322) -/

namespace Sys2Proof.Machine

/-! ### Neighbours -/

section
variable {p : Plane} {f : Nat → Nat → Int} {x y : Nat}

/-- What is known before a position is known before every earlier one of its row. -/
theorem KnownBefore.mono (h : KnownBefore p f x y) {x' : Nat} (hx' : x' ≤ x) : KnownBefore p f x' y :=
  fun a b ha hb => h a b ha (by omega)

variable (hx : x < p.w) (h : KnownBefore p f x y)
include hx h

theorem KnownBefore.W_eq : p.W x y = .ok (neighboursOf f p.w x y).W := by
  unfold Plane.W neighboursOf
  split
  · exact h _ _ (by omega) (by omega)
  · split
    · exact h _ _ hx (by omega)
    · rfl

theorem KnownBefore.N_eq : p.N x y = .ok (neighboursOf f p.w x y).N := by
  rw [Plane.N, h.W_eq hx]
  unfold neighboursOf
  split
  · exact h _ _ hx (by omega)
  · rfl

theorem KnownBefore.NW_eq : p.NW x y = .ok (neighboursOf f p.w x y).NW := by
  rw [Plane.NW, h.W_eq hx]
  unfold neighboursOf
  split
  · exact h _ _ (by omega) (by omega)
  · rfl

theorem KnownBefore.NE_eq : p.NE x y = .ok (neighboursOf f p.w x y).NE := by
  rw [Plane.NE, h.N_eq hx]
  unfold neighboursOf
  split
  · exact h _ _ (by omega) (by omega)
  · rfl

theorem KnownBefore.WW_eq : p.WW x y = .ok (neighboursOf f p.w x y).WW := by
  rw [Plane.WW, h.W_eq hx]
  unfold neighboursOf
  split
  · exact h _ _ (by omega) (by omega)
  · rfl

theorem KnownBefore.NN_eq : p.NN x y = .ok (neighboursOf f p.w x y).NN := by
  rw [Plane.NN, h.N_eq hx]
  unfold neighboursOf
  split
  · exact h _ _ hx (by omega)
  · rfl

theorem KnownBefore.NEE_eq : p.NEE x y = .ok (neighboursOf f p.w x y).NEE := by
  rw [Plane.NEE, h.NE_eq hx]
  unfold neighboursOf
  split
  · exact h _ _ (by omega) (by omega)
  · rfl

end

/-! ### The arithmetic of the predictors -/

theorem iabs_eq (v : Int) : iabs v = |v| := by
  unfold iabs
  split
  · exact (abs_of_neg ‹_›).symm
  · exact (abs_of_nonneg (by omega)).symm

/-- Comparing `|p - a|` with `|p - b|` for `p = a + b - c` is comparing `|b - c|` with `|a - c|` (R321). -/
theorem selectPredict_eq (tie : Config.SelectTie) (w n nw : Int) : selectPredict tie w n nw =
    if |n - nw| < |w - nw| then w else if |n - nw| = |w - nw| ∧ tie = .west then w else n := by
  have hw : w + n - nw - w = n - nw := by omega
  have hn : w + n - nw - n = w - nw := by omega
  simp only [selectPredict, iabs_eq, hw, hn]

theorem clampedGradient_eq (w n nw : Int) :
    clampedGradient w n nw = max (min w n) (min (max w n) (w + n - nw)) := rfl

/-- The value of a predictor from the neighbours' values (R320). -/
def predictOf (b : Neighbours) (wp : Int) : Predictor → Int
  | .zero => 0
  | .west => b.W
  | .north => b.N
  | .average => (b.W + b.N).tdiv 2
  | .select => selectPredict Config.selectTie b.W b.N b.NW
  | .clampedGradient => clampedGradient b.W b.N b.NW
  | .weighted => wp
  | .northEast => b.NE
  | .northWest => b.NW
  | .westWest => b.WW
  | .averageWestNorthWest => (b.W + b.NW).tdiv 2
  | .averageNorthNorthWest => (b.N + b.NW).tdiv 2
  | .averageNorthNorthEast => (b.N + b.NE).tdiv 2
  | .weightedSum => (6 * b.N - 2 * b.NN + 7 * b.W + b.WW + b.NEE + 3 * b.NE + 8).tdiv 16

/-- Over known samples a predictor is a function of the neighbours' values. -/
theorem KnownBefore.predict_eq {p : Plane} {f : Nat → Nat → Int} {x y : Nat} (hx : x < p.w) (h : KnownBefore p f x y)
    (q : Predictor) (wp : Int) : predict q p x y wp = .ok (predictOf (neighboursOf f p.w x y) wp q) := by
  cases q <;>
    simp only [predict, h.W_eq hx, h.N_eq hx, h.NW_eq hx, h.NE_eq hx, h.WW_eq hx, h.NN_eq hx, h.NEE_eq hx] <;> rfl

/-- Settles O49: the neighbours are known, and every predictor is its formula over them. -/
theorem neighboursAndPredictors : Obligations.NeighboursAndPredictors := by
  intro p f x y wp hx h b
  have hp := fun q => h.predict_eq hx q wp
  have hselect : predict .select p x y wp = .ok (selectPredict Config.selectTie b.W b.N b.NW) := hp .select
  rw [selectPredict_eq] at hselect
  refine ⟨⟨h.W_eq hx, h.N_eq hx, h.NW_eq hx, h.NE_eq hx, h.WW_eq hx, h.NN_eq hx, h.NEE_eq hx⟩, hp .zero, hp .west,
    hp .north, hp .average, fun hlt => ?_, fun hlt => ?_, fun heq => ?_, hp .clampedGradient, hp .weighted,
    hp .northEast, hp .northWest, hp .westWest, hp .averageWestNorthWest, hp .averageNorthNorthWest,
    hp .averageNorthNorthEast, hp .weightedSum⟩
  · rw [hselect, if_pos hlt]
  · rw [hselect, if_neg (by omega), if_neg (by omega)]
  · rw [hselect, if_neg (by omega)]
    cases htie : Config.selectTie <;> simp [heq]

end Sys2Proof.Machine

/-! ## The properties of a pixel (`44_channel_decoder.md` R302, R315 to R317) -/

namespace Sys2Proof.Machine

/-! ### Reference channels (R302, R316) -/

theorem Channel.sameShape_iff (a b : Channel) : a.sameShape b = true ↔ a.shape = b.shape := by
  simp [Channel.sameShape, Channel.shape, and_assoc]

/-- Where `refs(c)` finds its channels in the channel list: nearest first. -/
def refIndices (channels : List Channel) (c : Nat) (ch : Channel) : List Nat :=
  ((List.range c).filter fun j => channels[j]?.any (·.sameShape ch)).reverse

section
variable {channels : List Channel} {ch : Channel}

theorem mem_refIndices {c j : Nat} :
    j ∈ refIndices channels c ch ↔ j < c ∧ ∃ r, channels[j]? = some r ∧ r.shape = ch.shape := by
  simp [refIndices, Option.any_eq_true, Channel.sameShape_iff]

theorem refIndices_descending (c : Nat) : (refIndices channels c ch).Pairwise fun j j' => j' < j :=
  List.pairwise_reverse.2 (List.pairwise_lt_range.filter _)

theorem refChannels_eq (c : Nat) :
    (refChannels channels c ch).map some = (refIndices channels c ch).map fun j => channels[j]? := by
  rw [refChannels, refIndices, List.map_reverse, List.map_reverse]
  congr 1
  induction c with
  | zero => simp
  | succ c ih =>
    rw [List.take_add_one, List.range_succ, List.filter_append, List.filter_append, List.map_append, List.map_append, ih]
    congr 1
    cases hc : channels[c]? with
    | none => simp [hc]
    | some r => cases hr : r.sameShape ch <;> simp [hc, hr]

end

/-! ### The properties by their numbers -/

section
variable {ctx : PropertyContext} {maxErr : Except Stop Int} {x y : Nat}

/-- The properties from 16 up are asked of a reference channel (R316). -/
theorem property_cross (k : Nat) : property ctx maxErr x y (16 + k) =
    match ctx.refs[k / 4]? with
    | some r => crossProperty { w := r.width, m := r.samples } (k % 4) x y
    | none => .error (.raise (.invalidBitstream .badProperty)) := by
  rw [Nat.add_comm]
  rfl

theorem property_cross_absent {k : Nat} (hk : 16 ≤ k) (h : ctx.refs.length ≤ (k - 16) / 4) :
    property ctx maxErr x y k = .error (.raise (.invalidBitstream .badProperty)) := by
  obtain ⟨j, rfl⟩ := Nat.exists_eq_add_of_le hk
  rw [Nat.add_sub_cancel_left] at h
  rw [property_cross, List.getElem?_eq_none h]

theorem property_cross_present {q r : Nat} {ref : Channel} (hr : r < 4) (h : ctx.refs[q]? = some ref) :
    property ctx maxErr x y (16 + 4 * q + r) = crossProperty { w := ref.width, m := ref.samples } r x y := by
  have hq : (4 * q + r) / 4 = q := by omega
  have hr' : (4 * q + r) % 4 = r := by omega
  rw [Nat.add_assoc, property_cross, hq, hr', h]

end

/-- Over known samples around the position, a cross-channel property compares the sample with its clamped gradient. -/
theorem crossProperty_eq {p : Plane} {t : Nat → Nat → Int} {x y : Nat}
    (h : ∀ x' y', x' ≤ x → x ≤ x' + 1 → y' ≤ y → y ≤ y' + 1 → p.at x' y' = .ok (t x' y')) (r : Nat) :
    let gW := if 0 < x then t (x - 1) y else 0
    let gN := if 0 < y then t x (y - 1) else gW
    let gNW := if 0 < x ∧ 0 < y then t (x - 1) (y - 1) else gW
    let g := clampedGradient gW gN gNW
    crossProperty p r x y = .ok
      (if r = 0 then |t x y| else if r = 1 then t x y else if r = 2 then |t x y - g| else t x y - g) := by
  intro gW gN gNW g
  have hW : (if 0 < x then p.at (x - 1) y else .ok 0) = .ok gW := by
    rw [h _ _ (by omega) (by omega) (by omega) (by omega), ← apply_ite Except.ok]
  have hN : (if 0 < y then p.at x (y - 1) else .ok gW) = .ok gN := by
    rw [h _ _ (by omega) (by omega) (by omega) (by omega), ← apply_ite Except.ok]
  have hNW : (if 0 < x ∧ 0 < y then p.at (x - 1) (y - 1) else .ok gW) = .ok gNW := by
    rw [h _ _ (by omega) (by omega) (by omega) (by omega), ← apply_ite Except.ok]
  simp only [crossProperty, h x y (by omega) (by omega) (by omega) (by omega), hW, hN, hNW, ← iabs_eq, bind, Except.bind]
  rfl

theorem KnownBefore.gradientProperty_eq {p : Plane} {f : Nat → Nat → Int} {x y : Nat} (hx : x < p.w)
    (h : KnownBefore p f x y) : gradientProperty p x y =
      .ok ((neighboursOf f p.w x y).W + (neighboursOf f p.w x y).N - (neighboursOf f p.w x y).NW) := by
  rw [gradientProperty, h.W_eq hx, h.N_eq hx, h.NW_eq hx]
  rfl

/-- Settles O50: `refs(c)` is found index by index, and each property is its expression over the known neighbours. -/
theorem pixelProperties : Obligations.PixelProperties := by
  refine ⟨fun channels c ch => ⟨refIndices channels c ch, fun j => mem_refIndices, refIndices_descending c,
    refChannels_eq c⟩, ?_⟩
  intro ctx f maxErr x y hx h b b' P
  have hW := h.W_eq hx
  have hN := h.N_eq hx
  have hNW := h.NW_eq hx
  have hleft := (h.mono (Nat.sub_le x 1)).gradientProperty_eq (by omega)
  refine ⟨rfl, rfl, rfl, rfl, ?_, ?_, hN, hW, ?_, h.gradientProperty_eq hx, ?_, ?_, ?_, ?_, ?_, rfl,
    fun k => property_cross_absent, ?_⟩
  · simp only [P, property, hN, iabs_eq]; rfl
  · simp only [P, property, hW, iabs_eq]; rfl
  · simp only [P, property, hW, hleft]
    exact (apply_ite Except.ok (0 < x) _ _).symm
  · simp only [P, property, hW, hNW]; rfl
  · simp only [P, property, hN, hNW]; rfl
  · simp only [P, property, hN, h.NE_eq hx]; rfl
  · simp only [P, property, hN, h.NN_eq hx]; rfl
  · simp only [P, property, hW, h.WW_eq hx]; rfl
  · intro q ref t hq ht v gW gN gNW g
    have hcross := fun r hr => (property_cross_present (maxErr := maxErr) (x := x) (y := y) hr hq).trans
      (crossProperty_eq (p := { w := ref.width, m := ref.samples }) ht r)
    exact ⟨hcross 0 (by omega), hcross 1 (by omega), hcross 2 (by omega), hcross 3 (by omega)⟩

end Sys2Proof.Machine

/-! ## Decoding the pixels of a channel (`44_channel_decoder.md` R332, R334, R340) -/

namespace Sys2Proof.Machine

/-! ### What a pixel reads of the samples before it -/

section
variable {w x y : Nat} {m m' : Memory} {f : Nat → Nat → Int}

theorem KnownBefore.wpPredict_eq {p : Plane} (hx : x < p.w) (h : KnownBefore p f x y) (q : WpParams) (st : WpState) :
    wpPredict q st p x y =
      let b := neighboursOf f p.w x y
      .ok (wpCompute q st p.w x y b.N b.W b.NE b.NW b.NN) := by
  rw [wpPredict, h.N_eq hx, h.W_eq hx, h.NE_eq hx, h.NW_eq hx, h.NN_eq hx]
  rfl

/-- Two sample stores with the same known samples before a pixel give it the same properties. -/
theorem KnownBefore.property_congr (hx : x < w) (h : KnownBefore { w := w, m := m } f x y)
    (h' : KnownBefore { w := w, m := m' } f x y) (c i : Nat) (refs : List Channel) (maxErr : Except Stop Int) :
    property { channel := c, streamId := i, plane := { w := w, m := m }, refs := refs } maxErr x y =
      property { channel := c, streamId := i, plane := { w := w, m := m' }, refs := refs } maxErr x y := by
  have hx1 : x - 1 < w := by omega
  have h1 := h.mono (Nat.sub_le x 1)
  have h1' := h'.mono (Nat.sub_le x 1)
  funext k
  simp only [property, h.W_eq hx, h.N_eq hx, h.NW_eq hx, h.NE_eq hx, h.WW_eq hx, h.NN_eq hx, h.gradientProperty_eq hx,
    h1.gradientProperty_eq hx1, h'.W_eq hx, h'.N_eq hx, h'.NW_eq hx, h'.NE_eq hx, h'.WW_eq hx, h'.NN_eq hx,
    h'.gradientProperty_eq hx, h1'.gradientProperty_eq hx1]

/-- The value of a sample that is there. -/
def sampleValue (w : Nat) (m : Memory) (x y : Nat) : Int := ((Memory.read m (y * w + x)).getD 0#32).toInt

theorem sampleAt_of_read {v : Word} (h : Memory.read m (y * w + x) = some v) : sampleAt w m x y = .ok v.toInt := by
  rw [sampleAt, h]

/-- The samples of `m` before a pixel are known in any store that holds them. -/
theorem knownBefore_of_read (h : ∀ k < y * w + x, ∃ v, Memory.read m k = some v ∧ Memory.read m' k = some v) :
    KnownBefore { w := w, m := m' } (sampleValue w m) x y := by
  intro x' y' hx' hbefore
  have hk : y' * w + x' < y * w + x := by
    rcases hbefore with hy | ⟨rfl, hlt⟩
    · have hw : x' < w := hx'
      calc y' * w + x' < y' * w + w := by omega
        _ = (y' + 1) * w := (Nat.succ_mul y' w).symm
        _ ≤ y * w := Nat.mul_le_mul_right w hy
        _ ≤ y * w + x := Nat.le_add_right _ _
    · omega
  obtain ⟨v, hm, hm'⟩ := h _ hk
  rw [sampleValue, hm]
  exact sampleAt_of_read hm'

end

/-! ### When a computation completes -/

section
variable {σ τ α β : Type} {s t : σ}

theorem eng_bind_eq_ok {m : Eng σ α} {k : α → Eng σ β} {b : β} :
    (m >>= k) s = .ok b t ↔ ∃ a u, m s = .ok a u ∧ k a u = .ok b t := by
  rw [eng_bind]
  cases m s <;> simp

theorem readState_bind (k : σ → Eng σ α) : ((fun s => .ok s s : Eng σ σ) >>= k) s = k s s := rfl

theorem ofExcept_eq_ok {x : Except Stop α} {a : α} : ofExcept x s = .ok a t ↔ x = .ok a ∧ t = s := by
  cases x <;> simp [eq_comm]

theorem onPart_eq_ok {get : σ → τ} {put : τ → σ → σ} {m : Eng τ α} {a : α} :
    onPart get put m s = .ok a t ↔ ∃ r, m (get s) = .ok a r ∧ t = put r s := by
  rw [onPart_apply]
  cases m (get s) <;> simp [eq_comm]

theorem checkBitstream_eq_ok {c : Prop} [Decidable c] {e : BitstreamError} {a : Unit} :
    checkBitstream c e s = .ok a t ↔ c ∧ t = s := by
  by_cases h : c <;> simp [h, eq_comm]

end

/-! ### One pixel -/

/-- The equation of one pixel over the samples `m`: its symbol is read in the context of the leaf that the walk ends
at, and gives with the leaf and the prediction the value `v` (R340); decoding goes from `s` to `t`. -/
def PixelEquation (j : DecodeJob) (m : Memory) (s t : PixelState) (x y : Nat) (v : Int) : Prop :=
  let plane : Plane := { w := j.width, m := m }
  let ctx : PropertyContext := { channel := j.channel, streamId := j.streamId, plane := plane, refs := j.refs }
  ∃ o n leaf tok pred,
    wpPredict j.params s.wp plane x y = .ok o ∧
    j.tree.walk (property ctx (.ok o.maxErr) x y) = .ok (n, leaf) ∧
    readSymbol j.config leaf.context j.distMult s.reading = .ok tok t.reading ∧
    predict leaf.predictor plane x y o.pred = .ok pred ∧
    v = unpackSignedNat tok * leaf.multiplier + leaf.offset + pred ∧ inI32 v = true ∧
    t.wp = wpUpdate s.wp o j.width x y v

section
variable {j : DecodeJob} {x y : Nat} {s t : PixelState}

/-- Decoding a pixel completes exactly where its equation over the samples so far has a solution, which it writes. -/
theorem decodePixel_ok_iff : decodePixel j x y s = .ok () t ↔ ∃ v, PixelEquation j s.samples s t x y v ∧
    t.samples = Memory.write s.samples (y * j.width + x) (Word.ofInt v) := by
  rw [decodePixel, readState_bind]
  simp only [eng_bind_eq_ok, ofExcept_eq_ok, onPart_eq_ok, PixelEquation]
  constructor
  · rintro ⟨o, _, ⟨ho, rfl⟩, leaf, _, ⟨hleaf, rfl⟩, tok, _, ⟨r, htok, rfl⟩, pred, _, ⟨hpred, rfl⟩, ht⟩
    obtain ⟨_, _, hcheck, hwrite⟩ := eng_bind_eq_ok.1 ht
    obtain ⟨hv, rfl⟩ := checkBitstream_eq_ok.1 hcheck
    cases hwrite
    exact ⟨_, ⟨o, leaf.1, leaf.2, tok, pred, ho, hleaf, htok, hpred, rfl, hv, rfl⟩, rfl⟩
  · rintro ⟨v, ⟨o, n, leaf, tok, pred, ho, hleaf, htok, hpred, rfl, hv, hwp⟩, hm⟩
    refine ⟨o, s, ⟨ho, rfl⟩, (n, leaf), s, ⟨hleaf, rfl⟩, tok, _, ⟨t.reading, htok, rfl⟩, pred, _, ⟨hpred, rfl⟩,
      eng_bind_eq_ok.2 ⟨(), _, checkBitstream_eq_ok.2 ⟨hv, rfl⟩, ?_⟩⟩
    cases t
    cases hm
    cases hwp
    rfl

/-- An equation only asks for the samples before its pixel. -/
theorem PixelEquation.congr {m m' : Memory} {f : Nat → Nat → Int} {v : Int} (hx : x < j.width)
    (hm : KnownBefore { w := j.width, m := m } f x y) (hm' : KnownBefore { w := j.width, m := m' } f x y)
    (h : PixelEquation j m s t x y v) : PixelEquation j m' s t x y v := by
  obtain ⟨o, n, leaf, tok, pred, ho, hleaf, htok, hpred, hv⟩ := h
  refine ⟨o, n, leaf, tok, pred, ?_, ?_, htok, ?_, hv⟩
  · rw [← ho, hm.wpPredict_eq hx, hm'.wpPredict_eq hx]
  · rw [← hleaf, hm.property_congr hx hm']
  · rw [← hpred, hm.predict_eq hx, hm'.predict_eq hx]

end

/-! ### All pixels -/

/-- What decoding from `s` has come to after `p` pixels, in row-major order, while it completes. -/
def pixelsAfter (j : DecodeJob) (s : PixelState) : Nat → PixelState
  | 0 => s
  | p + 1 =>
    match decodePixel j (p % j.width) (p / j.width) (pixelsAfter j s p) with
    | .ok _ t => t
    | .error _ t => t

section
variable {j : DecodeJob} {s t : PixelState}

/-- Every pixel among the first `n` completes. -/
def PixelsDecode (j : DecodeJob) (s : PixelState) (n : Nat) : Prop :=
  ∀ p < n, decodePixel j (p % j.width) (p / j.width) (pixelsAfter j s p) = .ok () (pixelsAfter j s (p + 1))

theorem decodePixels_ok : ∀ {left p : Nat}, PixelsDecode j s p →
    decodePixels j left p (pixelsAfter j s p) = .ok () t → PixelsDecode j s (p + left) ∧ t = pixelsAfter j s (p + left)
  | 0, p, hp, h => by cases h; exact ⟨hp, rfl⟩
  | left + 1, p, hp, h => by
    obtain ⟨⟨⟩, u, hu, hrest⟩ := eng_bind_eq_ok.1 h
    have hnext : pixelsAfter j s (p + 1) = u := by rw [pixelsAfter, hu]
    rw [← hnext] at hu hrest
    rw [← Nat.add_assoc, Nat.add_right_comm]
    refine decodePixels_ok (fun q hq => ?_) hrest
    rcases Nat.lt_succ_iff_lt_or_eq.1 hq with hlt | rfl
    · exact hp q hlt
    · exact hu

variable {n p : Nat} (h : PixelsDecode j s n)
include h

/-- The pixel at `p` writes the sample that solves its equation over the samples so far. -/
theorem PixelsDecode.step (hp : p < n) : ∃ v,
    PixelEquation j (pixelsAfter j s p).samples (pixelsAfter j s p) (pixelsAfter j s (p + 1)) (p % j.width) (p / j.width) v ∧
    (pixelsAfter j s (p + 1)).samples = Memory.write (pixelsAfter j s p).samples p (Word.ofInt v) := by
  have hstep := decodePixel_ok_iff.1 (h p hp)
  rwa [row_col] at hstep

/-- A sample stays as it is once its pixel is decoded. -/
theorem PixelsDecode.read_stable {k : Nat} (hk : k < p) (hp : p ≤ n) :
    Memory.read (pixelsAfter j s n).samples k = Memory.read (pixelsAfter j s p).samples k := by
  suffices hstable : ∀ d, p + d ≤ n →
      Memory.read (pixelsAfter j s (p + d)).samples k = Memory.read (pixelsAfter j s p).samples k by
    have hlast := hstable (n - p) (by omega)
    rwa [Nat.add_sub_cancel' hp] at hlast
  intro d
  induction d with
  | zero => exact fun _ => rfl
  | succ d ih =>
    intro hd
    obtain ⟨v, -, hwrite⟩ := h.step (p := p + d) (by omega)
    rw [← Nat.add_assoc, hwrite, Memory.read_write_other _ _ (by omega)]
    exact ih (by omega)

/-- Once `p` pixels are decoded, the samples before pixel `p` are known, and are the final ones. -/
theorem PixelsDecode.knownBefore (hp : p < n) {m : Memory}
    (hm : ∀ k < p, Memory.read m k = Memory.read (pixelsAfter j s n).samples k) :
    KnownBefore { w := j.width, m := m } (sampleValue j.width (pixelsAfter j s n).samples) (p % j.width) (p / j.width) := by
  refine knownBefore_of_read fun k hk => ?_
  rw [row_col] at hk
  obtain ⟨v, -, hwrite⟩ := h.step (Nat.lt_trans hk hp)
  have hv : Memory.read (pixelsAfter j s n).samples k = some (Word.ofInt v) := by
    rw [h.read_stable (Nat.lt_succ_self k) (by omega), hwrite, Memory.read_write_same]
  exact ⟨_, hv, (hm k hk).trans hv⟩

/-- Every sample solves its pixel's equation over the final samples. -/
theorem PixelsDecode.solves (hp : p < n) (hw : 0 < j.width) : ∃ v,
    PixelEquation j (pixelsAfter j s n).samples (pixelsAfter j s p) (pixelsAfter j s (p + 1)) (p % j.width) (p / j.width) v ∧
    Memory.read (pixelsAfter j s n).samples p = some (Word.ofInt v) := by
  obtain ⟨v, heq, hwrite⟩ := h.step hp
  refine ⟨v, heq.congr (Nat.mod_lt p hw) (h.knownBefore hp fun k hk => (h.read_stable hk hp.le).symm)
    (h.knownBefore hp fun k _ => rfl), ?_⟩
  rw [h.read_stable (Nat.lt_succ_self p) hp, hwrite, Memory.read_write_same]

end

end Sys2Proof.Machine

/-! ## `CH_DECODE` (`44_channel_decoder.md` R340, R341) -/

namespace Sys2Proof.Machine

/-- What decoding the pixels of a record starts from. -/
def pixelStart (s : State) (ch : Channel) (st : Stream) : PixelState where
  reading := { coder := st.coder, source := s.source }
  samples := ch.samples
  wp := {}

/-- The properties that the residual tree of a channel takes as fixed have those values at every pixel. -/
theorem property_of_fixed {ctx : PropertyContext} {maxErr : Except Stop Int} {x y k : Nat} {v : Int}
    (h : Frozen.value? { channel := ctx.channel, stream := ctx.streamId, row := none } k = some v) :
    property ctx maxErr x y k = .ok v := by
  match k, h with
  | 0, h => exact congrArg Except.ok (Option.some.inj h)
  | 1, h => exact congrArg Except.ok (Option.some.inj h)
  | 2, h => cases h
  | _ + 3, h => cases h

/-- What the residual tree of a channel takes as fixed (R341). -/
def decodeFix (s : State) : Frozen where
  channel := s.latched.args.arg0.toNat
  stream := s.latched.streamId.toNat
  row := none

/-- The state in which decoding the pixels of a record has ended in `p`, with the record marked. -/
def State.withDecoded (s : State) (i c : Nat) (ch : Channel) (st : Stream) (p : PixelState) : State :=
  ((s.setSource p.reading.source).setSlot i (some { st with coder := p.reading.coder })).setChannel c
    { ch with decoded := true, samples := p.samples }

section
variable {s t : State} {ch new : Channel} {nodes : List Node} {st : Stream} {c : Nat} {a : Word}

theorem markDecoded_eq (h : s.channels[c]? = some ch) :
    s.markDecoded c = s.setChannel c { ch with decoded := true } := by
  rw [State.markDecoded, List.modify_eq_set_getElem?, h]
  rfl

theorem markDecoded_setChannel (h : s.channels[c]? = some ch) :
    (s.setChannel c new).markDecoded c = s.setChannel c { new with decoded := true } := by
  have hset : (s.setChannel c new).channels[c]? = some new := by
    rw [State.setChannel_channels, List.getElem?_set_self (List.getElem?_eq_some_iff.1 h).1]
  rw [markDecoded_eq hset, State.setChannel, State.setChannel, List.set_set]
  rfl

theorem setSlot_self (h : s.stream? a = some st) : s.setSlot a.toNat (some st) = s := by
  have hslots : s.slots.setIfInBounds a.toNat (some st) = s.slots := by
    refine vector_eq_of_getElem? fun j => ?_
    rw [Vector.getElem?_setIfInBounds]
    split
    · next hj => rw [← hj, stream?_slot h, if_pos (Vector.getElem?_eq_some_iff.1 (stream?_slot h)).1]
    · rfl
  rw [State.setSlot, hslots]

theorem withDecoded_start (h : s.stream? a = some st) :
    s.withDecoded a.toNat c ch st (pixelStart s ch st) = s.setChannel c { ch with decoded := true } := by
  have hslot : (s.setSource s.source).setSlot a.toNat (some st) = s := setSlot_self h
  exact congrArg (fun t : State => t.setChannel c { ch with decoded := true }) hslot

theorem withDecoded_stream? (h : s.stream? a = some st) (p : PixelState) :
    (s.withDecoded a.toNat c ch st p).stream? a = some { st with coder := p.reading.coder } := by
  have hslot := (Vector.getElem?_eq_some_iff.1 (stream?_slot h)).1
  rw [State.stream?, State.withDecoded, State.setChannel_slots, State.setSlot_slots,
    Vector.getElem?_setIfInBounds_self_of_lt hslot]
  rfl

end

/-! ### The checks and what they lead to -/

section
variable {s : State} {ch : Channel} {nodes : List Node} {st : Stream} {R : RTree}

theorem exec_chDecode_badArg
    (h : s.channels.length ≤ s.latched.args.arg0.toNat ∨ s.tree? s.latched.args.arg1 = none) :
    exec .chDecode s = .next (s.latchFault (.contractViolation .badArg)) := by
  refine exec_of_raise (i := .chDecode) ((chDecodeBody_eq s).trans ?_)
  cases hch : s.channels[s.latched.args.arg0.toNat]? with
  | none => rfl
  | some ch =>
    have hlen := (List.getElem?_eq_some_iff.1 hch).1
    rw [h.resolve_left (by omega)]

variable (hch : s.channels[s.latched.args.arg0.toNat]? = some ch) (ht : s.tree? s.latched.args.arg1 = some nodes)
include hch ht

theorem exec_chDecode_badSlot (h : s.stream? s.latched.args.arg2 = none) :
    exec .chDecode s = .next (s.latchFault (.contractViolation .badSlot)) :=
  exec_of_raise (i := .chDecode) ((chDecodeBody_eq s).trans (by rw [hch, ht, h]))

variable (hst : s.stream? s.latched.args.arg2 = some st)
include hst

theorem chDecodeBody_decoded (h : ch.decoded = true) :
    chDecodeBody s = .error (.raise (.contractViolation .decodedTwice)) s := by
  rw [chDecodeBody_eq, hch, ht, hst]
  exact if_neg (by simp [h])

variable (hdec : ch.decoded = false)
include hdec

theorem chDecodeBody_empty (harea : ch.area = 0) :
    chDecodeBody s = .ok {} (s.setChannel s.latched.args.arg0.toNat { ch with decoded := true }) := by
  rw [chDecodeBody_eq, hch, ht, hst]
  simp only [if_pos hdec, if_pos harea, markDecoded_eq hch]

variable (harea : ch.area ≠ 0)
include harea

theorem chDecodeBody_error {e : Stop} {u : State} (h : decodeChannel s.latched.args ch nodes st s = .error e u) :
    chDecodeBody s = .error e u := by
  rw [chDecodeBody_eq, hch, ht, hst]
  simp only [if_pos hdec, if_neg harea, h]

theorem chDecodeBody_eq_ok {r : Results} {u : State} :
    chDecodeBody s = .ok r u ↔ r = {} ∧ decodeChannel s.latched.args ch nodes st s = .ok () u := by
  rw [chDecodeBody_eq, hch, ht, hst]
  simp only [if_pos hdec, if_neg harea]
  cases decodeChannel s.latched.args ch nodes st s <;> simp [eq_comm]

end

section
variable {s u : State} {ch : Channel} {nodes : List Node} {st : Stream} {R : RTree}
  (hR : compactify nodes (decodeFix s) = some R)
include hR

theorem decodeChannel_badContext (hctx : contextsFit R st.config = false) :
    decodeChannel s.latched.args ch nodes st s = .error (.raise (.contractViolation .badArg)) s := by
  rw [decodeFix] at hR
  rw [decodeChannel_eq, hR]
  exact if_neg (by simp [hctx])

theorem decodeChannel_badProperty (hctx : contextsFit R st.config = true)
    (hprop : propertiesFit R (refChannels s.channels s.latched.args.arg0.toNat ch).length = false) :
    decodeChannel s.latched.args ch nodes st s = .error (.raise (.invalidBitstream .badProperty)) s := by
  rw [decodeFix] at hR
  rw [decodeChannel_eq, hR]
  exact (if_pos hctx).trans (if_neg (by simp [hprop]))

theorem decodeChannel_eq_ok (hch : s.channels[s.latched.args.arg0.toNat]? = some ch) :
    decodeChannel s.latched.args ch nodes st s = .ok () u ↔ contextsFit R st.config = true ∧
      propertiesFit R (refChannels s.channels s.latched.args.arg0.toNat ch).length = true ∧
      ∃ p, decodePixels (decodeJob s s.latched.args.arg0.toNat ch R st) ch.area 0 (pixelStart s ch st) = .ok () p ∧
        u = s.withDecoded s.latched.args.arg2.toNat s.latched.args.arg0.toNat ch st p := by
  rw [decodeFix] at hR
  rw [decodeChannel_eq, hR, pixelStart]
  simp only
  split_ifs with hctx hprop
  · cases decodePixels (decodeJob s s.latched.args.arg0.toNat ch R st) ch.area 0
      { reading := { coder := st.coder, source := s.source }, samples := ch.samples, wp := {} } with
    | ok _ p =>
      simp [hctx, hprop, markDecoded_setChannel (s := (s.setSource p.reading.source).setSlot _ _) hch, State.withDecoded,
        eq_comm]
    | error e p => simp
  · simp [hprop]
  · simp [hctx]

end

end Sys2Proof.Machine

/-! ### The pixel equations of a completed `CH_DECODE` -/

namespace Sys2Proof.Machine

variable {s t u : State} {ch : Channel} {nodes : List Node} {st : Stream}

/-- A command that answers a state with no fault has completed its body, with no command write meanwhile. -/
theorem exec_completes {i : Instr} (h : exec i s = .next t) (hf : t.fault = none) :
    ∃ r u, commandBody i s = .ok r u ∧ t = u.complete r := by
  rcases exec_leaves h with ⟨r, u, hb, -, rfl⟩ | ⟨f, u, -, rfl⟩
  · exact ⟨r, u, hb, rfl⟩
  · simp [State.latchFault] at hf

/-- Over a legal tree a `CH_DECODE` that completes has decoded the pixels of its record, none if it is empty. -/
theorem chDecodeBody_completes {r : Results} (hch : s.channels[s.latched.args.arg0.toNat]? = some ch)
    (ht : s.tree? s.latched.args.arg1 = some nodes) (hwf : TreeWf nodes)
    (hst : s.stream? s.latched.args.arg2 = some st) (h : chDecodeBody s = .ok r u) :
    ∃ R p, compactify nodes (decodeFix s) = some R ∧
      decodePixels (decodeJob s s.latched.args.arg0.toNat ch R st) ch.area 0 (pixelStart s ch st) = .ok () p ∧
      u = s.withDecoded s.latched.args.arg2.toNat s.latched.args.arg0.toNat ch st p := by
  obtain ⟨R, hR⟩ := compactify_exists hwf (decodeFix s)
  cases hdec : ch.decoded with
  | true => rw [chDecodeBody_decoded hch ht hst hdec] at h; cases h
  | false =>
    by_cases harea : ch.area = 0
    · rw [chDecodeBody_empty hch ht hst hdec harea] at h
      cases h
      exact ⟨R, pixelStart s ch st, hR, by rw [harea]; rfl, (withDecoded_start hst).symm⟩
    · obtain ⟨-, hchannel⟩ := (chDecodeBody_eq_ok hch ht hst hdec harea).1 h
      obtain ⟨-, -, p, hp, hu⟩ := (decodeChannel_eq_ok hR hch).1 hchannel
      exact ⟨R, p, hR, hp, hu⟩

/-- The position of a pixel in row-major order, and back. -/
theorem pixel_position {w hgt x y : Nat} (hx : x < w) (hy : y < hgt) :
    y * w + x < w * hgt ∧ (y * w + x) % w = x ∧ (y * w + x) / w = y := by
  have hpos : 0 < w := by omega
  refine ⟨?_, ?_, ?_⟩
  · calc y * w + x < (y + 1) * w := by rw [Nat.succ_mul]; omega
      _ ≤ hgt * w := Nat.mul_le_mul_right w hy
      _ = w * hgt := Nat.mul_comm hgt w
  · rw [Nat.mul_comm, Nat.mul_add_mod, Nat.mod_eq_of_lt hx]
  · rw [Nat.mul_comm, Nat.mul_add_div hpos, Nat.div_eq_of_lt hx, Nat.add_zero]

/-- Settles O48: the pixels decode one after the other, each equation only asks for samples that are final by then, and
the residual tree walks to the leaf of the whole tree. -/
theorem chDecodeSolvesPixelEquations : Obligations.ChDecodeSolvesPixelEquations := by
  intro s t ch nodes st a c dm q _ hch ht hwf hst h hf
  obtain ⟨r, u, hbody, rfl⟩ := exec_completes h hf
  obtain ⟨R, p, hR, hp, rfl⟩ := chDecodeBody_completes hch ht hwf hst hbody
  have hall := decodePixels_ok (s := pixelStart s ch st) (p := 0) (fun _ hq => absurd hq (Nat.not_lt_zero _)) hp
  rw [Nat.zero_add] at hall
  obtain ⟨hdecode, rfl⟩ := hall
  let after := pixelsAfter (decodeJob s c ch R st) (pixelStart s ch st)
  refine ⟨(after ch.area).samples, fun k => (after k).reading, fun k => (after k).wp, ?_, rfl, rfl, ?_, ?_, ?_⟩
  · rw [State.complete_channels]; rfl
  · rw [State.complete_source]; rfl
  · rw [State.stream?, State.complete_slots]
    exact withDecoded_stream? hst _
  · intro x y hx hy
    obtain ⟨hlt, hmod, hdiv⟩ := pixel_position hx hy
    obtain ⟨v, ⟨o, n, leaf, tok, pred, ho, hleaf, htok, hpred, hv, hi32, hwp⟩, hread⟩ :=
      hdecode.solves hlt (Nat.zero_lt_of_lt hx)
    have hwidth : (decodeJob s c ch R st).width = ch.width := rfl
    rw [hwidth, hmod, hdiv] at ho hleaf hpred hwp
    refine ⟨o, n, leaf, tok, pred, v, ho, ?_, htok, hpred, hv, hi32, hread, hwp⟩
    rw [← hleaf]
    exact (residual_walk (fix := decodeFix s) (fun _ _ hfix => property_of_fixed hfix) _ 0 R hR).symm

/-! ### The checks of `CH_DECODE` -/

/-- Settles O46: the closed form of the command, check by check. -/
theorem chDecodeChecksFirst : Obligations.ChDecodeChecksFirst := by
  intro s a c
  refine ⟨exec_chDecode_badArg, fun ch nodes hch ht => ⟨exec_chDecode_badSlot hch ht, fun st hst => ⟨fun hdec => ?_,
    fun ho hdec hempty => ?_, fun R hdec hwidth hheight hR => ?_⟩⟩⟩
  · exact exec_of_raise (i := .chDecode) (chDecodeBody_decoded hch ht hst hdec)
  · have harea : ch.area = 0 := Nat.mul_eq_zero.2 hempty
    exact exec_of_ok_no_result (i := .chDecode) (t := s.setChannel c _) ho (chDecodeBody_empty hch ht hst hdec harea)
  · have harea : ch.area ≠ 0 := (Nat.mul_pos hwidth hheight).ne'
    refine ⟨fun hctx => ?_, fun hctx hprop => ?_⟩
    · exact exec_of_raise (i := .chDecode) (chDecodeBody_error hch ht hst hdec harea
        (decodeChannel_badContext hR (by simpa [contextsFit] using hctx)))
    · exact exec_of_raise (i := .chDecode) (chDecodeBody_error hch ht hst hdec harea
        (decodeChannel_badProperty hR (by simpa [contextsFit] using hctx)
          (by simpa [propertiesFit, Nat.shiftRight_eq_div_pow] using hprop)))

end Sys2Proof.Machine

/-! ## `CHL_CLEAR` and `CHL_APPEND` (`44_channel_decoder.md` R300, R301) -/

namespace Sys2Proof.Machine

section
variable {s : State}

theorem exec_chlAppend_badArg (h : 2 ^ 31 ≤ s.latched.args.arg0.toNat ∨ 2 ^ 31 ≤ s.latched.args.arg1.toNat) :
    exec .chlAppend s = .next (s.latchFault (.contractViolation .badArg)) :=
  exec_of_raise (i := .chlAppend) ((chlAppendBody_eq s).trans (if_neg (by rw [Config.maxDimension]; omega)))

variable (hwidth : s.latched.args.arg0.toNat < 2 ^ 31) (hheight : s.latched.args.arg1.toNat < 2 ^ 31)
include hwidth hheight

theorem chlAppend_dimensions :
    s.latched.args.arg0.toNat ≤ Config.maxDimension ∧ s.latched.args.arg1.toNat ≤ Config.maxDimension := by
  rw [Config.maxDimension]
  omega

theorem exec_chlAppend_exhausted (h : 4096 ≤ s.channels.length ∨
    Config.arenaCapacity < totalArea s.channels + (appendedChannel s.latched.args).area) :
    exec .chlAppend s = .next (s.latchFault .resourceExhausted) := by
  refine exec_of_raise (i := .chlAppend) ((chlAppendBody_eq s).trans
    ((if_pos (chlAppend_dimensions hwidth hheight)).trans ?_))
  split
  · next hlen => exact if_neg (Nat.not_le.2 (h.resolve_left (Nat.not_le.2 hlen)))
  · rfl

theorem exec_chlAppend_ok (ho : s.overrun = false) (hlen : s.channels.length < 4096)
    (harea : totalArea s.channels + (appendedChannel s.latched.args).area ≤ Config.arenaCapacity) :
    exec .chlAppend s = .next
      { s.setChannels (s.channels ++ [appendedChannel s.latched.args]) with
        result0 := Word.ofNat s.channels.length
        busy := false
        done := true } :=
  exec_of_ok (i := .chlAppend) (t := s.setChannels _) ho ((chlAppendBody_eq s).trans
    ((if_pos (chlAppend_dimensions hwidth hheight)).trans ((if_pos hlen).trans (if_pos harea))))

end

/-- Settles O45, by the closed forms of the two commands. -/
theorem channelListCommands : Obligations.ChannelListCommands := fun s =>
  ⟨fun ho => exec_of_ok_no_result (i := .chlClear) (t := ((s.setChannels []).setTransforms []).setNbMeta 0) ho
      (chlClearBody_eq s), exec_chlAppend_badArg, fun hwidth hheight =>
    ⟨exec_chlAppend_exhausted hwidth hheight, exec_chlAppend_ok hwidth hheight⟩⟩

end Sys2Proof.Machine

/-! ## A row of one or two pixels (`44_channel_decoder.md` R343) -/

namespace Sys2Proof.Machine

theorem toInt_ofInt_of_inI32 {v : Int} (h : inI32 v = true) : (Word.ofInt v).toInt = v := by
  simp only [inI32, Bool.and_eq_true, decide_eq_true_eq] at h
  rw [BitVec.toInt_ofInt]
  exact Int.bmod_eq_of_le (by omega) (by omega)

/-- Nothing stands before the first pixel. -/
theorem knownBefore_origin (p : Plane) (f : Nat → Nat → Int) : KnownBefore p f 0 0 := fun _ _ _ h => by omega

/-- Before the second pixel of a row stands the first. -/
theorem knownBefore_second {w : Nat} {m : Memory} {v : Word} (h : Memory.read m 0 = some v) :
    KnownBefore { w := w, m := m } (sampleValue w m) 1 0 := by
  refine knownBefore_of_read fun k hk => ?_
  obtain rfl : k = 0 := by omega
  exact ⟨v, h, h⟩

/-- A pixel of a one-leaf tree decodes to its symbol, unpacked, times the multiplier, plus offset and prediction. -/
theorem decodePixel_leaf {j : DecodeJob} {s : PixelState} {n : Nat} {l : Leaf} {x y tok : Nat} {r : Reading} {pred : Int}
    {f : Nat → Nat → Int} (htree : j.tree = .leaf n l) (hx : x < j.width)
    (hknown : KnownBefore { w := j.width, m := s.samples } f x y)
    (hread : readSymbol j.config l.context j.distMult s.reading = .ok tok r)
    (hpred : ∀ wp, predictOf (neighboursOf f j.width x y) wp l.predictor = pred)
    (hv : inI32 (unpackSignedNat tok * l.multiplier + l.offset + pred) = true) :
    ∃ wp, decodePixel j x y s = .ok () {
      reading := r
      samples := Memory.write s.samples (y * j.width + x)
        (Word.ofInt (unpackSignedNat tok * l.multiplier + l.offset + pred))
      wp := wp } :=
  ⟨_, decodePixel_ok_iff.2 ⟨_, ⟨_, n, l, tok, pred, hknown.wpPredict_eq hx _ _, by rw [htree]; rfl, hread,
    by rw [hknown.predict_eq hx, hpred], rfl, hv, rfl⟩, rfl⟩⟩

/-- The first pixel of a record, whose neighbours are all 0. -/
theorem decodePixel_first {j : DecodeJob} {s : PixelState} {n : Nat} {l : Leaf} {tok : Nat} {r : Reading}
    (htree : j.tree = .leaf n l) (hw : 0 < j.width) (hpred : l.predictor = .zero ∨ l.predictor = .west)
    (hread : readSymbol j.config l.context j.distMult s.reading = .ok tok r)
    (hv : inI32 (unpackSignedNat tok * l.multiplier + l.offset) = true) :
    ∃ wp, decodePixel j 0 0 s = .ok () {
      reading := r
      samples := Memory.write s.samples 0 (Word.ofInt (unpackSignedNat tok * l.multiplier + l.offset))
      wp := wp } := by
  have hzero : ∀ wp, predictOf (neighboursOf (fun _ _ => 0) j.width 0 0) wp l.predictor = 0 := by
    rcases hpred with hq | hq <;> rw [hq] <;> exact fun _ => rfl
  have h := decodePixel_leaf htree hw (knownBefore_origin _ fun _ _ => 0) hread hzero (by rwa [Int.add_zero])
  rwa [Int.add_zero, Nat.zero_mul] at h

/-- The second pixel of a record with predictor `W`, which is the first. -/
theorem decodePixel_second {j : DecodeJob} {s : PixelState} {n : Nat} {l : Leaf} {tok : Nat} {r : Reading} {v : Int}
    (htree : j.tree = .leaf n l) (hw : 1 < j.width) (hpred : l.predictor = .west)
    (hfirst : Memory.read s.samples 0 = some (Word.ofInt v)) (hv : inI32 v = true)
    (hread : readSymbol j.config l.context j.distMult s.reading = .ok tok r)
    (hv' : inI32 (unpackSignedNat tok * l.multiplier + l.offset + v) = true) :
    ∃ wp, decodePixel j 1 0 s = .ok () {
      reading := r
      samples := Memory.write s.samples 1 (Word.ofInt (unpackSignedNat tok * l.multiplier + l.offset + v))
      wp := wp } := by
  have hwest : sampleValue j.width s.samples 0 0 = v := by
    rw [sampleValue, Nat.zero_mul, hfirst]
    exact toInt_ofInt_of_inI32 hv
  have h := decodePixel_leaf htree hw (knownBefore_second hfirst) hread (fun _ => by rw [hpred]; exact hwest) hv'
  rwa [Nat.zero_mul] at h

theorem decodePixels_succ {j : DecodeJob} {left p : Nat} {s t : PixelState}
    (h : decodePixel j (p % j.width) (p / j.width) s = .ok () t) :
    decodePixels j (left + 1) p s = decodePixels j left (p + 1) t := eng_bind_ok h

section
variable {s : State} {ch : Channel} {l : Leaf} {st : Stream} {p : PixelState}

theorem withDecoded_sample {i c x y : Nat} (hch : s.channels[c]? = some ch) (hx : x < ch.width) (hy : y < ch.height) :
    (s.withDecoded i c ch st p).sample c x y = Memory.read p.samples (y * ch.width + x) := by
  have hget : (s.withDecoded i c ch st p).channels[c]? = some { ch with decoded := true, samples := p.samples } :=
    List.getElem?_set_self (List.getElem?_eq_some_iff.1 hch).1
  simp only [State.sample, hget, Channel.sample]
  exact if_pos ⟨hx, hy⟩

variable (ho : s.overrun = false) (hch : s.channels[s.latched.args.arg0.toNat]? = some ch) (hdec : ch.decoded = false)
  (hheight : ch.height = 1) (ht : s.tree? s.latched.args.arg1 = some [.leaf l])
  (hst : s.stream? s.latched.args.arg2 = some st) (hctx : l.context < st.config.readableContexts)
include ho hch hdec hheight ht hst hctx

/-- Where the pixels of a row decode over a one-leaf tree, the command completes with them. -/
theorem exec_chDecode_row (hwidth : 0 < ch.width)
    (hp : decodePixels (decodeJob s s.latched.args.arg0.toNat ch (.leaf 0 l) st) ch.width 0 (pixelStart s ch st) =
      .ok () p) :
    ∃ t, exec .chDecode s = .next t ∧ t.done = true ∧ t.fault = s.fault ∧
      (∀ x < ch.width, t.sample s.latched.args.arg0.toNat x 0 = Memory.read p.samples x) ∧
      t.source = p.reading.source ∧
      t.slots = s.slots.setIfInBounds s.latched.args.arg2.toNat (some { st with coder := p.reading.coder }) ∧
      ∃ m, t.channels = s.channels.set s.latched.args.arg0.toNat { ch with decoded := true, samples := m } := by
  have harea : ch.area = ch.width := by rw [Channel.area, hheight, Nat.mul_one]
  have hfit : contextsFit (.leaf 0 l) st.config = true := by
    simpa [contextsFit, RTree.anyLeaf] using hctx
  have hbody := (chDecodeBody_eq_ok (r := {}) hch ht hst hdec (by omega)).2
    ⟨rfl, (decodeChannel_eq_ok (R := .leaf 0 l) rfl hch).2 ⟨hfit, rfl, p, harea.symm ▸ hp, rfl⟩⟩
  refine ⟨_, exec_of_ok_no_result (i := .chDecode) (t := s.withDecoded _ _ ch st p) ho hbody, rfl, rfl, fun x hx => ?_, rfl,
    rfl, p.samples, rfl⟩
  have hsample := withDecoded_sample (i := s.latched.args.arg2.toNat) (st := st) (p := p) hch hx
    (show 0 < ch.height by omega)
  rwa [Nat.zero_mul, Nat.zero_add] at hsample

end

/-- Settles O47: the first pixel has no neighbour, and the second the first as its `W`. -/
theorem chDecodeScenarioLaws : Obligations.ChDecodeScenarioLaws := by
  intro s ch l st a c dm ho hch hdec hheight ht hst hctx tok r hread v hv
  let j := decodeJob s c ch (.leaf 0 l) st
  have hfirst : l.predictor = .zero ∨ l.predictor = .west → 0 < ch.width → ∃ wp,
      decodePixel j (0 % j.width) (0 / j.width) (pixelStart s ch st) =
        .ok () { reading := r, samples := Memory.write ch.samples 0 (Word.ofInt v), wp := wp } := by
    rw [Nat.zero_mod, Nat.zero_div]
    exact fun hq hw => decodePixel_first rfl hw hq hread hv
  refine ⟨fun hwidth hq => ?_, ?_⟩
  · obtain ⟨wp, h0⟩ := hfirst (.inl hq) (by omega)
    obtain ⟨t, hexec, hdone, hfault, hsample, hrest⟩ := exec_chDecode_row ho hch hdec hheight ht hst hctx (by omega)
      (show decodePixels j ch.width 0 _ = _ by rw [hwidth]; exact decodePixels_succ h0)
    exact ⟨t, hexec, hdone, hfault, (hsample 0 (by omega)).trans (Memory.read_write_same _ _ _), hrest⟩
  · intro tok' r' hwidth hq hread' v' hv'
    obtain ⟨wp, h0⟩ := hfirst (.inr hq) (by omega)
    have hsample0 : Memory.read (Memory.write ch.samples 0 (Word.ofInt v)) 0 = some (Word.ofInt v) :=
      Memory.read_write_same _ _ _
    obtain ⟨wp', h1⟩ := decodePixel_second (j := j) (s := ⟨r, Memory.write ch.samples 0 (Word.ofInt v), wp⟩) rfl
      (show 1 < ch.width by omega) hq hsample0 hv hread' hv'
    have hw : j.width = 2 := hwidth
    obtain ⟨t, hexec, hdone, hfault, hsample, hrest⟩ := exec_chDecode_row ho hch hdec hheight ht hst hctx (by omega)
      (show decodePixels j ch.width 0 _ = _ by
        rw [hwidth]
        exact (decodePixels_succ h0).trans (decodePixels_succ (by rwa [hw])))
    refine ⟨t, hexec, hdone, hfault, (hsample 0 (by omega)).trans ?_,
      (hsample 1 (by omega)).trans (Memory.read_write_same _ _ _), hrest⟩
    rw [Memory.read_write_other _ _ (by omega), hsample0]

end Sys2Proof.Machine

/-! ## The weighted predictor (`44_channel_decoder.md` R330 to R334, `10_state.md` R43) -/

namespace Sys2Proof.Machine

/-! ### Its parameters and error rows -/

theorem wpParams_eq (r : HostRegs) : wpParams r = {
    p1C := r.wp0.toNat % 32
    p2C := r.wp0.toNat / 2 ^ 5 % 32
    p3Ca := r.wp0.toNat / 2 ^ 10 % 32
    p3Cb := r.wp0.toNat / 2 ^ 15 % 32
    p3Cc := r.wp0.toNat / 2 ^ 20 % 32
    p3Cd := r.wp0.toNat / 2 ^ 25 % 32
    p3Ce := r.wp1.toNat % 32
    maxWeights := [r.wp1.toNat / 2 ^ 8 % 16, r.wp1.toNat / 2 ^ 12 % 16, r.wp1.toNat / 2 ^ 16 % 16,
      r.wp1.toNat / 2 ^ 20 % 16] } := by
  simp only [wpParams, BitVec.extractLsb'_toNat, Nat.shiftRight_eq_div_pow]
  norm_num

theorem errorAt_setError (r : ErrorRow) (i k : Nat) (v : Int) :
    errorAt (setError r i v) k = if k = i then v else errorAt r k := by
  rw [errorAt, setError, List.lookup_cons]
  by_cases h : k = i
  · rw [if_pos h, beq_iff_eq.2 h]
    rfl
  · rw [if_neg h, beq_false_of_ne h]
    rfl

/-! ### Weights (R331) -/

theorem asr_eq (a : Int) (k : Nat) : asr a k = a / 2 ^ k := Int.shiftRight_eq_div_pow a k

theorem errorWeight_eq (e maxw : Nat) : errorWeight e maxw =
    4 + maxw * (2 ^ 24 / (e / 2 ^ (Nat.log 2 (e + 1) - 5) + 1)) / 2 ^ (Nat.log 2 (e + 1) - 5) := by
  simp only [errorWeight, divLookup, floorLog2, Nat.log2_eq_log_two, Nat.shiftRight_eq_div_pow]

theorem errorWeight_ge (e maxw : Nat) : 4 ≤ errorWeight e maxw := Nat.le_add_right 4 _

/-- The index into the table of reciprocals is one of its 64. -/
theorem divLookup_index_lt (e : Nat) : e / 2 ^ (Nat.log 2 (e + 1) - 5) < 64 := by
  rw [Nat.div_lt_iff_lt_mul (Nat.two_pow_pos _)]
  calc e < e + 1 := Nat.lt_succ_self e
    _ < 2 ^ (Nat.log 2 (e + 1) + 1) := Nat.lt_pow_succ_log_self Nat.one_lt_two _
    _ ≤ 2 ^ (6 + (Nat.log 2 (e + 1) - 5)) := Nat.pow_le_pow_right Nat.two_pos (by omega)
    _ = 64 * 2 ^ (Nat.log 2 (e + 1) - 5) := Nat.pow_add 2 6 _

section
variable {w0 w1 w2 w3 : Nat} (h0 : 4 ≤ w0) (h1 : 4 ≤ w1) (h2 : 4 ≤ w2) (h3 : 4 ≤ w3)
include h0 h1 h2 h3

theorem four_le_log_weights : 4 ≤ Nat.log 2 (w0 + w1 + w2 + w3) := Nat.le_log_of_pow_le Nat.one_lt_two (by omega)

/-- Four weights are reduced so that their sum has five bits, less what the reduction cuts off each. -/
theorem reducedWeights_bounds :
    let D := 2 ^ (Nat.log 2 (w0 + w1 + w2 + w3) - 4)
    12 ≤ w0 / D + w1 / D + w2 / D + w3 / D ∧ w0 / D + w1 / D + w2 / D + w3 / D ≤ 31 := by
  intro D
  have hL := four_le_log_weights h0 h1 h2 h3
  have hD : 0 < D := Nat.two_pow_pos _
  have hlow : 16 * D ≤ w0 + w1 + w2 + w3 := by
    calc 16 * D = 2 ^ (4 + (Nat.log 2 (w0 + w1 + w2 + w3) - 4)) := (Nat.pow_add 2 4 _).symm
      _ = 2 ^ Nat.log 2 (w0 + w1 + w2 + w3) := by rw [Nat.add_sub_cancel' hL]
      _ ≤ w0 + w1 + w2 + w3 := Nat.pow_log_le_self 2 (by omega)
  have hhigh : w0 + w1 + w2 + w3 < 32 * D := by
    calc w0 + w1 + w2 + w3 < 2 ^ (Nat.log 2 (w0 + w1 + w2 + w3) + 1) := Nat.lt_pow_succ_log_self Nat.one_lt_two _
      _ = 2 ^ (5 + (Nat.log 2 (w0 + w1 + w2 + w3) - 4)) := by congr 1; omega
      _ = 32 * D := Nat.pow_add 2 5 _
  have hfloor : ∀ w, D * (w / D) ≤ w := fun w => Nat.mul_div_le w D
  have hceil : ∀ w, w < D * (w / D) + D := fun w => Nat.lt_mul_div_succ w hD
  constructor
  · refine Nat.le_of_lt (Nat.lt_of_mul_lt_mul_left (a := D) ?_)
    linarith [hceil w0, hceil w1, hceil w2, hceil w3]
  · refine Nat.le_of_lt_succ (Nat.lt_of_mul_lt_mul_left (a := D) ?_)
    linarith [hfloor w0, hfloor w1, hfloor w2, hfloor w3]

/-- The average by weights: they are reduced, and the sum is scaled by the reciprocal of their sum. -/
theorem weightedAverage_eq (s0 s1 s2 s3 : Int) :
    let r := fun v : Nat => v / 2 ^ (Nat.log 2 (w0 + w1 + w2 + w3) - 4)
    let ws := r w0 + r w1 + r w2 + r w3
    weightedAverage [s0, s1, s2, s3] [w0, w1, w2, w3] =
      (((ws / 2 : Nat) : Int) - 1 + (s0 * r w0 + s1 * r w1 + s2 * r w2 + s3 * r w3)) * ((2 ^ 24 / ws : Nat) : Int)
        / 2 ^ 24 := by
  intro r ws
  have hws : 12 ≤ ws := (reducedWeights_bounds h0 h1 h2 h3).1
  have hL : floorLog2 [w0, w1, w2, w3].sum = Nat.log 2 (w0 + w1 + w2 + w3) := by
    rw [floorLog2, Nat.log2_eq_log_two]
    simp [Nat.add_assoc]
  have hmap : [w0, w1, w2, w3].map (· >>> (Nat.log 2 (w0 + w1 + w2 + w3) - 4)) = [r w0, r w1, r w2, r w3] := by
    simp [Nat.shiftRight_eq_div_pow, r]
  have hsum : [r w0, r w1, r w2, r w3].sum = ws := by simp [Nat.add_assoc, ws]
  have hacc : (List.zipWith (fun (s : Int) (t : Nat) => s * (t : Int)) [s0, s1, s2, s3] [r w0, r w1, r w2, r w3]).sum =
      s0 * r w0 + s1 * r w1 + s2 * r w2 + s3 * r w3 := by simp [Int.add_assoc]
  have hlookup : divLookup (ws - 1) = 2 ^ 24 / ws := by rw [divLookup, Nat.sub_add_cancel (by omega)]
  simp only [weightedAverage, hL, hmap, hsum, hacc, hlookup, asr_eq]
  rw [Nat.shiftRight_eq_div_pow, Nat.pow_one]

end

/-! ### The sign test (R332) -/

theorem intXor_neg_iff (a b : Int) : intXor a b < 0 ↔ ¬ (0 ≤ a ↔ 0 ≤ b) := by
  cases a <;> cases b <;> simp [intXor]

theorem intXor_eq_zero_iff (a b : Int) : intXor a b = 0 ↔ a = b := by
  cases a <;> cases b <;> simp [intXor]

theorem intOr_neg_iff (a b : Int) : intOr a b < 0 ↔ a < 0 ∨ b < 0 := by
  cases a <;> cases b <;> simp [intOr]
  omega

theorem intOr_eq_zero_iff (a b : Int) : intOr a b = 0 ↔ a = 0 ∧ b = 0 := by
  cases a <;> cases b <;> simp [intOr]

/-- The test that leaves the average unclamped: the errors have one sign, zero counting as positive, and differ. -/
theorem sign_test_iff (a b c : Int) : 0 < intOr (intXor a b) (intXor a c) ↔
    ((0 ≤ a ∧ 0 ≤ b ∧ 0 ≤ c) ∨ (a < 0 ∧ b < 0 ∧ c < 0)) ∧ ¬ (a = b ∧ a = c) := by
  have hneg := intOr_neg_iff (intXor a b) (intXor a c)
  have hzero := intOr_eq_zero_iff (intXor a b) (intXor a c)
  rw [intXor_neg_iff, intXor_neg_iff] at hneg
  rw [intXor_eq_zero_iff, intXor_eq_zero_iff] at hzero
  omega

/-! ### The largest error (R333) -/

/-- `v` is the first of the largest values of a list in absolute value. -/
def FirstLargest (l : List Int) (v : Int) : Prop :=
  ∃ i : Nat, l[i]? = some v ∧ ∀ (j : Nat) (u : Int), l[j]? = some u → |u| ≤ |v| ∧ (j < i → |u| < |v|)

theorem firstLargest_singleton (v : Int) : FirstLargest [v] v := by
  refine ⟨0, rfl, fun j u hu => ?_⟩
  obtain ⟨-, rfl⟩ := List.getElem?_eq_some_iff.1 hu
  simp

theorem FirstLargest.append {l : List Int} {v : Int} (h : FirstLargest l v) (b : Int) :
    FirstLargest (l ++ [b]) (largerError v b) := by
  obtain ⟨i, hi, hlargest⟩ := h
  have hlen := (List.getElem?_eq_some_iff.1 hi).1
  have hcases : ∀ (j : Nat) (u : Int), (l ++ [b])[j]? = some u → l[j]? = some u ∨ j = l.length ∧ u = b := by
    intro j u hu
    rw [List.getElem?_append] at hu
    split at hu
    · exact .inl hu
    · obtain ⟨hlt, rfl⟩ := List.getElem?_eq_some_iff.1 hu
      rw [List.length_singleton] at hlt
      exact .inr ⟨by omega, List.getElem_singleton _⟩
  rw [largerError, iabs_eq, iabs_eq]
  split
  · next hlt =>
    refine ⟨l.length, by simp, fun j u hu => ?_⟩
    rcases hcases j u hu with hold | ⟨rfl, rfl⟩
    · have hle := (hlargest j u hold).1
      exact ⟨by omega, fun _ => by omega⟩
    · exact ⟨Int.le_refl _, fun hlt => by omega⟩
  · next hle =>
    refine ⟨i, by rw [List.getElem?_append_left hlen, hi], fun j u hu => ?_⟩
    rcases hcases j u hu with hold | ⟨rfl, rfl⟩
    · exact hlargest j u hold
    · exact ⟨by omega, fun hlt => by omega⟩

theorem firstLargest_four (a b c d : Int) :
    FirstLargest [a, b, c, d] (largerError (largerError (largerError a b) c) d) :=
  (((firstLargest_singleton a).append b).append c).append d

/-! ### The update (R334) -/

section
variable (st : WpState) (o : WpPrediction) (w x y : Nat) (v : Int)

theorem wpCur_ne_next : wpCur w y + x ≠ wpPrev w y + x + 1 := by
  unfold wpCur wpPrev
  split <;> omega

/-- A row of sub-predictor errors after the update: its own error is written, and added to the next of the row before. -/
theorem wpUpdate_row {j : Nat} {r r' : ErrorRow} {sp : Int} (hr : st.pe[j]? = some r)
    (hr' : (wpUpdate st o w x y v).pe[j]? = some r') (hsp : o.sp[j]? = some sp) :
    errorAt r' (wpCur w y + x) = (|sp - 8 * v| + 3) / 8 ∧
    errorAt r' (wpPrev w y + x + 1) = errorAt r (wpPrev w y + x + 1) + (|sp - 8 * v| + 3) / 8 ∧
    ∀ i, i ≠ wpCur w y + x → i ≠ wpPrev w y + x + 1 → errorAt r' i = errorAt r i := by
  have hne := wpCur_ne_next w x y
  have herr : subError sp (8 * v) = (|sp - 8 * v| + 3) / 8 := by rw [subError, asr_eq, iabs_eq]; rfl
  rw [wpUpdate] at hr'
  simp only [List.getElem?_zipWith, hr, hsp, Option.some.injEq] at hr'
  subst hr'
  simp only [errorAt_setError, herr, if_neg hne, if_neg hne.symm]
  exact ⟨if_pos trivial, if_pos trivial, fun i hcur hnext => by rw [if_neg hnext, if_neg hcur]⟩

end

/-- Settles O51: the weights by their bounds, the test and the largest error by their lemmas, the rest by the formulas
of R332 and R334. -/
theorem weightedPredictorLaws : Obligations.WeightedPredictorLaws := by
  refine ⟨fun r => ⟨_, _, _, _, wpParams_eq r, rfl, rfl, rfl, rfl⟩,
    fun e maxw => ⟨divLookup_index_lt e, errorWeight_eq e maxw⟩,
    fun s0 s1 s2 s3 w0 w1 w2 w3 h0 h1 h2 h3 => weightedAverage_eq h0 h1 h2 h3 s0 s1 s2 s3, ?_⟩
  intro q st w x y N W NE NW NN r0 r1 r2 r3 m0 m1 m2 m3 hpe hmax cur prev posN posNE posNW weight w0 w1 w2 w3 L ws
    teW teN teNW teNE o average lo hi
  have h0 : 4 ≤ w0 := errorWeight_ge _ _
  have h1 : 4 ≤ w1 := errorWeight_ge _ _
  have h2 : 4 ≤ w2 := errorWeight_ge _ _
  have h3 : 4 ≤ w3 := errorWeight_ge _ _
  have hweights : wpWeights q st w x y = [w0, w1, w2, w3] := by rw [wpWeights, hpe, hmax]; rfl
  have hfull : o.full = if 0 < intOr (intXor teN teW) (intXor teN teNW) then average else max lo (min hi average) := by
    show (wpCompute q st w x y N W NE NW NN).full = _
    simp only [wpCompute, hweights]
    rfl
  refine ⟨⟨h0, h1, h2, h3, four_le_log_weights h0 h1 h2 h3, reducedWeights_bounds h0 h1 h2 h3⟩, ?_, fun hsign => ?_, fun hsign => ?_,
    ?_, firstLargest_four teW teN teNW teNE, ?_⟩
  · show [_, 8 * N - asr _ 5, 8 * W - asr _ 5, 8 * N - asr _ 5] = _
    rw [asr_eq, asr_eq, asr_eq]
    rfl
  · rw [hfull, if_pos ((sign_test_iff _ _ _).2 hsign)]
  · rw [hfull, if_neg (mt (sign_test_iff _ _ _).1 hsign)]
  · exact asr_eq (o.full + 3) 3
  · intro v u
    refine ⟨⟨(errorAt_setError _ _ _ _).trans (if_pos rfl), fun i hi => (errorAt_setError _ _ _ _).trans (if_neg hi)⟩,
      ?_, fun j r r' sp => wpUpdate_row st o w x y v⟩
    show (List.zipWith _ st.pe o.sp).length = 4
    rw [List.length_zipWith, hpe]
    rfl

end Sys2Proof.Machine

/-! ## The squeeze of a line (`45_transforms.md` R377, R379, R390) -/

namespace Sys2Proof.Machine

/-! ### `SmoothTendency` -/

section
variable {B a n d : Int}

/-- Falling values: a cut at the left leaves nothing to cut at the right. -/
theorem smoothTendency_falling (hn : n ≤ a) (hB : a ≤ B) (hd : d = (4 * B - 3 * n - a + 6) / 12) :
    smoothTendency B a n =
      if 2 * (B - a) < d - d % 2 then 2 * (B - a) + 1 else if 2 * (a - n) < d + d % 2 then 2 * (a - n) else d := by
  have hdiv : tdiv (4 * B - 3 * n - a + 6) 12 = d := hd ▸ Int.tdiv_eq_ediv_of_nonneg (by omega)
  simp only [smoothTendency, ge_iff_le, gt_iff_lt, parity, hdiv, hB, hn, and_self, if_true]
  by_cases hleft : 2 * (B - a) < d - d % 2
  · simp only [hleft, if_true]
    exact if_neg (by omega)
  · simp only [hleft, if_false]

/-- Rising values: the mirror image. -/
theorem smoothTendency_rising (hn : a ≤ n) (hB : B ≤ a) (hd : d = -((3 * n + a - 4 * B + 6) / 12)) :
    smoothTendency B a n =
      if d + d % 2 < 2 * (B - a) then 2 * (B - a) - 1 else if d - d % 2 < 2 * (a - n) then 2 * (a - n) else d := by
  by_cases hflat : B ≥ a ∧ a ≥ n
  · rw [smoothTendency_falling hflat.2 hflat.1 rfl]
    simp only [show 4 * B - 3 * n - a + 6 = 6 by omega, show d = 0 by omega]
    split_ifs <;> omega
  have hdiv : tdiv (4 * B - 3 * n - a - 6) 12 = d := by
    rw [tdiv, hd, show 4 * B - 3 * n - a - 6 = -(3 * n + a - 4 * B + 6) by omega, Int.neg_tdiv,
      Int.tdiv_eq_ediv_of_nonneg (by omega)]
  simp only [smoothTendency, if_neg hflat, gt_iff_lt, parity, hdiv, hB, hn, and_self, if_true]
  by_cases hleft : d + d % 2 < 2 * (B - a)
  · simp only [hleft, if_true]
    exact if_neg (by omega)
  · simp only [hleft, if_false]

theorem smoothTendency_turning (h : B < a ∧ n < a ∨ a < B ∧ a < n) : smoothTendency B a n = 0 := by
  rw [smoothTendency, if_neg (by omega), if_neg (by omega)]

end

/-! ### A line and its forward squeeze -/

theorem forwardAverages_length : ∀ line : List Int, (forwardAverages line).length = (line.length + 1) / 2
  | [] => rfl
  | [_] => by simp [forwardAverages]
  | _ :: _ :: more => by
    simp only [forwardAverages, List.length_cons, forwardAverages_length more]
    omega

theorem forwardResiduals_length : ∀ (left : Option Int) (line : List Int),
    (forwardResiduals left line).length = line.length / 2
  | _, [] => rfl
  | _, [_] => by simp [forwardResiduals]
  | _, _ :: b :: more => by
    simp only [forwardResiduals, List.length_cons, forwardResiduals_length (some b) more]
    omega

/-- The tendency is added to what it was taken from, whatever it is. -/
theorem unsqueezePair_forward (left next a b : Int) :
    unsqueezePair left (a - tdiv (a - b) 2) next ((a - b) - smoothTendency left (a - tdiv (a - b) 2) next) = (a, b) := by
  simp only [unsqueezePair, Int.sub_add_cancel, Int.sub_sub_self]

theorem unsqueezeLine_forward : ∀ (left : Option Int) (line : List Int),
    unsqueezeLine left (forwardAverages line) (forwardResiduals left line) = line
  | _, [] => rfl
  | _, [_] => rfl
  | left, a :: b :: more => by
    simp only [forwardAverages, forwardResiduals, unsqueezeLine, unsqueezePair_forward, unsqueezeLine_forward (some b) more]

/-- Settles O56: the tendency cancels out of a line's round trip; and its values by their cuts. -/
theorem squeezeLineRoundTrip : Obligations.SqueezeLineRoundTrip := by
  refine ⟨fun line => ⟨forwardAverages_length line, forwardResiduals_length none line, unsqueezeLine_forward none line⟩, ?_⟩
  intro B a n t
  refine ⟨fun hn hB => ?_, fun hB hn => ?_, smoothTendency_turning⟩
  · intro d
    rw [show t = _ from smoothTendency_falling hn hB (d := d) rfl]
    exact ⟨fun hl hr => by rw [if_neg (by omega), if_neg (by omega)],
      fun hl hr => by rw [if_neg (by omega), if_pos hr], fun hl => if_pos hl⟩
  · intro d
    rw [show t = _ from smoothTendency_rising hn hB (d := d) rfl]
    exact ⟨fun hl hr => by rw [if_neg (by omega), if_neg (by omega)],
      fun hl hr => by rw [if_neg (by omega), if_pos hr], fun hl => if_pos hl⟩

end Sys2Proof.Machine

/-! ## Undoing one RCT (`45_transforms.md` R363, R370 to R372) -/

namespace Sys2Proof.Machine

/-! ### `XF_APPLY` of one transform -/

section
variable {s : State}

theorem exec_xfApply_none (ho : s.overrun = false) (h : s.transforms = []) :
    exec .xfApply s = .next { s with busy := false, done := true } :=
  exec_of_ok_no_result (i := .xfApply) ho (by simp [commandBody, xfApplyBody_eq, h, undoTransforms])

/-- A transform whose undoing only replaces the channel list. -/
theorem exec_xfApply_one {x : Transform} {n : Nat} {l : List Channel} (ho : s.overrun = false)
    (ht : s.transforms = [{ transform := x, nbMetaBefore := n }])
    (h : undoTransform x (s.setTransforms []) = .ok () ((s.setTransforms []).setChannels l)) :
    exec .xfApply s = .next { s with channels := l, nbMeta := n, transforms := [], busy := false, done := true } := by
  have hundo : undoTransforms s.transforms.reverse s =
      .ok () (((s.setTransforms []).setChannels l).setNbMeta n) := by
    rw [ht, List.reverse_singleton, undoTransforms, update_bind, List.reverse_nil, eng_bind_ok h]
    rfl
  exact exec_of_ok_no_result (i := .xfApply) (t := ((s.setTransforms []).setChannels l).setNbMeta n) ho
    (by rw [commandBody, xfApplyBody_eq, hundo])

end

/-! ### The inverse on one position -/

theorem rctInverse_forwardRct (type : Nat) (o0 o1 o2 : Int) :
    let f := forwardRct type o0 o1 o2
    rctInverse type f.1 f.2.1 f.2.2 = (o0, o1, o2) := by
  intro f
  show rctInverse type (forwardRct type o0 o1 o2).1 (forwardRct type o0 o1 o2).2.1 (forwardRct type o0 o1 o2).2.2 = _
  by_cases hycocg : type = 6
  · simp only [forwardRct, rctInverse, if_pos hycocg, Prod.mk.injEq]
    omega
  · simp only [forwardRct, rctInverse, if_neg hycocg, Prod.mk.injEq, true_and]
    have h2 : (if type % 2 = 1 then (if type % 2 = 1 then o2 - o0 else o2) + o0
        else if type % 2 = 1 then o2 - o0 else o2) = o2 := by
      split_ifs <;> omega
    rw [h2]
    split_ifs <;> omega

/-- The three outputs land where `rctOffsets` says (R371). -/
theorem rctPlaced_offsets {perm p0 p1 p2 j : Nat} (h : rctOffsets[perm]? = some (p0, p1, p2)) (hj : j < 3)
    (v : Nat → Int) : rctPlaced perm j (v p0, v p1, v p2) = v j := by
  have hperm : perm < 6 := (List.getElem?_eq_some_iff.1 h).1
  interval_cases perm <;> cases h <;> interval_cases j <;> rfl

/-! ### All positions -/

/-- The samples of channel `j` of the three. -/
def Triple.samples (t : Triple) (j : Nat) : Memory := if j = 0 then t.m0 else if j = 1 then t.m1 else t.m2

/-- The three channels after the inverse of position `k` gave `o` (R370). -/
def Triple.place (t : Triple) (perm k : Nat) (o : Int × Int × Int) : Triple where
  m0 := Memory.write t.m0 k (Word.ofInt (rctPlaced perm 0 o))
  m1 := Memory.write t.m1 k (Word.ofInt (rctPlaced perm 1 o))
  m2 := Memory.write t.m2 k (Word.ofInt (rctPlaced perm 2 o))

theorem Triple.samples_place (t : Triple) {j : Nat} (hj : j < 3) (perm k : Nat) (o : Int × Int × Int) :
    (t.place perm k o).samples j = Memory.write (t.samples j) k (Word.ofInt (rctPlaced perm j o)) := by
  interval_cases j <;> rfl

/-- Position `k` holds what the inverse takes to `o`, all in i32. -/
def RctInverts (rctType : Nat) (t : Triple) (k : Nat) (o : Int × Int × Int) : Prop :=
  ∃ a b c : Word, Memory.read t.m0 k = some a ∧ Memory.read t.m1 k = some b ∧ Memory.read t.m2 k = some c ∧
    rctInverse (rctType % 7) a.toInt b.toInt c.toInt = o ∧
    inI32 o.1 = true ∧ inI32 o.2.1 = true ∧ inI32 o.2.2 = true

section
variable {rctType : Nat} {t : Triple} {k : Nat} {o : Int × Int × Int}

theorem RctInverts.pixel (h : RctInverts rctType t k o) (w : Nat) :
    rctPixel rctType w (k % w) (k / w) t = .ok () (t.place (rctType / 7) k o) := by
  obtain ⟨a, b, c, ha, hb, hc, rfl, hi32⟩ := h
  rw [← row_col k w] at ha hb hc
  rw [rctPixel, readState_bind, sampleAt_of_read ha, sampleAt_of_read hb, sampleAt_of_read hc]
  simp only [ofExcept_bind, row_col]
  exact eng_bind_ok (a := ()) (checkBitstream_eq_ok.2 ⟨hi32, rfl⟩)

/-- Inverting another position leaves this one as it is. -/
theorem RctInverts.place (h : RctInverts rctType t k o) {p : Nat} (hp : k ≠ p) (perm : Nat) (o' : Int × Int × Int) :
    RctInverts rctType (t.place perm p o') k o := by
  obtain ⟨a, b, c, ha, hb, hc, ho⟩ := h
  exact ⟨a, b, c, (Memory.read_write_other _ _ hp).trans ha, (Memory.read_write_other _ _ hp).trans hb,
    (Memory.read_write_other _ _ hp).trans hc, ho⟩

end

/-- Each position is read before it is written, and no other writes it. -/
theorem rctPixels_ok (rctType w : Nat) (o : Nat → Int × Int × Int) : ∀ (left p : Nat) (t : Triple),
    (∀ k, p ≤ k → k < p + left → RctInverts rctType t k (o k)) →
    ∃ t', rctPixels rctType w left p t = .ok () t' ∧ ∀ j < 3,
      (∀ k < p, Memory.read (t'.samples j) k = Memory.read (t.samples j) k) ∧
      ∀ k, p ≤ k → k < p + left → Memory.read (t'.samples j) k = some (Word.ofInt (rctPlaced (rctType / 7) j (o k)))
  | 0, p, t, _ => ⟨t, rfl, fun _ _ => ⟨fun _ _ => rfl, fun k h h' => by omega⟩⟩
  | left + 1, p, t, h => by
    have hpixel := (h p le_rfl (by omega)).pixel w
    obtain ⟨t', ht', hread⟩ := rctPixels_ok rctType w o left (p + 1) (t.place (rctType / 7) p (o p)) fun k hk hk' =>
      (h k (by omega) (by omega)).place (by omega) _ _
    refine ⟨t', (eng_bind_ok hpixel).trans ht', fun j hj => ?_⟩
    obtain ⟨hbefore, hafter⟩ := hread j hj
    rw [t.samples_place hj] at hbefore
    refine ⟨fun k hk => ?_, fun k hk hk' => ?_⟩
    · rw [hbefore k (by omega), Memory.read_write_other _ _ (by omega)]
    · rcases Nat.eq_or_lt_of_le hk with rfl | hlt
      · rw [hbefore p (by omega), Memory.read_write_same]
      · exact hafter k hlt (by omega)

/-! ### The three records -/

section
variable {s u : State} {m rctType : Nat} {c0 c1 c2 : Channel}

theorem orRaise_eq_ok {σ α : Type} {s t : σ} {o : Option α} {f : BlockFault} {a : α} :
    orRaise o f s = .ok a t ↔ o = some a ∧ t = s := by
  cases o <;> simp [eq_comm]

/-- A channel list in which three records from `m` hold new samples and are marked decoded (R363). -/
def setTriple (l : List Channel) (m : Nat) (c0 c1 c2 : Channel) (t : Triple) : List Channel :=
  ((l.set m { c0 with decoded := true, samples := t.m0 }).set (m + 1) { c1 with decoded := true, samples := t.m1 }).set
    (m + 2) { c2 with decoded := true, samples := t.m2 }

theorem getElem?_setTriple_other (l : List Channel) (t : Triple) {j : Nat} (hj : j < m ∨ m + 3 ≤ j) :
    (setTriple l m c0 c1 c2 t)[j]? = l[j]? := by
  rw [setTriple, List.getElem?_set_ne (by omega), List.getElem?_set_ne (by omega), List.getElem?_set_ne (by omega)]

theorem setTriple_record {l : List Channel} (hlen : m + 3 ≤ l.length) (hs1 : c0.shape = c1.shape)
    (hs2 : c0.shape = c2.shape) (t : Triple) {j : Nat} (hj : j < 3) : ∃ ch,
      (setTriple l m c0 c1 c2 t)[m + j]? = some ch ∧ ch.decoded = true ∧ ch.shape = c0.shape ∧ ch.samples = t.samples j := by
  have h0 : m < l.length := by omega
  have h1 : m + 1 < l.length := by omega
  have h2 : m + 2 < l.length := by omega
  interval_cases j
  · exact ⟨{ c0 with decoded := true, samples := t.m0 }, by simp [setTriple, h0], rfl, rfl, rfl⟩
  · exact ⟨{ c1 with decoded := true, samples := t.m1 }, by simp [setTriple, h1], rfl, hs1.symm, rfl⟩
  · exact ⟨{ c2 with decoded := true, samples := t.m2 }, by simp [setTriple, h2], rfl, hs2.symm, rfl⟩

theorem markDecoded_setChannel_other {k j : Nat} (h : k ≠ j) (ch : Channel) :
    (s.setChannel j ch).markDecoded k = (s.markDecoded k).setChannel j ch := by
  rw [State.markDecoded, State.markDecoded, State.setChannel, State.setChannel]
  congr 1
  refine List.ext_getElem? fun i => ?_
  simp only [List.getElem?_modify, List.getElem?_set, List.length_modify]
  by_cases hi : j = i
  · subst hi
    simp [h]
  · simp [hi]

theorem markDecoded_triple (h0 : s.channels[m]? = some c0) (h1 : s.channels[m + 1]? = some c1)
    (h2 : s.channels[m + 2]? = some c2) (t : Triple) :
    (((((s.setChannel m { c0 with samples := t.m0 }).setChannel (m + 1) { c1 with samples := t.m1 }).setChannel
      (m + 2) { c2 with samples := t.m2 }).markDecoded m).markDecoded (m + 1)).markDecoded (m + 2) =
      s.setChannels (setTriple s.channels m c0 c1 c2 t) := by
  have h1' : (s.setChannel m { c0 with decoded := true, samples := t.m0 }).channels[m + 1]? = some c1 :=
    (List.getElem?_set_ne (by omega)).trans h1
  have h2' : ((s.setChannel m { c0 with decoded := true, samples := t.m0 }).setChannel (m + 1)
      { c1 with decoded := true, samples := t.m1 }).channels[m + 2]? = some c2 :=
    (List.getElem?_set_ne (by omega)).trans ((List.getElem?_set_ne (by omega)).trans h2)
  rw [markDecoded_setChannel_other (k := m) (j := m + 2) (by omega),
    markDecoded_setChannel_other (k := m) (j := m + 1) (by omega), markDecoded_setChannel h0,
    markDecoded_setChannel_other (k := m + 1) (j := m + 2) (by omega), markDecoded_setChannel h1',
    markDecoded_setChannel h2']
  rfl

/-- When `InverseRct` completes, and what it leaves (R370). -/
theorem inverseRct_eq_ok : inverseRct m rctType s = .ok () u ↔
    ∃ c0 c1 c2 t, s.channels[m]? = some c0 ∧ s.channels[m + 1]? = some c1 ∧ s.channels[m + 2]? = some c2 ∧
      allSameShape [c0, c1, c2] = true ∧
      rctPixels rctType c0.width c0.area 0 { m0 := c0.samples, m1 := c1.samples, m2 := c2.samples } = .ok () t ∧
      u = s.setChannels (setTriple s.channels m c0 c1 c2 t) := by
  simp only [inverseRct, theState_bind, eng_bind_eq_ok, orRaise_eq_ok, checkBitstream_eq_ok, onTriple, onPart_eq_ok,
    update_apply]
  constructor
  · rintro ⟨c0, _, ⟨h0, rfl⟩, c1, _, ⟨h1, rfl⟩, c2, _, ⟨h2, rfl⟩, _, _, ⟨hshape, rfl⟩, _, _, ⟨t, ht, rfl⟩, hu⟩
    cases hu
    exact ⟨c0, c1, c2, t, h0, h1, h2, hshape, ht, markDecoded_triple h0 h1 h2 t⟩
  · rintro ⟨c0, c1, c2, t, h0, h1, h2, hshape, ht, rfl⟩
    refine ⟨c0, s, ⟨h0, rfl⟩, c1, s, ⟨h1, rfl⟩, c2, s, ⟨h2, rfl⟩, (), s, ⟨hshape, rfl⟩, (), _, ⟨t, ht, rfl⟩, ?_⟩
    rw [markDecoded_triple h0 h1 h2]

end

/-! ### Samples by position -/

theorem Channel.sample_inside {ch : Channel} {x y : Nat} (hx : x < ch.width) (hy : y < ch.height) :
    ch.sample x y = Memory.read ch.samples (y * ch.width + x) := if_pos ⟨hx, hy⟩

theorem position_inside {k w h : Nat} (hk : k < w * h) : k % w < w ∧ k / w < h :=
  ⟨Nat.mod_lt k (Nat.pos_of_mul_pos_right (Nat.zero_lt_of_lt hk)), Nat.div_lt_of_lt_mul hk⟩

theorem State.sample_of_channel {s : State} {c : Nat} {ch : Channel} (h : s.channels[c]? = some ch) (x y : Nat) :
    s.sample c x y = ch.sample x y := by rw [State.sample, h]

theorem Channel.shape_eq_iff {a b : Channel} : a.shape = b.shape ↔
    a.width = b.width ∧ a.height = b.height ∧ a.hshift = b.hshift ∧ a.vshift = b.vshift := by
  simp [Channel.shape]

/-- Settles O55: position by position the forward transform is inverted, and lands where it came from. -/
theorem xfApplyUndoesRct : Obligations.XfApplyUndoesRct := by
  refine ⟨fun s => exec_xfApply_none, ?_⟩
  intro s m rctType nbMeta p0 p1 p2 c0 c1 c2 o ho _ htransforms h0 h1 h2 hs1 hs2 hperm hi32 hforward
  obtain ⟨hw1, hh1, -⟩ := Channel.shape_eq_iff.1 hs1
  obtain ⟨hw2, hh2, -⟩ := Channel.shape_eq_iff.1 hs2
  let start : Triple := { m0 := c0.samples, m1 := c1.samples, m2 := c2.samples }
  let out := fun k => (o p0 (k % c0.width) (k / c0.width), o p1 (k % c0.width) (k / c0.width),
    o p2 (k % c0.width) (k / c0.width))
  have hinverts : ∀ k, 0 ≤ k → k < 0 + c0.area → RctInverts rctType start k (out k) := by
    intro k _ hk
    rw [Nat.zero_add] at hk
    obtain ⟨hx, hy⟩ := position_inside hk
    obtain ⟨ha32, hb32, hc32, ha, hb, hc⟩ := hforward _ _ hx hy
    rw [Channel.sample_inside hx hy, row_col] at ha
    rw [Channel.sample_inside (hw1 ▸ hx) (hh1 ▸ hy), ← hw1, row_col] at hb
    rw [Channel.sample_inside (hw2 ▸ hx) (hh2 ▸ hy), ← hw2, row_col] at hc
    refine ⟨_, _, _, ha, hb, hc, ?_, hi32 _ _ _, hi32 _ _ _, hi32 _ _ _⟩
    rw [toInt_ofInt_of_inI32 ha32, toInt_ofInt_of_inI32 hb32, toInt_ofInt_of_inI32 hc32]
    exact rctInverse_forwardRct _ _ _ _
  obtain ⟨t, ht, hread⟩ := rctPixels_ok rctType c0.width out c0.area 0 start hinverts
  have hshape : allSameShape [c0, c1, c2] = true := by
    simp [allSameShape, Channel.sameShape_iff, ← hs1, ← hs2]
  have hundo : inverseRct m rctType (s.setTransforms []) =
      .ok () ((s.setTransforms []).setChannels (setTriple s.channels m c0 c1 c2 t)) :=
    inverseRct_eq_ok.2 ⟨c0, c1, c2, t, h0, h1, h2, hshape, ht, rfl⟩
  have hrecord := fun j => setTriple_record (j := j) (List.getElem?_eq_some_iff.1 h2).1 hs1 hs2 t
  refine ⟨_, exec_xfApply_one ho htransforms hundo, rfl, rfl, rfl, rfl, ?_, fun k x y hk hx hy => ?_, fun k hk => ?_,
    fun j hj => getElem?_setTriple_other _ _ hj⟩
  · simp [setTriple]
  · obtain ⟨ch, hch, -, hshape, hsamples⟩ := hrecord k hk
    obtain ⟨hw, hh, -⟩ := Channel.shape_eq_iff.1 hshape
    obtain ⟨hlt, hmod, hdiv⟩ := pixel_position hx hy
    rw [State.sample_of_channel hch, Channel.sample_inside (hw ▸ hx) (hh ▸ hy), hsamples, hw]
    rw [(hread k hk).2 _ (Nat.zero_le _) ((Nat.zero_add c0.area).symm ▸ hlt)]
    simp only [out, hmod, hdiv]
    rw [rctPlaced_offsets hperm hk fun j => o j x y]
  · obtain ⟨ch, hch, hdec, hshape, -⟩ := hrecord k hk
    exact ⟨ch, hch, hdec, hshape⟩

end Sys2Proof.Machine

/-! ## Undoing one squeeze (`45_transforms.md` R376 to R378) -/

namespace Sys2Proof.Machine

/-! ### The lines of a record -/

/-- Value `j` of line `i` of a record, as the inverse squeeze reads it: a row of a horizontal one, a column of a
vertical one. -/
def Channel.lineValue (horizontal : Bool) (ch : Channel) (i j : Nat) : Except Stop Int :=
  if horizontal then sampleAt ch.width ch.samples j i else sampleAt ch.width ch.samples i j

theorem Channel.sampleAt_of_sample {ch : Channel} {x y : Nat} {v : Word} (h : ch.sample x y = some v) :
    sampleAt ch.width ch.samples x y = .ok v.toInt := by
  refine sampleAt_of_read ?_
  rw [Channel.sample] at h
  split at h
  · exact h
  · cases h

theorem Channel.lineValue_of_lineSample {horizontal : Bool} {ch : Channel} {i j : Nat} {v : Word}
    (h : ch.lineSample horizontal i j = some v) : ch.lineValue horizontal i j = .ok v.toInt := by
  cases horizontal <;> exact Channel.sampleAt_of_sample h

theorem readLine_ok {f : Nat → Except Stop Int} : ∀ (l : List Int) (i : Nat),
    (∀ j v, l[j]? = some v → f (i + j) = .ok v) → readLine f l.length i = .ok l
  | [], _, _ => rfl
  | v :: l, i, h => by
    have hrest : readLine f l.length (i + 1) = .ok l := readLine_ok l (i + 1) fun j v hv => by
      rw [Nat.add_assoc, Nat.add_comm 1 j]
      exact h (j + 1) v hv
    have hfirst : f i = .ok v := h 0 v rfl
    rw [List.length_cons, readLine, hfirst, hrest]
    rfl

theorem unsqueezeLines_ok {avg res : Nat → Nat → Except Stop Int} {na nr : Nat} (as rs : Nat → List Int) :
    ∀ lines i, (∀ k, i ≤ k → k < i + lines → readLine (avg k) na 0 = .ok (as k) ∧ readLine (res k) nr 0 = .ok (rs k)) →
      unsqueezeLines avg res na nr lines i = .ok ((List.range' i lines).map fun k => unsqueezeLine none (as k) (rs k))
  | 0, _, _ => rfl
  | lines + 1, i, h => by
    obtain ⟨ha, hr⟩ := h i le_rfl (by omega)
    rw [unsqueezeLines, ha, hr, unsqueezeLines_ok as rs lines (i + 1) fun k hk hk' => h k (by omega) (by omega)]
    rfl

/-! ### One record -/

/-- The record that the inverse squeeze puts in the place of its averages, from its lines of length `n`. -/
def Channel.unsqueezed (horizontal : Bool) (A : Channel) (n : Nat) (lines : List (List Int)) : Channel :=
  if horizontal then
    { A with
      width := n, hshift := unsqueezeShift A.hshift, decoded := true
      samples := samplesOf n A.height fun x y => lineAt lines y x }
  else
    { A with
      height := n, vshift := unsqueezeShift A.vshift, decoded := true
      samples := samplesOf A.width n fun x y => lineAt lines x y }

/-- The inverse of one record, rows and columns alike (R377, R378). -/
def unsqueeze (horizontal : Bool) (A R : Channel) : Eng State Channel := do
  checkBitstream (A.lineCount horizontal = R.lineCount horizontal ∧
    (A.lineLength horizontal = R.lineLength horizontal ∨ A.lineLength horizontal = R.lineLength horizontal + 1))
    .squeezeShape
  let lines ← ofExcept (unsqueezeLines (A.lineValue horizontal) (R.lineValue horizontal) (A.lineLength horizontal)
    (R.lineLength horizontal) (A.lineCount horizontal) 0)
  checkBitstream (∀ l ∈ lines, ∀ v ∈ l, inI32 v = true) .valueOverflow
  pure (A.unsqueezed horizontal (A.lineLength horizontal + R.lineLength horizontal) lines)

theorem unsqueeze_eq (horizontal : Bool) (A R : Channel) :
    (if horizontal then invH A R else invV A R) = unsqueeze horizontal A R := by
  cases horizontal <;> rfl

section
variable {s u : State} {horizontal : Bool} {A R out : Channel}

/-- When the inverse of one record completes, and what it answers. -/
theorem unsqueeze_eq_ok : unsqueeze horizontal A R s = .ok out u ↔
    A.lineCount horizontal = R.lineCount horizontal ∧
    (A.lineLength horizontal = R.lineLength horizontal ∨ A.lineLength horizontal = R.lineLength horizontal + 1) ∧
    ∃ lines, unsqueezeLines (A.lineValue horizontal) (R.lineValue horizontal) (A.lineLength horizontal)
        (R.lineLength horizontal) (A.lineCount horizontal) 0 = .ok lines ∧
      (∀ l ∈ lines, ∀ v ∈ l, inI32 v = true) ∧
      out = A.unsqueezed horizontal (A.lineLength horizontal + R.lineLength horizontal) lines ∧ u = s := by
  simp only [unsqueeze, eng_bind_eq_ok, checkBitstream_eq_ok, ofExcept_eq_ok, eng_pure]
  constructor
  · rintro ⟨_, _, ⟨⟨hcount, hlen⟩, rfl⟩, lines, _, ⟨hlines, rfl⟩, _, _, ⟨hi32, rfl⟩, hout⟩
    cases hout
    exact ⟨hcount, hlen, lines, hlines, hi32, rfl, rfl⟩
  · rintro ⟨hcount, hlen, lines, hlines, hi32, rfl, rfl⟩
    exact ⟨(), u, ⟨⟨hcount, hlen⟩, rfl⟩, lines, u, ⟨hlines, rfl⟩, (), u, ⟨hi32, rfl⟩, rfl⟩

theorem Channel.unsqueezed_decoded (n : Nat) (lines : List (List Int)) :
    (A.unsqueezed horizontal n lines).decoded = true := by cases horizontal <;> rfl

theorem Channel.unsqueezed_lineCount (n : Nat) (lines : List (List Int)) :
    (A.unsqueezed horizontal n lines).lineCount horizontal = A.lineCount horizontal := by cases horizontal <;> rfl

theorem Channel.unsqueezed_lineLength (n : Nat) (lines : List (List Int)) :
    (A.unsqueezed horizontal n lines).lineLength horizontal = n := by cases horizontal <;> rfl

theorem read_samplesOf_at {w h x y : Nat} (f : Nat → Nat → Int) (hx : x < w) (hy : y < h) :
    Memory.read (samplesOf w h f) (y * w + x) = some (Word.ofInt (f x y)) := by
  obtain ⟨hlt, hmod, hdiv⟩ := pixel_position hx hy
  rw [read_samplesOf f hlt, hmod, hdiv]

theorem Channel.unsqueezed_lineSample {n i j : Nat} (lines : List (List Int)) (hi : i < A.lineCount horizontal)
    (hj : j < n) :
    (A.unsqueezed horizontal n lines).lineSample horizontal i j = some (Word.ofInt (lineAt lines i j)) := by
  cases horizontal with
  | true =>
    exact (Channel.sample_inside (ch := A.unsqueezed true n lines) hj hi).trans
      (read_samplesOf_at (fun x y => lineAt lines y x) hj hi)
  | false =>
    exact (Channel.sample_inside (ch := A.unsqueezed false n lines) hi hj).trans
      (read_samplesOf_at (fun x y => lineAt lines x y) hi hj)

end

/-! ### The loop -/

section
variable {s u : State} {horizontal : Bool} {c r : Nat}

theorem inverseSqueezeLoop_succ_eq_ok {left : Nat} : inverseSqueezeLoop horizontal (left + 1) c r s = .ok () u ↔
    ∃ A R out, s.channels[c]? = some A ∧ s.channels[r]? = some R ∧ unsqueeze horizontal A R s = .ok out s ∧
      inverseSqueezeLoop horizontal left (c + 1) (r + 1) (s.setChannel c out) = .ok () u := by
  simp only [inverseSqueezeLoop, unsqueeze_eq, theState_bind, eng_bind_eq_ok, orRaise_eq_ok, update_apply]
  constructor
  · rintro ⟨A, _, ⟨hA, rfl⟩, R, _, ⟨hR, rfl⟩, out, _, hout, _, _, hset, hrest⟩
    cases hset
    obtain ⟨-, -, -, -, -, -, rfl⟩ := unsqueeze_eq_ok.1 hout
    exact ⟨A, R, out, hA, hR, hout, hrest⟩
  · rintro ⟨A, R, out, hA, hR, hout, hrest⟩
    exact ⟨A, s, ⟨hA, rfl⟩, R, s, ⟨hR, rfl⟩, out, s, hout, (), _, rfl, hrest⟩

theorem inverseSqueeze_one {A R out : Channel} (hA : s.channels[c]? = some A) (hR : s.channels[r]? = some R)
    (hout : unsqueeze horizontal A R s = .ok out s) :
    inverseSqueeze c 1 horizontal r s = .ok () (s.setChannels (removeAt (s.channels.set c out) r 1)) :=
  (eng_bind_ok (inverseSqueezeLoop_succ_eq_ok.2 ⟨A, R, out, hA, hR, hout, rfl⟩)).trans rfl

end

theorem getElem?_removeAt_before {l : List Channel} {i j : Nat} (n : Nat) (h : j < i) (hi : i ≤ l.length) :
    (removeAt l i n)[j]? = l[j]? := by
  rw [removeAt, List.getElem?_append_left (by simp; omega), List.getElem?_take_of_lt h]

theorem getElem?_removeAt_after {l : List Channel} {i j : Nat} (n : Nat) (h : i ≤ j) (hi : i ≤ l.length) :
    (removeAt l i n)[j]? = l[j + n]? := by
  have hlen : (l.take i).length = i := List.length_take_of_le hi
  rw [removeAt, List.getElem?_append_right (by omega), hlen, List.getElem?_drop]
  congr 1
  omega

/-! ### Averages in i32 -/

theorem inI32_iff (v : Int) : inI32 v = true ↔ -2 ^ 31 ≤ v ∧ v ≤ 2 ^ 31 - 1 := by simp [inI32]

/-- An average lies between its two values. -/
theorem inI32_average {a b : Int} (ha : inI32 a = true) (hb : inI32 b = true) : inI32 (a - tdiv (a - b) 2) = true := by
  rw [inI32_iff] at *
  rw [tdiv, Int.tdiv_eq_ediv, show Int.sign 2 = 1 from rfl]
  split_ifs <;> omega

theorem inI32_forwardAverages : ∀ line : List Int, (∀ v ∈ line, inI32 v = true) →
    ∀ v ∈ forwardAverages line, inI32 v = true
  | [], _, v, hv => nomatch hv
  | [_], h, v, hv => h v hv
  | a :: b :: more, h, v, hv => by
    rcases List.mem_cons.1 hv with rfl | hv
    · exact inI32_average (h a (by simp)) (h b (by simp))
    · exact inI32_forwardAverages more (fun v hv => h v (by simp [hv])) v hv

/-! ### The round trip -/

/-- Line `i` of an array, of length `n`. -/
def arrayLine (f : Nat → Nat → Int) (n i : Nat) : List Int := (List.range n).map (f i)

/-- The first `lines` lines of an array. -/
def arrayLines (f : Nat → Nat → Int) (n lines : Nat) : List (List Int) := (List.range' 0 lines).map (arrayLine f n)

/-- The record and the residual record hold line `i` of an array, squeezed (R390). -/
def HoldsSqueezed (horizontal : Bool) (A R : Channel) (line : List Int) (i : Nat) : Prop :=
  (∀ j v, (forwardAverages line)[j]? = some v → A.lineSample horizontal i j = some (Word.ofInt v)) ∧
  ∀ j v, (forwardResiduals none line)[j]? = some v → inI32 v = true ∧ R.lineSample horizontal i j = some (Word.ofInt v)

section
variable {horizontal : Bool} {A R : Channel} {line : List Int} {i : Nat}

theorem HoldsSqueezed.reads (h : HoldsSqueezed horizontal A R line i) (hi32 : ∀ v ∈ line, inI32 v = true)
    (hA : A.lineLength horizontal = (line.length + 1) / 2) (hR : R.lineLength horizontal = line.length / 2) :
    readLine (A.lineValue horizontal i) (A.lineLength horizontal) 0 = .ok (forwardAverages line) ∧
      readLine (R.lineValue horizontal i) (R.lineLength horizontal) 0 = .ok (forwardResiduals none line) := by
  obtain ⟨havg, hres⟩ := h
  rw [hA, hR, ← forwardAverages_length, ← forwardResiduals_length none]
  refine ⟨readLine_ok _ 0 fun j v hv => ?_, readLine_ok _ 0 fun j v hv => ?_⟩
  · rw [Nat.zero_add, Channel.lineValue_of_lineSample (havg j v hv), toInt_ofInt_of_inI32]
    exact inI32_forwardAverages line hi32 v (List.mem_of_getElem? hv)
  · obtain ⟨hv32, hsample⟩ := hres j v hv
    rw [Nat.zero_add, Channel.lineValue_of_lineSample hsample, toInt_ofInt_of_inI32 hv32]

/-- Every line is read as it was squeezed, and its inverse is the line. -/
theorem unsqueeze_forward {f : Nat → Nat → Int} {n : Nat} (hcount : A.lineCount horizontal = R.lineCount horizontal)
    (hA : A.lineLength horizontal = (n + 1) / 2) (hR : R.lineLength horizontal = n / 2)
    (hi32 : ∀ i j, inI32 (f i j) = true)
    (hlines : ∀ i < A.lineCount horizontal, HoldsSqueezed horizontal A R (arrayLine f n i) i) (s : State) :
    unsqueeze horizontal A R s =
      .ok (A.unsqueezed horizontal n (arrayLines f n (A.lineCount horizontal))) s := by
  have hline32 : ∀ i, ∀ v ∈ arrayLine f n i, inI32 v = true := by
    intro i v hv
    obtain ⟨j, -, rfl⟩ := List.mem_map.1 hv
    exact hi32 i j
  have hlength : ∀ i, (arrayLine f n i).length = n := fun i => by simp [arrayLine]
  have hread := unsqueezeLines_ok _ _ (A.lineCount horizontal) 0 fun i _ hi =>
    (hlines i (by omega)).reads (hline32 i) (by rw [hlength, hA]) (by rw [hlength, hR])
  simp only [unsqueezeLine_forward] at hread
  have hsum : A.lineLength horizontal + R.lineLength horizontal = n := by omega
  refine unsqueeze_eq_ok.2 ⟨hcount, by omega, _, hread, fun l hl v hv => ?_, by rw [hsum, arrayLines], rfl⟩
  obtain ⟨i, -, rfl⟩ := List.mem_map.1 hl
  exact hline32 i v hv

theorem lineAt_arrayLines (f : Nat → Nat → Int) {n lines i j : Nat} (hi : i < lines) (hj : j < n) :
    lineAt (arrayLines f n lines) i j = f i j := by
  simp [lineAt, arrayLines, arrayLine, hi, hj]

end

/-- Settles O57: the inverse of one record gives back the array, and the residual record goes. -/
theorem xfApplyUndoesSqueeze : Obligations.XfApplyUndoesSqueeze := by
  intro s b r nbMeta horizontal inPlace A R f ho htransforms hbr hA hR hcount n line haverages hi32 hlines
  have hout := unsqueeze_forward (n := n) hcount haverages (by omega) hi32 hlines
  have hundo := inverseSqueeze_one (s := s.setTransforms []) hA hR (hout _)
  obtain ⟨hb, -⟩ := List.getElem?_eq_some_iff.1 hA
  obtain ⟨hr, -⟩ := List.getElem?_eq_some_iff.1 hR
  have hlen : ∀ ch, r ≤ (s.channels.set b ch).length := fun ch => by rw [List.length_set]; omega
  refine ⟨_, A.unsqueezed horizontal n (arrayLines f n (A.lineCount horizontal)),
    exec_xfApply_one ho htransforms hundo, rfl, rfl, rfl, rfl, ?_, ?_,
    Channel.unsqueezed_decoded n _, Channel.unsqueezed_lineCount n _, Channel.unsqueezed_lineLength n _,
    fun i j hi hj => ?_, fun j hjb hjr => ?_, fun j hj => ?_⟩
  · show (removeAt (s.channels.set b _) r 1).length + 1 = _
    simp only [removeAt, List.length_append, List.length_take, List.length_drop, List.length_set]
    omega
  · exact (getElem?_removeAt_before 1 hbr (hlen _)).trans (List.getElem?_set_self hb)
  · rw [Channel.unsqueezed_lineSample _ hi hj, lineAt_arrayLines f hi hj]
  · exact (getElem?_removeAt_before 1 hjr (hlen _)).trans (List.getElem?_set_ne hjb.symm)
  · exact (getElem?_removeAt_after 1 hj (hlen _)).trans (List.getElem?_set_ne (by omega))

end Sys2Proof.Machine

/-! ## The pushes (`45_transforms.md` R360 to R362, R375, R380) -/

namespace Sys2Proof.Machine

/-! ### Their checks -/

theorem allSameShape_iff (l : List Channel) : allSameShape l = true ↔ ∀ c ∈ l, ∀ c' ∈ l, c.shape = c'.shape := by
  cases l with
  | nil => simp [allSameShape]
  | cons ch more =>
    simp only [allSameShape, List.all_eq_true, Channel.sameShape_iff]
    refine ⟨fun h => ?_, fun h c hc => h ch (by simp) c (by simp [hc])⟩
    have hhead : ∀ c ∈ ch :: more, ch.shape = c.shape := fun c hc =>
      (List.mem_cons.1 hc).elim (fun he => by rw [he]) (h c)
    exact fun c hc c' hc' => (hhead c hc).symm.trans (hhead c' hc')

theorem fitsArena_iff (l : List Channel) : fitsArena l = true ↔
    l.length ≤ 4096 ∧ totalArea l ≤ Config.arenaCapacity ∧ ∀ c ∈ l, c.width < 2 ^ 31 ∧ c.height < 2 ^ 31 := by
  have hside : ∀ n, n ≤ Config.maxDimension ↔ n < 2 ^ 31 := fun n => by rw [Config.maxDimension]; omega
  have hcount : l.length ≤ Config.maxChannels ↔ l.length ≤ 4096 := Iff.rfl
  simp only [fitsArena, hcount, hside, Bool.and_eq_true, decide_eq_true_eq, List.all_eq_true, and_assoc]

theorem predictorOfId?_id (q : Predictor) : predictorOfId? q.id = some q := by cases q <;> rfl

theorem predictorOfId?_above {k : Nat} (h : 13 < k) : predictorOfId? k = none := by
  unfold predictorOfId?
  split
  iterate 14 · omega
  · rfl

/-! ### `XF_PUSH_RCT` -/

theorem take_three {l : List Channel} {b : Nat} {c0 c1 c2 : Channel} (h0 : l[b]? = some c0) (h1 : l[b + 1]? = some c1)
    (h2 : l[b + 2]? = some c2) : (l.drop b).take 3 = [c0, c1, c2] := by
  obtain ⟨hb0, rfl⟩ := List.getElem?_eq_some_iff.1 h0
  obtain ⟨hb1, rfl⟩ := List.getElem?_eq_some_iff.1 h1
  obtain ⟨hb2, rfl⟩ := List.getElem?_eq_some_iff.1 h2
  rw [List.drop_eq_getElem_cons hb0, List.drop_eq_getElem_cons hb1, List.drop_eq_getElem_cons hb2]
  rfl

/-- Settles O52, by the closed form of the command. -/
theorem xfPushRctRecordsTransform : Obligations.XfPushRctRecordsTransform := by
  intro s a b
  refine ⟨fun h => exec_of_raise (i := .xfPushRct) ((xfPushRctBody_eq s).trans ?_), fun c0 c1 c2 htype h0 h1 h2 => ?_⟩
  · split
    · next htype => exact if_neg (Nat.not_le.2 (h.resolve_left (Nat.not_le.2 htype)))
    · rfl
  have hbody := (xfPushRctBody_eq s).trans ((if_pos htype).trans (if_pos (List.getElem?_eq_some_iff.1 h2).1))
  have hshape : allSameShape ((s.channels.drop b).take 3) = true ↔ c0.shape = c1.shape ∧ c0.shape = c2.shape := by
    simp [take_three h0 h1 h2, allSameShape, Channel.sameShape_iff]
  exact ⟨fun hne => exec_of_raise (i := .xfPushRct) (hbody.trans (if_neg (mt hshape.1 hne))), fun ho hs1 hs2 =>
    exec_of_ok_no_result (i := .xfPushRct) (t := s.pushTransform s.nbMeta (.rct b a.arg1.toNat)) ho
      (hbody.trans (if_pos (hshape.2 ⟨hs1, hs2⟩)))⟩

/-! ### `XF_PUSH_PALETTE` -/

/-- A record whose `forceWP` is set where the push needs the weighted predictor. -/
theorem modify_forceWP {l : List Channel} {b : Nat} {index : Channel} (hb : l[b]? = some index) (q : Predictor) :
    (if q = .weighted then l.modify b (fun ch => { ch with forceWP := true }) else l) =
      l.set b { index with forceWP := index.forceWP || q == .weighted } := by
  by_cases hq : q = .weighted
  · rw [if_pos hq, List.modify_eq_set_getElem?, hb, hq]
    simp
  · have hq' : (q == .weighted) = false := by simpa using hq
    rw [if_neg hq, hq', Bool.or_false]
    obtain ⟨hlt, rfl⟩ := List.getElem?_eq_some_iff.1 hb
    exact (List.set_getElem_self hlt).symm

/-- Of a range of records the first alone is kept. -/
theorem removeAt_set {l : List Channel} {b n : Nat} (hb : b < l.length) (hn : n ≠ 0) (x : Channel) :
    removeAt (l.set b x) (b + 1) (n - 1) = l.take b ++ [x] ++ l.drop (b + n) := by
  have hrange : b + 1 + (n - 1) = b + n := by omega
  rw [removeAt, hrange, List.drop_set_of_lt (by omega), List.take_add_one, List.getElem?_set_self hb,
    List.take_set_of_le le_rfl]
  rfl

/-- The list of a palette push: of the range the index record alone is kept. -/
theorem palettedList_eq {l : List Channel} {b n : Nat} {index : Channel} (hb : l[b]? = some index) (hn : n ≠ 0) (c : Nat)
    (q : Predictor) : palettedList l b n c q = paletteChannel c n :: l.take b ++
      [{ index with forceWP := index.forceWP || q == .weighted }] ++ l.drop (b + n) := by
  rw [palettedList, modify_forceWP hb, removeAt_set (List.getElem?_eq_some_iff.1 hb).1 hn]
  rfl

theorem Predictor.id_eq_six_iff (q : Predictor) : q.id = 6 ↔ q = .weighted := by cases q <;> decide

theorem weighted_beq {q : Predictor} {w : Word} (h : q.id = w.toNat) : (q == .weighted) = (w == 6#32) := by
  have hw : w = 6#32 ↔ w.toNat = 6 := by rw [← BitVec.toNat_inj]; rfl
  rw [Bool.eq_iff_iff, beq_iff_eq, beq_iff_eq, hw, ← h, q.id_eq_six_iff]

section
variable {s : State}

theorem exec_xfPushPalette_badRange (h : s.latched.args.arg1.toNat = 0 ∨
      s.channels.length < s.latched.args.arg0.toNat + s.latched.args.arg1.toNat ∨ 13 < s.latched.args.arg4.toNat) :
    exec .xfPushPalette s = .next (s.latchFault (.invalidBitstream .badTransform)) := by
  refine exec_of_raise (i := .xfPushPalette) ((xfPushPaletteBody_eq s).trans ?_)
  split
  · next hrange =>
    obtain ⟨hn, hlen⟩ := hrange
    rw [predictorOfId?_above ((h.resolve_left hn).resolve_left (Nat.not_lt.2 hlen))]
  · rfl

variable {q : Predictor} (hn : s.latched.args.arg1.toNat ≠ 0)
  (hlen : s.latched.args.arg0.toNat + s.latched.args.arg1.toNat ≤ s.channels.length)
  (hq : q.id = s.latched.args.arg4.toNat)
include hn hlen hq

theorem xfPushPaletteBody_inRange : xfPushPaletteBody s =
    if allSameShape ((s.channels.drop s.latched.args.arg0.toNat).take s.latched.args.arg1.toNat) = true then
      if s.latched.args.arg0.toNat < s.nbMeta →
          s.latched.args.arg0.toNat + s.latched.args.arg1.toNat ≤ s.nbMeta then
        if fitsArena (palettedList s.channels s.latched.args.arg0.toNat s.latched.args.arg1.toNat
            s.latched.args.arg2.toNat q) = true then
          .ok {} (afterPalettePush s s.latched.args q)
        else .error (.raise .resourceExhausted) s
      else .error (.raise (.invalidBitstream .badTransform)) s
    else .error (.raise (.invalidBitstream .paletteShape)) s := by
  rw [xfPushPaletteBody_eq, if_pos ⟨hn, hlen⟩, ← hq, predictorOfId?_id]

end

/-- Settles O53, by the closed form of the command. -/
theorem xfPushPaletteInsertsPalette : Obligations.XfPushPaletteInsertsPalette := by
  intro s a b n
  refine ⟨exec_xfPushPalette_badRange, fun q hn hlen hq => ?_⟩
  have hbody := xfPushPaletteBody_inRange hn hlen hq
  refine ⟨fun hne => exec_of_raise (i := .xfPushPalette) (hbody.trans (if_neg (mt (allSameShape_iff _).1 hne))),
    fun hsame => ?_⟩
  rw [if_pos ((allSameShape_iff _).2 hsame)] at hbody
  refine ⟨fun hmeta hcross => exec_of_raise (i := .xfPushPalette)
    (hbody.trans (if_neg fun h => Nat.not_le.2 hcross (h hmeta))), fun hmeta index hindex => ?_⟩
  rw [if_pos hmeta] at hbody
  intro pal list
  have hlist : palettedList s.channels b n a.arg2.toNat q = list := by
    rw [palettedList_eq hindex hn, weighted_beq hq]
    rfl
  refine ⟨fun hfits => exec_of_raise (i := .xfPushPalette) (hbody.trans (if_neg ?_)), fun ho hcount harea hsides => ?_⟩
  · rw [hlist]
    exact mt (fitsArena_iff list).1 hfits
  · have hfits : fitsArena (palettedList s.channels b n a.arg2.toNat q) = true :=
      hlist ▸ (fitsArena_iff list).2 ⟨hcount, harea, hsides⟩
    rw [exec_of_ok_no_result (i := .xfPushPalette) (t := afterPalettePush s a q) ho (hbody.trans (if_pos hfits))]
    simp only [afterPalettePush, ← hlist]
    rfl

/-! ### `XF_PUSH_SQUEEZE` -/

/-- The list of a squeeze push, part by part: the halved range, what lies between it and the residuals, the residuals,
and the rest. -/
theorem squeezedList_eq {l : List Channel} {b n r : Nat} (hn : b + n ≤ r) (hr : r ≤ l.length) (horizontal : Bool) :
    squeezedList l b n horizontal r =
      l.take b ++ ((l.drop b).take n).map (squeezedChannel horizontal) ++ (l.drop (b + n)).take (r - (b + n)) ++
        ((l.drop b).take n).map (residualChannel horizontal) ++ l.drop r := by
  have hlen : (l.take b ++ ((l.drop b).take n).map (squeezedChannel horizontal)).length = b + n := by
    simp only [List.length_append, List.length_take, List.length_map, List.length_drop]
    omega
  have hrest : b + n + (r - (b + n)) = r := by omega
  rw [squeezedList, insertAt, mapRange, List.take_append, List.drop_append, hlen, List.take_of_length_le (hlen.trans_le hn),
    List.drop_of_length_le (hlen.trans_le hn), List.drop_drop, hrest, List.nil_append]

theorem squeezedList_inPlace {l : List Channel} {b n : Nat} (h : b + n ≤ l.length) (horizontal : Bool) :
    squeezedList l b n horizontal (b + n) =
      l.take b ++ ((l.drop b).take n).map (squeezedChannel horizontal) ++
        ((l.drop b).take n).map (residualChannel horizontal) ++ l.drop (b + n) := by
  rw [squeezedList_eq le_rfl h, Nat.sub_self, List.take_zero, List.append_nil]

theorem squeezedList_atEnd {l : List Channel} {b n : Nat} (h : b + n ≤ l.length) (horizontal : Bool) :
    squeezedList l b n horizontal l.length =
      l.take b ++ ((l.drop b).take n).map (squeezedChannel horizontal) ++ l.drop (b + n) ++
        ((l.drop b).take n).map (residualChannel horizontal) := by
  have hrest : (l.drop (b + n)).length ≤ l.length - (b + n) := List.length_drop.le
  rw [squeezedList_eq h le_rfl, List.take_of_length_le hrest, List.drop_length, List.append_nil]

section
variable {s : State}

theorem exec_xfPushSqueeze_badArg (h : 4 ≤ s.latched.args.arg2.toNat) :
    exec .xfPushSqueeze s = .next (s.latchFault (.contractViolation .badArg)) :=
  exec_of_raise (i := .xfPushSqueeze) ((xfPushSqueezeBody_eq s).trans (if_neg (by rw [zeroFrom_iff]; omega)))

/-- The checks that a range must pass (R375). -/
def SqueezeRange (s : State) (b n : Nat) (inPlace : Bool) : Prop :=
  (n ≠ 0 ∧ b + n ≤ s.channels.length) ∧ (b < s.nbMeta → b + n ≤ s.nbMeta ∧ inPlace = true) ∧
    ((s.channels.drop b).take n).all squeezable = true

theorem xfPushSqueezeBody_badRange (hflags : s.latched.args.arg2.toNat < 4)
    (h : ¬ SqueezeRange s s.latched.args.arg0.toNat s.latched.args.arg1.toNat (flagBit s.latched.args.arg2 1)) :
    xfPushSqueezeBody s = .error (.raise (.invalidBitstream .badTransform)) s := by
  rw [xfPushSqueezeBody_eq, if_pos ((zeroFrom_iff _ 2).2 hflags)]
  split
  · next hrange =>
    split
    · next hmeta => exact if_neg fun hgroup => h ⟨hrange, hmeta, hgroup⟩
    · rfl
  · rfl

theorem xfPushSqueezeBody_inRange (hflags : s.latched.args.arg2.toNat < 4)
    (h : SqueezeRange s s.latched.args.arg0.toNat s.latched.args.arg1.toNat (flagBit s.latched.args.arg2 1)) :
    xfPushSqueezeBody s = if fitsArena (afterSqueezeList s s.latched.args) = true then
      .ok {} (afterSqueezePush s s.latched.args) else .error (.raise .resourceExhausted) s := by
  obtain ⟨hrange, hmeta, hgroup⟩ := h
  rw [xfPushSqueezeBody_eq, if_pos ((zeroFrom_iff _ 2).2 hflags), if_pos hrange, if_pos hmeta, if_pos hgroup]

theorem squeezable_iff (ch : Channel) :
    squeezable ch = true ↔ ch.hshift ≤ 30 ∧ ch.vshift ≤ 30 ∧ ch.width ≠ 0 ∧ ch.height ≠ 0 := by
  simp [squeezable, and_assoc]

end

/-- Settles O54, by the closed form of the command. -/
theorem xfPushSqueezeInsertsResiduals : Obligations.XfPushSqueezeInsertsResiduals := by
  intro s a b n horizontal inPlace group
  refine ⟨exec_xfPushSqueeze_badArg, fun hflags => ⟨fun h => ?_, fun hn hlen hmeta hgroup => ?_⟩⟩
  · refine exec_of_raise (i := .xfPushSqueeze) (xfPushSqueezeBody_badRange hflags ?_)
    rintro ⟨⟨hn, hlen⟩, hmeta, hall⟩
    rcases h with h | h | ⟨hb, h⟩ | ⟨ch, hch, h⟩
    · exact hn h
    · exact Nat.not_le.2 h hlen
    · obtain ⟨hend, hplace⟩ := hmeta hb
      rcases h with h | h
      · exact Nat.not_le.2 h hend
      · exact absurd (hplace.symm.trans h) (by decide)
    · obtain ⟨hh, hv, hw, hht⟩ := (squeezable_iff ch).1 (List.all_eq_true.1 hall ch hch)
      omega
  have hrange : SqueezeRange s b n inPlace :=
    ⟨⟨hn, hlen⟩, hmeta, List.all_eq_true.2 fun ch hch => (squeezable_iff ch).2 (hgroup ch hch)⟩
  have hbody := xfPushSqueezeBody_inRange hflags hrange
  intro half residuals list
  have hres : group.map (residualChannel horizontal) = residuals := by
    refine List.map_congr_left fun ch _ => ?_
    cases horizontal <;> simp [residualChannel, squeezedChannel, squeezeShift]
  have hlist : afterSqueezeList s a = list := by
    show squeezedList s.channels b n horizontal (if inPlace = true then b + n else s.channels.length) = list
    by_cases hplace : inPlace = true
    · rw [if_pos hplace, squeezedList_inPlace hlen, hres]
      exact (if_pos hplace).symm
    · rw [if_neg hplace, squeezedList_atEnd hlen, hres]
      exact (if_neg hplace).symm
  rw [show afterSqueezeList s s.latched.args = list from hlist] at hbody
  refine ⟨fun hfits => exec_of_raise (i := .xfPushSqueeze) (hbody.trans (if_neg (mt (fitsArena_iff list).1 hfits))),
    fun ho hcount harea hsides => ?_⟩
  rw [exec_of_ok_no_result (i := .xfPushSqueeze) (t := afterSqueezePush s a) ho
    (hbody.trans (if_pos ((fitsArena_iff list).2 ⟨hcount, harea, hsides⟩)))]
  simp only [afterSqueezePush, hlist]
  rfl

end Sys2Proof.Machine

/-! ## Undoing a session restores the list's shapes (`45_transforms.md` R363, R364) -/

namespace Sys2Proof.Machine

/-! ### What undoing does to shapes -/

/-- The shape of an unsqueezed record, from those of its averages and its residuals (R377, R378). -/
def unsqueezedShape (horizontal : Bool) (a r : Nat × Nat × Int × Int) : Nat × Nat × Int × Int :=
  if horizontal then (a.1 + r.1, a.2.1, unsqueezeShift a.2.2.1, a.2.2.2)
  else (a.1, a.2.1 + r.2.1, a.2.2.1, unsqueezeShift a.2.2.2)

/-- The shape at a position of a list. -/
def shapeAt (l : List (Nat × Nat × Int × Int)) (k : Nat) : Nat × Nat × Int × Int := l.getD k (0, 0, 0, 0)

/-- The shapes after the loop of `InverseSqueeze` (R376). -/
def unsqueezeShapes (horizontal : Bool) : (left c r : Nat) → List (Nat × Nat × Int × Int) → List (Nat × Nat × Int × Int)
  | 0, _, _, l => l
  | left + 1, c, r, l =>
    unsqueezeShapes horizontal left (c + 1) (r + 1) (l.set c (unsqueezedShape horizontal (shapeAt l c) (shapeAt l r)))

/-- The shapes after a transform is undone (R370, R376, R381). -/
def undoneShapes (x : Transform) (l : List (Nat × Nat × Int × Int)) : List (Nat × Nat × Int × Int) :=
  match x with
  | .rct _ _ => l
  | .squeeze b n horizontal _ rPos =>
    (unsqueezeShapes horizontal n b rPos l).take rPos ++ (unsqueezeShapes horizontal n b rPos l).drop (rPos + n)
  | .palette b n _ _ _ => (l.take (b + 1) ++ List.replicate n (shapeAt l (b + 1)) ++ l.drop (b + 2)).drop 1

/-- The shapes after a transform list is undone, last record first (R363). -/
def allUndoneShapes : List TransformRecord → List (Nat × Nat × Int × Int) → List (Nat × Nat × Int × Int)
  | [], l => l
  | t :: more, l => allUndoneShapes more (undoneShapes t.transform l)

/-- `nbMeta` after a transform list is undone, last record first (R363). -/
def undoneMeta : List TransformRecord → Nat → Nat
  | [], n => n
  | t :: more, _ => undoneMeta more t.nbMetaBefore

/-! ### Undoing on records does that to their shapes -/

section
variable {s u : State}

theorem shapeAt_map {l : List Channel} {k : Nat} {ch : Channel} (h : l[k]? = some ch) :
    shapeAt (l.map Channel.shape) k = ch.shape := by
  simp [shapeAt, h]

theorem shapes_set {l : List Channel} {k : Nat} {ch : Channel} (h : l[k]? = some ch) :
    (l.map Channel.shape).set k ch.shape = l.map Channel.shape := by
  obtain ⟨hk, rfl⟩ := List.getElem?_eq_some_iff.1 h
  rw [← List.map_set, List.set_getElem_self]

theorem inverseRct_shapes {m rctType : Nat} (h : inverseRct m rctType s = .ok () u) :
    u.channels.map Channel.shape = s.channels.map Channel.shape ∧ u.transforms = s.transforms := by
  obtain ⟨c0, c1, c2, t, h0, h1, h2, -, -, rfl⟩ := inverseRct_eq_ok.1 h
  refine ⟨?_, rfl⟩
  show (setTriple s.channels m c0 c1 c2 t).map Channel.shape = _
  rw [setTriple, List.map_set, List.map_set, List.map_set]
  show (((s.channels.map Channel.shape).set m c0.shape).set (m + 1) c1.shape).set (m + 2) c2.shape = _
  rw [shapes_set h0, shapes_set h1, shapes_set h2]

theorem Channel.shape_unsqueezed (horizontal : Bool) (A R : Channel) (lines : List (List Int)) :
    (A.unsqueezed horizontal (A.lineLength horizontal + R.lineLength horizontal) lines).shape =
      unsqueezedShape horizontal A.shape R.shape := by
  cases horizontal <;> rfl

theorem unsqueeze_shape {horizontal : Bool} {A R out : Channel} (h : unsqueeze horizontal A R s = .ok out u) :
    out.shape = unsqueezedShape horizontal A.shape R.shape := by
  obtain ⟨-, -, lines, -, -, rfl, -⟩ := unsqueeze_eq_ok.1 h
  exact Channel.shape_unsqueezed horizontal A R lines

theorem inverseSqueezeLoop_shapes (horizontal : Bool) : ∀ (left c r : Nat) {s u : State},
    inverseSqueezeLoop horizontal left c r s = .ok () u →
      u.channels.map Channel.shape = unsqueezeShapes horizontal left c r (s.channels.map Channel.shape) ∧
        u.transforms = s.transforms
  | 0, _, _, _, _, h => by cases h; exact ⟨rfl, rfl⟩
  | left + 1, c, r, s, u, h => by
    obtain ⟨A, R, out, hA, hR, hout, hrest⟩ := inverseSqueezeLoop_succ_eq_ok.1 h
    obtain ⟨hshapes, htransforms⟩ := inverseSqueezeLoop_shapes horizontal left (c + 1) (r + 1) hrest
    refine ⟨?_, htransforms⟩
    rw [hshapes, State.setChannel_channels, List.map_set, unsqueeze_shape hout, unsqueezeShapes, shapeAt_map hA,
      shapeAt_map hR]

theorem inverseSqueeze_shapes {b n rPos : Nat} {horizontal inPlace : Bool}
    (h : inverseSqueeze b n horizontal rPos s = .ok () u) :
    u.channels.map Channel.shape =
        undoneShapes (.squeeze b n horizontal inPlace rPos) (s.channels.map Channel.shape) ∧
      u.transforms = s.transforms := by
  obtain ⟨_, v, hloop, hremove⟩ := eng_bind_eq_ok.1 h
  obtain ⟨hshapes, htransforms⟩ := inverseSqueezeLoop_shapes horizontal n b rPos hloop
  cases hremove
  refine ⟨?_, htransforms⟩
  show (removeAt v.channels rPos n).map Channel.shape = _
  rw [removeAt, List.map_append, List.map_take, List.map_drop, hshapes]
  rfl

/-- Computations in a row that change nothing. -/
theorem forAll_eq_ok {σ α β : Type} {f : α → Eng σ β} (hf : ∀ a s b t, f a s = .ok b t → t = s) {s t : σ} :
    ∀ {l : List α} {bs : List β}, forAll f l s = .ok bs t ↔ List.Forall₂ (fun a b => f a s = .ok b s) l bs ∧ t = s
  | [], bs => by
    simp [forAll, eq_comm]
  | a :: l, bs => by
    simp only [forAll, eng_bind_eq_ok, eng_pure, List.forall₂_cons_left_iff]
    constructor
    · rintro ⟨b, v, hb, bs', w, hbs, hlast⟩
      obtain rfl := hf a s b v hb
      obtain ⟨hbs, rfl⟩ := (forAll_eq_ok hf).1 hbs
      cases hlast
      exact ⟨⟨b, bs', hb, hbs, rfl⟩, rfl⟩
    · rintro ⟨⟨b, bs', hb, hbs, rfl⟩, rfl⟩
      exact ⟨b, t, hb, bs', t, (forAll_eq_ok hf).2 ⟨hbs, rfl⟩, rfl⟩

theorem paletteOutput_eq_ok {j : PaletteJob} {k : Nat} {out : Channel} : paletteOutput j k s = .ok out u ↔
    ∃ t, palettePixels j k j.index.area 0 { samples := [], wp := {} } = .ok () t ∧
      out = { j.index with decoded := true, forceWP := false, samples := t.samples } ∧ u = s := by
  unfold paletteOutput
  cases palettePixels j k j.index.area 0 { samples := [], wp := {} } <;> simp [eq_comm]

theorem paletteOutput_keeps (j : PaletteJob) : ∀ k s out u, paletteOutput j k s = .ok out u → u = s := by
  intro k s out u h
  obtain ⟨_, -, -, hu⟩ := paletteOutput_eq_ok.1 h
  exact hu

/-- What the inversion of a palette works with (R381). -/
def paletteJob (s : State) (pal index : Channel) (nbColours nbDeltas : Nat) (q : Predictor) : PaletteJob where
  pal := pal
  index := index
  nbColours := nbColours
  nbDeltas := nbDeltas
  dPred := q
  bd := min s.latched.bitDepth.toNat 24
  params := wpParams s.latched

theorem require_eq_ok {σ : Type} {s t : σ} {c : Prop} [Decidable c] {f : BlockFault} {a : Unit} :
    require c f s = .ok a t ↔ c ∧ t = s := by
  by_cases h : c <;> simp [h, eq_comm]

/-- When `InversePalette` completes, and what it leaves (R381). -/
theorem inversePalette_eq_ok {b n nbColours nbDeltas : Nat} {q : Predictor} :
    inversePalette b n nbColours nbDeltas q s = .ok () u ↔
    ∃ pal index outs, (1 ≤ s.latched.bitDepth.toNat ∧ s.latched.bitDepth.toNat ≤ 32) ∧
      s.channels[0]? = some pal ∧ s.channels[b + 1]? = some index ∧ (pal.width = nbColours ∧ pal.height = n) ∧
      fitsArena (unpalettedList s.channels b (List.replicate n index)) = true ∧
      List.Forall₂ (fun k out => paletteOutput (paletteJob s pal index nbColours nbDeltas q) k s = .ok out s)
        (List.range n) outs ∧
      u = s.setChannels (unpalettedList s.channels b outs) := by
  simp only [inversePalette, theState_bind, eng_bind_eq_ok, orRaise_eq_ok, checkBitstream_eq_ok, checkContract,
    require_eq_ok, update_apply]
  constructor
  · rintro ⟨_, _, ⟨hbits, rfl⟩, pal, _, ⟨hpal, rfl⟩, index, _, ⟨hindex, rfl⟩, _, _, ⟨hshape, rfl⟩, _, _, ⟨hfits, rfl⟩,
      outs, _, houts, hu⟩
    obtain ⟨houts, rfl⟩ := (forAll_eq_ok (paletteOutput_keeps _)).1 houts
    cases hu
    exact ⟨pal, index, outs, hbits, hpal, hindex, hshape, hfits, houts, rfl⟩
  · rintro ⟨pal, index, outs, hbits, hpal, hindex, hshape, hfits, houts, rfl⟩
    exact ⟨(), s, ⟨hbits, rfl⟩, pal, s, ⟨hpal, rfl⟩, index, s, ⟨hindex, rfl⟩, (), s, ⟨hshape, rfl⟩, (), s, ⟨hfits, rfl⟩,
      outs, s, (forAll_eq_ok (paletteOutput_keeps _)).2 ⟨houts, rfl⟩, rfl⟩

theorem inversePalette_shapes {b n nbColours nbDeltas : Nat} {q : Predictor}
    (h : inversePalette b n nbColours nbDeltas q s = .ok () u) :
    u.channels.map Channel.shape =
        undoneShapes (.palette b n nbColours nbDeltas q) (s.channels.map Channel.shape) ∧
      u.transforms = s.transforms := by
  obtain ⟨pal, index, outs, -, -, hindex, -, -, houts, rfl⟩ := inversePalette_eq_ok.1 h
  have hshapes : outs.map Channel.shape = List.replicate n index.shape := by
    refine List.eq_replicate_iff.2 ⟨by simpa using houts.length_eq.symm, fun a ha => ?_⟩
    obtain ⟨out, hout, rfl⟩ := List.mem_map.1 ha
    obtain ⟨k, hk, rfl⟩ := List.mem_iff_get.1 hout
    obtain ⟨t, -, hout, -⟩ := paletteOutput_eq_ok.1 (houts.get (by rw [houts.length_eq]; exact k.2) k.2)
    exact (congrArg Channel.shape hout).trans rfl
  refine ⟨?_, rfl⟩
  show (unpalettedList s.channels b outs).map Channel.shape = _
  rw [unpalettedList, undoneShapes, shapeAt_map hindex]
  simp only [List.map_drop, List.map_append, List.map_take, hshapes]

theorem undoTransform_shapes {x : Transform} (h : undoTransform x s = .ok () u) :
    u.channels.map Channel.shape = undoneShapes x (s.channels.map Channel.shape) ∧ u.transforms = s.transforms := by
  cases x with
  | rct m rctType => exact inverseRct_shapes h
  | palette b n nbColours nbDeltas q => exact inversePalette_shapes h
  | squeeze b n horizontal inPlace rPos => exact inverseSqueeze_shapes h

theorem undoTransforms_shapes : ∀ (l : List TransformRecord) {s u : State}, s.transforms.reverse = l →
    undoTransforms l s = .ok () u →
      u.channels.map Channel.shape = allUndoneShapes l (s.channels.map Channel.shape) ∧
        u.nbMeta = undoneMeta l s.nbMeta ∧ u.transforms = []
  | [], s, u, hl, h => by
    cases h
    exact ⟨rfl, rfl, List.reverse_eq_nil_iff.1 hl⟩
  | t :: more, s, u, hl, h => by
    rw [undoTransforms, update_bind] at h
    obtain ⟨_, v, hv, h⟩ := eng_bind_eq_ok.1 h
    rw [update_bind] at h
    obtain ⟨hshapes, htransforms⟩ := undoTransform_shapes hv
    have hreverse : (v.setNbMeta t.nbMetaBefore).transforms.reverse = more := by
      rw [State.setNbMeta_transforms, htransforms]
      exact List.reverse_reverse more
    obtain ⟨hrest, hmeta, hnil⟩ := undoTransforms_shapes more hreverse h
    refine ⟨?_, hmeta, hnil⟩
    rw [hrest, State.setNbMeta_channels, hshapes]
    rfl

end

/-! ### Undoing a push -/

section
variable {l : List Channel} {b n r : Nat}

theorem unsqueezedShape_squeezed (horizontal : Bool) (ch : Channel) :
    unsqueezedShape horizontal (squeezedChannel horizontal ch).shape (residualChannel horizontal ch).shape = ch.shape := by
  have hhalf : ∀ w, (w + 1) / 2 + (w - (w + 1) / 2) = w := fun w => by omega
  have hshift : ∀ v, unsqueezeShift (squeezeShift v) = v := fun v => by
    unfold squeezeShift unsqueezeShift
    split_ifs <;> omega
  cases horizontal <;> simp [unsqueezedShape, squeezedChannel, residualChannel, Channel.shape, hhalf, hshift]

/-- One round of the loop, on the parts of the list. -/
theorem unsqueezeShapes_succ (horizontal : Bool) (left : Nat) (pre mid rest : List (Nat × Nat × Int × Int))
    (a r : Nat × Nat × Int × Int) :
    unsqueezeShapes horizontal (left + 1) pre.length (pre.length + 1 + mid.length) (pre ++ a :: (mid ++ r :: rest)) =
      unsqueezeShapes horizontal left (pre.length + 1) (pre.length + 1 + mid.length + 1)
        (pre ++ unsqueezedShape horizontal a r :: (mid ++ r :: rest)) := by
  have ha : shapeAt (pre ++ a :: (mid ++ r :: rest)) pre.length = a := by simp [shapeAt]
  have hr : shapeAt (pre ++ a :: (mid ++ r :: rest)) (pre.length + 1 + mid.length) = r := by
    have hlen : (pre ++ a :: mid).length = pre.length + 1 + mid.length := by simp; omega
    rw [← hlen, ← List.cons_append, ← List.append_assoc]
    simp [shapeAt]
  rw [unsqueezeShapes, ha, hr]
  simp

/-- Record by record the loop takes the halved shapes back, wherever the residuals stand behind them. -/
theorem unsqueezeShapes_squeezed (horizontal : Bool) (post : List (Nat × Nat × Int × Int)) :
    ∀ (group : List Channel) (pre mid : List (Nat × Nat × Int × Int)),
      unsqueezeShapes horizontal group.length pre.length (pre.length + group.length + mid.length)
          (pre ++ group.map (fun ch => (squeezedChannel horizontal ch).shape) ++ mid ++
            group.map (fun ch => (residualChannel horizontal ch).shape) ++ post) =
        pre ++ group.map Channel.shape ++ mid ++ group.map (fun ch => (residualChannel horizontal ch).shape) ++ post
  | [], pre, mid => by simp [unsqueezeShapes]
  | ch :: group, pre, mid => by
    have hround := unsqueezeShapes_succ horizontal group.length pre
      (group.map (fun ch => (squeezedChannel horizontal ch).shape) ++ mid)
      (group.map (fun ch => (residualChannel horizontal ch).shape) ++ post)
      (squeezedChannel horizontal ch).shape (residualChannel horizontal ch).shape
    have hrest := unsqueezeShapes_squeezed horizontal post group (pre ++ [ch.shape])
      (mid ++ [(residualChannel horizontal ch).shape])
    rw [unsqueezedShape_squeezed] at hround
    simp only [List.length_append, List.length_map, List.append_assoc, List.length_cons, List.length_nil, List.map_cons,
      List.cons_append, List.nil_append, Nat.zero_add] at hround hrest ⊢
    have h1 : pre.length + (group.length + 1) + mid.length = pre.length + 1 + (group.length + mid.length) := by omega
    have h2 : pre.length + 1 + (group.length + mid.length) + 1 = pre.length + 1 + group.length + (mid.length + 1) := by omega
    rw [h1, hround, h2, hrest]

theorem undoneShapes_squeezed (horizontal inPlace : Bool) (group : List Channel)
    (pre mid post : List (Nat × Nat × Int × Int)) :
    undoneShapes (.squeeze pre.length group.length horizontal inPlace (pre.length + group.length + mid.length))
        (pre ++ group.map (fun ch => (squeezedChannel horizontal ch).shape) ++ mid ++
          group.map (fun ch => (residualChannel horizontal ch).shape) ++ post) =
      pre ++ group.map Channel.shape ++ mid ++ post := by
  have hfront : (pre ++ group.map Channel.shape ++ mid).length = pre.length + group.length + mid.length := by
    simp [Nat.add_assoc]
  have hback : (pre ++ group.map Channel.shape ++ mid ++
      group.map (fun ch => (residualChannel horizontal ch).shape)).length =
        pre.length + group.length + mid.length + group.length := by
    simp [Nat.add_assoc]
  simp only [undoneShapes, unsqueezeShapes_squeezed]
  rw [List.drop_left' hback, List.append_assoc _ _ post, List.take_left' hfront]

/-- Undoing a squeeze push restores the shapes, whatever was appended since (R364). -/
theorem undoneShapes_squeezedList (hn : b + n ≤ r) (hr : r ≤ l.length) (horizontal inPlace : Bool)
    (tail : List (Nat × Nat × Int × Int)) :
    undoneShapes (.squeeze b n horizontal inPlace r) ((squeezedList l b n horizontal r).map Channel.shape ++ tail) =
      l.map Channel.shape ++ tail := by
  have hparts : l.take b ++ (l.drop b).take n ++ (l.drop (b + n)).take (r - (b + n)) ++ l.drop r = l := by
    rw [← List.take_add, ← List.take_add, Nat.add_sub_cancel' hn, List.take_append_drop]
  have h := undoneShapes_squeezed horizontal inPlace ((l.drop b).take n) ((l.take b).map Channel.shape)
    (((l.drop (b + n)).take (r - (b + n))).map Channel.shape) ((l.drop r).map Channel.shape ++ tail)
  have hpre : ((l.take b).map Channel.shape).length = b := by simp; omega
  have hgroup : ((l.drop b).take n).length = n := by simp; omega
  have hmid : b + n + (((l.drop (b + n)).take (r - (b + n))).map Channel.shape).length = r := by simp; omega
  rw [hpre, hgroup, hmid] at h
  rw [squeezedList_eq hn hr]
  conv_rhs => rw [← hparts]
  simpa [Function.comp_def] using h

theorem undoneShapes_paletted (pre post : List (Nat × Nat × Int × Int)) (p g : Nat × Nat × Int × Int) (n c d : Nat)
    (q : Predictor) :
    undoneShapes (.palette pre.length n c d q) (p :: (pre ++ g :: post)) = pre ++ List.replicate n g ++ post := by
  have hg : shapeAt (p :: (pre ++ g :: post)) (pre.length + 1) = g := by simp [shapeAt]
  rw [undoneShapes, hg]
  simp

/-- Undoing a palette push restores the shapes, whatever was appended since (R364). -/
theorem undoneShapes_palettedList (hn : n ≠ 0) (hlen : b + n ≤ l.length)
    (hsame : allSameShape ((l.drop b).take n) = true) (c d : Nat) (q : Predictor) (tail : List (Nat × Nat × Int × Int)) :
    undoneShapes (.palette b n c d q) ((palettedList l b n c q).map Channel.shape ++ tail) =
      l.map Channel.shape ++ tail := by
  have hb : l[b]? = some l[b] := List.getElem?_eq_getElem (by omega)
  have hfirst : l[b] ∈ (l.drop b).take n := List.mem_of_getElem? (i := 0) <| by
    rw [List.getElem?_take_of_lt (Nat.pos_of_ne_zero hn), List.getElem?_drop, Nat.add_zero, hb]
  have hgroup : ((l.drop b).take n).map Channel.shape = List.replicate n l[b].shape := by
    refine List.eq_replicate_iff.2 ⟨by simp; omega, fun a ha => ?_⟩
    obtain ⟨ch, hch, rfl⟩ := List.mem_map.1 ha
    exact (allSameShape_iff _).1 hsame ch hch _ hfirst
  have hparts : (l.take b).map Channel.shape ++ ((l.drop b).take n).map Channel.shape ++
      (l.drop (b + n)).map Channel.shape = l.map Channel.shape := by
    rw [← List.map_append, ← List.map_append, ← List.take_add, List.take_append_drop]
  have h := undoneShapes_paletted ((l.take b).map Channel.shape) ((l.drop (b + n)).map Channel.shape ++ tail)
    (paletteChannel c n).shape l[b].shape n c d q
  have hpre : ((l.take b).map Channel.shape).length = b := by simp; omega
  rw [hpre, ← hgroup, ← List.append_assoc, hparts] at h
  rw [palettedList_eq hb hn]
  simpa [Channel.shape] using h

end

/-! ### A session -/

/-- Whatever was appended since, undoing the transforms of `t` leads back to the shapes of `s` with `added` after them,
and to its `nbMeta`. -/
structure LeadsBack (s : State) (added : List (Nat × Nat × Int × Int)) (t : State) : Prop where
  shapes : ∀ tail, allUndoneShapes t.transforms.reverse (t.channels.map Channel.shape ++ tail) =
    s.channels.map Channel.shape ++ added ++ tail
  nbMeta : undoneMeta t.transforms.reverse t.nbMeta = s.nbMeta

section
variable {s t u : State} {added : List (Nat × Nat × Int × Int)}

theorem LeadsBack.start (h : s.transforms = []) : LeadsBack s [] s := by
  constructor <;> simp [h, allUndoneShapes, undoneMeta]

theorem LeadsBack.same (h : LeadsBack s added t) (hshapes : u.channels.map Channel.shape = t.channels.map Channel.shape)
    (hmeta : u.nbMeta = t.nbMeta) (htransforms : u.transforms = t.transforms) : LeadsBack s added u := by
  obtain ⟨hs, hn⟩ := h
  constructor
  · rwa [hshapes, htransforms]
  · rwa [hmeta, htransforms]

theorem LeadsBack.append (h : LeadsBack s added t) (ch : Channel) :
    LeadsBack s (added ++ [ch.shape]) (t.setChannels (t.channels ++ [ch])) := by
  refine ⟨fun tail => ?_, h.nbMeta⟩
  have := h.shapes (ch.shape :: tail)
  simpa using this

/-- A push whose undoing restores the shapes. -/
theorem LeadsBack.push (h : LeadsBack s added t) {x : Transform} {l : List Channel} {n : Nat}
    (hundo : ∀ tail, undoneShapes x (l.map Channel.shape ++ tail) = t.channels.map Channel.shape ++ tail) :
    LeadsBack s added (((t.setChannels l).setNbMeta n).pushTransform t.nbMeta x) := by
  have hreverse : (((t.setChannels l).setNbMeta n).pushTransform t.nbMeta x).transforms.reverse =
      { transform := x, nbMetaBefore := t.nbMeta } :: t.transforms.reverse := by simp
  constructor
  · intro tail
    rw [hreverse, allUndoneShapes, ← h.shapes tail]
    exact congrArg _ (hundo tail)
  · rw [hreverse, undoneMeta]
    exact h.nbMeta

theorem shapes_set_same {l : List Channel} {k : Nat} {ch new : Channel} (h : l[k]? = some ch)
    (hnew : new.shape = ch.shape) : (l.set k new).map Channel.shape = l.map Channel.shape := by
  rw [List.map_set, hnew, shapes_set h]

theorem shapes_markDecoded (l : List Channel) (k : Nat) :
    (l.modify k fun ch => { ch with decoded := true }).map Channel.shape = l.map Channel.shape := by
  cases h : l[k]? with
  | none => rw [List.modify_eq_self (List.getElem?_eq_none_iff.1 h)]
  | some ch =>
    rw [List.modify_eq_set_getElem?, h]
    exact shapes_set_same h rfl

theorem xfPushPaletteBody_sameShape {r : Results} (h : xfPushPaletteBody s = .ok r u) :
    allSameShape ((s.channels.drop s.latched.args.arg0.toNat).take s.latched.args.arg1.toNat) = true := by
  by_contra hne
  rw [xfPushPaletteBody_eq] at h
  split at h
  · split at h
    · cases h
    · cases h
  · cases h

theorem chlAppendBody_ok {r : Results} (h : chlAppendBody s = .ok r u) :
    u = s.setChannels (s.channels ++ [appendedChannel s.latched.args]) := by
  rw [chlAppendBody_eq] at h
  split_ifs at h
  cases h
  rfl

/-- Every other command than `CHL_APPEND`, `CHL_CLEAR` and `XF_APPLY`, completed, leads back where its start did. -/
theorem LeadsBack.body (h : LeadsBack s added t) {i : Instr} (hi : i ∉ [.chlAppend, .chlClear, .xfApply]) {r : Results}
    (hb : commandBody i t = .ok r u) (hl : Leaves t i true u) : LeadsBack s added u := by
  cases hl with
  | recordMarked => exact h.same (shapes_markDecoded _ _) rfl rfl
  | pixelsDecoded hch =>
    exact h.same ((shapes_markDecoded _ _).trans (shapes_set_same (l := t.channels) hch rfl)) rfl rfl
  | sampleWritten hch => exact h.same (shapes_set_same hch rfl) rfl rfl
  | rctPushed => exact h.push (l := t.channels) (n := t.nbMeta) fun _ => rfl
  | palettePushed hn hlen => exact h.push (undoneShapes_palettedList hn hlen (xfPushPaletteBody_sameShape hb) _ _ _)
  | squeezePushed hlen =>
    refine h.push (undoneShapes_squeezedList ?_ ?_ _ _) <;> rw [squeezePos] <;> split_ifs <;> omega
  | listCleared | recordAppended | transformsUndone => exact absurd hi (by decide)
  | _ => exact h.same rfl rfl rfl

theorem LeadsBack.latched (h : LeadsBack s added t) (r : HostRegs) : LeadsBack s added { t with latched := r } :=
  h.same rfl rfl rfl

theorem LeadsBack.complete (h : LeadsBack s added t) (r : Results) : LeadsBack s added (t.complete r) :=
  h.same (by rw [State.complete_channels]) (State.complete_nbMeta _ _) (State.complete_transforms _ _)

theorem LeadsBack.session (h : s.transforms = []) (hsession : Session s added t) : LeadsBack s added t := by
  induction hsession with
  | start => exact .start h
  | @append _ _ _ regs _ he hf ih =>
    obtain ⟨r, u, hb, rfl⟩ := exec_completes he hf
    rw [chlAppendBody_ok hb]
    exact ((ih.latched regs).append (appendedChannel regs.args)).complete r
  | other i hi _ he hf ih =>
    rcases exec_leaves he with ⟨r, u, hb, hl, rfl⟩ | ⟨f, u, -, rfl⟩
    · exact ((ih.latched _).body hi hb hl).complete r
    · simp [State.latchFault] at hf

theorem xfApplyBody_ok {r : Results} (h : xfApplyBody s = .ok r u) :
    undoTransforms s.transforms.reverse s = .ok () u := by
  rw [xfApplyBody_eq] at h
  split at h
  · next hundo =>
    cases h
    exact hundo
  · cases h
  · cases h

end

/-- Settles O60: through the session every state leads back to the first, and `XF_APPLY` goes that way. -/
theorem xfApplyRestoresListShape : Obligations.XfApplyRestoresListShape := by
  intro s t u added r hs hsession he hf
  obtain ⟨res, v, hb, rfl⟩ := exec_completes he hf
  obtain ⟨hshapes, hmeta⟩ := (LeadsBack.session hs hsession).latched r
  obtain ⟨hv, hvmeta, hvnil⟩ := undoTransforms_shapes _ rfl (xfApplyBody_ok hb)
  rw [State.complete_channels, State.complete_nbMeta, State.complete_transforms, hv, hvmeta, hmeta]
  have := hshapes []
  simp only [List.append_nil] at this
  exact ⟨this, rfl, hvnil⟩

end Sys2Proof.Machine

namespace Sys2Proof.Machine

/-! ## The palette values outside the explicit entries (O59) -/

section

variable {pal : Channel} {P : Nat} {idx : Int} {k bd : Nat}

theorem paletteValue_of_neg (h : idx < 0) :
    paletteValue pal P idx k bd = .ok (if 3 ≤ k then 0 else deltaEntry idx k bd) := if_pos h

theorem paletteValue_of_high_component (h : idx < 0 ∨ (P : Int) ≤ idx) (hk : 3 ≤ k) :
    paletteValue pal P idx k bd = .ok 0 := by
  rcases h with h | h
  · rw [paletteValue_of_neg h, if_pos hk]
  · rw [paletteValue, if_neg (by omega), if_neg (by omega), if_pos hk]

theorem delta_length : delta.length = 72 := by decide

theorem deltaEntry_period (idx : Int) (k bd : Nat) : deltaEntry (idx - 143) k bd = deltaEntry idx k bd := by
  have : -(idx - 143 + 1) = -(idx + 1) + 143 := by ring
  rw [deltaEntry, deltaEntry, this, Int.add_emod_right]

theorem deltaEntry_of_small (h : bd ≤ 8) : deltaEntry idx k bd = deltaEntry idx k 8 := by
  simp [deltaEntry, Nat.not_lt.2 h]

theorem deltaEntry_eq {i : Nat} {row : Int × Int × Int} (hi : (i : Int) = (-(idx + 1)) % 143)
    (hrow : delta[(i + 1) / 2]? = some row) :
    deltaEntry idx k bd = (if k = 0 then row.1 else if k = 1 then row.2.1 else row.2.2) *
      (if i % 2 = 1 then 1 else -1) * (if 8 < bd then 2 ^ (bd - 8) else 1) := by
  rw [deltaEntry, ← hi, Int.toNat_natCast, Nat.shiftRight_one, List.getD_eq_getElem?_getD, hrow, Option.getD_some,
    deltaComponent]
  split_ifs <;> simp

theorem deltaRow_exists (idx : Int) : ∃ i row, i < 143 ∧ ((i : Nat) : Int) = (-(idx + 1)) % 143 ∧
    delta[(i + 1) / 2]? = some row := by
  have hnonneg := Int.emod_nonneg (-(idx + 1)) (by decide : (143 : Int) ≠ 0)
  have hlt := Int.emod_lt_of_pos (-(idx + 1)) (by decide : (0 : Int) < 143)
  refine ⟨((-(idx + 1)) % 143).toNat, delta[(((-(idx + 1)) % 143).toNat + 1) / 2]'(by rw [delta_length]; omega),
    by omega, by omega, List.getElem?_eq_getElem _⟩

theorem paletteScale_natCast (digit bd : Nat) : paletteScale digit bd 4 = ((digit * (2 ^ bd - 1) / 4 : Nat) : Int) := by
  have hmax : ((2 ^ bd - 1 : Nat) : Int) = 2 ^ bd - 1 := by simp [Nat.cast_sub Nat.one_le_two_pow]
  rw [paletteScale, ← hmax, ← Nat.cast_mul]
  exact Int.tdiv_eq_ediv_of_nonneg (Int.natCast_nonneg _)

theorem exists_digit (a : Int) (d : Nat) (hd : 0 < d) : ∃ digit : Nat, digit < d ∧ (digit : Int) = a % d := by
  have hnonneg := Int.emod_nonneg a (by omega : (d : Int) ≠ 0)
  have hlt := Int.emod_lt_of_pos a (by omega : (0 : Int) < d)
  exact ⟨(a % d).toNat, by omega, by omega⟩

/-- The digit of the small cube: two bits a component. -/
theorem smallCube_shift (a : Int) (k : Nat) : asr a (2 * k) = a / 4 ^ k := by
  rw [asr_eq, pow_mul]
  norm_num

/-- The digit of the large cube: the model divides by 5 or by 25. -/
theorem largeCube_quotient {a : Int} (ha : 0 ≤ a) (hk : k < 3) :
    (if k = 0 then a else if k = 1 then tdiv a 5 else tdiv a 25) = a / 5 ^ k := by
  simp only [tdiv, Int.tdiv_eq_ediv_of_nonneg ha]
  interval_cases k <;> simp

theorem paletteValue_smallCube (hP : (P : Int) ≤ idx) (h : idx < P + 64) (hk : k < 3) {digit : Nat}
    (hdigit : (digit : Int) = (idx - P) / 4 ^ k % 4) :
    paletteValue pal P idx k bd = .ok ((digit * (2 ^ bd - 1) / 4 : Nat) + ((2 ^ (bd - 3) : Nat) : Int)) := by
  rw [paletteValue, if_neg (by omega), if_neg (by omega), if_neg (by omega), if_pos h, smallCube_shift, ← hdigit,
    paletteScale_natCast, Nat.cast_pow, Nat.cast_ofNat]

theorem paletteValue_largeCube (h : (P : Int) + 64 ≤ idx) (hk : k < 3) {digit : Nat}
    (hdigit : (digit : Int) = (idx - P - 64) / 5 ^ k % 5) :
    paletteValue pal P idx k bd = .ok ((digit * (2 ^ bd - 1) / 4 : Nat) : Int) := by
  rw [paletteValue, if_neg (by omega), if_neg (by omega), if_neg (by omega), if_neg (by omega)]
  dsimp only
  rw [largeCube_quotient (by omega) hk, ← hdigit, paletteScale_natCast]

end

/-- Settles O59, range by range; a row of the delta palette stands for every remainder modulo 143. -/
theorem implicitPaletteEntries : Obligations.ImplicitPaletteEntries := by
  intro pal P idx k bd _ _
  refine ⟨paletteValue_of_high_component, fun h => ⟨?period, ?delta⟩, fun h hbd => ?small, fun hP h hk => ?_,
    fun h hk => ?_⟩
  case period => rw [paletteValue_of_neg h, paletteValue_of_neg (by omega), deltaEntry_period]
  case delta =>
    obtain ⟨i, row, hlt, hi, hrow⟩ := deltaRow_exists idx
    refine ⟨i, row, hlt, hi, hrow, fun hk => ?_⟩
    rw [paletteValue_of_neg h, if_neg (by omega), deltaEntry_eq hi hrow]
  case small => rw [paletteValue_of_neg h, paletteValue_of_neg h, deltaEntry_of_small hbd]
  · obtain ⟨digit, hlt, hdigit⟩ := exists_digit ((idx - P) / 4 ^ k) 4 (by decide)
    exact ⟨digit, hlt, hdigit, paletteValue_smallCube hP h hk hdigit⟩
  · obtain ⟨digit, hlt, hdigit⟩ := exists_digit ((idx - P - 64) / 5 ^ k) 5 (by decide)
    exact ⟨digit, hlt, hdigit, paletteValue_largeCube h hk hdigit⟩

end Sys2Proof.Machine

/-! ## Undoing one palette (`45_transforms.md` R381, R382, R384; O58) -/

namespace Sys2Proof.Machine

/-! ### What a pixel reads of the samples before it -/

section
variable {p : Plane} {x y : Nat} {m : Memory}

/-- Samples that are there are known by their values. -/
theorem knownBefore_self (h : ∀ i < y * p.w + x, ∃ v, Memory.read p.m i = some v) :
    KnownBefore p (sampleValue p.w p.m) x y :=
  knownBefore_of_read fun i hi => (h i hi).imp fun _ hv => ⟨hv, hv⟩

section
variable (hx : x < p.w) (h : ∀ i < y * p.w + x, ∃ v, Memory.read p.m i = some v ∧ Memory.read m i = some v)
include hx h

/-- A store with the same samples before a pixel predicts it alike. -/
theorem predict_congr (q : Predictor) (wp : Int) : predict q { w := p.w, m := m } x y wp = predict q p x y wp := by
  have hp := knownBefore_self fun i hi => (h i hi).imp fun _ => And.left
  exact (KnownBefore.predict_eq (p := { w := p.w, m := m }) hx (knownBefore_of_read h) q wp).trans
    (hp.predict_eq hx q wp).symm

theorem wpPredict_congr (params : WpParams) (st : WpState) :
    wpPredict params st { w := p.w, m := m } x y = wpPredict params st p x y := by
  have hp := knownBefore_self fun i hi => (h i hi).imp fun _ => And.left
  exact (KnownBefore.wpPredict_eq (p := { w := p.w, m := m }) hx (knownBefore_of_read h) params st).trans
    (hp.wpPredict_eq hx params st).symm

end

/-- Only the weighted predictor takes the weighted prediction. -/
theorem predict_of_not_weighted {q : Predictor} (hq : q ≠ .weighted) (p : Plane) (wp wp' : Int) :
    predict q p x y wp = predict q p x y wp' := by
  cases q
  case weighted => exact absurd rfl hq
  all_goals rfl

end

/-! ### The pixels of an output -/

theorem ofExcept_or_pure_ok {σ α : Type} {c : Prop} [Decidable c] {x : Except Stop α} {a b : α} {s : σ}
    (h : (if c then x else .ok a) = .ok b) : (if c then ofExcept x else pure a : Eng σ α) s = .ok b s := by
  split_ifs at h ⊢
  · exact ofExcept_eq_ok.2 ⟨h, rfl⟩
  · exact congrArg (fun e => ofExcept e s) h

/-- One pixel of an output, when everything it asks for is there (R381). -/
theorem palettePixel_ok {j : PaletteJob} {k x y : Nat} {st : PaletteState} {o : WpPrediction} {idx base p : Int}
    (ho : (if j.dPred = .weighted then wpPredict j.params st.wp { w := j.index.width, m := st.samples } x y
      else .ok { sp := [], full := 0, pred := 0, maxErr := 0 }) = .ok o)
    (hidx : sampleAt j.index.width j.index.samples x y = .ok idx)
    (hbase : paletteValue j.pal j.nbColours idx k j.bd = .ok base)
    (hp : (if idx < j.nbDeltas then predict j.dPred { w := j.index.width, m := st.samples } x y o.pred
      else .ok 0) = .ok p)
    (hv : inI32 (base + p) = true) :
    palettePixel j k x y st = .ok () {
      samples := Memory.write st.samples (y * j.index.width + x) (Word.ofInt (base + p))
      wp := if j.dPred = .weighted then wpUpdate st.wp o j.index.width x y (base + p) else st.wp } := by
  refine (eng_bind_ok (ofExcept_or_pure_ok ho)).trans ?_
  rw [eng_bind_ok (ofExcept_eq_ok.2 ⟨hidx, rfl⟩), eng_bind_ok (ofExcept_eq_ok.2 ⟨hbase, rfl⟩)]
  exact (eng_bind_ok (ofExcept_or_pure_ok hp)).trans (eng_bind_ok (a := ()) (checkBitstream_eq_ok.2 ⟨hv, rfl⟩))

/-- The finished samples of an output with the index record's shape. -/
def outputPlane (index : Channel) (f : Nat → Nat → Int) : Plane where
  w := index.width
  m := samplesOf index.width index.height f

/-- `f` solves the equations of output `k` over the predictor rows `W` and the weighted predictions `o` (R381). -/
structure SolvesOutput (j : PaletteJob) (k : Nat) (f : Nat → Nat → Int) (W : Nat → WpState)
    (o : Nat → Nat → WpPrediction) : Prop where
  start : W 0 = {}
  rows : ∀ x y, x < j.index.width → y < j.index.height →
    wpPredict j.params (W (y * j.index.width + x)) (outputPlane j.index f) x y = .ok (o x y) ∧
    W (y * j.index.width + x + 1) = wpUpdate (W (y * j.index.width + x)) (o x y) j.index.width x y (f x y)
  values : ∀ x y, x < j.index.width → y < j.index.height → ∃ idx base pred, j.index.sample x y = some idx ∧
    paletteValue j.pal j.nbColours idx.toInt k j.bd = .ok base ∧
    predict j.dPred (outputPlane j.index f) x y (o x y).pred = .ok pred ∧
    f x y = base + (if idx.toInt < j.nbDeltas then pred else 0) ∧ inI32 (f x y) = true

/-- The predictor rows that the inversion keeps: those of the weighted predictor, or none. -/
def PaletteJob.rows (j : PaletteJob) (W : Nat → WpState) (p : Nat) : WpState := if j.dPred = .weighted then W p else {}

/-- The first `p` samples of a store are those of an output. -/
def HoldsUpTo (index : Channel) (f : Nat → Nat → Int) (p : Nat) (m : Memory) : Prop :=
  ∀ i < p, Memory.read m i = some (Word.ofInt (f (i % index.width) (i / index.width)))

section
variable {j : PaletteJob} {k x y p : Nat} {f : Nat → Nat → Int} {W : Nat → WpState} {o : Nat → Nat → WpPrediction}
  {m : Memory} {index : Channel}

theorem HoldsUpTo.write (h : HoldsUpTo index f p m) :
    HoldsUpTo index f (p + 1) (Memory.write m p (Word.ofInt (f (p % index.width) (p / index.width)))) := by
  intro i hi
  rcases Nat.eq_or_lt_of_le (Nat.lt_succ_iff.1 hi) with rfl | hlt
  · exact Memory.read_write_same _ _ _
  · rw [Memory.read_write_other _ _ hlt.ne, h i hlt]

theorem HoldsUpTo.agrees (h : HoldsUpTo index f (y * index.width + x) m) (hx : x < index.width) (hy : y < index.height) :
    ∀ i < y * index.width + x, ∃ v, Memory.read (outputPlane index f).m i = some v ∧ Memory.read m i = some v :=
  fun i hi => ⟨_, read_samplesOf f (hi.trans (pixel_position hx hy).1), h i hi⟩

theorem SolvesOutput.pixel (hf : SolvesOutput j k f W o) (hx : x < j.index.width) (hy : y < j.index.height)
    (hm : HoldsUpTo j.index f (y * j.index.width + x) m) :
    palettePixel j k x y { samples := m, wp := j.rows W (y * j.index.width + x) } =
      .ok () {
        samples := Memory.write m (y * j.index.width + x) (Word.ofInt (f x y))
        wp := j.rows W (y * j.index.width + x + 1) } := by
  obtain ⟨hpredict, hfollow⟩ := hf.rows x y hx hy
  obtain ⟨idx, base, pred, hidx, hbase, hpred, hvalue, hi32⟩ := hf.values x y hx hy
  have hagrees := hm.agrees hx hy
  rw [← wpPredict_congr (p := outputPlane j.index f) hx hagrees] at hpredict
  rw [← predict_congr (p := outputPlane j.index f) hx hagrees] at hpred
  have hindex := Channel.sampleAt_of_sample hidx
  have hadded : (if idx.toInt < j.nbDeltas then predict j.dPred { w := j.index.width, m := m } x y (o x y).pred
      else .ok 0) = .ok (if idx.toInt < j.nbDeltas then pred else 0) := by
    rw [show predict j.dPred { w := j.index.width, m := m } x y (o x y).pred = .ok pred from hpred]
    exact (apply_ite Except.ok _ _ _).symm
  rw [hvalue] at hfollow hi32 ⊢
  by_cases hq : j.dPred = .weighted
  · simp only [PaletteJob.rows, if_pos hq]
    refine (palettePixel_ok ((if_pos hq).trans hpredict) hindex hbase hadded hi32).trans ?_
    rw [if_pos hq, hfollow]
  · rw [predict_of_not_weighted hq _ _ 0] at hadded
    simp only [PaletteJob.rows, if_neg hq]
    refine (palettePixel_ok (if_neg hq) hindex hbase hadded hi32).trans ?_
    rw [if_neg hq]

theorem SolvesOutput.pixels (hf : SolvesOutput j k f W o) : ∀ (left p : Nat) (m : Memory), p + left = j.index.area →
    HoldsUpTo j.index f p m → ∃ t, palettePixels j k left p { samples := m, wp := j.rows W p } = .ok () t ∧
      HoldsUpTo j.index f j.index.area t.samples
  | 0, p, m, hp, hm => ⟨_, rfl, hp ▸ hm⟩
  | left + 1, p, m, hp, hm => by
    obtain ⟨hx, hy⟩ := position_inside (show p < j.index.width * j.index.height from by
      rw [← Channel.area, ← hp]; omega)
    have hpixel := hf.pixel (m := m) hx hy ((row_col p j.index.width).symm ▸ hm)
    rw [row_col] at hpixel
    obtain ⟨t, ht, hread⟩ := hf.pixels left (p + 1) _ (by omega) hm.write
    exact ⟨t, (eng_bind_ok hpixel).trans ht, hread⟩

/-- An output whose equations are solved is made, and holds the solution (R381). -/
theorem SolvesOutput.output (hf : SolvesOutput j k f W o) (s : State) : ∃ out, paletteOutput j k s = .ok out s ∧
    out.decoded = true ∧ out.shape = j.index.shape ∧
    ∀ x y, x < j.index.width → y < j.index.height → out.sample x y = some (Word.ofInt (f x y)) := by
  obtain ⟨t, ht, hread⟩ := hf.pixels j.index.area 0 [] (Nat.zero_add _) fun i hi => absurd hi (Nat.not_lt_zero i)
  have hstart : j.rows W 0 = {} := by simp [PaletteJob.rows, hf.start]
  rw [hstart] at ht
  refine ⟨_, paletteOutput_eq_ok.2 ⟨t, ht, rfl, rfl⟩, rfl, rfl, fun x y hx hy => ?_⟩
  obtain ⟨hlt, hmod, hdiv⟩ := pixel_position hx hy
  refine (if_pos ⟨hx, hy⟩).trans ?_
  rw [hread _ hlt, hmod, hdiv]

end

/-! ### The list after the inversion -/

section
variable {l outs : List Channel} {b j k : Nat}

theorem getElem?_unpalettedList_before (h : j < b) (hb : b + 1 ≤ l.length) :
    (unpalettedList l b outs)[j]? = l[j + 1]? := by
  rw [unpalettedList, List.getElem?_drop, List.append_assoc, List.getElem?_append_left (by simp; omega),
    List.getElem?_take_of_lt (by omega), Nat.add_comm]

theorem getElem?_unpalettedList_output (h : k < outs.length) (hb : b + 1 ≤ l.length) :
    (unpalettedList l b outs)[b + k]? = outs[k]? := by
  have hlen : (l.take (b + 1)).length = b + 1 := List.length_take_of_le hb
  rw [unpalettedList, List.getElem?_drop, List.append_assoc, List.getElem?_append_right (by omega), hlen,
    List.getElem?_append_left (by omega)]
  congr 1
  omega

theorem getElem?_unpalettedList_after (h : b + outs.length ≤ j) (hb : b + 1 ≤ l.length) :
    (unpalettedList l b outs)[j]? = l[j + 2 - outs.length]? := by
  have hlen : (l.take (b + 1) ++ outs).length = b + 1 + outs.length := by simp; omega
  rw [unpalettedList, List.getElem?_drop, List.getElem?_append_right (by omega), hlen, List.getElem?_drop]
  congr 1
  omega

theorem length_unpalettedList (hb : b + 2 ≤ l.length) : (unpalettedList l b outs).length + 2 = l.length + outs.length := by
  simp [unpalettedList]
  omega

end

/-! ### `XF_APPLY` of one palette -/

section
variable {s : State} {b n nbDeltas nbMeta : Nat} {q : Predictor} {pal index : Channel}
  (ht : s.transforms = [{ transform := .palette b n pal.width nbDeltas q, nbMetaBefore := nbMeta }])
include ht

/-- `XF_APPLY` of a palette whose outputs' equations are solved. -/
theorem exec_xfApply_palette {f : Nat → Nat → Nat → Int} {W : Nat → Nat → WpState} {o : Nat → Nat → Nat → WpPrediction}
    (ho : s.overrun = false) (hbits : 1 ≤ s.latched.bitDepth.toNat ∧ s.latched.bitDepth.toNat ≤ 32)
    (hpal : s.channels[0]? = some pal) (hindex : s.channels[b + 1]? = some index) (hheight : pal.height = n)
    (hfits : fitsArena (unpalettedList s.channels b (List.replicate n index)) = true)
    (hf : ∀ k < n, SolvesOutput (paletteJob s pal index pal.width nbDeltas q) k (f k) (W k) (o k)) :
    ∃ t, exec .xfApply s = .next t ∧ t.done = true ∧ t.fault = s.fault ∧ t.nbMeta = nbMeta ∧ t.transforms = [] ∧
      t.channels.length + 2 = s.channels.length + n ∧
      (∀ k, k < n → ∃ ch, t.channels[b + k]? = some ch ∧ ch.decoded = true ∧ ch.shape = index.shape ∧
        ∀ x y, x < index.width → y < index.height → ch.sample x y = some (Word.ofInt (f k x y))) ∧
      (∀ j, j < b → t.channels[j]? = s.channels[j + 1]?) ∧
      ∀ j, b + n ≤ j → t.channels[j]? = s.channels[j + 2 - n]? := by
  have : Nonempty Channel := ⟨index⟩
  choose! out hout hdecoded hshape hsample using fun k hk => (hf k hk).output (s.setTransforms [])
  have hundo : undoTransform (.palette b n pal.width nbDeltas q) (s.setTransforms []) =
      .ok () ((s.setTransforms []).setChannels (unpalettedList s.channels b ((List.range n).map out))) :=
    inversePalette_eq_ok.2 ⟨pal, index, (List.range n).map out, hbits, hpal, hindex, ⟨rfl, hheight⟩, hfits,
      List.forall₂_map_right_iff.2 (List.forall₂_same.2 fun k hk => hout k (List.mem_range.1 hk)), rfl⟩
  have hlen : ((List.range n).map out).length = n := by simp
  have hb : b + 2 ≤ s.channels.length := (List.getElem?_eq_some_iff.1 hindex).1
  refine ⟨_, exec_xfApply_one ho ht hundo, rfl, rfl, rfl, rfl, ?_, fun k hk => ?_,
    fun j hj => getElem?_unpalettedList_before hj (by omega), fun j hj => ?_⟩
  · exact (length_unpalettedList hb).trans (by rw [hlen])
  · refine ⟨out k, (getElem?_unpalettedList_output (by omega) (by omega)).trans ?_, hdecoded k hk, hshape k hk, hsample k hk⟩
    simp [hk]
  · refine (getElem?_unpalettedList_after (by omega) (by omega)).trans ?_
    rw [hlen]

end

/-! ### A palette without deltas, over explicit entries -/

/-- The weighted prediction over samples that are all there. -/
def predictionOver (params : WpParams) (p : Plane) (st : WpState) (x y : Nat) : WpPrediction :=
  let b := neighboursOf (sampleValue p.w p.m) p.w x y
  wpCompute params st p.w x y b.N b.W b.NE b.NW b.NN

/-- The predictor rows over the samples `f`, pixel by pixel from fresh ones. -/
def rowsOver (params : WpParams) (p : Plane) (f : Nat → Nat → Int) : Nat → WpState
  | 0 => {}
  | k + 1 => wpUpdate (rowsOver params p f k) (predictionOver params p (rowsOver params p f k) (k % p.w) (k / p.w))
      p.w (k % p.w) (k / p.w) (f (k % p.w) (k / p.w))

/-- The component that an explicit index selects. -/
def explicitEntry (pal index : Channel) (k x y : Nat) : Int :=
  ((pal.sample ((index.sample x y).getD 0#32).toNat k).getD 0#32).toInt

theorem explicitEntry_eq {pal index : Channel} {k x y : Nat} {v e : Word} (hv : index.sample x y = some v)
    (he : pal.sample v.toNat k = some e) : explicitEntry pal index k x y = e.toInt := by
  rw [explicitEntry, hv, Option.getD_some, he, Option.getD_some]

theorem toNat_toInt_of_nonneg {v : Word} (h : 0 ≤ v.toInt) : v.toInt.toNat = v.toNat := by
  rw [BitVec.toInt_eq_toNat_cond] at h ⊢
  split at h <;> omega

theorem Channel.inside_of_sample {ch : Channel} {x y : Nat} {v : Word} (h : ch.sample x y = some v) :
    x < ch.width ∧ y < ch.height := by
  by_contra hout
  rw [Channel.sample, if_neg hout] at h
  cases h

theorem inI32_toInt (v : Word) : inI32 v.toInt = true :=
  (inI32_iff _).2 ⟨BitVec.le_toInt v, Int.le_sub_one_of_lt BitVec.toInt_lt⟩

theorem outputPlane_knownBefore (index : Channel) (f : Nat → Nat → Int) {x y : Nat} (hx : x < index.width)
    (hy : y < index.height) :
    KnownBefore (outputPlane index f) (sampleValue (outputPlane index f).w (outputPlane index f).m) x y :=
  knownBefore_self fun _ hi => ⟨_, read_samplesOf f (hi.trans (pixel_position hx hy).1)⟩

section
variable {j : PaletteJob} {k : Nat}

/-- Explicit entries solve the equations of an output without deltas, whatever the predictor is. -/
theorem solvesOutput_explicit (hd : j.nbDeltas = 0)
    (hindex : ∀ x y, x < j.index.width → y < j.index.height →
      ∃ v, j.index.sample x y = some v ∧ 0 ≤ v.toInt ∧ v.toInt < j.nbColours)
    (hpal : ∀ i, i < j.nbColours → (j.pal.sample i k).isSome = true) :
    let f := explicitEntry j.pal j.index k
    let W := rowsOver j.params (outputPlane j.index f) f
    SolvesOutput j k f W fun x y => predictionOver j.params (outputPlane j.index f) (W (y * j.index.width + x)) x y := by
  intro f W
  refine ⟨rfl, fun x y hx hy => ⟨(outputPlane_knownBefore j.index f hx hy).wpPredict_eq hx _ _, ?_⟩, fun x y hx hy => ?_⟩
  · obtain ⟨-, hmod, hdiv⟩ := pixel_position hx hy
    simp only [W, rowsOver, outputPlane, hmod, hdiv]
  · obtain ⟨v, hv, hnonneg, hlt⟩ := hindex x y hx hy
    have hnat := toNat_toInt_of_nonneg hnonneg
    obtain ⟨e, he⟩ := Option.isSome_iff_exists.1 (hpal v.toNat (by omega))
    have hf : f x y = e.toInt := explicitEntry_eq hv he
    refine ⟨v, e.toInt, _, hv, ?_, (outputPlane_knownBefore j.index f hx hy).predict_eq hx _ _, ?_, hf ▸ inI32_toInt e⟩
    · rw [paletteValue, if_neg (by omega), if_pos hlt, hnat, Channel.sampleAt_of_sample he]
    · rw [hf, hd, if_neg (by omega), add_zero]

end

/-- A depth that the inversion refuses is a fault of `XF_APPLY`. -/
theorem exec_xfApply_badBitdepth {s : State} {b n P nbDeltas nbMeta : Nat} {q : Predictor}
    (ht : s.transforms = [{ transform := .palette b n P nbDeltas q, nbMetaBefore := nbMeta }])
    (hbits : s.latched.bitDepth.toNat = 0 ∨ 32 < s.latched.bitDepth.toNat) :
    exec .xfApply s = .next ((s.setTransforms []).latchFault (.contractViolation .badBitdepth)) := by
  have hundo : undoTransform (.palette b n P nbDeltas q) (s.setTransforms []) =
      .error (.raise (.contractViolation .badBitdepth)) (s.setTransforms []) := by
    rw [undoTransform, inversePalette, theState_bind, checkContract_bind, if_neg (by simp; omega)]
  refine exec_of_raise (i := .xfApply) ?_
  rw [commandBody, xfApplyBody_eq, ht, List.reverse_singleton, undoTransforms, update_bind, List.reverse_nil,
    eng_bind_error hundo]

/-- Settles O58: explicit entries, and any solution of the equations, are what the pixel loop writes. -/
theorem xfApplyExpandsPalette : Obligations.XfApplyExpandsPalette := by
  refine ⟨fun s b n P nbMeta q pal index ht => ⟨fun hbits => ?bad, ?explicit⟩, ?predicted⟩
  case bad => exact ⟨_, exec_xfApply_badBitdepth ht hbits, fun hf => by simp [hf]⟩
  case explicit =>
    rintro ho hlow hhigh hpal hindex rfl rfl hfits hexplicit hentries
    obtain ⟨t, he, hdone, hfault, hmeta, hnil, hlen, houts, hbefore, hafter⟩ :=
      exec_xfApply_palette ht ho ⟨hlow, hhigh⟩ hpal hindex rfl hfits fun k hk =>
        solvesOutput_explicit (j := paletteJob s pal index pal.width 0 q) rfl hexplicit fun i hi => hentries i k hi hk
    refine ⟨t, he, hdone, hfault, hmeta, hnil, hlen, fun k x y v hk hv => ?_, fun k hk => ?_, hbefore, hafter⟩
    · obtain ⟨hx, hy⟩ := Channel.inside_of_sample hv
      obtain ⟨ch, hch, -, -, hsample⟩ := houts k hk
      obtain ⟨e, he⟩ : ∃ e, pal.sample v.toNat k = some e := by
        obtain ⟨v', hv', hnonneg, hlt⟩ := hexplicit x y hx hy
        cases hv.symm.trans hv'
        exact Option.isSome_iff_exists.1 (hentries _ _ (by have := toNat_toInt_of_nonneg hnonneg; omega) hk)
      rw [State.sample_of_channel hch, hsample x y hx hy, he]
      exact congrArg some ((congrArg Word.ofInt (explicitEntry_eq hv he)).trans (BitVec.ofInt_toInt))
    · obtain ⟨ch, hch, hdec, hshape, -⟩ := houts k hk
      exact ⟨ch, hch, hdec, hshape⟩
  case predicted =>
    intro s b n nbDeltas nbMeta q pal index f W o ho ht hlow hhigh hpal hindex hheight hfits plane hstart hsolves
    exact exec_xfApply_palette ht ho ⟨hlow, hhigh⟩ hpal hindex hheight hfits fun k hk =>
      ⟨hstart k, fun x y hx hy => ⟨(hsolves k x y hk hx hy).1, (hsolves k x y hk hx hy).2.1⟩,
        fun x y hx hy => (hsolves k x y hk hx hy).2.2⟩

end Sys2Proof.Machine

/-! ## The soft reset (`46_control.md` R404, `70_reset_and_hazards.md` R461) -/

namespace Sys2Proof.Machine

section
variable {s : State}

theorem writeReg_softReset {v : Word} (hv : v.getLsbD 1 = true) : s.writeReg 0x03 v = softReset s := by
  show writeCtrl s v = softReset s
  exact if_pos hv

theorem softReset_of_idle (hb : s.busy = false) : softReset s = s.restart (s.presented.getD s.source.rest) := by
  simp only [softReset, softResetRest, hb]
  rfl

theorem softReset_of_busy (hb : s.busy = true) : softReset s =
    { s.restart (s.presented.getD (s.source.rest.drop (abortDraw s))) with draws := s.draws + 1 } := by
  simp only [softReset, softResetRest, hb, if_true]

theorem bitsOfCompletion_eq {i : Instr} {t : State} (hd : decode s.cmd = .ok i) (he : exec i s = .next t) :
    bitsOfCompletion s = t.source.pos - s.source.pos := by
  rw [bitsOfCompletion, engineTurn_ok hd, he]

end

/-- Settles O11: `n` is the draw of the abort, which the completion's bits bound. -/
theorem Control.softReset : Obligations.SoftReset := by
  refine ⟨fun s v hv hb => ?idle, fun s v hv hb => ⟨abortDraw s, s.draws + 1, ?busy, fun i t hd he => ?bound⟩⟩
  case idle => rw [writeReg_softReset hv, softReset_of_idle hb, restart_eq]
  case busy => rw [writeReg_softReset hv, softReset_of_busy hb, restart_eq]
  case bound => exact bitsOfCompletion_eq hd he ▸ abortDraw_le s

end Sys2Proof.Machine

/-! ## Control and sample access (`46_control.md` R400 to R403) -/

namespace Sys2Proof.Machine

section
variable {s : State}

/-! ### `NOP` -/

theorem exec_nop (ho : s.overrun = false) : exec .nop s = .next { s with busy := false, done := true } :=
  exec_of_ok_no_result (i := .nop) ho rfl

/-- `STATUS` after a completion with no fault latched (`10_state.md` R34). -/
theorem statusWord_completed (hf : s.fault = none) :
    ({ s with busy := false, done := true } : State).statusWord = 2#32 := by
  simp only [State.statusWord, State.causeField, hf]
  rfl

end

/-- Settles O26: an idle, unfaulted block issues the word 0, which is `NOP`. -/
theorem nopCompletes : Obligations.NopCompletes := by
  refine ⟨fun s => exec_nop, fun s hf hb => ?_⟩
  have hissue : s.writeReg 0x01 0#32 = s.issue 0#32 := writeCmd_issue hf hb (decode_encode .nop)
  rw [hissue]
  exact ⟨_, exec_nop rfl, statusWord_completed (s := s.issue 0#32) hf⟩

/-! ### The checks of the channel operand and of the position -/

section
variable {s : State} {ch : Channel} {i : Instr}

/-- A channel index past the list (R401 to R403). -/
theorem exec_channel_badArg (hi : i ∈ [.chRead, .chWrite, .chInfo])
    (h : s.channels.length ≤ s.latched.args.arg0.toNat) :
    exec i s = .next (s.latchFault (.contractViolation .badArg)) := by
  have hnone := List.getElem?_eq_none h
  simp only [List.mem_cons, List.not_mem_nil, or_false] at hi
  rcases hi with rfl | rfl | rfl
  · exact exec_of_raise (i := .chRead) ((chReadBody_eq s).trans (by rw [hnone]))
  · exact exec_of_raise (i := .chWrite) ((chWriteBody_eq s).trans (by rw [hnone]))
  · exact exec_of_raise (i := .chInfo) ((chInfoBody_eq s).trans (by rw [hnone]))

variable (hch : s.channels[s.latched.args.arg0.toNat]? = some ch)
include hch

/-- A position outside the record (R401, R402). -/
theorem exec_position_badArg (hi : i ∈ [.chRead, .chWrite])
    (h : ch.width ≤ s.latched.args.arg1.toNat ∨ ch.height ≤ s.latched.args.arg2.toNat) :
    exec i s = .next (s.latchFault (.contractViolation .badArg)) := by
  have hout : ¬ (s.latched.args.arg1.toNat < ch.width ∧ s.latched.args.arg2.toNat < ch.height) := by omega
  simp only [List.mem_cons, List.not_mem_nil, or_false] at hi
  rcases hi with rfl | rfl
  · exact exec_of_raise (i := .chRead) ((chReadBody_eq s).trans (by simp only [hch, if_neg hout]))
  · exact exec_of_raise (i := .chWrite) ((chWriteBody_eq s).trans (by simp only [hch, if_neg hout]))

/-! ### `CH_READ` -/

theorem exec_chRead_undefined (hx : s.latched.args.arg1.toNat < ch.width) (hy : s.latched.args.arg2.toNat < ch.height)
    (hv : ch.sample s.latched.args.arg1.toNat s.latched.args.arg2.toNat = none) :
    exec .chRead s = .next (s.latchFault (.contractViolation .undefinedSample)) :=
  exec_of_raise (i := .chRead) ((chReadBody_eq s).trans (by simp only [hch, if_pos (And.intro hx hy), hv]))

theorem exec_chRead_ok {v : Word} (ho : s.overrun = false)
    (hv : ch.sample s.latched.args.arg1.toNat s.latched.args.arg2.toNat = some v) :
    exec .chRead s = .next { s with result0 := v, busy := false, done := true } :=
  exec_of_ok (i := .chRead) ho ((chReadBody_eq s).trans
    (by simp only [hch, if_pos (Channel.inside_of_sample hv), hv]))

end

theorem State.channel_of_sample {s : State} {c x y : Nat} {v : Word} (h : s.sample c x y = some v) :
    ∃ ch, s.channels[c]? = some ch ∧ ch.sample x y = some v := by
  unfold State.sample at h
  split at h
  · next ch hch => exact ⟨ch, hch, h⟩
  · cases h

/-- Settles O27, by the closed form of the command, check by check. -/
theorem chReadReturnsSample : Obligations.ChReadReturnsSample := by
  refine fun s => ⟨fun v ho hv => ?_, exec_channel_badArg (by simp), fun ch hch =>
    ⟨exec_position_badArg hch (by simp), exec_chRead_undefined hch⟩⟩
  obtain ⟨ch, hch, hsample⟩ := State.channel_of_sample hv
  exact exec_chRead_ok hch ho hsample

/-! ### `CH_WRITE` -/

/-- The samples of a record with one more written. -/
def Channel.written (ch : Channel) (x y : Nat) (v : Word) : Channel :=
  { ch with samples := Memory.write ch.samples (y * ch.width + x) v }

section
variable {ch : Channel} {x y : Nat} (v : Word)

theorem Channel.sample_written_same (hx : x < ch.width) (hy : y < ch.height) :
    (ch.written x y v).sample x y = some v :=
  (if_pos ⟨hx, hy⟩).trans (Memory.read_write_same _ _ _)

/-- Inside the record, another position is another key. -/
theorem Channel.sample_written_other (hx : x < ch.width) {x' y' : Nat} (h : ¬ (x' = x ∧ y' = y)) :
    (ch.written x y v).sample x' y' = ch.sample x' y' := by
  by_cases hin : x' < ch.width ∧ y' < ch.height
  · have hkey : y' * ch.width + x' ≠ y * ch.width + x := fun hk => h (position_inj hin.1 hx hk)
    exact ((if_pos hin).trans (Memory.read_write_other _ _ hkey)).trans (if_pos hin).symm
  · exact (if_neg hin).trans (if_neg hin).symm

end

theorem State.sample_congr {s t : State} {c : Nat} (h : t.channels[c]? = s.channels[c]?) (x y : Nat) :
    t.sample c x y = s.sample c x y := by
  rw [State.sample, State.sample, h]

section
variable {s t : State} {ch : Channel} {c x y : Nat} {v : Word} (hch : s.channels[c]? = some ch)
  (ht : t.channels = s.channels.set c (ch.written x y v))
include hch ht

theorem channel_after_write : t.channels[c]? = some (ch.written x y v) := by
  rw [ht, List.getElem?_set_self (List.getElem?_eq_some_iff.1 hch).1]

theorem sample_after_write_same (hx : x < ch.width) (hy : y < ch.height) : t.sample c x y = some v :=
  (State.sample_of_channel (channel_after_write hch ht) x y).trans (Channel.sample_written_same v hx hy)

theorem sample_after_write_other (hx : x < ch.width) {c' x' y' : Nat} (h : ¬ (c' = c ∧ x' = x ∧ y' = y)) :
    t.sample c' x' y' = s.sample c' x' y' := by
  by_cases hc : c' = c
  · subst hc
    rw [State.sample_of_channel (channel_after_write hch ht), State.sample_of_channel hch]
    exact Channel.sample_written_other v hx fun hxy => h ⟨rfl, hxy⟩
  · exact State.sample_congr (by rw [ht, List.getElem?_set_ne (Ne.symm hc)]) x' y'

end

theorem exec_chWrite_ok {s : State} {ch : Channel} (ho : s.overrun = false)
    (hch : s.channels[s.latched.args.arg0.toNat]? = some ch) (hx : s.latched.args.arg1.toNat < ch.width)
    (hy : s.latched.args.arg2.toNat < ch.height) :
    exec .chWrite s = .next
      { s with
        channels := s.channels.set s.latched.args.arg0.toNat
          (ch.written s.latched.args.arg1.toNat s.latched.args.arg2.toNat s.latched.args.arg3)
        busy := false
        done := true } :=
  exec_of_ok_no_result (i := .chWrite) (t := s.setChannel _ (ch.written _ _ _)) ho ((chWriteBody_eq s).trans
    (by simp only [hch, if_pos (And.intro hx hy)]; rfl))

/-- Settles O28, by the closed form of the command and by what the record's samples read as after the write. -/
theorem chWriteStoresSample : Obligations.ChWriteStoresSample := by
  refine fun s => ⟨exec_channel_badArg (by simp), fun ch hch => ⟨exec_position_badArg hch (by simp),
    fun ho hx hy => ⟨_, exec_chWrite_ok ho hch hx hy, fun t ht => ?_⟩⟩⟩
  cases (exec_chWrite_ok ho hch hx hy).symm.trans ht
  exact ⟨sample_after_write_same hch rfl hx hy, fun c x y => sample_after_write_other hch rfl hx⟩

/-! ### `CH_INFO` -/

theorem exec_chInfo_ok {s : State} {ch : Channel} (ho : s.overrun = false)
    (hch : s.channels[s.latched.args.arg0.toNat]? = some ch) :
    exec .chInfo s = .next
      { s with
        result0 := BitVec.ofNat 32 ch.width
        result1 := BitVec.ofNat 32 ch.height
        result2 := channelFlags ch (s.latched.args.arg0.toNat < s.nbMeta)
        busy := false
        done := true } :=
  exec_of_ok_three (i := .chInfo) ho ((chInfoBody_eq s).trans (by simp only [hch]))

section
variable (ch : Channel) (isMeta : Bool)

theorem channelFlags_flags : (channelFlags ch isMeta).getLsbD 0 = ch.decoded ∧
    (channelFlags ch isMeta).getLsbD 1 = ch.forceWP ∧ (channelFlags ch isMeta).getLsbD 2 = isMeta := by
  simp only [channelFlags, BitVec.getLsbD_append]
  exact ⟨getLsbD_bit _, getLsbD_bit _, getLsbD_bit _⟩

theorem channelFlags_zeros : (channelFlags ch isMeta).extractLsb' 3 5 = 0#5 ∧
    (channelFlags ch isMeta).extractLsb' 24 8 = 0#8 := by
  unfold channelFlags
  simp (disch := decide) only [BitVec.extractLsb'_append_eq_of_le, BitVec.extractLsb'_append_eq_of_add_le]
  exact ⟨rfl, rfl⟩

theorem channelFlags_shifts : (channelFlags ch isMeta).extractLsb' 8 8 = BitVec.ofInt 8 ch.hshift ∧
    (channelFlags ch isMeta).extractLsb' 16 8 = BitVec.ofInt 8 ch.vshift := by
  unfold channelFlags
  simp (disch := decide) only [BitVec.extractLsb'_append_eq_of_le, BitVec.extractLsb'_append_eq_of_add_le]
  exact ⟨BitVec.extractLsb'_eq_self, BitVec.extractLsb'_eq_self⟩

end

theorem toNat_ofInt_eight (n : Int) : ((BitVec.ofInt 8 n).toNat : Int) = n % 256 := by
  rw [BitVec.toNat_ofInt]
  exact Int.toNat_of_nonneg (Int.emod_nonneg _ (by decide))

/-- Settles O29, by the closed form of the command and the fields of its flag word. -/
theorem chInfoReportsRecord : Obligations.ChInfoReportsRecord := by
  refine fun s => ⟨exec_channel_badArg (by simp), fun ch ho hch => ⟨_, exec_chInfo_ok ho hch, ?_⟩⟩
  obtain ⟨hdecoded, hforceWP, hmeta⟩ := channelFlags_flags ch (s.latched.args.arg0.toNat < s.nbMeta)
  obtain ⟨hlow, hhigh⟩ := channelFlags_zeros ch (s.latched.args.arg0.toNat < s.nbMeta)
  obtain ⟨hhshift, hvshift⟩ := channelFlags_shifts ch (s.latched.args.arg0.toNat < s.nbMeta)
  exact ⟨hdecoded, hforceWP, hmeta, hlow, hhshift ▸ toNat_ofInt_eight _, hvshift ▸ toNat_ofInt_eight _, hhigh⟩

end Sys2Proof.Machine

/-! ## How a command ends (`60_exceptions.md` R422, R425 to R427, `10_state.md` R34) -/

namespace Sys2Proof.Machine

section
variable {s t u : State} {i : Instr} {done : Bool} {f : BlockFault} {r : Results}

theorem leaves_of_ok (h : commandBody i s = .ok r u) : Leaves s i true u := by
  have hl := commandBody_leaves i s
  rwa [h] at hl

theorem leaves_of_error {e : Stop} (h : commandBody i s = .error e u) : Leaves s i false u := by
  have hl := commandBody_leaves i s
  rwa [h] at hl

/-- No body touches what the two ways of closing a command read. -/
theorem Leaves.latch_eq (h : Leaves s i done u) : u.fault = s.fault ∧ u.done = s.done ∧ u.overrun = s.overrun := by
  rw [h.hostSide]
  exact ⟨rfl, rfl, rfl⟩

theorem Leaves.results_eq (h : Leaves s i done u) :
    u.result0 = s.result0 ∧ u.result1 = s.result1 ∧ u.result2 = s.result2 := by
  rw [h.hostSide]
  exact ⟨rfl, rfl, rfl⟩

theorem State.latchFault_unmarked (f : BlockFault) (hf : s.fault = none) (ho : s.overrun = false) :
    s.latchFault f = { s with fault := some f, busy := false } := by
  simp [State.latchFault_of_none s f hf, ho]

/-- With no fault latched and no CMD-while-BUSY mark, a command that answers a state completes or latches its own
fault. -/
theorem exec_unfaulted (hf : s.fault = none) (ho : s.overrun = false) (h : exec i s = .next t) :
    (∃ r u, commandBody i s = .ok r u ∧ t.fault = none ∧ t = { u.writeResults r with busy := false, done := true }) ∨
    (∃ f u, commandBody i s = .error (.raise f) u ∧ t.fault = some f ∧
      t = { u with fault := some f, busy := false }) := by
  rcases exec_cases i s with ⟨r, u, hb, he⟩ | ⟨f, u, hb, he⟩ | ⟨f, u, hb, he⟩ <;> rw [he] at h <;> cases h
  · obtain ⟨hfault, -, hoverrun⟩ := (leaves_of_ok hb).latch_eq
    rw [State.complete_of_not_overrun u r (hoverrun.trans ho)]
    exact .inl ⟨r, u, hb, hfault.trans hf, rfl⟩
  · obtain ⟨hfault, -, hoverrun⟩ := (leaves_of_error hb).latch_eq
    rw [State.latchFault_unmarked f (hfault.trans hf) (hoverrun.trans ho)]
    exact .inr ⟨f, u, hb, rfl, rfl⟩

theorem exec_keeps_fault (hf : s.fault = some f) (h : exec i s = .next t) : t.fault = some f := by
  rcases exec_leaves h with ⟨r, u, -, hu, rfl⟩ | ⟨g, u, hu, rfl⟩
  all_goals
    obtain ⟨hfault, -, -⟩ := hu.latch_eq
    simp [State.complete_fault, hfault, hf]

theorem engineTurn_keeps_fault (hf : s.fault = some f) (h : engineTurn s = .next t) : t.fault = some f := by
  rcases engineTurn_cases h with ⟨i, hi⟩ | rfl
  · exact exec_keeps_fault hf hi
  · simp [hf]

/-! ## A latched fault stays until a reset (`60_exceptions.md` R427, R433) -/

theorem writeCmd_of_faulted (hf : s.fault = some f) (w : Word) : writeCmd s w = s := by
  unfold writeCmd
  rw [hf]
  rfl

/-- The host actions that reset the block. -/
def Input.Resets (a : Input) : Prop :=
  (∃ v : Word, a = .write 0x03 v ∧ v.getLsbD 1 = true) ∨ ∃ bits, a = .hardReset bits

theorem hostAction_keeps_fault (hf : s.fault = some f) (a : Input) : (s.hostAction a).fault = some f ∨ a.Resets := by
  cases a with
  | wait => exact .inl hf
  | present bits => exact .inl hf
  | hardReset bits => exact .inr (.inr ⟨bits, rfl⟩)
  | write index v =>
    show (s.writeReg index v).fault = some f ∨ _
    rcases writeReg_cases s index v with ⟨-, h⟩ | ⟨-, h⟩ | ⟨rfl, hv, -⟩ | ⟨-, -, h⟩ | ⟨-, h⟩
    · rw [h, writeCmd_of_faulted hf]
      exact .inl hf
    · rw [h]
      split <;> exact .inl hf
    · exact .inr (.inl ⟨v, rfl, hv⟩)
    · rw [h]
      exact .inl hf
    · rw [h]
      exact .inl hf

theorem step_keeps_fault (hf : s.fault = some f) (h : step s = .next t) :
    t.fault = some f ∨ ∃ a more, s.inputs = a :: more ∧ a.Resets := by
  rcases step_cases h with ⟨a, more, hi, -, rfl⟩ | ⟨-, -, rfl⟩ | ⟨-, more, -, rfl⟩ | ⟨-, -, he⟩ | ⟨-, more, -, he⟩
  · exact (hostAction_keeps_fault (s := { s with inputs := more }) hf a).imp_right fun ha => ⟨a, more, hi, ha⟩
  · exact .inl hf
  · exact .inl hf
  · exact .inl (engineTurn_keeps_fault hf he)
  · exact .inl (engineTurn_keeps_fault (s := { s with inputs := more }) hf he)

end

/-- Settles O24: a body leaves the latch and the results alone and only the closing of the command writes them; of the
host's actions only the two resets clear a latched fault. -/
theorem faultEntry : Obligations.FaultEntry := by
  refine ⟨State.latchFault_of_none, fun i s t hf hd ho h => ?ends, fun s t f hf h => ?stays⟩
  case ends =>
    rcases exec_unfaulted hf ho h with ⟨r, u, -, hfault, rfl⟩ | ⟨f, u, hb, hfault, rfl⟩
    · exact ⟨rfl, .inl ⟨rfl, hfault⟩⟩
    · have hu := leaves_of_error hb
      exact ⟨rfl, .inr ⟨hu.latch_eq.2.1.trans hd, Option.some_ne_none f, hu.results_eq⟩⟩
  case stays =>
    rcases step_keeps_fault hf h with h | ⟨a, more, hi, ⟨v, rfl, hv⟩ | ⟨bits, rfl⟩⟩
    · exact .inl h
    · exact .inr (.inl ⟨v, more, hi, hv⟩)
    · exact .inr (.inr ⟨bits, more, hi⟩)

/-! ## A command sees only its units and its latched operands (`10_state.md` R39, `60_exceptions.md` R425) -/

/-- The units and the latched operands of `s`, with the rest of the block as in `h`. -/
def State.beside (s h : State) : State :=
  { h with
    latched := s.latched, source := s.source, slots := s.slots, trees := s.trees, channels := s.channels,
    nbMeta := s.nbMeta, transforms := s.transforms }

/-- `m` runs the same whatever the rest of the block holds, and leaves it as it is. -/
def UsesUnits {α : Type} (m : Eng State α) : Prop :=
  ∀ s h, m (s.beside h) = match m s with
    | .ok a t => .ok a (t.beside h)
    | .error e t => .error e (t.beside h)

namespace UsesUnits

variable {α β : Type}

theorem pure (a : α) : UsesUnits (Pure.pure a : Eng State α) := fun _ _ => rfl

theorem bind {m : Eng State α} {k : α → Eng State β} (hm : UsesUnits m) (hk : ∀ a, UsesUnits (k a)) :
    UsesUnits (m >>= k) := by
  intro s h
  rw [eng_bind, eng_bind, hm]
  cases m s with
  | ok a t => exact hk a t h
  | error e t => rfl

theorem ite {c : Prop} [Decidable c] {m m' : Eng State α} (h : UsesUnits m) (h' : UsesUnits m') :
    UsesUnits (if c then m else m') := by
  split
  · exact h
  · exact h'

/-- What is computed from the state read must come from the units and the latched operands. -/
theorem theState_bind {k : State → Eng State α} (hk : ∀ s h, k (s.beside h) = k s) (hm : ∀ s, UsesUnits (k s)) :
    UsesUnits (theState >>= k) := by
  intro s h
  rw [Machine.theState_bind, Machine.theState_bind, hk]
  exact hm s s h

theorem latchedArgs : UsesUnits Machine.latchedArgs := fun _ _ => rfl

theorem require {c : Prop} [Decidable c] (f : BlockFault) : UsesUnits (Machine.require c f) := by
  by_cases hc : c
  · exact fun s h => by simp [hc]
  · exact fun s h => by simp [hc]

theorem ofExcept {x : Except Stop α} : UsesUnits (Machine.ofExcept x) := by
  cases x <;> exact fun _ _ => rfl

theorem orRaise (o : Option α) (f : BlockFault) : UsesUnits (Machine.orRaise o f) := by
  cases o <;> exact fun _ _ => rfl

theorem orBroken (o : Option α) (f : Fault) : UsesUnits (Machine.orBroken o f) := by
  cases o <;> exact fun _ _ => rfl

theorem update {k : State → State} (hk : ∀ s h, k (s.beside h) = (k s).beside h) : UsesUnits (Machine.update k) :=
  fun s h => congrArg (EStateM.Result.ok ()) (hk s h)

theorem onPart {τ : Type} {get : State → τ} {put : τ → State → State} {m : Eng τ α}
    (hget : ∀ s h, get (s.beside h) = get s) (hput : ∀ t s h, put t (s.beside h) = (put t s).beside h) :
    UsesUnits (Machine.onPart get put m) := by
  intro s h
  rw [onPart_apply, onPart_apply, hget]
  cases m (get s) with
  | ok a t => exact congrArg (EStateM.Result.ok a) (hput t s h)
  | error e t => exact congrArg (EStateM.Result.error e) (hput t s h)

theorem onSource (m : Parse α) : UsesUnits (Machine.onSource m) := onPart (fun _ _ => rfl) fun _ _ _ => rfl

theorem forAll {k : α → Eng State β} (hk : ∀ a, UsesUnits (k a)) : ∀ l, UsesUnits (Machine.forAll k l)
  | [] => pure _
  | a :: l => bind (hk a) fun _ => bind (forAll hk l) fun _ => pure _

theorem slotOperand (a : Word) : UsesUnits (Machine.slotOperand a) :=
  theState_bind (fun _ _ => rfl) fun _ => orRaise _ _

theorem treeOperand (a : Word) : UsesUnits (Machine.treeOperand a) :=
  theState_bind (fun _ _ => rfl) fun _ => orRaise _ _

theorem channelOperand (a : Word) : UsesUnits (Machine.channelOperand a) :=
  theState_bind (fun _ _ => rfl) fun _ => orRaise _ _

/-! ### Decoding a channel and undoing transforms -/

theorem decodeChannel (a : Args) (ch : Channel) (nodes : List Node) (st : Stream) :
    UsesUnits (Machine.decodeChannel a ch nodes st) :=
  theState_bind (fun _ _ => rfl) fun _ => bind (orBroken _ _) fun _ => bind (require _) fun _ =>
    bind (require _) fun _ => bind (onPart (fun _ _ => rfl) fun _ _ _ => rfl) fun _ => update fun _ _ => rfl

theorem inverseRct (m rctType : Nat) : UsesUnits (Machine.inverseRct m rctType) :=
  theState_bind (fun _ _ => rfl) fun _ => bind (orRaise _ _) fun _ => bind (orRaise _ _) fun _ =>
    bind (orRaise _ _) fun _ => bind (require _) fun _ =>
      bind (onPart (fun _ _ => rfl) fun _ _ _ => rfl) fun _ => update fun _ _ => rfl

theorem unsqueeze (horizontal : Bool) (A R : Channel) : UsesUnits (if horizontal then invH A R else invV A R) :=
  ite (bind (require _) fun _ => bind ofExcept fun _ => bind (require _) fun _ => pure _)
    (bind (require _) fun _ => bind ofExcept fun _ => bind (require _) fun _ => pure _)

theorem inverseSqueezeLoop (horizontal : Bool) : ∀ left c r, UsesUnits (Machine.inverseSqueezeLoop horizontal left c r)
  | 0, _, _ => pure _
  | left + 1, c, r =>
    theState_bind (fun _ _ => rfl) fun _ => bind (orRaise _ _) fun _ => bind (orRaise _ _) fun _ =>
      bind (unsqueeze horizontal _ _) fun _ => bind (update fun _ _ => rfl) fun _ =>
        inverseSqueezeLoop horizontal left (c + 1) (r + 1)

theorem paletteOutput (j : PaletteJob) (k : Nat) : UsesUnits (Machine.paletteOutput j k) := by
  intro s h
  unfold Machine.paletteOutput
  cases palettePixels j k j.index.area 0 { samples := [], wp := {} } <;> rfl

theorem inversePalette (b n nbColours nbDeltas : Nat) (q : Predictor) :
    UsesUnits (Machine.inversePalette b n nbColours nbDeltas q) :=
  theState_bind (fun _ _ => rfl) fun _ => bind (require _) fun _ => bind (orRaise _ _) fun _ =>
    bind (orRaise _ _) fun _ => bind (require _) fun _ => bind (require _) fun _ =>
      bind (forAll (paletteOutput _) _) fun _ => update fun _ _ => rfl

theorem undoTransform (x : Transform) : UsesUnits (Machine.undoTransform x) := by
  cases x with
  | rct m rctType => exact inverseRct m rctType
  | palette b n nbColours nbDeltas q => exact inversePalette b n nbColours nbDeltas q
  | squeeze b n horizontal inPlace rPos =>
    exact bind (inverseSqueezeLoop horizontal n b rPos) fun _ => update fun _ _ => rfl

theorem undoTransforms : ∀ l, UsesUnits (Machine.undoTransforms l)
  | [] => pure _
  | x :: more => bind (update fun _ _ => rfl) fun _ => bind (undoTransform x.transform) fun _ =>
      bind (update fun _ _ => rfl) fun _ => undoTransforms more

theorem allOrExhausted {m : Eng State Unit} (hm : UsesUnits m) : UsesUnits (Machine.allOrExhausted m) := by
  intro s h
  rw [allOrExhausted_apply, allOrExhausted_apply, hm]
  rcases m s with _ | ⟨f | f, _⟩
  · rfl
  · cases f <;> rfl
  · rfl

/-! ### Every command, operation by operation -/

theorem commandBody (i : Instr) : UsesUnits (Machine.commandBody i) := by
  cases i with
  | nop | unpackSigned => exact fun _ _ => rfl
  | chlClear => exact bind (update fun _ _ => rfl) fun _ => pure _
  | hybExpand | hybConfigRead =>
    exact bind latchedArgs fun _ => bind (require _) fun _ => bind (onSource _) fun _ => pure _
  | esInit =>
    exact bind latchedArgs fun _ => bind (require _) fun _ => bind (require _) fun _ => bind (onSource _) fun _ =>
      bind (update fun _ _ => rfl) fun _ => pure _
  | esRead =>
    exact bind latchedArgs fun _ => bind (slotOperand _) fun _ => bind (require _) fun _ =>
      bind (onPart (fun _ _ => rfl) fun _ _ _ => rfl) fun _ => pure _
  | esValidate =>
    exact bind latchedArgs fun _ => bind (slotOperand _) fun _ =>
      bind (ite (pure _) (ite (require _) (require _))) fun _ => pure _
  | esClone =>
    exact bind latchedArgs fun _ => bind (require _) fun _ => bind (slotOperand _) fun _ =>
      bind (update fun _ _ => rfl) fun _ => pure _
  | esFree => exact bind latchedArgs fun _ => bind (require _) fun _ => bind (update fun _ _ => rfl) fun _ => pure _
  | treeLoad =>
    exact bind latchedArgs fun _ => bind (require _) fun _ => bind (require _) fun _ => bind (onSource _) fun _ =>
      bind (onSource _) fun _ => bind (update fun _ _ => rfl) fun _ => pure _
  | treeCompact =>
    exact bind latchedArgs fun _ => bind (treeOperand _) fun _ => bind (require _) fun _ =>
      bind (orBroken _ _) fun _ => pure _
  | treeWalk =>
    exact bind latchedArgs fun _ => bind (treeOperand _) fun _ => bind (channelOperand _) fun _ =>
      bind (require _) fun _ => theState_bind (fun _ _ => rfl) fun _ => bind ofExcept fun _ => pure _
  | chlAppend =>
    exact bind latchedArgs fun _ => bind (require _) fun _ => theState_bind (fun _ _ => rfl) fun _ =>
      bind (require _) fun _ => bind (require _) fun _ => bind (update fun _ _ => rfl) fun _ => pure _
  | chDecode =>
    exact bind latchedArgs fun _ => bind (channelOperand _) fun _ => bind (treeOperand _) fun _ =>
      bind (slotOperand _) fun _ => bind (require _) fun _ =>
        bind (ite (update fun _ _ => rfl) (decodeChannel _ _ _ _)) fun _ => pure _
  | chRead =>
    exact bind latchedArgs fun _ => bind (channelOperand _) fun _ => bind (require _) fun _ =>
      bind (orRaise _ _) fun _ => pure _
  | chWrite =>
    exact bind latchedArgs fun _ => bind (channelOperand _) fun _ => bind (require _) fun _ =>
      bind (update fun _ _ => rfl) fun _ => pure _
  | chInfo =>
    exact bind latchedArgs fun _ => bind (channelOperand _) fun _ => theState_bind (fun _ _ => rfl) fun _ => pure _
  | xfPushRct =>
    exact bind latchedArgs fun _ => theState_bind (fun _ _ => rfl) fun _ => bind (require _) fun _ =>
      bind (require _) fun _ => bind (require _) fun _ => bind (update fun _ _ => rfl) fun _ => pure _
  | xfPushPalette =>
    exact bind latchedArgs fun _ => theState_bind (fun _ _ => rfl) fun _ => bind (require _) fun _ =>
      bind (orRaise _ _) fun _ => bind (require _) fun _ => bind (require _) fun _ => bind (require _) fun _ =>
        bind (update fun _ _ => rfl) fun _ => pure _
  | xfPushSqueeze =>
    exact bind latchedArgs fun _ => theState_bind (fun _ _ => rfl) fun _ => bind (require _) fun _ =>
      bind (require _) fun _ => bind (require _) fun _ => bind (require _) fun _ => bind (require _) fun _ =>
        bind (update fun _ _ => rfl) fun _ => pure _
  | xfApply =>
    exact theState_bind (fun _ _ => rfl) fun _ => bind (allOrExhausted (undoTransforms _)) fun _ => pure _

end UsesUnits

/-! ## A `CMD` write while `BUSY` (`60_exceptions.md` R425) -/

section
variable {s t u : State} {i : Instr}

theorem writeCmd_of_busy (hf : s.fault = none) (hb : s.busy = true) (w : Word) :
    writeCmd s w = { s with overrun := true } := by
  unfold writeCmd
  rw [hf, hb]
  rfl

/-- A body that does not see the mark ends as it does without, and keeps the mark. -/
theorem commandBody_marked (i : Instr) (s : State) :
    commandBody i { s with overrun := true } = match commandBody i { s with overrun := false } with
      | .ok r u => .ok r { u with overrun := true }
      | .error e u => .error e { u with overrun := true } := by
  have hbeside : ∀ {done u}, Leaves { s with overrun := false } i done u →
      u.beside { s with overrun := true } = { u with overrun := true } := fun hu => by rw [hu.hostSide]; rfl
  refine (UsesUnits.commandBody i { s with overrun := false } { s with overrun := true }).trans ?_
  cases hb : commandBody i { s with overrun := false } with
  | ok r u => exact congrArg (EStateM.Result.ok r) (hbeside (leaves_of_ok hb))
  | error e u => exact congrArg (EStateM.Result.error e) (hbeside (leaves_of_error hb))

theorem State.complete_marked (r : Results) (hf : s.fault = none) (hd : s.done = false) (ho : s.overrun = false) :
    ({ s with overrun := true } : State).complete r =
      { s.writeResults r with fault := some (.contractViolation .busy), busy := false, done := false } := by
  rw [State.complete_of_overrun _ r rfl]
  refine (State.latchFault_unmarked (s := s.writeResults r) _ hf ho).trans ?_
  simp [hd]

end

/-- Settles O6: the body does not see the mark, so it completes or faults as it would without; with the mark set, a
completion latches the violation and a fault is latched as usual. -/
theorem commandWhileBusy : Obligations.CommandWhileBusy := by
  refine ⟨fun s w hf hb => writeCmd_of_busy hf hb w, fun i s t hf hd h => ?_⟩
  have hmarked := commandBody_marked i s
  rcases exec_unfaulted (s := { s with overrun := false }) hf rfl h with
    ⟨r, u, hb, hfault, rfl⟩ | ⟨f, u, hb, hfault, rfl⟩ <;> rw [hb] at hmarked
  · obtain ⟨huf, hud, huo⟩ := (leaves_of_ok hb).latch_eq
    rw [if_pos hfault, exec_eq_runCommand, runCommand_ok hmarked,
      State.complete_marked r (huf.trans hf) (hud.trans hd) huo]
  · obtain ⟨huf, -, huo⟩ := (leaves_of_error hb).latch_eq
    rw [if_neg (by simp), exec_of_raise hmarked]
    exact congrArg Host.Outcome.next (State.latchFault_unmarked f (huf.trans hf) huo)

end Sys2Proof.Machine

/-! ## Faults that change nothing (`60_exceptions.md` R422, R423, `10_state.md` R62) -/

namespace Sys2Proof.Machine

section
variable {s t u : State} {i : Instr} {f : BlockFault}

/-- Only reading symbols and undoing transforms change a unit other than the Bit Source before a fault. -/
theorem Leaves.stopped_early (h : Leaves s i false u) (hi : i ∉ [.esRead, .chDecode, .xfApply]) :
    u = s.setSource u.source := by
  cases h with
  | unchanged | bitsRead => rfl
  | slotRead | pixelsStopped | undoingStopped => exact absurd hi (by decide)

/-- The undoing that exhausts the arena is taken back whole (log 16). -/
theorem xfApplyBody_exhausted (h : xfApplyBody s = .error (.raise .resourceExhausted) u) : u = s := by
  rw [xfApplyBody_eq] at h
  cases hu : undoTransforms s.transforms.reverse s with
  | ok a v => rw [hu] at h; cases h
  | error e v =>
    rw [hu] at h
    split at h
    · cases h
    · cases h; rfl
    · next hne heq => cases heq; cases h; exact (hne rfl).elim

theorem exhausted_unchanged (hi : i ∈ [.chlAppend, .xfPushRct, .xfPushPalette, .xfPushSqueeze, .xfApply])
    (h : commandBody i s = .error (.raise .resourceExhausted) u) : u = s := by
  by_cases hx : i = .xfApply
  · subst hx
    exact xfApplyBody_exhausted h
  · have hu := leaves_of_error h
    have hsource : u.source = s.source := hu.source_eq (by revert hi; cases i <;> decide)
    rw [hu.stopped_early (by revert hi hx; cases i <;> decide), hsource]
    rfl

/-! ### Operand words that are ill formed by themselves -/

/-- The faults of operand words that are ill formed by themselves. -/
def operandFaults : List BlockFault :=
  [.contractViolation .badArg, .contractViolation .badSlot, .invalidBitstream .badTransform]

/-- The computation has stopped on `s` as it is, with an operand fault, unless the operand words are well formed. -/
def OperandsChecked (s : State) (i : Instr) (x : EStateM.Result Stop State Results) : Prop :=
  (∃ f ∈ operandFaults, x = .error (.raise f) s) ∨ i.wf s.latched.args = true

theorem OperandsChecked.raised (hf : f ∈ operandFaults := by decide) : OperandsChecked s i (.error (.raise f) s) :=
  .inl ⟨f, hf, rfl⟩

theorem OperandsChecked.guard {c : Prop} [Decidable c] {x : EStateM.Result Stop State Results}
    (h : c → OperandsChecked s i x) (hf : f ∈ operandFaults := by decide) :
    OperandsChecked s i (if c then x else .error (.raise f) s) := by
  split
  · exact h ‹c›
  · exact .raised hf

theorem isSlot_of_stream? {a : Word} {st : Stream} (h : s.stream? a = some st) : isSlot a = true := by
  by_contra hn
  have hge : 8 ≤ a.toNat := by simpa [isSlot, Config.numSlots] using hn
  rw [stream?_of_no_slot hge] at h
  cases h

theorem isTree_of_tree? {a : Word} {nodes : List Node} (h : s.tree? a = some nodes) : isTree a = true := by
  by_contra hn
  have hge : Config.numTrees ≤ a.toNat := by simpa only [isTree, decide_eq_true_eq, not_lt] using hn
  rw [State.tree?, Vector.getElem?_eq_none hge] at h
  cases h

/-- Past its operand checks, a command's operand words are well formed. -/
theorem commandBody_operandsChecked (i : Instr) (s : State) : OperandsChecked s i (commandBody i s) := by
  cases i with
  | nop | unpackSigned | chlClear | chRead | chWrite | chInfo | xfApply => exact .inr rfl
  | hybExpand =>
    rw [commandBody, hybExpandBody_eq]
    exact .guard fun hc => .inr hc
  | hybConfigRead =>
    rw [commandBody, hybConfigReadBody_eq]
    exact .guard fun hc => .inr hc
  | esInit =>
    rw [commandBody, esInitBody_eq]
    exact .guard fun hslot => .guard fun hargs => .inr (by simp [Instr.wf, hslot, hargs])
  | esRead =>
    rw [commandBody, esReadBody_eq]
    cases hst : s.stream? s.latched.args.arg0 with
    | none => exact .raised
    | some st => exact .inr (isSlot_of_stream? hst)
  | esValidate =>
    rw [commandBody, esValidateBody_eq]
    cases hst : s.stream? s.latched.args.arg0 with
    | none => exact .raised
    | some st => exact .inr (isSlot_of_stream? hst)
  | esClone =>
    rw [commandBody, esCloneBody_eq]
    refine .guard fun hslot => ?_
    cases hst : s.stream? s.latched.args.arg0 with
    | none => exact .raised
    | some st => exact .inr (by simp [Instr.wf, hslot, isSlot_of_stream? hst])
  | esFree =>
    rw [commandBody, esFreeBody_eq]
    exact .guard fun hc => .inr hc
  | treeLoad =>
    rw [commandBody, treeLoadBody_eq]
    exact .guard fun htree => .guard fun hslot => .inr (by simp [Instr.wf, htree, hslot])
  | treeCompact =>
    rw [commandBody, treeCompactBody_eq]
    cases htree : s.tree? s.latched.args.arg0 with
    | none => exact .raised
    | some nodes => exact .guard fun hzero => .inr (by simp [Instr.wf, isTree_of_tree? htree, hzero])
  | treeWalk =>
    rw [commandBody, treeWalkBody_eq]
    cases htree : s.tree? s.latched.args.arg0 with
    | none => exact .raised
    | some nodes => exact .inr (isTree_of_tree? htree)
  | chlAppend =>
    rw [commandBody, chlAppendBody_eq]
    exact .guard fun hsides => .inr (by simp [Instr.wf, hsides])
  | chDecode =>
    rw [commandBody, chDecodeBody_eq]
    cases s.channels[s.latched.args.arg0.toNat]? with
    | none => exact .raised
    | some ch =>
    cases htree : s.tree? s.latched.args.arg1 with
    | none => exact .raised
    | some nodes =>
    cases hst : s.stream? s.latched.args.arg2 with
    | none => exact .raised
    | some st => exact .inr (by simp [Instr.wf, isTree_of_tree? htree, isSlot_of_stream? hst])
  | xfPushRct =>
    rw [commandBody, xfPushRctBody_eq]
    exact .guard fun htype => .inr (by simp [Instr.wf, htype])
  | xfPushPalette =>
    rw [commandBody, xfPushPaletteBody_eq]
    refine .guard fun hrange => ?_
    cases hq : predictorOfId? s.latched.args.arg4.toNat with
    | none => exact .raised
    | some q =>
      have hid : s.latched.args.arg4.toNat ≤ 13 := by
        by_contra hgt
        rw [predictorOfId?_above (by omega)] at hq
        cases hq
      exact .inr (by simpa [Instr.wf, hid] using fun h0 => hrange.1 (by simp [h0]))
  | xfPushSqueeze =>
    rw [commandBody, xfPushSqueezeBody_eq]
    exact .guard fun hzero => .guard fun hrange =>
      .inr (by simpa [Instr.wf, hzero] using fun h0 => hrange.1 (by simp [h0]))

end

/-- Settles O25: before the fault such a command has at most consumed bits; an `XF_APPLY` that exhausts the arena is
taken back; and each check of the operand words leaves the state as it is. -/
theorem faultsThatChangeNothing : Obligations.FaultsThatChangeNothing := by
  refine ⟨fun i s t f hf ho h ht => ?raised, fun i s h => ?illFormed⟩
  case raised =>
    rcases exec_unfaulted hf ho h with ⟨r, u, -, hnone, -⟩ | ⟨g, u, hb, hg, rfl⟩
    · rw [hnone] at ht; cases ht
    · cases hg.symm.trans ht
      refine ⟨fun hi => ?_, fun hi hex => ?_⟩
      · have hu := (leaves_of_error hb).stopped_early (by revert hi; cases i <;> decide)
        rw [hu]
        rfl
      · subst hex
        rw [exhausted_unchanged hi hb]
  case illFormed =>
    rcases commandBody_operandsChecked i s with ⟨f, hf, hb⟩ | hwf
    · exact ⟨f, exec_of_raise hb, hf⟩
    · rw [h] at hwf; cases hwf

end Sys2Proof.Machine

/-! ## `CMD` writes of an idle and of a faulted block (`60_exceptions.md` R424, R433) -/

namespace Sys2Proof.Machine

section
variable {s : State} {w : Word}

/-- A word outside the table is no command (`30_encoding.md` R101, R102). -/
theorem decode_illegal (h : w >>> 8 ≠ 0#32 ∨
    w.toNat % 256 ∉ [0x00, 0x01, 0x02, 0x03, 0x10, 0x11, 0x12, 0x13, 0x14, 0x20, 0x21, 0x22, 0x30, 0x31, 0x32, 0x33,
      0x34, 0x35, 0x40, 0x41, 0x42, 0x43]) : ∃ e, decode w = .error e := by
  cases hd : decode w with
  | error e => exact ⟨e, rfl⟩
  | ok i =>
    rw [eq_encode_of_decode_ok hd] at h
    refine absurd h ?_
    cases i <;> decide

theorem writeCmd_illegal (hf : s.fault = none) (hb : s.busy = false) (hw : ∃ e, decode w = .error e) :
    writeCmd s w = s.latchFault (.illegalCommand (opField w)) := by
  rcases writeCmd_cases s w with ⟨h, -⟩ | ⟨-, h, -⟩ | ⟨-, -, ⟨i, h⟩, -⟩ | ⟨-, -, -, h⟩
  · exact absurd hf h
  · rw [hb] at h; cases h
  · obtain ⟨e, he⟩ := hw
    rw [he] at h; cases h
  · exact h

/-- What the host reads of a latched fault (`10_state.md` R34, R31). -/
theorem readReg_of_faulted {f : BlockFault} (hf : s.fault = some f) :
    (s.readReg 0x02).extractLsb' 8 8 = f.cause ∧ s.readReg 0x04 = f.info.setWidth 32 :=
  ⟨(status_cause s).trans (causeField_of_some s hf), faultInfo_of_some s hf⟩

theorem statusWord_idle (hf : s.fault = none) (hd : s.done = false) (hb : s.busy = false) : s.statusWord = 0#32 := by
  simp only [State.statusWord, causeField_of_none s hf, hf, hd, hb]
  rfl

/-- An op stands in `FAULT_INFO` under eight zero bits (R421). -/
theorem illegalCommand_info_toNat (op : BitVec 8) : (BlockFault.illegalCommand op).info.toNat = op.toNat :=
  (BitVec.toNat_append 0#8 op).trans (by simp)

theorem illegalCommand_info (w : Word) :
    (BlockFault.illegalCommand (opField w)).info.setWidth 32 = w &&& 0x000000FF#32 := by
  apply BitVec.eq_of_toNat_eq
  rw [BitVec.toNat_setWidth_of_le (by decide), illegalCommand_info_toNat, opField, BitVec.extractLsb'_toNat,
    BitVec.toNat_and]
  exact (Nat.and_two_pow_sub_one_eq_mod w.toNat 8).symm

end

/-- Settles O4: such a word does not decode, so the write latches it, and the two words the host reads show the latch. -/
theorem illegalCommandWord : Obligations.IllegalCommandWord := by
  intro s w hf hb ho hw
  have hlatch : s.writeReg 0x01 w = { s with fault := some (.illegalCommand (opField w)) } :=
    (writeCmd_illegal hf hb (decode_illegal hw)).trans (by simp [State.latchFault_unmarked _ hf ho, hb])
  rw [hlatch]
  obtain ⟨hcause, hinfo⟩ :=
    readReg_of_faulted (s := { s with fault := some (.illegalCommand (opField w)) }) rfl
  exact ⟨rfl, hcause, hinfo.trans (illegalCommand_info w)⟩

/-- Settles O5: `CMD` is ignored, the registers that store do not touch the latch, and `CTRL` acts as always. -/
theorem faultedBlockIgnoresCommands : Obligations.FaultedBlockIgnoresCommands := by
  refine fun s f hf => ⟨writeCmd_of_faulted hf, fun index v hw => ⟨readReg_writeReg_same v hw s, ?_⟩, writeCtrl_low s,
    fun v hv => ?_⟩
  · rw [writeReg_of_writable hw]
    exact hf
  · rw [writeReg_softReset hv]
    exact ⟨rfl, statusWord_idle rfl rfl rfl⟩

/-- Settles O9, code by code as the table lists them. -/
theorem faultCodes : Obligations.FaultCodes :=
  ⟨fun _ => rfl, rfl, fun _ => rfl, fun _ => rfl, rfl, rfl, rfl, rfl, rfl, rfl, rfl, rfl, rfl, rfl, rfl, rfl, rfl,
    rfl, rfl, rfl, rfl, rfl, rfl, illegalCommand_info_toNat, rfl, rfl, rfl, rfl, rfl, rfl, rfl, rfl⟩

end Sys2Proof.Machine

/-! ## The host's actions step by step (`70_reset_and_hazards.md` R465, R480, log 1) -/

namespace Sys2Proof.Machine

section
variable {s : State} {more : List Input}

theorem step_hostAction {a : Input} (hi : s.inputs = a :: more) (ha : a ≠ .wait) :
    step s = .next (({ s with inputs := more } : State).hostAction a) := by
  unfold step
  rw [hi]
  cases a with
  | wait => exact absurd rfl ha
  | write index v => rfl
  | present bits => rfl
  | hardReset bits => rfl

theorem step_idle_wait (hb : s.busy = false) (hi : s.inputs = .wait :: more) :
    step s = .next { s with inputs := more } := by
  unfold step
  simp only [hi, hb]
  rfl

theorem step_idle_idleHost (hb : s.busy = false) (hi : s.inputs = []) : step s = .next s := by
  unfold step
  simp only [hi, hb]
  rfl

end

/-- Settles O14: a step takes any action but a wait, whatever the block does. -/
theorem stepTakesHostActions : Obligations.StepTakesHostActions :=
  ⟨fun _ _ _ _ hi => step_hostAction hi (by simp), fun _ _ _ hi => step_hostAction hi (by simp),
    fun _ _ => step_idle_wait, fun _ => step_idle_idleHost⟩

end Sys2Proof.Machine

/-! ## The state after reset (`70_reset_and_hazards.md` R460) -/

namespace Sys2Proof.Machine

theorem readReg_reset_args {k : Nat} (hk : k < 8) : State.reset.readReg (0x08 + k) = 0#32 := by
  rw [readReg_arg hk]
  interval_cases k <;> rfl

theorem readReg_reset_results {k : Nat} (hk : k < 3) : State.reset.readReg (0x10 + k) = 0#32 := by
  interval_cases k <;> rfl

theorem getElem?_reset_slots {i : Nat} (hi : i < 8) : State.reset.slots[i]? = some none := by
  simp [State.reset, hi]

theorem getElem?_reset_trees {i : Nat} (hi : i < 2) : State.reset.trees[i]? = some none := by
  simp [State.reset, hi]

/-- Settles O12: the reset state computes to the table's values, and the reset input is a host action like any other. -/
theorem resetValues : Obligations.ResetValues := by
  refine ⟨?registers, fun _ => getElem?_reset_slots, fun _ => getElem?_reset_trees, rfl, rfl, rfl, rfl,
    fun s bits more hi => ?resetInput⟩
  case registers =>
    exact ⟨rfl, rfl, rfl, rfl, rfl, rfl, fun _ => readReg_reset_args, fun _ => readReg_reset_results, rfl, rfl, rfl,
      rfl, rfl, rfl, rfl⟩
  case resetInput => exact step_hostAction hi (by simp)

/-- Settles O19: each invariant's own lemma about reset. -/
theorem resetMeetsInvariants : Obligations.ResetMeetsInvariants :=
  ⟨statusInv_of_idle rfl rfl, (reservedInv_iff _).2 ⟨reservedZero_default, reservedZero_default⟩, memoryInv_reset,
    listInv_reset, storesInv_reset⟩

end Sys2Proof.Machine

/-! ## Every command ends (`70_reset_and_hazards.md` R465, R475, log 13) -/

namespace Sys2Proof.Machine

section
variable {σ α : Type}

/-- A computation that ended in `x` has completed, or stopped with a fault of the block: it has not met a state that
the model cannot go on from. -/
def Ends : EStateM.Result Stop σ α → Prop
  | .ok _ _ => True
  | .error e _ => e.IsRaise

theorem Ends.completed (a : α) (t : σ) : Ends (.ok a t : EStateM.Result Stop σ α) := trivial

theorem Ends.raised (f : BlockFault) (t : σ) : Ends (.error (.raise f) t : EStateM.Result Stop σ α) := ⟨f, rfl⟩

/-- A check that fails is a fault of the block. -/
theorem Ends.guard {c : Prop} [Decidable c] {x : EStateM.Result Stop σ α} {f : BlockFault} {t : σ} (h : c → Ends x) :
    Ends (if c then x else .error (.raise f) t) := by
  split
  · exact h ‹c›
  · exact .raised f t

end

section
variable {s : State}

/-! ### Commands on the Bit Source alone -/

theorem unpackConfig_splitExponent_le (w : Word) : (unpackConfig w).splitExponent ≤ 32 := by
  have h : (w.extractLsb' 0 4).toNat < 2 ^ 4 := BitVec.isLt _
  show (w.extractLsb' 0 4).toNat ≤ 32
  omega

theorem hybExpandBody_ends (s : State) : Ends (hybExpandBody s) := by
  rw [hybExpandBody_eq]
  refine .guard fun _ => ?_
  cases h : hybridExpand s.latched.args.arg0.toNat (unpackConfig s.latched.args.arg1) s.source with
  | ok v b => exact .completed _ _
  | error e b => exact ((hybridExpand_runs (unpackConfig_splitExponent_le _) _).error h).2

theorem hybConfigReadBody_ends (s : State) : Ends (hybConfigReadBody s) := by
  rw [hybConfigReadBody_eq]
  refine .guard fun _ => ?_
  cases h : readHybridConfig s.latched.args.arg0.toNat s.source with
  | ok c b => exact .completed _ _
  | error e b => exact ((readHybridConfig_runs _).error h).2

/-! ### Slots -/

theorem esInitBody_ends (s : State) : Ends (esInitBody s) := by
  rw [esInitBody_eq]
  refine .guard fun _ => .guard fun hargs => ?_
  have hn : 0 < s.latched.args.arg1.toNat := by
    have := hargs.1
    bv_omega
  cases h : readEntropyStream s.latched.args.arg1.toNat (flagBit s.latched.args.arg2 0) s.source with
  | ok cfg b => exact .completed _ _
  | error e b => exact ((readEntropyStream_runs hn _).error h).2

/-- A legal slot has a cluster for every context that the command may read, and every cluster a distribution. -/
theorem esReadBody_ends (hs : StoresInv s) : Ends (esReadBody s) := by
  rw [esReadBody_eq]
  cases hst : s.stream? s.latched.args.arg0 with
  | none => exact .raised _ _
  | some st =>
    refine .guard fun hctx => ?_
    have hcontext : s.latched.args.arg1.toNat < st.config.numContexts := Nat.lt_of_lt_of_le hctx (Nat.sub_le _ _)
    have hruns := readSymbol_runs (hs.stream hst) hcontext s.latched.args.arg2.toNat
    cases h : readSymbol st.config s.latched.args.arg1.toNat s.latched.args.arg2.toNat
        { coder := st.coder, source := s.source } with
    | ok v r => exact .completed _ _
    | error e r => exact (hruns.error h).2

theorem esValidateBody_ends (s : State) : Ends (esValidateBody s) := by
  rw [esValidateBody_eq]
  cases s.stream? s.latched.args.arg0 with
  | none => exact .raised _ _
  | some st => exact .guard fun _ => .completed _ _

theorem esCloneBody_ends (s : State) : Ends (esCloneBody s) := by
  rw [esCloneBody_eq]
  refine .guard fun _ => ?_
  cases s.stream? s.latched.args.arg0 with
  | none => exact .raised _ _
  | some st => exact .completed _ _

theorem esFreeBody_ends (s : State) : Ends (esFreeBody s) := by
  rw [esFreeBody_eq]
  exact .guard fun _ => .completed _ _

/-! ### Trees -/

theorem StoresInv.tree (h : StoresInv s) {a : Word} {nodes : List Node} (hn : s.tree? a = some nodes) :
    TreeWf nodes := h.1 _ _ (Option.join_eq_some_iff.1 hn)

/-- A parsed tree has a leaf, so its data stream has a context to read. -/
theorem readTree_leaves_pos {b b' : BitSource} {t : List Node × Nat} (h : readTree b = .ok t b') : 0 < t.2 := by
  obtain ⟨-, hnodes, hcount, -⟩ := readTree_runs.ok h
  have := List.length_pos_iff.2 hnodes.1
  omega

theorem treeLoadBody_ends (s : State) : Ends (treeLoadBody s) := by
  rw [treeLoadBody_eq]
  refine .guard fun _ => .guard fun _ => ?_
  cases ht : readTree s.source with
  | error e b => exact (readTree_runs.error ht).2
  | ok t b =>
    dsimp only
    cases hd : readEntropyStream t.2 false b with
    | error e b' => exact ((readEntropyStream_runs (readTree_leaves_pos ht) false).error hd).2
    | ok cfg b' => exact .completed _ _

theorem treeCompactBody_ends (hs : StoresInv s) : Ends (treeCompactBody s) := by
  rw [treeCompactBody_eq]
  cases hn : s.tree? s.latched.args.arg0 with
  | none => exact .raised _ _
  | some nodes =>
    refine .guard fun _ => ?_
    obtain ⟨r, hr⟩ := compactify_exists (hs.tree hn) (compactFix s.latched.args)
    rw [hr]
    exact .completed _ _

theorem walkProperty_raises (s : State) (ch : Channel) (k : Nat) : Raises (walkProperty s ch k) :=
  property_raises (fun _ h => by cases h; exact Stop.isRaise_raise _) _ _ _

theorem treeWalkBody_ends (hs : StoresInv s) : Ends (treeWalkBody s) := by
  rw [treeWalkBody_eq]
  cases hn : s.tree? s.latched.args.arg0 with
  | none => exact .raised _ _
  | some nodes =>
  cases s.channels[s.latched.args.arg1.toNat]? with
  | none => exact .raised _ _
  | some ch =>
    refine .guard fun _ => ?_
    have hwf := hs.tree hn
    rcases walk_cases hwf (walkProperty s ch) nodes.length 0 (List.length_pos_iff.2 hwf.1) (by omega) with
      ⟨m, l, hw, -⟩ | ⟨k, e, hk, hw⟩
    · rw [hw]
      exact .completed _ _
    · rw [hw]
      exact walkProperty_raises s ch k e hk

/-! ### Channels -/

theorem chlAppendBody_ends (s : State) : Ends (chlAppendBody s) := by
  rw [chlAppendBody_eq]
  exact .guard fun _ => .guard fun _ => .guard fun _ => .completed _ _

theorem chReadBody_ends (s : State) : Ends (chReadBody s) := by
  rw [chReadBody_eq]
  cases s.channels[s.latched.args.arg0.toNat]? with
  | none => exact .raised _ _
  | some ch =>
    refine .guard fun _ => ?_
    cases ch.sample s.latched.args.arg1.toNat s.latched.args.arg2.toNat with
    | none => exact .raised _ _
    | some v => exact .completed _ _

theorem chWriteBody_ends (s : State) : Ends (chWriteBody s) := by
  rw [chWriteBody_eq]
  cases s.channels[s.latched.args.arg0.toNat]? with
  | none => exact .raised _ _
  | some ch => exact .guard fun _ => .completed _ _

theorem chInfoBody_ends (s : State) : Ends (chInfoBody s) := by
  rw [chInfoBody_eq]
  cases s.channels[s.latched.args.arg0.toNat]? with
  | none => exact .raised _ _
  | some ch => exact .completed _ _

/-- A legal tree compactifies, and once its contexts fit the slot every pixel reads a context of a legal stream. -/
theorem decodeChannel_ends (a : Args) (ch : Channel) {nodes : List Node} {st : Stream} (hnodes : TreeWf nodes)
    (hst : StreamWf st.config) (s : State) : Ends (decodeChannel a ch nodes st s) := by
  rw [decodeChannel_eq]
  obtain ⟨t, ht⟩ := compactify_exists hnodes
    { channel := a.arg0.toNat, stream := s.latched.streamId.toNat, row := none }
  rw [ht]
  refine .guard fun hctx => .guard fun _ => ?_
  have hjob : (decodeJob s a.arg0.toNat ch t st).Wf := ⟨hst, hctx⟩
  cases h : decodePixels (decodeJob s a.arg0.toNat ch t st) ch.area 0
      { reading := { coder := st.coder, source := s.source }, samples := ch.samples, wp := {} } with
  | ok _ p => exact .completed _ _
  | error e p => exact ((decodePixels_runs hjob ch.area ch.area 0 (by omega)).error h).2

theorem chDecodeBody_ends (hs : StoresInv s) : Ends (chDecodeBody s) := by
  rw [chDecodeBody_eq]
  cases s.channels[s.latched.args.arg0.toNat]? with
  | none => exact .raised _ _
  | some ch =>
  cases hn : s.tree? s.latched.args.arg1 with
  | none => exact .raised _ _
  | some nodes =>
  cases hst : s.stream? s.latched.args.arg2 with
  | none => exact .raised _ _
  | some st =>
  refine .guard fun _ => ?_
  have hends := decodeChannel_ends s.latched.args ch (hs.tree hn) (hs.stream hst) s
  by_cases harea : ch.area = 0
  · rw [if_pos harea]
    exact .completed _ _
  · rw [if_neg harea]
    cases h : decodeChannel s.latched.args ch nodes st s with
    | ok _ t => exact .completed _ _
    | error e t => rwa [h] at hends

/-! ### Transforms -/

theorem xfPushRctBody_ends (s : State) : Ends (xfPushRctBody s) := by
  rw [xfPushRctBody_eq]
  exact .guard fun _ => .guard fun _ => .guard fun _ => .completed _ _

theorem xfPushPaletteBody_ends (s : State) : Ends (xfPushPaletteBody s) := by
  rw [xfPushPaletteBody_eq]
  refine .guard fun _ => ?_
  cases predictorOfId? s.latched.args.arg4.toNat with
  | none => exact .raised _ _
  | some q => exact .guard fun _ => .guard fun _ => .guard fun _ => .completed _ _

theorem xfPushSqueezeBody_ends (s : State) : Ends (xfPushSqueezeBody s) := by
  rw [xfPushSqueezeBody_eq]
  exact .guard fun _ => .guard fun _ => .guard fun _ => .guard fun _ => .guard fun _ => .completed _ _

theorem xfApplyBody_ends (s : State) : Ends (xfApplyBody s) := by
  rw [xfApplyBody_eq]
  cases h : undoTransforms s.transforms.reverse s with
  | ok _ u => exact .completed _ _
  | error e u =>
    obtain ⟨f, rfl⟩ := ((undoTransforms_runs _).error h).2
    cases f <;> exact .raised _ _

/-! ### Every command, and every step -/

theorem commandBody_ends (hs : StoresInv s) (i : Instr) : Ends (commandBody i s) := by
  cases i with
  | nop => exact .completed _ _
  | hybExpand => exact hybExpandBody_ends s
  | unpackSigned => exact .completed _ _
  | hybConfigRead => exact hybConfigReadBody_ends s
  | esInit => exact esInitBody_ends s
  | esRead => exact esReadBody_ends hs
  | esValidate => exact esValidateBody_ends s
  | esClone => exact esCloneBody_ends s
  | esFree => exact esFreeBody_ends s
  | treeLoad => exact treeLoadBody_ends s
  | treeCompact => exact treeCompactBody_ends hs
  | treeWalk => exact treeWalkBody_ends hs
  | chlClear => exact .completed _ _
  | chlAppend => exact chlAppendBody_ends s
  | chDecode => exact chDecodeBody_ends hs
  | chRead => exact chReadBody_ends s
  | chWrite => exact chWriteBody_ends s
  | chInfo => exact chInfoBody_ends s
  | xfPushRct => exact xfPushRctBody_ends s
  | xfPushPalette => exact xfPushPaletteBody_ends s
  | xfPushSqueeze => exact xfPushSqueezeBody_ends s
  | xfApply => exact xfApplyBody_ends s

/-- A command whose body ends has a next state: of the three answers of `runCommand`, only the model's own stop has
none. -/
theorem exec_ends (hs : StoresInv s) (i : Instr) : ∃ t, exec i s = .next t := by
  have hends := commandBody_ends hs i
  rcases exec_cases i s with ⟨r, u, -, he⟩ | ⟨f, u, -, he⟩ | ⟨f, u, hb, -⟩
  · exact ⟨_, he⟩
  · exact ⟨_, he⟩
  · rw [hb] at hends
    obtain ⟨f', hf'⟩ := hends
    cases hf'

theorem engineTurn_ends (hs : StoresInv s) : ∃ t, engineTurn s = .next t := by
  cases hd : decode s.cmd with
  | ok i => exact engineTurn_ok hd ▸ exec_ends hs i
  | error e => exact ⟨_, engineTurn_error hd⟩

theorem step_ends (hs : StoresInv s) : ∃ t, step s = .next t := by
  cases hi : s.inputs with
  | nil =>
    cases hb : s.busy with
    | false => exact ⟨_, step_idle_idleHost hb hi⟩
    | true => exact step_busy_idleHost hb hi ▸ engineTurn_ends hs
  | cons a more =>
    by_cases ha : a = .wait
    · subst ha
      cases hb : s.busy with
      | false => exact ⟨_, step_idle_wait hb hi⟩
      | true => exact step_busy_wait hb hi ▸ engineTurn_ends (s := { s with inputs := more }) hs
    · exact ⟨_, step_hostAction hi ha⟩

end

/-- Settles O20: the bodies of the commands that read a store or a slot end because what they find there is legal, all
others end on every state; a step runs at most one command. -/
theorem everyCommandEnds : Obligations.EveryCommandEnds := fun _ hs => ⟨exec_ends hs, step_ends hs⟩

end Sys2Proof.Machine
